-- ==== Sys2Proof/Word.lean ====
section
/-! DEFINITION. The hub's words, its four ports, its blocks, and the pairs by which tickets and frames are named (00_scope, Conventions; R1, R73). -/

namespace Sys2Proof

/-- A word is 32 bits (00_scope, Words). -/
abbrev Word := BitVec 32

/-- A slot number, 0–1023 (R1). -/
abbrev SlotNo := Fin 1024

/-- A slot generation, 0–63, advancing modulo 64 (R1, R3). -/
abbrev SlotGen := BitVec 6

/-- A frame index, 0–255 (R73). -/
abbrev FrameNo := Fin 256

/-- A frame generation, 0–15, advancing modulo 16 (R73). -/
abbrev FrameGen := BitVec 4

/-- A request tag of the processor's choosing, 0–15 (R162). -/
abbrev Tag := BitVec 4

/-- A link sequence number, 0–15, modulo 16 (R185). -/
abbrev Seq := BitVec 4

/-- The four ports P0 to P3 (00_scope, Ports). -/
inductive Port where
  | p0 | p1 | p2 | p3
deriving DecidableEq, Repr

/-- The port after `p`, counted modulo 4. -/
def Port.next : Port → Port
  | .p0 => .p1
  | .p1 => .p2
  | .p2 => .p3
  | .p3 => .p0

/-- The ports in ascending order. -/
def Port.all : List Port := [.p0, .p1, .p2, .p3]

/-- A port's number. -/
def Port.number : Port → Nat
  | .p0 => 0
  | .p1 => 1
  | .p2 => 2
  | .p3 => 3

/-- The port whose number is `n` modulo 4. -/
def Port.ofNumber (n : Nat) : Port :=
  match n % 4 with
  | 0 => .p0
  | 1 => .p1
  | 2 => .p2
  | _ => .p3

/-- One value for each port. -/
structure PerPort (α : Type) where
  p0 : α
  p1 : α
  p2 : α
  p3 : α
deriving DecidableEq, Repr

/-- The same value for every port. -/
def PerPort.same {α : Type} (x : α) : PerPort α := ⟨x, x, x, x⟩

/-- The value a function gives each port. -/
def PerPort.tab {α : Type} (f : Port → α) : PerPort α := ⟨f .p0, f .p1, f .p2, f .p3⟩

/-- The value of port `p`. -/
def PerPort.get {α : Type} (v : PerPort α) : Port → α
  | .p0 => v.p0
  | .p1 => v.p1
  | .p2 => v.p2
  | .p3 => v.p3

/-- The table with port `p`'s value replaced. -/
def PerPort.set {α : Type} (v : PerPort α) (p : Port) (x : α) : PerPort α :=
  match p with
  | .p0 => { v with p0 := x }
  | .p1 => { v with p1 := x }
  | .p2 => { v with p2 := x }
  | .p3 => { v with p3 := x }

/-- The table with `f` applied to port `p`'s value. -/
def PerPort.upd {α : Type} (v : PerPort α) (p : Port) (f : α → α) : PerPort α :=
  v.set p (f (v.get p))

/-- The blocks other than the Port Controllers that take requests and answer them (R125). -/
inductive Block where
  | rqc | ltu | frt | tks | hcu
deriving DecidableEq, Repr

/-- One value for each block. -/
structure PerBlock (α : Type) where
  rqc : α
  ltu : α
  frt : α
  tks : α
  hcu : α
deriving DecidableEq, Repr

/-- The same value for every block. -/
def PerBlock.same {α : Type} (x : α) : PerBlock α := ⟨x, x, x, x, x⟩

/-- The value of block `b`. -/
def PerBlock.get {α : Type} (v : PerBlock α) : Block → α
  | .rqc => v.rqc
  | .ltu => v.ltu
  | .frt => v.frt
  | .tks => v.tks
  | .hcu => v.hcu

/-- The table with block `b`'s value replaced. -/
def PerBlock.set {α : Type} (v : PerBlock α) (b : Block) (x : α) : PerBlock α :=
  match b with
  | .rqc => { v with rqc := x }
  | .ltu => { v with ltu := x }
  | .frt => { v with frt := x }
  | .tks => { v with tks := x }
  | .hcu => { v with hcu := x }

/-- A ticket handle: slot number and slot generation (R1). -/
structure Handle where
  slot : SlotNo
  gen  : SlotGen
deriving DecidableEq, Repr

/-- A frame reference: frame index and frame generation (R73). -/
structure FrameRef where
  index : FrameNo
  gen   : FrameGen
deriving DecidableEq, Repr

end Sys2Proof
end

