-- ==== Sys2Proof/Syntax.lean ====
section
/-! DEFINITION. The commands: one constructor for each row of spec/opcode_table.json, in the table's order. A command is one event the hub takes. -/

namespace Sys2Proof

/-- What becomes of the answer a claim of a request produces (R170; log 29): `now`, the Port Controller takes it in the same step, after the answers of the block
it keeps its order with; `later`, it is on its way to it. -/
inductive Hand where
  | now
  | later
deriving DecidableEq, Repr

/-- How much of a request a step takes (log 2): `dispatch`, its dispatch alone; `claim`, the next one of the claims the manual lets other blocks' claims
come between (R40, R44, R77, R105, R150); `whole`, the dispatch and the claims to its end, or to where it must wait. -/
inductive Extent where
  | dispatch
  | claim (h : Hand)
  | whole
deriving DecidableEq, Repr

/-- A block's part of a QUERY HUB (HCU, TKS, RQC, FRT) or of a QUERY PORT (Port Controller `q`, of the port queried, RQC, TKS, HCU) (R159, R160). Each Port
Controller is a block of its own. -/
inductive QueryPart where
  | hcu
  | tks
  | rqc
  | frt
  | pc (q : Port)
deriving DecidableEq, Repr

/-- How much of a QUERY HUB or QUERY PORT a step takes (log 2): its dispatch alone, one block's part, or the dispatch and every part at one moment. -/
inductive Gathering where
  | dispatch
  | part (b : QueryPart)
  | whole
deriving DecidableEq, Repr

/-- What SEND_RESPONSE takes at port `p` (log 29): `claim`, the answer to the request of a tag that is on its way there, by the response claim of R170; `head`, the
head of the response queue, for the Link Engine (R171). -/
inductive Sending where
  | claim (p : Port) (tag : Tag)
  | head (p : Port)
deriving DecidableEq, Repr

/-- The two blocks that send PLACE (section 2.3). -/
inductive PlaceSender where
  | frt | ltu
deriving DecidableEq, Repr

/-- Who sends a RETIRE that travels as a message: the RQC (retire-at-take and an undone PUSH), the LTU, and the cancel walk (R18, R98; log 8). -/
inductive RetireSender where
  | rqc | ltu | walk
deriving DecidableEq, Repr

/-- The five event kinds (R140). -/
inductive EventKind where
  | workReady | released | leaseLost | peerChange | protocol
deriving DecidableEq, Repr

/-- One unit on a lane as the line coding delivers it (R175, R181): a 16-bit control symbol, a 32-bit data word, or a unit the
line decoder cannot decode. -/
inductive LaneUnit where
  | control (sym : BitVec 16)
  | data (w : Word)
  | undecodable
deriving DecidableEq, Repr

/-- Where a stored word stands in its slot (section 1.2, note 2): one of 6 payload words or one of 4 context words. -/
inductive WordPlace where
  | payload (i : Fin 6)
  | context (i : Fin 4)
deriving DecidableEq, Repr

/-- The commands of the hub. A request row names the port whose dispatched or head request it takes; the request's own fields are the
words of its packet (section 8.8). A row that takes a message or notice takes the oldest one in its channel. -/
inductive Instr where
  | push (p : Port) (e : Extent)
  | pop (p : Port) (e : Extent)
  | take
  | complete (p : Port) (e : Extent)
  | renew (p : Port) (e : Extent)
  | yield (p : Port) (e : Extent)
  | openFrame (p : Port) (e : Extent)
  | closeFrame (p : Port) (e : Extent)
  | cancelFrame (p : Port) (e : Extent)
  | queryHub (p : Port) (g : Gathering)
  | queryPort (p : Port) (g : Gathering)
  | queryFrame (p : Port) (e : Extent)
  | queryTicket (p : Port) (e : Extent)
  | fetchEvents (p : Port)
  | configureGlobal (p : Port) (e : Extent)
  | configurePort (p : Port)
  | attach (p : Port)
  | attachNoticeRqc (p : Port)
  | attachNoticeLtu (p : Port)
  | detach (p : Port)
  | holdCheck (p : Port)
  | portLeaveClaim (p : Port)
  | detachEnd (p : Port)
  | start (p : Port) (e : Extent)
  | quiesce (p : Port) (e : Extent)
  | nopEcho (p : Port)
  | requestArrival (p : Port)
  | sendResponse (x : Sending)
  | receivedCredit (p : Port)
  | place (src : PlaceSender)
  | requeue
  | retire (src : RetireSender)
  | childEnd
  | cancelWalkStep
  | cancelWalkEnd
  | stealableOn (p : Port)
  | stealEnableOn (p : Port)
  | leaseExpiry (slot : SlotNo)
  | parkTimeout (p : Port) (tag : Tag)
  | pendingEventRecord (p : Port) (kind : EventKind)
  | linkUpReport (p : Port)
  | portLoss (p : Port)
  | portLossClaimLtu (p : Port)
  | portLossEnd (p : Port)
  | frtPortLossNotice (p : Port)
  | linkDownFromLinked (p : Port)
  | completionCheck
  | quiesceCompletion
  | setupNotice
  | tick
  | rstNAssert
  | rstNDeassert (straps : PerPort Bool)
  | holdOffExpiry (p : Port)
  | trainReceived (p : Port) (unit : LaneUnit)
  | trainSent (p : Port)
  | transmitUnit (p : Port)
  | startReceived (p : Port) (seq : Seq)
  | dataWordReceived (p : Port) (w : Word)
  | endReceived (p : Port)
  | damagedUnitReceived (p : Port) (unit : LaneUnit)
  | ackReceived (p : Port) (seq : Seq)
  | nakReceived (p : Port) (seq : Seq)
  | creditReceived (p : Port) (n : BitVec 4)
  | idleReceived (p : Port)
  | trainReceivedInUp (p : Port)
  | replayTimerExpiry (p : Port)
  | silenceTimeout (p : Port)
  | storedWordDisturbance (slot : SlotNo) (place : WordPlace) (w : Word)
deriving DecidableEq, Repr

end Sys2Proof
end

