-- ==== Sys2Proof/Decode.lean ====
section
/-! DEFINITION. Commands spelled as words: no row of spec/opcode_table.json gives its command any bits, so no word spells one. -/

namespace Sys2Proof

/-- The command a word of `nbits` bits spells by the table's bits: the table gives none (log 21). -/
def decodeTableWord (_nbits _w : Nat) : Option Instr := none

end Sys2Proof
end

