-- ==== Sys2Proof/Config.lean ====
section
/-! DEFINITION. The capacities, limits, periods and defaults the manual fixes for the part. It has no free value: the spec leaves the result of no command undefined. -/

namespace Sys2Proof.Config

/-- The ticket store holds 1,024 slots (R6). -/
abbrev slots : Nat := 1024

/-- The parked-pop table holds 16 entries, at most 4 of one port (R66). -/
abbrev parkedCapacity : Nat := 16

/-- A port has at most 4 parked pops (R66). -/
abbrev parkedPerPort : Nat := 4

/-- The cancel walk queue holds 8 entries (R97). -/
abbrev walkCapacity : Nat := 8

/-- A port's input buffer holds 8 requests, and 8 request credits are granted at link-up (R165). -/
abbrev bufferCapacity : Nat := 8

/-- A port's response queue holds 16 responses (R167, R170). -/
abbrev responseCapacity : Nat := 16

/-- A link's replay buffer holds 8 packets (R185). -/
abbrev replayCapacity : Nat := 8

/-- The response credit saturates at 255 (R171). -/
abbrev responseCreditMax : Nat := 255

/-- The protocol error count saturates at 255 (R146). -/
abbrev errorMax : Nat := 255

/-- A frame's outcome counters saturate at 65535 (R83). -/
abbrev counterMax : Nat := 65535

/-- A packet holds 1 to 16 words, and 17 with its CRC word (R162, R182). -/
abbrev packetWordsMax : Nat := 17

/-- A replay called for at a replay count of 4 takes the link down (R188). -/
abbrev replayLimit : Nat := 4

/-- The training run and the training sent count end at 16 (R178). -/
abbrev trainLength : Nat := 16

/-- The operand of a CREDIT symbol is at most 15 (R175). -/
abbrev creditOperandMax : Nat := 15

/-- The hold-off is 6,400 REFCLK periods, 256 µs (R176). -/
abbrev holdOffPeriods : Nat := 6400

/-- The silence timeout is 1,600 REFCLK periods, 64 µs (R176). -/
abbrev silencePeriods : Nat := 1600

/-- The replay timeout is 800 REFCLK periods, 32 µs (R176). -/
abbrev replayPeriods : Nat := 800

/-- A tick is 200 REFCLK periods (R158). -/
abbrev tickPeriods : Nat := 200

/-- A park timeout of 4095 asks for no deadline (R52). -/
abbrev parkForever : Nat := 4095

/-- Defaults of the global parameters (section 7.3). -/
abbrev quotaDefault : Nat := 256
abbrev sqLimitDefault : Nat := 128
abbrev requeueLimitDefault : Nat := 2

/-- Defaults of the per-port parameters (section 7.3). -/
abbrev depthLimitDefault : Nat := 64
abbrev leaseTimeDefault : Nat := 12500

end Sys2Proof.Config
end

