-- ==== Sys2Proof/Machine/State.lean ====
section
/-! DEFINITION. The hub's whole state as plain data, block by block (00_scope, Blocks), with the messages in flight between blocks and the queue of commands; its power-on values; why a step can stop. -/

namespace Sys2Proof.Machine

/-! ## Ticket Store -/

/-- The states of a ticket that is not FREE (section 1.3). -/
inductive TicketState where
  | queued | running | waiting
deriving DecidableEq, Repr

/-- TASK or CONTINUATION (R4, R5). -/
inductive TicketKind where
  | task | continuation
deriving DecidableEq, Repr

/-- How a ticket ended, as its parent frame counts it (00_scope, Outcome). -/
inductive TicketOutcome where
  | ok | failed | cancelled
deriving DecidableEq, Repr

/-- A stored word with its parity bit (R21). -/
structure StoredWord where
  bits   : Word
  parity : Bool
deriving DecidableEq, Repr

/-- The outcome summary a release writes into a continuation (R5, R89). -/
structure Summary where
  ok        : Nat
  failed    : Nat
  cancelled : Nat
  flag      : Bool
deriving DecidableEq, Repr

/-- The record of a slot that is not FREE (section 1.2). -/
structure Ticket where
  state     : TicketState
  kind      : TicketKind
  allocator : Port
  parent    : Option FrameRef
  pin       : Option Port
  payload   : List StoredWord
  context   : List StoredWord
  contFrame : Option FrameRef
  summary   : Option Summary
  requeues  : Nat
deriving DecidableEq, Repr

/-- A slot: its generation, and its record when it is not FREE (R4). -/
structure Slot where
  gen    : SlotGen
  ticket : Option Ticket
deriving DecidableEq, Repr

/-- The Ticket Store: the slots, the free list from head to tail, the allocation counts (R7, R15). -/
structure Tks where
  slots : Vector Slot 1024
  free  : List SlotNo
  alloc : PerPort Nat
deriving DecidableEq, Repr

/-! ## Run Queue Controller -/

/-- Where a take found its ticket (R53); a stolen ticket's victim with it. -/
inductive Source where
  | own
  | shared
  | stolen (victim : Port)
deriving DecidableEq, Repr

/-- One run list: a port's stack, or the shared queue (R27). -/
inductive RunList where
  | stack (p : Port)
  | shared
deriving DecidableEq, Repr

/-- A parked pop (R66): port, tag, and the ticks still to run to its deadline, none when it has no deadline (log 6). -/
structure ParkedPop where
  port      : Port
  tag       : Tag
  ticksLeft : Option Nat
deriving DecidableEq, Repr

/-- The Run Queue Controller: stacks top first, the shared queue head first, the steal pointers, the parked-pop table oldest first, and
whether it treats each port as not ATTACHED since taking that port's leave, or since reset (R24, R25, R56, R66, R126). -/
structure Rqc where
  runStacks : PerPort (List SlotNo)
  shared    : List SlotNo
  stealPtr  : PerPort Port
  parked    : List ParkedPop
  left      : PerPort Bool
deriving DecidableEq, Repr

/-! ## Frame Table -/

/-- The four frame states (R74). -/
inductive FrameState where
  | free | opened | closed | cancelling
deriving DecidableEq, Repr

/-- A frame record (section 4.1). -/
structure Frame where
  gen          : FrameGen
  state        : FrameState
  pending      : Nat
  continuation : Option Handle
  opener       : Option Port
  pin          : Option Port
  ok           : Nat
  failed       : Nat
  cancelled    : Nat
  walkPending  : Bool
deriving DecidableEq, Repr

/-- A cancel walk entry (R97): `todo` is the lists still to be examined, in order. -/
structure Walk where
  frame   : FrameRef
  port    : Port
  tag     : Tag
  removed : Nat
  answer  : Bool
  todo    : List RunList
deriving DecidableEq, Repr

/-- The Frame Table: the frames, the frames-in-use count, the cancel walk queue from head to tail (R74, R97). -/
structure Frt where
  frames : Vector Frame 256
  inUse  : Nat
  walks  : List Walk
deriving DecidableEq, Repr

/-! ## Running Table and Lease Timer -/

/-- The departed mark of a port in the LTU (R126). -/
inductive Departed where
  | detaching | lost
deriving DecidableEq, Repr

/-- A running-table entry (R103). `ticksLeft` is the lease deadline as ticks still to run (R111; log 6), none when there is no deadline. -/
structure RunEntry where
  slot      : SlotNo
  holder    : Port
  ticksLeft : Option Nat
  source    : Source
  requeues  : Nat
deriving DecidableEq, Repr

/-- The Running Table, in ascending order of slot, with the held counts and the departed marks (R103, R104, R126). -/
structure Ltu where
  running  : List RunEntry
  held     : PerPort Nat
  departed : PerPort (Option Departed)
deriving DecidableEq, Repr

/-! ## Requests -/

/-- The 20 response statuses (section 8.6). -/
inductive Status where
  | ok | empty | timeout | full | storeFull | quota | framesFull | parkFull | busy | stale | badFrame | frameState
  | cancelled | notAttached | notRunning | quiescing | holding | denied | badRequest | poisoned
deriving DecidableEq, Repr

/-- The global parameters (section 7.3). -/
inductive GlobalParam where
  | quota (p : Port)
  | sqLimit
  | requeueLimit
deriving DecidableEq, Repr

/-- The per-port parameters (section 7.3). -/
inductive PortParam where
  | depthLimit | spill | stealable | stealEnable | leaseTime | eventMask
deriving DecidableEq, Repr

/-- The fields of a PUSH (R39). -/
structure PushReq where
  frame   : Option FrameRef
  target  : Option Port
  pin     : Bool
  payload : List Word
deriving DecidableEq, Repr

/-- The fields of an OPEN_FRAME (R76). -/
structure OpenReq where
  current : Option Handle
  pin     : Option Port
  context : List Word
  payload : List Word
deriving DecidableEq, Repr

/-- A request that has passed the checks of R168, as its owning block receives it. -/
inductive Req where
  | push (r : PushReq)
  | pop (timeout : Nat)
  | complete (h : Handle) (result : TicketOutcome)
  | renew (h : Handle)
  | yield (h : Handle)
  | openFrame (r : OpenReq)
  | closeFrame (f : FrameRef)
  | cancelFrame (f : FrameRef)
  | queryHub
  | queryPort (q : Port)
  | queryFrame (f : FrameRef)
  | queryTicket (slot : SlotNo)
  | fetchEvents
  | configureGlobal (items : List (GlobalParam × Nat))
  | configurePort (q : Port) (items : List (PortParam × Nat))
  | attach
  | detach
  | start
  | quiesce
  | nopEcho (body : List Word)
deriving DecidableEq, Repr

/-- The parts of a QUERY HUB read so far (R159, R160). -/
structure HubReport where
  hcu : Option Nat
  tks : Option Nat
  rqc : Option (Nat × Nat)
  frt : Option (Nat × Nat)
deriving DecidableEq, Repr

/-- What the Port Controller gives a QUERY PORT (R160). -/
structure PortSettings where
  state       : Nat
  depthLimit  : Nat
  spill       : Bool
  stealable   : Bool
  stealEnable : Bool
  leaseTime   : Nat
  errors      : Nat
deriving DecidableEq, Repr

/-- The parts of a QUERY PORT read so far (R159, R160). -/
structure PortReport where
  pc  : Option PortSettings
  rqc : Option (Nat × Nat)
  tks : Option Nat
  hcu : Option Nat
deriving DecidableEq, Repr

/-- A QUERY HUB or a QUERY PORT for `q` that the Port Controller gathers, with the parts read so far (R159). -/
inductive Gathered where
  | hub (r : HubReport)
  | port (q : Port) (r : PortReport)
deriving DecidableEq, Repr

/-- A gather under way (R159). -/
structure Gather where
  tag   : Tag
  parts : Gathered
deriving DecidableEq, Repr

/-- How far the claims of a dispatched request have come (R40 to R45, R52, R77, R105, R127, R130; log 2). -/
inductive Stage where
  /-- dispatched; the owning block has not taken it -/
  | given
  /-- its hub-state read is taken and passed -/
  | hubRead
  /-- its sender check is taken and passed -/
  | senderRead
  /-- a PUSH whose target check has passed -/
  | targetRead
  /-- a PUSH whose frame check has passed -/
  | frameRead
  /-- a PUSH whose room check has passed: it holds its lists (R42, R46) -/
  | roomRead (dest : RunList)
  /-- a PUSH that holds its lists and its new slot, not yet registered (R44, R46) -/
  | allocated (h : Handle) (dest : RunList)
  /-- a PUSH whose ticket is registered and not yet placed -/
  | registered (h : Handle) (dest : RunList)
  /-- an OPEN_FRAME whose current ticket has passed the holder test, and is held (R81) -/
  | currentRead
  /-- an OPEN_FRAME whose pin port has passed -/
  | pinRead
  /-- an ATTACH that waits for its notices (R127) -/
  | attaching
  /-- a DETACH that waits for its hold check (R130) -/
  | holdWait
  /-- a DETACH whose leave is under way (R131) -/
  | leaving
deriving DecidableEq, Repr

/-- A dispatched request, with its tag and how far it has come (R125). -/
structure Current where
  tag   : Tag
  req   : Req
  stage : Stage
deriving DecidableEq, Repr

/-! ## Port Controllers -/

/-- The four port states (R123). -/
inductive PortState where
  | disabled | down | linked | attached
deriving DecidableEq, Repr

/-- Where a port stands in leaving (R131, R134, R135, R138, R127). -/
inductive Leave where
  /-- not leaving -/
  | no
  /-- DETACH: the hold check has passed, the leave is under way (R131) -/
  | detach
  /-- port loss: the claims are out (R134) -/
  | loss
  /-- port loss: the notice to the FRT has been sent (R135) -/
  | lossNoticed
  /-- link down from LINKED: waiting for dispatched requests (R138) -/
  | linkDown
  /-- link down from LINKED: the notice to the FRT has been sent (R138) -/
  | linkDownNoticed
  /-- the link went down during an ATTACH: waiting for its notices (R127) -/
  | attachAborted
  /-- the link went down during an ATTACH: the port-loss claims are out (R127) -/
  | attachUndone
deriving DecidableEq, Repr

/-- A set of event kinds (R140). -/
structure EventSet where
  workReady  : Bool
  released   : Bool
  leaseLost  : Bool
  peerChange : Bool
  protocol   : Bool
deriving DecidableEq, Repr

/-- The empty set of event kinds. -/
def EventSet.none : EventSet := ⟨false, false, false, false, false⟩

/-- The per-port parameters (section 7.3). -/
structure Params where
  depthLimit  : Nat
  spill       : Bool
  stealable   : Bool
  stealEnable : Bool
  leaseTime   : Nat
  eventMask   : EventSet
deriving DecidableEq, Repr

/-- The defaults of the per-port parameters (R127, section 7.3). -/
def Params.default : Params :=
  ⟨Config.depthLimitDefault, true, true, true, Config.leaseTimeDefault, .none⟩

/-- An accepted request in the input buffer, as its packet gave it (R162, R165). -/
structure Packet where
  kind  : BitVec 6
  tag   : Tag
  flags : BitVec 8
  body  : List Word
deriving DecidableEq, Repr

/-- A response (R163, R170). `handle` is the ticket handle its body reports, if any (R1); `words` is the packet. -/
structure Response where
  tag    : Tag
  status : Status
  body   : List Word
  handle : Option Handle
deriving DecidableEq, Repr

/-- A Port Controller. -/
structure Pc where
  /-- the port state (R123) -/
  state       : PortState
  /-- where the port stands in leaving -/
  leave       : Leave
  /-- the tag table: the tags outstanding, without repeats (R166) -/
  outstanding : List Tag
  /-- the input buffer, head first (R165) -/
  buffer      : List Packet
  /-- the granted request credit (R165) -/
  granted     : Nat
  /-- the request dispatched and not yet taken by its block; an ATTACH or a DETACH until it is answered (R125, R167) -/
  current     : Option Current
  /-- the request of the port that each block has taken and not ended (R125; log 19); the TKS and the HCU end a request as they take it -/
  atBlock     : PerBlock (Option Current)
  /-- the QUERY HUBs and QUERY PORTs being gathered, oldest first (R159) -/
  gathers     : List Gather
  /-- the response reservations: dispatched, unanswered requests (R167) -/
  reserved    : Nat
  /-- the response queue, head first (R170) -/
  responses   : List Response
  /-- the response credit (R171) -/
  credit      : Nat
  /-- responses are discarded, from a link down until the port is next LINKED (R134, R138, R170) -/
  discarding  : Bool
  /-- the pending events set (R140) -/
  events      : EventSet
  /-- the per-port parameters (R156) -/
  params      : Params
  /-- the protocol error count (R146) -/
  errors      : Nat
  /-- the WAKE line, asserted or not (R145) -/
  wake        : Bool
deriving DecidableEq, Repr

/-! ## Link Engines -/

/-- The four link states (R176). -/
inductive LinkState where
  | disabled | holdOff | training | up
deriving DecidableEq, Repr

/-- An owed acknowledgement (R183). -/
inductive Ack where
  | ack (n : Seq)
  | nak (n : Seq)
deriving DecidableEq, Repr

/-- A packet of the replay buffer (R185). -/
structure ReplayEntry where
  seq   : Seq
  words : List Word
  sent  : Bool
deriving DecidableEq, Repr

/-- A packet open in the receiver (R181). -/
structure OpenPacket where
  seq     : Seq
  words   : List Word
  damaged : Bool
deriving DecidableEq, Repr

/-- The four reports of a Link Engine to its Port Controller (R176). -/
inductive Report where
  | linkUp
  | packet (words : List Word)
  | credit (n : Nat)
  | linkDown
deriving DecidableEq, Repr

/-- A Link Engine (section 9.1). `sendPtr` is the position in the replay buffer of the next entry to be sent, its length when the send
pointer is at the end. Timers count REFCLK periods; none is stopped. `lane` is what the hub last sent on the lane. -/
structure Link where
  state       : LinkState
  holdOffLeft : Nat
  trainRun    : Nat
  trainSent   : Nat
  settled     : Bool
  expected    : Seq
  owed        : Option Ack
  nakOut      : Bool
  nextSeq     : Seq
  replay      : List ReplayEntry
  sendPtr     : Nat
  replayCount : Nat
  replayTimer : Option Nat
  silence     : Option Nat
  credits     : Nat
  rx          : Option OpenPacket
  reports     : List Report
  lane        : List LaneUnit
deriving DecidableEq, Repr

/-! ## Hub Control -/

/-- The three hub states (R147). -/
inductive HubState where
  | setup | running | quiescing
deriving DecidableEq, Repr

/-- Hub Control (R147, R150, R151, R155, R158). `checks` counts the reports and count falls that call for a completion check and have not
been taken; `completionDue` says that a completion check has read idle and its quiesce completion has not been taken; `refPhase` is the
REFCLK periods since the last tick boundary. -/
structure Hcu where
  state         : HubState
  quota         : PerPort Nat
  sqLimit       : Nat
  requeueLimit  : Nat
  creation      : Nat
  tick          : BitVec 32
  refPhase      : Nat
  checks        : Nat
  completionDue : Bool
deriving DecidableEq, Repr

/-! ## Messages in flight -/

/-- The hand-over of a take, RQC to LTU (R62), with the tag of the POP it answers. -/
structure TakeMsg where
  slot   : SlotNo
  port   : Port
  tag    : Tag
  source : Source
deriving DecidableEq, Repr

/-- PLACE in BYPASS mode (R30, R31). -/
structure PlaceMsg where
  slot : SlotNo
  dest : RunList
deriving DecidableEq, Repr

/-- RETIRE (R17). -/
structure RetireMsg where
  slot      : SlotNo
  outcome   : TicketOutcome
  releasing : Option Port
deriving DecidableEq, Repr

/-- CHILD_END (R83). -/
structure ChildEndMsg where
  frame     : FrameRef
  outcome   : TicketOutcome
  releasing : Option Port
deriving DecidableEq, Repr

/-- What a Port Controller sends the RQC: the changes of R156, the ATTACH notice (R127), the port-leave claim, of a DETACH or of a loss (R131, R134). -/
inductive RqcNotice where
  | stealableOn
  | stealEnableOn
  | attach
  | leave (loss : Bool)
deriving DecidableEq, Repr

/-- What a Port Controller sends the LTU: the ATTACH notice, the hold check, the port-loss claim (R127, R130, R134). -/
inductive LtuNotice where
  | attach
  | holdCheck
  | loss
deriving DecidableEq, Repr

/-- A response that its block has produced and the Port Controller has not taken (R170; log 29). `order` is the block among whose answers it keeps its place:
none for the answer of a POP, which may pass any other (R65, note 2). -/
structure Answer where
  order : Option Block
  resp  : Response
deriving DecidableEq, Repr

/-- The messages in flight, each channel oldest first (log 3). -/
structure Wires where
  takes      : List TakeMsg
  placeFrt   : List PlaceMsg
  placeLtu   : List PlaceMsg
  requeues   : List SlotNo
  retireRqc  : List RetireMsg
  retireLtu  : List RetireMsg
  retireWalk : List RetireMsg
  childEnds  : List ChildEndMsg
  toRqc      : PerPort (List RqcNotice)
  toLtu      : PerPort (List LtuNotice)
  /-- the port-loss notice to the FRT (R135, R138) -/
  toFrt      : PerPort Bool
  /-- the events on their way to each port (R38, R141) -/
  events     : PerPort (List EventKind)
  /-- the responses on their way to each port, of all blocks together, oldest first (R170) -/
  answers    : PerPort (List Answer)
  /-- SETUP notices on their way to the RQC (R152) -/
  setup      : Nat
deriving DecidableEq, Repr

/-! ## The hub and the state -/

/-- The whole hub. -/
structure Chip where
  /-- RST_N is held low (R157, R194) -/
  rst    : Bool
  /-- the sampled straps PORTEN[3:0] (R157, R195) -/
  straps : PerPort Bool
  hcu    : Hcu
  tks    : Tks
  rqc    : Rqc
  frt    : Frt
  ltu    : Ltu
  pcs    : PerPort Pc
  links  : PerPort Link
  wires  : Wires
deriving DecidableEq, Repr

/-- The machine's state: the commands waiting, first in first out, and the hub. -/
structure State where
  pending : List Instr
  chip    : Chip
deriving DecidableEq, Repr

/-- Why the machine stops with a fault: the spec gives the hub no event that stops it, so there is no fault. -/
inductive Fault
deriving DecidableEq, Repr

/-- Why the model has no meaning for a command. -/
inductive Refusal where
  /-- raised by `exec` alone, for a command without a meaning; safe: the model stops where the hub goes on. No arm raises it now. -/
  | notModelled (mnemonic : String)
deriving DecidableEq, Repr

/-! ## Power-on values (R157, R123, R176) -/

/-- A FREE slot at generation 0 (R8). -/
def Slot.powerOn : Slot := ⟨0, none⟩

/-- The Ticket Store at power-on (R8). -/
def Tks.powerOn : Tks :=
  ⟨Vector.replicate 1024 Slot.powerOn, List.finRange 1024, .same 0⟩

/-- The Run Queue Controller at power-on (R26, R56, R66, R126). -/
def Rqc.powerOn : Rqc := ⟨.same [], [], .tab Port.next, [], .same true⟩

/-- A FREE frame at generation 0 (R74); its other fields have no meaning while it is FREE, and the model names 0 or absence for them (log 14). -/
def Frame.powerOn : Frame := ⟨0, .free, 0, none, none, none, 0, 0, 0, false⟩

/-- The Frame Table at power-on (R74, R97). -/
def Frt.powerOn : Frt := ⟨Vector.replicate 256 Frame.powerOn, 0, []⟩

/-- The Running Table and Lease Timer at power-on (R103, R104, R126). -/
def Ltu.powerOn : Ltu := ⟨[], .same 0, .same (some .lost)⟩

/-- A Port Controller at power-on (R123, R165, R171). `strap` is its sampled strap. -/
def Pc.powerOn (strap : Bool) : Pc where
  state       := if strap then .down else .disabled
  leave       := .no
  outstanding := []
  buffer      := []
  granted     := 0
  current     := none
  atBlock     := .same none
  gathers     := []
  reserved    := 0
  responses   := []
  credit      := 0
  discarding  := false
  events      := .none
  params      := .default
  errors      := 0
  wake        := false

/-- A Link Engine at power-on (R176). Items that R176 does not list take the values R179 gives them at UP, with the timers stopped (log 23). -/
def Link.powerOn (strap : Bool) : Link where
  state       := if strap then .holdOff else .disabled
  holdOffLeft := if strap then Config.holdOffPeriods else 0
  trainRun    := 0
  trainSent   := 0
  settled     := false
  expected    := 0
  owed        := none
  nakOut      := false
  nextSeq     := 0
  replay      := []
  sendPtr     := 0
  replayCount := 0
  replayTimer := none
  silence     := none
  credits     := 0
  rx          := none
  reports     := []
  lane        := []

/-- Hub Control at power-on (R157). -/
def Hcu.powerOn : Hcu where
  state         := .setup
  quota         := .same Config.quotaDefault
  sqLimit       := Config.sqLimitDefault
  requeueLimit  := Config.requeueLimitDefault
  creation      := 0
  tick          := 0
  refPhase      := 0
  checks        := 0
  completionDue := false

/-- No message in flight. -/
def Wires.none : Wires where
  takes      := []
  placeFrt   := []
  placeLtu   := []
  requeues   := []
  retireRqc  := []
  retireLtu  := []
  retireWalk := []
  childEnds  := []
  toRqc      := .same []
  toLtu      := .same []
  toFrt      := .same false
  events     := .same []
  answers    := .same []
  setup      := 0

/-- The hub as it begins after RST_N deasserts, with the straps as sampled (R157, R194). -/
def Chip.powerOn (straps : PerPort Bool) : Chip where
  rst    := false
  straps := straps
  hcu    := .powerOn
  tks    := .powerOn
  rqc    := .powerOn
  frt    := .powerOn
  ltu    := .powerOn
  pcs    := .tab fun p => .powerOn (straps.get p)
  links  := .tab fun p => .powerOn (straps.get p)
  wires  := .none

/-- The machine right after reset: the power-on values, no command waiting, and the four straps sampled high (DESIGN CHOICE, log 5: the
straps are inputs, and `rstNDeassert` samples any four). -/
def State.reset : State := ⟨[], .powerOn (.same true)⟩

end Sys2Proof.Machine
end

