-- ==== Sys2Proof/Machine/Flags.lean ====
section
/-! DEFINITION. Sets of event kinds, the parity of stored words, and the value of the WAKE line (R21, R140, R145). -/

namespace Sys2Proof.Machine

/-- The set with the kind added; each kind stands in it at most once (R140). -/
def EventSet.insert (s : EventSet) : EventKind → EventSet
  | .workReady => { s with workReady := true }
  | .released => { s with released := true }
  | .leaseLost => { s with leaseLost := true }
  | .peerChange => { s with peerChange := true }
  | .protocol => { s with protocol := true }

/-- Whether the set holds the kind. -/
def EventSet.has (s : EventSet) : EventKind → Bool
  | .workReady => s.workReady
  | .released => s.released
  | .leaseLost => s.leaseLost
  | .peerChange => s.peerChange
  | .protocol => s.protocol

/-- Whether two sets share a kind (R145). -/
def EventSet.meets (s t : EventSet) : Bool :=
  (s.workReady && t.workReady) || (s.released && t.released) || (s.leaseLost && t.leaseLost) ||
    (s.peerChange && t.peerChange) || (s.protocol && t.protocol)

/-- ATTACHED and not leaving (R141, R142, R145). -/
def Pc.active (x : Pc) : Bool := x.state == .attached && x.leave == .no

/-- WAKE re-evaluated: asserted while the port is ATTACHED and not leaving and its pending set shares a kind with its mask (R145). -/
def Pc.evalWake (x : Pc) : Pc := { x with wake := x.active && x.events.meets x.params.eventMask }

/-- R141: the kind is recorded when the port is ATTACHED and not leaving; when it is LINKED and not leaving PROTOCOL alone is; else it is discarded. -/
def Pc.record (x : Pc) (k : EventKind) : Pc :=
  if x.active || (x.state == .linked && x.leave == .no && k == .protocol) then
    { x with events := x.events.insert k }.evalWake
  else x

/-- A protocol error: the count rises by one, saturating, and PROTOCOL is raised and taken by the port's own Port Controller (R146; log 13). -/
def Pc.protocolError (x : Pc) : Pc :=
  { x with errors := min (x.errors + 1) Config.errorMax }.record .protocol

/-- The pin WAKE_N: driven low while the line is asserted, released while it is not and while reset is held (R194, R197). -/
def Chip.wakePinLow (c : Chip) (p : Port) : Bool := !c.rst && (c.pcs.get p).wake

/-- The number of ones of a word. -/
def ones (w : Word) : Nat := ((List.range 32).filter (w.getLsbD ·)).length

/-- The parity bit that gives word and bit together an even number of ones (R21). -/
def parityOf (w : Word) : Bool := ones w % 2 == 1

/-- A word as the TKS writes it at allocation (R21). -/
def storeWord (w : Word) : StoredWord := ⟨w, parityOf w⟩

/-- The parity check of one stored word (R22). -/
def StoredWord.good (s : StoredWord) : Bool := s.parity == parityOf s.bits

/-- The parity check of a ticket's words, payload then context (R22). -/
def Ticket.wordsGood (t : Ticket) : Bool := t.payload.all StoredWord.good && t.context.all StoredWord.good

end Sys2Proof.Machine
end

