-- ==== Sys2Proof/Machine/Lane.lean ====
section
/-! DEFINITION. The task link (chapter 9) inside one Link Engine: symbols and CRC (R175), training (R177 to R180), receiving (R181 to R183), sending and replay (R184 to R188), credits, silence and link down (R189 to R192). Every function here changes one Link Engine alone. -/

namespace Sys2Proof.Machine

/-! ## Symbols and CRC (R175) -/

/-- A unit as the Link Engine sorts it (R175, R181): the seven good symbols, a data word, or a damaged unit. -/
inductive RxUnit where
  | train
  | idle
  | start (n : Seq)
  | stop
  | ack (n : Seq)
  | nak (n : Seq)
  | credit (n : BitVec 4)
  | data (w : Word)
  | damaged
deriving DecidableEq, Repr

/-- The 16-bit symbol of a type and an operand: the check field is the ones' complement of bits 7:0. -/
def symbol (type operand : BitVec 4) : BitVec 16 :=
  let low : BitVec 8 := operand ++ type
  (~~~low) ++ low

/-- The symbol type codes. -/
def symTrain (_ : Unit) : BitVec 16 := symbol 1 0
def symIdle (_ : Unit) : BitVec 16 := symbol 2 0
def symStart (n : Seq) : BitVec 16 := symbol 3 n
def symEnd (_ : Unit) : BitVec 16 := symbol 4 0
def symAck (n : Seq) : BitVec 16 := symbol 5 n
def symNak (n : Seq) : BitVec 16 := symbol 6 n
def symCredit (n : BitVec 4) : BitVec 16 := symbol 7 n

/-- A received unit sorted (R181): damaged when the check field is wrong, the type is none of the seven, the operand is not 0 where R175
gives 0, or the line decoder cannot decode it. -/
def sortUnit : LaneUnit → RxUnit
  | .data w => .data w
  | .undecodable => .damaged
  | .control s =>
    let operand : BitVec 4 := s.extractLsb' 4 4
    if s.extractLsb' 8 8 ≠ ~~~(s.extractLsb' 0 8) then .damaged
    else
      match (s.extractLsb' 0 4).toNat with
      | 1 => if operand = 0 then .train else .damaged
      | 2 => if operand = 0 then .idle else .damaged
      | 3 => .start operand
      | 4 => if operand = 0 then .stop else .damaged
      | 5 => .ack operand
      | 6 => .nak operand
      | 7 => .credit operand
      | _ => .damaged

/-- One bit into the CRC: generator x^16 + x^12 + x^5 + 1. -/
def crcBit (c : BitVec 16) (b : Bool) : BitVec 16 :=
  if c.msb != b then (c <<< 1) ^^^ 0x1021 else c <<< 1

/-- One byte into the CRC, most significant bit first. -/
def crcByte (c : BitVec 16) (b : BitVec 8) : BitVec 16 :=
  [7, 6, 5, 4, 3, 2, 1, 0].foldl (fun c i => crcBit c (b.getLsbD i)) c

/-- One word into the CRC, least significant byte first. -/
def crcWord (c : BitVec 16) (w : Word) : BitVec 16 :=
  [0, 8, 16, 24].foldl (fun c lo => crcByte c (w.extractLsb' lo 8)) c

/-- The CRC word of a packet: over a byte with the sequence number, then each word; initial value 0xFFFF; bits 31:16 are 0. -/
def crcOf (n : Seq) (words : List Word) : Word :=
  (words.foldl crcWord (crcByte 0xFFFF (n.setWidth 8))).setWidth 32

/-- A packet as framed on the lane: START, its words, the CRC word, END. -/
def frameUnits (n : Seq) (words : List Word) : List LaneUnit :=
  .control (symStart n) :: (words.map .data ++ [.data (crcOf n words), .control (symEnd ())])

/-! ## Link up and link down -/

/-- R177: once the hold-off has run its full time, TRAINING begins with both counts at 0. -/
def Link.endHoldOff (l : Link) : Link :=
  match l.state with
  | .holdOff =>
    if l.holdOffLeft = 0 then { l with state := .training, trainRun := 0, trainSent := 0 } else l
  | _ => l

/-- R179: the values at UP, and the link-up report. -/
def Link.enterUp (l : Link) : Link :=
  { l with
    state := .up, expected := 0, nextSeq := 0, replay := [], sendPtr := 0, replayCount := 0, replayTimer := none
    owed := none, nakOut := false, settled := false, silence := some 0, credits := 0, rx := none
    reports := l.reports ++ [.linkUp] }

/-- R192: the link goes down. -/
def Link.goDown (l : Link) : Link :=
  { l with
    state := .holdOff, holdOffLeft := Config.holdOffPeriods, rx := none, owed := none, replay := [], sendPtr := 0
    replayTimer := none, silence := none, credits := 0, lane := [], reports := l.reports ++ [.linkDown] }

/-- R178: a TRAIN is sent; once the run is latched it is counted, and the sixteenth counted enters UP. -/
def Link.sendTrain (l : Link) : Link :=
  match l.state with
  | .training =>
    let l1 := { l with lane := [.control (symTrain ())] }
    if l.trainRun < Config.trainLength then l1
    else if l.trainSent + 1 < Config.trainLength then { l1 with trainSent := l.trainSent + 1 }
    else { l1 with trainSent := Config.trainLength }.enterUp
  | _ => l

/-- R178: a unit received in TRAINING. -/
def Link.trainUnit (l : Link) (u : RxUnit) : Link :=
  if l.trainRun < Config.trainLength then
    match u with
    | .train => { l with trainRun := l.trainRun + 1 }
    | _ => { l with trainRun := 0 }
  else l

/-! ## Acknowledgement and replay -/

/-- The position of the sent entry with sequence `n`, if there is one (R186). -/
def Link.sentAt (l : Link) (n : Seq) : Option Nat :=
  l.replay.findIdx? fun e => e.seq == n && e.sent

/-- The oldest `k` entries are acknowledged and removed (R186, R187): when one is removed the replay count is 0, and the replay timer starts
again while a sent entry remains, or stops. -/
def Link.acknowledge (l : Link) (k : Nat) : Link :=
  if k = 0 then l
  else
    let rest := l.replay.drop k
    { l with
      replay := rest, sendPtr := l.sendPtr - k, replayCount := 0
      replayTimer := if rest.any ReplayEntry.sent then some 0 else none }

/-- R188: a replay from the entry at position `i` is called for. -/
def Link.callReplay (l : Link) (i : Nat) : Link :=
  if l.replayCount < Config.replayLimit then
    { l with replayCount := l.replayCount + 1, replayTimer := some 0, sendPtr := i }
  else l.goDown

/-- R186: ACK(n). -/
def Link.takeAck (l : Link) (n : Seq) : Link :=
  match l.sentAt n with
  | some i => l.acknowledge (i + 1)
  | none => l

/-- R186: NAK(n). No replay is called for when the send pointer stands on entry n or on an older one. -/
def Link.takeNak (l : Link) (n : Seq) : Link :=
  match l.sentAt n with
  | some i =>
    let l1 := l.acknowledge i
    if l.sendPtr ≤ i then l1 else l1.callReplay 0
  | none => if n = l.nextSeq then l.acknowledge l.replay.length else l

/-- R187: an expiry of the replay timer calls for a replay from the oldest entry. None occurs while the timer is stopped or has not reached 32 µs, as when
an acknowledgement taken first has started it again. -/
def Link.expireReplay (l : Link) : Link :=
  match l.state, l.replayTimer with
  | .up, some t => if Config.replayPeriods ≤ t then l.callReplay 0 else l
  | _, _ => l

/-- R191: an expiry of the silence timer takes the link down. None occurs while the timer has not reached 64 µs, as when a unit taken first has started it
again. -/
def Link.expireSilence (l : Link) : Link :=
  match l.state, l.silence with
  | .up, some t => if Config.silencePeriods ≤ t then l.goDown else l
  | _, _ => l

/-! ## Receiving -/

/-- R182: NAK(E) is owed for a bad or out-of-sequence packet, unless a NAK is outstanding. -/
def Link.oweNak (l : Link) : Link :=
  if l.nakOut then l else { l with owed := some (.nak l.expected), nakOut := true }

/-- R182: a packet closed as damaged is a bad packet. -/
def Link.closeDamaged (l : Link) : Link := { l with rx := none }.oweNak

/-- R182: the three conditions of a good packet. -/
def OpenPacket.good (k : OpenPacket) : Bool :=
  !k.damaged && decide (2 ≤ k.words.length ∧ k.words.length ≤ Config.packetWordsMax) &&
    (k.words.getLast? == some (crcOf k.seq k.words.dropLast))

/-- R182, R183: the packet is closed by its END: accepted when good and in sequence, else discarded. -/
def Link.closePacket (l : Link) (k : OpenPacket) : Link :=
  let l1 := { l with rx := none }
  if k.good && k.seq == l.expected then
    { l1 with
      reports := l.reports ++ [.packet k.words.dropLast], owed := some (.ack l.expected)
      expected := l.expected + 1, nakOut := false }
  else l1.oweNak

/-- R181: a unit received in UP while no packet is open. A data word, an END or a damaged unit is a framing fault. -/
def Link.unitOutside (l : Link) (u : RxUnit) : Link :=
  match u with
  | .start n => { l with rx := some ⟨n, [], false⟩ }
  | .ack n => l.takeAck n
  | .nak n => l.takeNak n
  | .credit n => if n = 0 then l else { l with reports := l.reports ++ [.credit n.toNat] }
  | .idle => l
  | .train => l.goDown
  | .data _ => l.goDown
  | .stop => l.goDown
  | .damaged => l.goDown

/-- R181: a good unit other than an ignored TRAIN, received in UP while the packet `k` is open. -/
def Link.unitInside (l : Link) (k : OpenPacket) (u : RxUnit) : Link :=
  match u with
  | .data w =>
    if k.words.length < Config.packetWordsMax then { l with rx := some { k with words := k.words ++ [w] } }
    else l.closeDamaged.unitOutside u
  | .stop => l.closePacket k
  | .damaged => { l with rx := some { k with damaged := true } }
  | .start _ => l.closeDamaged.unitOutside u
  | .ack _ => l.closeDamaged.unitOutside u
  | .nak _ => l.closeDamaged.unitOutside u
  | .credit _ => l.closeDamaged.unitOutside u
  | .idle => l.closeDamaged.unitOutside u
  | .train => l.closeDamaged.unitOutside u

/-- R180, R191: what a unit received in UP does to settled and to the silence timer. A damaged unit does not count, and neither does a TRAIN
before the link is settled. -/
def Link.count (l : Link) (u : RxUnit) : Link :=
  match u with
  | .damaged => l
  | .train => if l.settled then { l with silence := some 0 } else l
  | _ => { l with silence := some 0, settled := true }

/-- A unit received in UP (R180, R181): a TRAIN before the link is settled is ignored. -/
def Link.unitInUp (l : Link) (u : RxUnit) : Link :=
  if u = .train ∧ l.settled = false then l
  else
    let l1 := l.count u
    match l.rx with
    | none => l1.unitOutside u
    | some k => l1.unitInside k u

/-- A unit arrives on the lane (R176): taken in TRAINING and UP, ignored in HOLD_OFF and DISABLED. -/
def Link.receive (l : Link) (u : RxUnit) : Link :=
  match l.state with
  | .disabled => l
  | .holdOff => l
  | .training => l.trainUnit u
  | .up => l.unitInUp u

/-! ## Sending -/

/-- The symbol of an acknowledgement. -/
def Ack.symbol : Ack → BitVec 16
  | .ack n => symAck n
  | .nak n => symNak n

/-- R185: the packet at the send pointer, entry `e`, is sent. -/
def Link.sendEntry (l : Link) (e : ReplayEntry) : Link :=
  { l with
    lane := frameUnits e.seq e.words
    replay := l.replay.set l.sendPtr { e with sent := true }
    sendPtr := l.sendPtr + 1
    replayTimer := match l.replayTimer with
      | some t => some t
      | none => some 0 }

/-- R184: at a unit boundary outside a packet in UP, the first that applies is sent: the owed acknowledgement, CREDIT, the packet at the send
pointer, IDLE. CREDIT carries the whole amount to advertise, 1 to 8 (R189). A processor that sends ahead of CREDIT(8) can bring the amount above 8, and above
the operand's 15; for that the manual gives no symbol, and the model's choice (log 30) is CREDIT(15), with the rest still to advertise. -/
def Link.transmit (l : Link) : Link :=
  match l.state with
  | .up =>
    match l.owed with
    | some a => { l with owed := none, lane := [.control a.symbol] }
    | none =>
      if 0 < l.credits then
        let n := min l.credits Config.creditOperandMax
        { l with credits := l.credits - n, lane := [.control (symCredit (BitVec.ofNat 4 n))] }
      else
        match l.replay[l.sendPtr]? with
        | some e => l.sendEntry e
        | none => { l with lane := [.control (symIdle ())] }
  | _ => l

/-- R185: a packet is handed over, appended at the newest end with the next sequence number. A send pointer at the end then names it. -/
def Link.enqueue (l : Link) (words : List Word) : Link :=
  { l with replay := l.replay ++ [⟨l.nextSeq, words, false⟩], nextSeq := l.nextSeq + 1 }

/-- Whether the Link Engine can take a packet (R185). -/
def Link.hasRoom (l : Link) : Bool := l.state == .up && decide (l.replay.length < Config.replayCapacity)

/-- Whether the Port Controller has taken every link-up and link-down report of this link, so that a response it hands over belongs to the link as
it now stands (log 12). -/
def Link.sameSession (l : Link) : Bool :=
  l.state == .up && !(l.reports.contains .linkUp) && !(l.reports.contains .linkDown)

/-- The Port Controller hands over `n` request credits (R189), whatever the link's state (log 12). -/
def Link.addCredits (l : Link) (n : Nat) : Link := { l with credits := l.credits + n }

/-- One REFCLK period: the running timers advance to their limits (R176, R187, R191; log 4). -/
def Link.period (l : Link) : Link :=
  { l with
    holdOffLeft := l.holdOffLeft - 1
    replayTimer := l.replayTimer.map fun t => min (t + 1) Config.replayPeriods
    silence := l.silence.map fun t => min (t + 1) Config.silencePeriods }

end Sys2Proof.Machine
end

