-- ==== Sys2Proof/Machine/Operands.lean ====
section
/-! DEFINITION. The bit layouts of requests and responses (chapter 8, section 8.8): the header checks of R164, the dispatch checks of R168 and R169, and every response body. -/

namespace Sys2Proof.Machine

/-! ## Fields of a word -/

/-- The `len` bits of a word from bit `lo` up (bit 0 least significant). -/
def field (w : Word) (lo len : Nat) : Nat := w.toNat / 2 ^ lo % 2 ^ len

/-- The word that holds each value at its bits `lo` up, cut to its `len` bits, and 0 elsewhere (R174). -/
def packWord : List (Nat × Nat × Nat) → Word
  | [] => 0
  | (v, lo, len) :: rest => (BitVec.ofNat 32 (v % 2 ^ len) <<< lo) ||| packWord rest

/-- One for true, zero for false. -/
def flag (b : Bool) : Nat := if b then 1 else 0

/-- The handle at bits 15:0 (section 8.8, common fields). -/
def handleOf (w : Word) : Handle := ⟨Fin.ofNat 1024 (field w 0 10), BitVec.ofNat 6 (field w 10 6)⟩

/-- The frame reference at bits `lo`+11 to `lo`. -/
def frameRefOf (w : Word) (lo : Nat) : FrameRef :=
  ⟨Fin.ofNat 256 (field w lo 8), BitVec.ofNat 4 (field w (lo + 8) 4)⟩

/-- A handle as 16 bits. -/
def handleCode (h : Handle) : Nat := h.slot.val + h.gen.toNat * 1024

/-- A frame reference as 12 bits. -/
def frameRefCode (f : FrameRef) : Nat := f.index.val + f.gen.toNat * 256

/-! ## Codes (section 8.6, 8.8) -/

def Status.code : Status → Nat
  | .ok => 0
  | .empty => 1
  | .timeout => 2
  | .full => 3
  | .storeFull => 4
  | .quota => 5
  | .framesFull => 6
  | .parkFull => 7
  | .busy => 8
  | .stale => 9
  | .badFrame => 10
  | .frameState => 11
  | .cancelled => 12
  | .notAttached => 13
  | .notRunning => 14
  | .quiescing => 15
  | .holding => 16
  | .denied => 17
  | .badRequest => 18
  | .poisoned => 19

def TicketKind.code : TicketKind → Nat
  | .task => 0
  | .continuation => 1

def Source.code : Source → Nat
  | .own => 0
  | .shared => 1
  | .stolen _ => 2

/-- The victim field of a take's source: 0 when not applicable (R174). -/
def Source.victimCode : Source → Nat
  | .stolen v => v.number
  | _ => 0

def HubState.code : HubState → Nat
  | .setup => 0
  | .running => 1
  | .quiescing => 2

def PortState.code : PortState → Nat
  | .disabled => 0
  | .down => 1
  | .linked => 2
  | .attached => 3

/-- The ticket state codes; FREE is 0. -/
def TicketState.code : TicketState → Nat
  | .queued => 1
  | .running => 2
  | .waiting => 3

def FrameState.code : FrameState → Nat
  | .free => 0
  | .opened => 1
  | .closed => 2
  | .cancelling => 3

/-- The 16 request kinds (section 8.6). -/
inductive Kind where
  | push | pop | complete | renew | yield | openFrame | closeFrame | cancelFrame | query | fetchEvents | configure
  | attach | detach | start | quiesce | nopEcho
deriving DecidableEq, Repr

/-- The request kind a 6-bit code names, if any (section 8.6). -/
def Kind.ofCode (k : BitVec 6) : Option Kind :=
  match k.toNat with
  | 0x01 => some .push
  | 0x02 => some .pop
  | 0x03 => some .complete
  | 0x04 => some .renew
  | 0x05 => some .yield
  | 0x08 => some .openFrame
  | 0x09 => some .closeFrame
  | 0x0A => some .cancelFrame
  | 0x10 => some .query
  | 0x11 => some .fetchEvents
  | 0x18 => some .configure
  | 0x19 => some .attach
  | 0x1A => some .detach
  | 0x1B => some .start
  | 0x1C => some .quiesce
  | 0x20 => some .nopEcho
  | _ => none

/-! ## Request packets -/

/-- R164 check 2: the header is undecodable when its body length is not the number of words that follow it, or a must-be-zero bit is 1. -/
def decodeHeader : List Word → Option Packet
  | [] => none
  | h :: body =>
    if field h 10 4 = body.length ∧ field h 22 10 = 0 then
      some ⟨BitVec.ofNat 6 (field h 0 6), BitVec.ofNat 4 (field h 6 4), BitVec.ofNat 8 (field h 14 8), body⟩
    else none

/-- The tag a header holds. -/
def headerTag (h : Word) : Tag := BitVec.ofNat 4 (field h 6 4)

/-- Why a request is answered BAD_REQUEST at dispatch (R168): `length` is the body length mismatch, which also counts as a protocol error. -/
inductive Bad where
  | plain | length
deriving DecidableEq, Repr

/-- A flag of the request. -/
def Packet.flag (k : Packet) (i : Nat) : Bool := k.flags.getLsbD i

/-- Word 0 of the body. -/
def Packet.word0 (k : Packet) : Word := k.body.headD 0

/-- R168 check 2: the flags a kind defines. -/
def Kind.flagsDefined : Kind → BitVec 8
  | .push => 7
  | .openFrame => 3
  | _ => 0

/-- A PUSH has a control word when HAS_FRAME or HAS_TARGET is set (section 8.8). -/
def Packet.pushControl (k : Packet) : Bool := k.flag 0 || k.flag 1

/-- The context count field of an OPEN_FRAME (section 8.8). -/
def Packet.contextCount (k : Packet) : Nat := field k.word0 18 3

/-- R168 check 3: the valid body lengths. -/
def Packet.lengthOk (k : Packet) (kind : Kind) : Bool :=
  let n := k.body.length
  match kind with
  | .push => if k.pushControl then decide (1 ≤ n ∧ n ≤ 7) else decide (n ≤ 6)
  | .pop | .complete | .renew | .yield | .closeFrame | .cancelFrame | .query => n == 1
  | .openFrame =>
    decide (1 ≤ n) &&
      (decide (4 < k.contextCount) || decide (1 + k.contextCount ≤ n ∧ n ≤ 7 + k.contextCount))
  | .fetchEvents | .attach | .detach | .start | .quiesce => n == 0
  | .configure => decide (2 ≤ n ∧ n ≤ 15)
  | .nopEcho => decide (n ≤ 15)

/-- The global parameter a code names (section 8.8). -/
def GlobalParam.ofCode (n : Nat) : Option GlobalParam :=
  match n with
  | 0x01 => some (.quota .p0)
  | 0x02 => some (.quota .p1)
  | 0x03 => some (.quota .p2)
  | 0x04 => some (.quota .p3)
  | 0x05 => some .sqLimit
  | 0x06 => some .requeueLimit
  | _ => none

/-- The per-port parameter a code names (section 8.8). -/
def PortParam.ofCode (n : Nat) : Option PortParam :=
  match n with
  | 0x10 => some .depthLimit
  | 0x11 => some .spill
  | 0x12 => some .stealable
  | 0x13 => some .stealEnable
  | 0x14 => some .leaseTime
  | 0x15 => some .eventMask
  | _ => none

/-- The items of a CONFIGURE, each decoded by `of`; none when one names no parameter of the scope (R169). -/
def decodeItems {α : Type} (of : Nat → Option α) : List Word → Option (List (α × Nat))
  | [] => some []
  | w :: ws =>
    match of (field w 0 8), decodeItems of ws with
    | some a, some rest => some ((a, field w 16 16) :: rest)
    | _, _ => none

/-- R168 check 4 and the fields of each request (R169, section 8.8). -/
def Packet.decodeFields (k : Packet) (kind : Kind) : Option Req :=
  let w := k.word0
  match kind with
  | .push =>
    some (.push
      { frame   := if k.flag 0 then some (frameRefOf w 0) else none
        target  := if k.flag 1 then some (Port.ofNumber (field w 12 2)) else none
        pin     := k.flag 2
        payload := if k.pushControl then k.body.drop 1 else k.body })
  | .pop => some (.pop (field w 0 12))
  | .complete =>
    match field w 16 2 with
    | 0 => some (.complete (handleOf w) .ok)
    | 1 => some (.complete (handleOf w) .failed)
    | _ => none
  | .renew => some (.renew (handleOf w))
  | .yield => some (.yield (handleOf w))
  | .openFrame =>
    if 4 < k.contextCount then none
    else
      some (.openFrame
        { current := if k.flag 0 then some (handleOf w) else none
          pin     := if k.flag 1 then some (Port.ofNumber (field w 16 2)) else none
          context := (k.body.drop 1).take k.contextCount
          payload := k.body.drop (1 + k.contextCount) })
  | .closeFrame => some (.closeFrame (frameRefOf w 0))
  | .cancelFrame => some (.cancelFrame (frameRefOf w 0))
  | .query =>
    match field w 0 4 with
    | 0 => some .queryHub
    | 1 => some (.queryPort (Port.ofNumber (field w 4 2)))
    | 2 => some (.queryFrame (frameRefOf w 4))
    | 3 => some (.queryTicket (Fin.ofNat 1024 (field w 4 10)))
    | _ => none
  | .fetchEvents => some .fetchEvents
  | .configure =>
    if field w 0 1 = 0 then (decodeItems GlobalParam.ofCode (k.body.drop 1)).map .configureGlobal
    else
      (decodeItems PortParam.ofCode (k.body.drop 1)).map
        (.configurePort (Port.ofNumber (field w 1 2)))
  | .attach => some .attach
  | .detach => some .detach
  | .start => some .start
  | .quiesce => some .quiesce
  | .nopEcho => some (.nopEcho k.body)

/-- The dispatch checks of R168, in their order: kind, flags, length, fields. -/
def Packet.decode (k : Packet) : Except Bad Req :=
  match Kind.ofCode k.kind with
  | none => .error .plain
  | some kind =>
    if k.flags &&& ~~~kind.flagsDefined ≠ 0 then .error .plain
    else if k.lengthOk kind = false then .error .length
    else
      match k.decodeFields kind with
      | some r => .ok r
      | none => .error .plain

/-- The rows of the opcode table that are requests. -/
inductive ReqRow where
  | push | pop | complete | renew | yield | openFrame | closeFrame | cancelFrame | queryHub | queryPort | queryFrame
  | queryTicket | fetchEvents | configureGlobal | configurePort | attach | detach | start | quiesce | nopEcho
deriving DecidableEq, Repr

/-- The row of a request. -/
def Req.row : Req → ReqRow
  | .push _ => .push
  | .pop _ => .pop
  | .complete _ _ => .complete
  | .renew _ => .renew
  | .yield _ => .yield
  | .openFrame _ => .openFrame
  | .closeFrame _ => .closeFrame
  | .cancelFrame _ => .cancelFrame
  | .queryHub => .queryHub
  | .queryPort _ => .queryPort
  | .queryFrame _ => .queryFrame
  | .queryTicket _ => .queryTicket
  | .fetchEvents => .fetchEvents
  | .configureGlobal _ => .configureGlobal
  | .configurePort _ _ => .configurePort
  | .attach => .attach
  | .detach => .detach
  | .start => .start
  | .quiesce => .quiesce
  | .nopEcho _ => .nopEcho

/-- The kind of a row. -/
def ReqRow.kind : ReqRow → Kind
  | .push => .push
  | .pop => .pop
  | .complete => .complete
  | .renew => .renew
  | .yield => .yield
  | .openFrame => .openFrame
  | .closeFrame => .closeFrame
  | .cancelFrame => .cancelFrame
  | .queryHub | .queryPort | .queryFrame | .queryTicket => .query
  | .fetchEvents => .fetchEvents
  | .configureGlobal | .configurePort => .configure
  | .attach => .attach
  | .detach => .detach
  | .start => .start
  | .quiesce => .quiesce
  | .nopEcho => .nopEcho

/-- Whether a step of this row dispatches the packet: a good request by its own row, a bad one by any row of its kind, and one of
unknown kind, which is no row's own, by any row (log 11). -/
def ReqRow.takes (row : ReqRow) (k : Packet) : Bool :=
  match k.decode with
  | .ok r => r.row == row
  | .error _ =>
    match Kind.ofCode k.kind with
    | none => true
    | some kind => row.kind == kind

/-! ## Response packets -/

/-- A response as the packet the hub sends (R163, section 8.8). -/
def Response.words (r : Response) : List Word :=
  packWord [(r.tag.toNat, 0, 4), (r.status.code, 4, 5), (r.body.length, 9, 4)] :: r.body

def EventSet.code (e : EventSet) : Nat :=
  flag e.workReady + 2 * flag e.released + 4 * flag e.leaseLost + 8 * flag e.peerChange + 16 * flag e.protocol

/-- The event kinds a 5-bit value names (section 8.8). -/
def EventSet.ofCode (n : Nat) : EventSet :=
  ⟨n.testBit 0, n.testBit 1, n.testBit 2, n.testBit 3, n.testBit 4⟩

/-- A handle alone: the POISONED body (R163). -/
def handleBody (h : Handle) : List Word := [packWord [(handleCode h, 0, 16)]]

/-- The OK body of PUSH (R45): placement 0 STACK, 1 SHARED. -/
def pushBody (h : Handle) (shared : Bool) : List Word := [packWord [(handleCode h, 0, 16), (flag shared, 16, 1)]]

/-- The OK body of POP (R65). -/
def popBody (h : Handle) (t : Ticket) (src : Source) (requeues : Nat) : List Word :=
  packWord [(handleCode h, 0, 16), (t.kind.code, 16, 1), (src.code, 17, 2), (src.victimCode, 19, 2),
      (t.allocator.number, 21, 2), (requeues, 23, 3), (t.payload.length, 26, 3), (t.context.length, 29, 3)] ::
    ((match t.kind, t.summary with
      | .continuation, some m =>
        [packWord [(m.ok, 0, 16), (m.failed, 16, 16)], packWord [(m.cancelled, 0, 16), (flag m.flag, 16, 1)]]
      | .continuation, none => [0, 0]
      | .task, _ => []) ++
      t.payload.map StoredWord.bits ++ t.context.map StoredWord.bits)

/-- The OK body of RENEW (R108): remaining ticks, or the no-deadline bit. -/
def renewBody (ticks : Option Nat) : List Word :=
  match ticks with
  | some n => [packWord [(n, 0, 16)]]
  | none => [packWord [(1, 16, 1)]]

/-- The OK body of OPEN_FRAME (R79). -/
def openBody (h : Handle) (f : FrameRef) : List Word :=
  [packWord [(handleCode h, 0, 16), (f.index.val, 16, 8), (f.gen.toNat, 24, 4)]]

/-- The OK body of CLOSE_FRAME, its pending count, and of CANCEL_FRAME, its removed count (R86, R95). -/
def countBody (n : Nat) : List Word := [packWord [(n, 0, 11)]]

/-- The OK body of START and QUIESCE (R148, R149). -/
def hubStateBody (h : HubState) : List Word := [packWord [(h.code, 0, 2)]]

/-- The OK body of FETCH_EVENTS (R143). -/
def eventsBody (e : EventSet) : List Word := [packWord [(e.code, 0, 5)]]

/-- The OK body of QUERY HUB (R160). -/
def hubBody (state free shared inUse parked walks : Nat) : List Word :=
  [packWord [(state, 0, 2), (free, 2, 11), (shared, 13, 11)],
   packWord [(inUse, 0, 9), (parked, 9, 5), (walks, 14, 4)]]

/-- The OK body of QUERY PORT (R160). -/
def portBody (m : PortSettings) (depth parked alloc quota : Nat) : List Word :=
  [packWord [(m.state, 0, 2), (depth, 2, 11), (m.depthLimit, 13, 11), (parked, 24, 3), (flag m.spill, 27, 1),
      (flag m.stealable, 28, 1), (flag m.stealEnable, 29, 1)],
   packWord [(alloc, 0, 11), (quota, 11, 11), (m.errors, 22, 8)],
   packWord [(m.leaseTime, 0, 16)]]

/-- The OK body of QUERY FRAME (R102). -/
def frameBody (f : Frame) : List Word :=
  [packWord [(f.state.code, 0, 2), (f.pending, 2, 11), ((f.opener.map Port.number).getD 0, 13, 2),
      (flag f.walkPending, 15, 1), ((f.continuation.map handleCode).getD 0, 16, 16)],
   packWord [(f.ok, 0, 16), (f.failed, 16, 16)],
   packWord [(f.cancelled, 0, 16)]]

/-- The OK body of QUERY TICKET (R19): `holder` is the running-table entry's holder for a RUNNING slot. A FREE slot gives its generation
and the state FREE only. -/
def ticketBody (sl : Slot) (holder : Option Port) : List Word :=
  match sl.ticket with
  | none => [packWord [(sl.gen.toNat, 0, 6)], 0]
  | some t =>
    [packWord [(sl.gen.toNat, 0, 6), (t.state.code, 6, 2), (t.kind.code, 8, 1), (t.allocator.number, 9, 2),
        (flag t.parent.isSome, 11, 1), ((holder.map Port.number).getD 0, 12, 2), (t.requeues, 14, 3),
        (flag t.contFrame.isSome, 17, 1)],
     packWord [((t.parent.map frameRefCode).getD 0, 0, 12), ((t.contFrame.map frameRefCode).getD 0, 12, 12)]]

end Sys2Proof.Machine
end

