-- ==== Sys2Proof/Machine/Ops.lean ====
section
/-! DEFINITION. The named operations over the hub that the commands share: access to slots, frames, ports and links; allocation and freeing of slots; responses; events; messages; the life of a request at its Port Controller. -/

namespace Sys2Proof.Machine

/-! ## Access -/

def Chip.slot (c : Chip) (i : SlotNo) : Slot := c.tks.slots.get i

def Chip.setSlot (c : Chip) (i : SlotNo) (x : Slot) : Chip :=
  { c with tks := { c.tks with slots := c.tks.slots.set i.val x i.isLt } }

/-- The record of a slot, absent when the slot is FREE. -/
def Chip.ticket (c : Chip) (i : SlotNo) : Option Ticket := (c.slot i).ticket

/-- The record of a slot changed; a FREE slot has none. -/
def Chip.updTicket (c : Chip) (i : SlotNo) (f : Ticket → Ticket) : Chip :=
  c.setSlot i { c.slot i with ticket := (c.slot i).ticket.map f }

/-- The handle of a slot as it stands: its generation is read from the slot (R1). -/
def Chip.handle (c : Chip) (i : SlotNo) : Handle := ⟨i, (c.slot i).gen⟩

def Chip.frame (c : Chip) (i : FrameNo) : Frame := c.frt.frames.get i

def Chip.setFrame (c : Chip) (i : FrameNo) (x : Frame) : Chip :=
  { c with frt := { c.frt with frames := c.frt.frames.set i.val x i.isLt } }

/-- The state a frame reference finds: FREE for a stale one, which the FRT treats alike (R73). -/
def Chip.refState (c : Chip) (r : FrameRef) : FrameState :=
  if (c.frame r.index).gen = r.gen then (c.frame r.index).state else .free

def Chip.pc (c : Chip) (p : Port) : Pc := c.pcs.get p

def Chip.updPc (c : Chip) (p : Port) (f : Pc → Pc) : Chip := { c with pcs := c.pcs.upd p f }

def Chip.link (c : Chip) (p : Port) : Link := c.links.get p

def Chip.updLink (c : Chip) (p : Port) (f : Link → Link) : Chip := { c with links := c.links.upd p f }

def Chip.stack (c : Chip) (p : Port) : List SlotNo := c.rqc.runStacks.get p

def Chip.setStack (c : Chip) (p : Port) (l : List SlotNo) : Chip :=
  { c with rqc := { c.rqc with runStacks := c.rqc.runStacks.set p l } }

def Chip.setShared (c : Chip) (l : List SlotNo) : Chip := { c with rqc := { c.rqc with shared := l } }

def Chip.setParked (c : Chip) (l : List ParkedPop) : Chip := { c with rqc := { c.rqc with parked := l } }

/-- A run list's contents, in the order it is read. -/
def Chip.runList (c : Chip) : RunList → List SlotNo
  | .stack p => c.stack p
  | .shared => c.rqc.shared

def Chip.setRunList (c : Chip) (r : RunList) (l : List SlotNo) : Chip :=
  match r with
  | .stack p => c.setStack p l
  | .shared => c.setShared l

/-! ## Port states as the blocks read them -/

/-- The port state as its Port Controller reports it: ATTACHED until a leave has ended (R126). -/
def Chip.attached (c : Chip) (p : Port) : Bool := (c.pc p).state == .attached

/-- The RQC's reading: not ATTACHED from its part of a leave until the next ATTACH notice (R126). -/
def Chip.rqcAttached (c : Chip) (p : Port) : Bool := c.attached p && !(c.rqc.left.get p)

/-- The parked pops of a port, oldest first. -/
def Chip.parkedOf (c : Chip) (p : Port) : List ParkedPop := c.rqc.parked.filter fun e => e.port == p

/-- The running-table entry of a slot. -/
def Chip.runEntry (c : Chip) (i : SlotNo) : Option RunEntry := c.ltu.running.find? fun e => e.slot == i

/-- Whether the ticket's parent frame is CANCELLING (R60, R113). -/
def Chip.parentCancelling (c : Chip) (i : SlotNo) : Bool :=
  match (c.ticket i).bind Ticket.parent with
  | some r => c.refState r == .cancelling
  | none => false

/-! ## Messages between blocks -/

def Chip.sendTake (c : Chip) (m : TakeMsg) : Chip := { c with wires := { c.wires with takes := c.wires.takes ++ [m] } }

def Chip.sendPlace (c : Chip) (s : PlaceSender) (m : PlaceMsg) : Chip :=
  match s with
  | .frt => { c with wires := { c.wires with placeFrt := c.wires.placeFrt ++ [m] } }
  | .ltu => { c with wires := { c.wires with placeLtu := c.wires.placeLtu ++ [m] } }

def Chip.sendRequeue (c : Chip) (i : SlotNo) : Chip :=
  { c with wires := { c.wires with requeues := c.wires.requeues ++ [i] } }

def Chip.sendRetire (c : Chip) (s : RetireSender) (m : RetireMsg) : Chip :=
  match s with
  | .rqc => { c with wires := { c.wires with retireRqc := c.wires.retireRqc ++ [m] } }
  | .ltu => { c with wires := { c.wires with retireLtu := c.wires.retireLtu ++ [m] } }
  | .walk => { c with wires := { c.wires with retireWalk := c.wires.retireWalk ++ [m] } }

def Chip.sendChildEnd (c : Chip) (m : ChildEndMsg) : Chip :=
  { c with wires := { c.wires with childEnds := c.wires.childEnds ++ [m] } }

def Chip.notifyRqc (c : Chip) (p : Port) (n : RqcNotice) : Chip :=
  { c with wires := { c.wires with toRqc := c.wires.toRqc.upd p (· ++ [n]) } }

def Chip.notifyLtu (c : Chip) (p : Port) (n : LtuNotice) : Chip :=
  { c with wires := { c.wires with toLtu := c.wires.toLtu.upd p (· ++ [n]) } }

/-- The oldest notice of `p` to the RQC is taken off its channel. -/
def Chip.dropRqcNotice (c : Chip) (p : Port) : Chip :=
  { c with wires := { c.wires with toRqc := c.wires.toRqc.upd p List.tail } }

/-- The oldest notice of `p` to the LTU is taken off its channel. -/
def Chip.dropLtuNotice (c : Chip) (p : Port) : Chip :=
  { c with wires := { c.wires with toLtu := c.wires.toLtu.upd p List.tail } }

/-- An event is raised for port `p`: it is on its way to the Port Controller, which takes it by PENDING_EVENT_RECORD (R141). -/
def Chip.raise (c : Chip) (p : Port) (k : EventKind) : Chip :=
  { c with wires := { c.wires with events := c.wires.events.upd p (· ++ [k]) } }

/-- An event is raised for each of some ports. -/
def Chip.raiseAll (c : Chip) (ps : List Port) (k : EventKind) : Chip := ps.foldl (fun c p => c.raise p k) c

/-- The events on their way to `p` are gone: each was raised while `p` was ATTACHED, reported so until its leave has ended, and would be discarded by
whatever takes it, during the leave or after a later ATTACH (R38, R141). -/
def Chip.dropEvents (c : Chip) (p : Port) : Chip :=
  { c with wires := { c.wires with events := c.wires.events.set p [] } }

/-- PEER_CHANGE for every port other than `p` that is ATTACHED and not leaving (R142). -/
def Chip.raisePeerChange (c : Chip) (p : Port) : Chip :=
  c.raiseAll (Port.all.filter fun q => q != p && (c.pc q).active) .peerChange

/-- Whether the RQC has reported the end of `p`'s port-leave claim: the claim is taken, and the LTU has taken every take handed over for `p`
(R131, R135). -/
def Chip.rqcLeaveEnded (c : Chip) (p : Port) : Bool :=
  !((c.wires.toRqc.get p).any fun n => n == .leave true || n == .leave false) &&
    !(c.wires.takes.any fun m => m.port == p)

/-- Whether the LTU has reported the end of `p`'s port-loss claim (R119). -/
def Chip.ltuLossEnded (c : Chip) (p : Port) : Bool := !((c.wires.toLtu.get p).contains .loss)

/-! ## Hub Control -/

/-- A report or count fall that calls for a completion check (R151). -/
def Chip.callCheck (c : Chip) : Chip := { c with hcu := { c.hcu with checks := c.hcu.checks + 1 } }

def Chip.raiseCreation (c : Chip) : Chip := { c with hcu := { c.hcu with creation := c.hcu.creation + 1 } }

/-- The creation count falls by one; its fall to 0 while QUIESCING calls for a completion check (R150, R151). -/
def Chip.lowerCreation (c : Chip) : Chip :=
  let n := c.hcu.creation - 1
  let c1 : Chip := { c with hcu := { c.hcu with creation := n } }
  if c.hcu.state = .quiescing ∧ n = 0 then c1.callCheck else c1

/-! ## Slots: allocation, freeing, generation -/

/-- The two checks of an allocation (R10), QUOTA before STORE_FULL (R11): the refusing status, or the head of the free list. -/
def Chip.allocCheck (c : Chip) (p : Port) : Except Status SlotNo :=
  if c.hcu.quota.get p ≤ c.tks.alloc.get p then .error .quota
  else
    match c.tks.free with
    | [] => .error .storeFull
    | i :: _ => .ok i

/-- The slot at the head of the free list is allocated to `p` and its record filled (R10). -/
def Chip.allocate (c : Chip) (p : Port) (i : SlotNo) (t : Ticket) : Chip :=
  let c1 : Chip := { c with tks := { c.tks with free := c.tks.free.tail, alloc := c.tks.alloc.upd p (· + 1) } }
  c1.setSlot i { c1.slot i with ticket := some t }

/-- R17 steps 2 to 5: the generation advances, the record is removed, the slot goes to the free list tail and the allocator's count falls; a full
free list is reported to the HCU (R151). A slot that is already FREE is left (log 18). -/
def Chip.freeSlot (c : Chip) (i : SlotNo) : Chip :=
  match c.ticket i with
  | none => c
  | some t =>
    let c1 := c.setSlot i ⟨(c.slot i).gen + 1, none⟩
    let c2 : Chip :=
      { c1 with
        tks := { c1.tks with free := c1.tks.free ++ [i], alloc := c1.tks.alloc.upd t.allocator (· - 1) } }
    if c2.tks.free.length = Config.slots then c2.callCheck else c2

/-- The generation advances while the ticket keeps its slot (R3, R20). -/
def Chip.advanceGen (c : Chip) (i : SlotNo) : Chip := c.setSlot i { c.slot i with gen := (c.slot i).gen + 1 }

/-! ## Responses (R170; log 29) -/

/-- The response claim: the tag is freed, the reservation ends, and the response is appended, or discarded for a lost port. -/
def Pc.enqueue (x : Pc) (r : Response) : Pc :=
  { x with
    outstanding := x.outstanding.filter (· != r.tag)
    reserved := x.reserved - 1
    responses := if x.discarding then x.responses else x.responses ++ [r] }

/-- The response claim on a response with these fields. -/
def Pc.respond (x : Pc) (tag : Tag) (st : Status) (body : List Word) (h : Option Handle := none) : Pc :=
  x.enqueue ⟨tag, st, body, h⟩

/-- A response that the Port Controller itself produces. -/
def Chip.respond (c : Chip) (p : Port) (tag : Tag) (st : Status) (body : List Word) : Chip :=
  c.updPc p fun x => x.respond tag st body

/-- The order in which block `b` answers a request: its own, or none, since the answers of POPs come in any order relative to each other and to the port's
other responses (R65, note 2; R170). -/
def Req.order (b : Block) : Req → Option Block
  | .pop _ => none
  | _ => some b

/-- An answer sent before one of order `o` is taken before it. -/
def Answer.precedes (a : Answer) (o : Option Block) : Bool := o.isSome && a.order == o

/-- The Port Controller of `p` takes every answer on its way to it that comes before one of order `o`, oldest first. -/
def Chip.deliver (c : Chip) (o : Option Block) (p : Port) : Chip :=
  let due := (c.wires.answers.get p).filter fun a => a.precedes o
  let c1 : Chip :=
    { c with wires := { c.wires with answers := c.wires.answers.upd p fun l => l.filter fun a => !(a.precedes o) } }
  c1.updPc p fun x => due.foldl (fun x a => x.enqueue a.resp) x

/-- A response of order `o` is produced for `p` and is on its way. -/
def Chip.sendAnswer (c : Chip) (o : Option Block) (p : Port) (r : Response) : Chip :=
  { c with wires := { c.wires with answers := c.wires.answers.upd p (· ++ [⟨o, r⟩]) } }

/-- A request of `p` is answered with a claim of its block: the Port Controller takes the response now, behind those it keeps its order with, or it is on
its way. -/
def Chip.answer (c : Chip) (h : Hand) (o : Option Block) (p : Port) (r : Response) : Chip :=
  match h with
  | .now => (c.deliver o p).updPc p fun x => x.enqueue r
  | .later => c.sendAnswer o p r

/-! ## The life of a request (R125, R167; logs 2 and 19) -/

/-- An ATTACH or a DETACH goes on at its Port Controller. -/
def Chip.setStage (c : Chip) (p : Port) (st : Stage) : Chip :=
  c.updPc p fun x => { x with current := x.current.map fun k => { k with stage := st } }

/-- The Port Controller has ended, or the block has taken, the dispatched request. -/
def Chip.taken (c : Chip) (p : Port) : Chip := c.updPc p fun x => { x with current := none }

/-- The Port Controller answers a request it has taken itself. -/
def Chip.finish (c : Chip) (p : Port) (tag : Tag) (st : Status) (body : List Word) : Chip :=
  (c.taken p).respond p tag st body

/-- The request `k` is with block `b` as `y`, or no more: a request its block takes with this claim is dispatched no more. -/
def Pc.move (x : Pc) (b : Block) (k : Current) (y : Option Current) : Pc :=
  { x with atBlock := x.atBlock.set b y, current := if k.stage = .given then none else x.current }

/-- Block `b` takes `p`'s request `k` on to the next of its claims. -/
def Chip.advance (c : Chip) (b : Block) (p : Port) (k : Current) (st : Stage) : Chip :=
  c.updPc p fun x => x.move b k (some { k with stage := st })

/-- Block `b` ends `p`'s request `k` without an answer: it parks, its take is handed over, or its walk is queued. -/
def Chip.endAt (c : Chip) (b : Block) (p : Port) (k : Current) : Chip := c.updPc p fun x => x.move b k none

/-- Block `b` ends `p`'s request `k` and answers it; `i` is the ticket handle the body reports, if any (R1). -/
def Chip.reply (c : Chip) (h : Hand) (b : Block) (p : Port) (k : Current) (st : Status) (body : List Word)
    (i : Option Handle := none) : Chip :=
  (c.endAt b p k).answer h (k.req.order b) p ⟨k.tag, st, body, i⟩

/-- A request that was counted in the creation count is answered (R150). -/
def Chip.replyCounted (c : Chip) (h : Hand) (b : Block) (p : Port) (k : Current) (st : Status) (body : List Word)
    (i : Option Handle := none) : Chip :=
  (c.reply h b p k st body i).lowerCreation

/-- Whether a POP of the port has passed its hub-state check and the RQC has not made its claim (R52, R53). -/
def Pc.popUnderway (x : Pc) : Bool :=
  match x.atBlock.rqc with
  | some ⟨_, .pop _, _⟩ => true
  | _ => false

/-- The three conditions of R167, for a port whose link is up and that is not leaving. The LTU has taken a COMPLETE, RENEW or YIELD once its claim on the
running table is made (R104, R105): the CONFIGURE or DETACH that follows finds it made (R120, R125; log 19). The RQC has taken a POP once its one claim is
made (R53): the DETACH that follows finds it parked, handed over or answered (R125, R132; log 19). -/
def Pc.mayDispatch (x : Pc) : Bool :=
  (x.state == .linked || x.state == .attached) && x.leave == .no && x.current.isNone && x.atBlock.ltu.isNone && !x.popUnderway &&
    decide (x.responses.length + x.reserved < Config.responseCapacity)

def HubReport.unread : HubReport := ⟨none, none, none, none⟩

def PortReport.unread : PortReport := ⟨none, none, none, none⟩

/-- A good request is handed to its block; a QUERY HUB or QUERY PORT is taken by the Port Controller, which gathers it (R125, R159). -/
def Pc.hand (x : Pc) (tag : Tag) : Req → Pc
  | .queryHub => { x with gathers := x.gathers ++ [⟨tag, .hub .unread⟩] }
  | .queryPort q => { x with gathers := x.gathers ++ [⟨tag, .port q .unread⟩] }
  | r => { x with current := some ⟨tag, r, .given⟩ }

/-- Dispatch of the head of the input buffer `k`: its buffer entry and credit return, a response is reserved, and the checks of R168 either
hand it to its block or answer BAD_REQUEST, a body length mismatch counting as a protocol error (R165, R167, R168). -/
def Pc.dispatch (x : Pc) (k : Packet) : Pc :=
  let x1 := { x with buffer := x.buffer.tail, granted := x.granted + 1, reserved := x.reserved + 1 }
  match k.decode with
  | .ok r => x1.hand k.tag r
  | .error .plain => x1.respond k.tag .badRequest []
  | .error .length => x1.protocolError.respond k.tag .badRequest []

/-- A step of row `row` dispatches the head of `p`'s input buffer, when the conditions hold and the row is the request's (R167). -/
def Chip.dispatchHead (c : Chip) (row : ReqRow) (p : Port) : Chip :=
  match (c.pc p).buffer with
  | [] => c
  | k :: _ =>
    if (c.pc p).mayDispatch && row.takes k then
      (c.updPc p fun x => x.dispatch k).updLink p fun l => l.addCredits 1
    else c

/-- The ticket handle a request names, if any. -/
def Req.handle : Req → Option Handle
  | .complete h _ => some h
  | .renew h => some h
  | .yield h => some h
  | .openFrame r => r.current
  | _ => none

/-- The blocks that can have taken a request and not ended it. -/
def Block.waiting : List Block := [.rqc, .ltu, .frt]

/-- Whether a gather has a part of block `b` still to read. -/
def Gather.lacks (g : Gather) (b : QueryPart) : Bool :=
  match g.parts, b with
  | .hub r, .hcu => r.hcu.isNone
  | .hub r, .tks => r.tks.isNone
  | .hub r, .rqc => r.rqc.isNone
  | .hub r, .frt => r.frt.isNone
  | .hub _, .pc _ => false
  | .port q r, .pc q' => q' == q && r.pc.isNone
  | .port _ r, .rqc => r.rqc.isNone
  | .port _ r, .tks => r.tks.isNone
  | .port _ r, .hcu => r.hcu.isNone
  | .port _ _, .frt => false

/-- Whether an earlier request of the port keeps a block from taking `r`: one that names the same handle and has not ended, which `r` must find the effect
of (R118), or a gather that has not read the block a QUERY FRAME or QUERY TICKET reads (R159; log 19). -/
def Pc.keepsWaiting (x : Pc) (r : Req) : Bool :=
  (match r.handle with
    | some h => Block.waiting.any fun b => (x.atBlock.get b).any fun k => k.req.handle == some h
    | none => false) ||
    (match r with
      | .queryFrame _ => x.gathers.any fun g => g.lacks .frt
      | .queryTicket _ => x.gathers.any fun g => g.lacks .tks
      | _ => false)

/-- Block `b` takes the dispatched request of `p`, when it is of row `row`, the block has ended the port's request before it, and no other earlier request
keeps it waiting; `f` is its first claim. -/
def Chip.takeUp (c : Chip) (row : ReqRow) (b : Block) (p : Port) (f : Current → Chip → Chip) : Chip :=
  match (c.pc p).atBlock.get b, (c.pc p).current with
  | none, some k => if k.stage = .given ∧ k.req.row = row ∧ (c.pc p).keepsWaiting k.req = false then f k c else c
  | _, _ => c

/-- Block `b` goes on with the request of row `row` it has taken from `p`; `f` is the next of its claims. -/
def Chip.goOn (c : Chip) (row : ReqRow) (b : Block) (p : Port) (f : Current → Chip → Chip) : Chip :=
  match (c.pc p).atBlock.get b with
  | some k => if k.req.row = row then f k c else c
  | none => c

/-- The next claim of block `b` on a request of row `row` of `p`. -/
def Chip.nextClaim (c : Chip) (row : ReqRow) (b : Block) (p : Port) (f : Current → Chip → Chip) : Chip :=
  if ((c.pc p).atBlock.get b).isSome then c.goOn row b p f else c.takeUp row b p f

/-- `n` claims one after the other. -/
def repeatClaim : Nat → (Chip → Chip) → Chip → Chip
  | 0, _, c => c
  | n + 1, f, c => repeatClaim n f (f c)

/-- A step of the row `row`, whose requests block `b` takes (log 2). `f` is a claim of its request and `n` the claims that can follow the first; `whole` goes
on with the request the block has taken, or dispatches the head when there is none, takes it up and goes on with it. -/
def Chip.runRequest (c : Chip) (row : ReqRow) (b : Block) (p : Port) (e : Extent) (n : Nat)
    (f : Hand → Current → Chip → Chip) : Chip :=
  match e with
  | .dispatch => c.dispatchHead row p
  | .claim h => c.nextClaim row b p (f h)
  | .whole =>
    repeatClaim n (fun c => c.goOn row b p (f .now))
      ((if ((c.pc p).atBlock.get b).isSome then c else c.dispatchHead row p).nextClaim row b p (f .now))

/-- A step of a row whose requests the Port Controller takes itself: the dispatch, when there is one to make, and `f` on the request then dispatched. -/
def Chip.runOwn (c : Chip) (row : ReqRow) (p : Port) (f : Chip → Chip) : Chip := f (c.dispatchHead row p)

/-- Whether every request of `p` has been taken by its block and answered, or parked or queued its walk, and every answer taken (R135, R138). -/
def Chip.requestsEnded (c : Chip) (p : Port) : Bool :=
  (c.pc p).current.isNone && Block.waiting.all (fun b => ((c.pc p).atBlock.get b).isNone) && (c.pc p).gathers.isEmpty &&
    (c.wires.answers.get p).isEmpty

/-! ## Lists held by a PUSH (R46) -/

/-- The target stack of a PUSH of port `p` that is between its room check and its placement. -/
def Chip.pushHold (c : Chip) (p : Port) : Option Port :=
  match (c.pc p).atBlock.rqc with
  | some ⟨_, .push r, .roomRead _⟩ => some (r.target.getD p)
  | some ⟨_, .push r, .allocated _ _⟩ => some (r.target.getD p)
  | some ⟨_, .push r, .registered _ _⟩ => some (r.target.getD p)
  | _ => none

/-- Whether some PUSH holds the shared queue. -/
def Chip.queueHeld (c : Chip) : Bool := Port.all.any fun p => (c.pushHold p).isSome

/-- Whether some PUSH holds port `q`'s stack. -/
def Chip.stackHeld (c : Chip) (q : Port) : Bool := Port.all.any fun p => c.pushHold p == some q

/-- Whether a PUSH holds the run list. -/
def Chip.listHeld (c : Chip) : RunList → Bool
  | .stack q => c.stackHeld q
  | .shared => c.queueHeld

/-- Whether the RQC has taken some POP, which has passed its hub-state check, and has not ended it (R52, R152). -/
def Chip.popUnderway (c : Chip) : Bool := Port.all.any fun p => (c.pc p).popUnderway

/-- Whether an OPEN_FRAME of port `p` holds the entry of slot `i`: from its check 3 until the handoff (R81). -/
def Chip.openHolds (c : Chip) (p : Port) (i : SlotNo) : Bool :=
  match (c.pc p).atBlock.frt with
  | some ⟨_, .openFrame r, .currentRead⟩ => r.current.map Handle.slot == some i
  | some ⟨_, .openFrame r, .pinRead⟩ => r.current.map Handle.slot == some i
  | _ => false

/-- Whether some OPEN_FRAME holds the running-table entry of slot `i` (R81). -/
def Chip.entryHeld (c : Chip) (i : SlotNo) : Bool := Port.all.any fun p => c.openHolds p i

/-- The outcome of a command: the hub's next state with the queue as it stands. While RST_N is held low every block is held, and no command but
those of RST_N is taken (R157). -/
def State.run (s : State) (f : Chip → Chip) : Host.Outcome State Fault Refusal :=
  .next { s with chip := if s.chip.rst then s.chip else f s.chip }

end Sys2Proof.Machine
end

