-- ==== Sys2Proof/Machine/Service.lean ====
section
/-! DEFINITION. Shared operations of the Run Queue Controller: parked service, placement, WORK_READY, the searches of a take (R31 to R38, R53 to R60, R67, R68). -/

namespace Sys2Proof.Machine

/-- The port after victim `v` for thief `p` (R56). -/
def stealAfter (p v : Port) : Port := if v.next = p then v.next.next else v.next

/-- A steal by `p` from `v` moves `p`'s steal pointer (R56). -/
def Chip.moveStealPtr (c : Chip) (p v : Port) : Chip :=
  { c with rqc := { c.rqc with stealPtr := c.rqc.stealPtr.set p (stealAfter p v) } }

/-- The steal pointer moves when the take is a steal. -/
def Chip.noteSource (c : Chip) (p : Port) : Source → Chip
  | .stolen v => c.moveStealPtr p v
  | .own => c
  | .shared => c

/-- The first parked entry of a port and tag leaves the table; the entries after it move up (R66). -/
def Chip.dropParked (c : Chip) (e : ParkedPop) : Chip :=
  c.setParked (c.rqc.parked.eraseP fun x => x.port == e.port && x.tag == e.tag)

/-- The oldest parked entry of a port other than `q` whose STEAL_ENABLE is ON (R67 step 2). -/
def Chip.oldestThief (c : Chip) (q : Port) : Option ParkedPop :=
  c.rqc.parked.find? fun e => e.port != q && (c.pc e.port).params.stealEnable

/-- Whether a ticket is pinned. -/
def Chip.pinned (c : Chip) (i : SlotNo) : Bool := ((c.ticket i).bind Ticket.pin).isSome

/-- What parked service offers: a candidate ticket, its list without it, the parked entry it is offered to, and the source of the take. -/
structure Offer where
  slot   : SlotNo
  rest   : List SlotNo
  entry  : ParkedPop
  source : Source
deriving DecidableEq, Repr

/-- R67 steps 1 to 3: the candidate on port `q`'s stack. -/
def Chip.stackOffer (c : Chip) (q : Port) : Option Offer :=
  match (c.parkedOf q).head? with
  | some e =>
    match c.stack q with
    | i :: rest => some ⟨i, rest, e, .own⟩
    | [] => none
  | none =>
    if (c.pc q).params.stealable then
      match (c.stack q).getLast?, c.oldestThief q with
      | some i, some e => if c.pinned i then none else some ⟨i, (c.stack q).dropLast, e, .stolen q⟩
      | _, _ => none
    else none

/-- R68: the candidate in the shared queue. -/
def Chip.sharedOffer (c : Chip) : Option Offer :=
  match c.rqc.shared, c.rqc.parked with
  | i :: rest, e :: _ => some ⟨i, rest, e, .shared⟩
  | _, _ => none

/-- The candidate of a run list. -/
def Chip.offer (c : Chip) : RunList → Option Offer
  | .stack q => c.stackOffer q
  | .shared => c.sharedOffer

/-- One offer carried out: the candidate leaves its list; under a CANCELLING parent it is retired at take with the entry's port as releasing port
(R60, R92), else the entry is served: it leaves the table and the take is handed to the LTU (R62, R67). -/
def Chip.carryOut (c : Chip) (r : RunList) (o : Offer) : Chip :=
  let c1 := c.setRunList r o.rest
  if c.parentCancelling o.slot then c1.sendRetire .rqc ⟨o.slot, .cancelled, some o.entry.port⟩
  else
    ((c1.dropParked o.entry).noteSource o.entry.port o.source).sendTake
      ⟨o.slot, o.entry.port, o.entry.tag, o.source⟩

/-- Parked service on a run list: the step of R67 or R68 repeated until it offers nothing. Each step takes one ticket off the list, so the list's
length bounds the steps. -/
def serve : Nat → RunList → Chip → Chip
  | 0, _, c => c
  | n + 1, r, c =>
    match c.offer r with
    | none => c
    | some o => serve n r (c.carryOut r o)

/-- Parked service at a list as it stands (R34). -/
def Chip.parkedService (c : Chip) (r : RunList) : Chip := serve (c.runList r).length r c

/-- The ports that receive WORK_READY for the shared queue: ATTACHED and without a parked pop (R37). A port whose leave the RQC has taken is not
ATTACHED to it, so a departing port is left out of its own transfer (R126). -/
def Chip.idlePorts (c : Chip) : List Port :=
  Port.all.filter fun q => c.rqcAttached q && (c.parkedOf q).isEmpty

/-- R31: a placement on the stack of an ATTACHED port. -/
def Chip.placeOnStack (c : Chip) (q : Port) (i : SlotNo) : Chip :=
  let c1 := (c.setStack q (i :: c.stack q)).updTicket i fun t => { t with state := .queued }
  let c2 := c1.parkedService (.stack q)
  if (c.stack q).isEmpty && !(c2.stack q).isEmpty then c2.raise q .workReady else c2

/-- R32: a placement at the shared queue tail; the pin is removed. -/
def Chip.placeShared (c : Chip) (i : SlotNo) : Chip :=
  let c1 :=
    (c.setShared (c.rqc.shared ++ [i])).updTicket i fun t => { t with state := .queued, pin := none }
  let c2 := c1.parkedService .shared
  if c.rqc.shared.isEmpty && !c2.rqc.shared.isEmpty then c2.raiseAll c2.idlePorts .workReady else c2

/-- Where a placement lands: a stack whose port the RQC does not treat as ATTACHED gives way to the shared queue (R33). -/
def Chip.landing (c : Chip) : RunList → RunList
  | .stack q => if c.rqcAttached q then .stack q else .shared
  | .shared => .shared

/-- A placement, wherever it lands (R31, R32, R33). -/
def Chip.placeAt (c : Chip) (dest : RunList) (i : SlotNo) : Chip :=
  match c.landing dest with
  | .stack q => c.placeOnStack q i
  | .shared => c.placeShared i

/-! ## The searches of a take -/

/-- The candidate of a POP at one source and the list without it: a stack's top, the shared queue's head. -/
def Chip.headOf (c : Chip) (r : RunList) : Option (SlotNo × List SlotNo) :=
  match c.runList r with
  | i :: rest => some (i, rest)
  | [] => none

/-- The candidate of a steal at victim `v` (R57): none when the victim is passed over. -/
def Chip.stealCandidate (c : Chip) (v : Port) : Option (SlotNo × List SlotNo) :=
  if c.rqcAttached v && (c.pc v).params.stealable then
    match (c.stack v).getLast? with
    | some i => if c.pinned i then none else some (i, (c.stack v).dropLast)
    | none => none
  else none

/-- A source is searched (R54, R55, R58): candidates under a CANCELLING parent are retired at take with `rel` as releasing port (R60, R92), and the
first other one leaves its list. -/
def searchList : Nat → RunList → (Chip → Option (SlotNo × List SlotNo)) → Port → Chip → Chip × Option SlotNo
  | 0, _, _, _, c => (c, none)
  | n + 1, r, cand, rel, c =>
    match cand c with
    | none => (c, none)
    | some (i, rest) =>
      let c1 := c.setRunList r rest
      if c.parentCancelling i then searchList n r cand rel (c1.sendRetire .rqc ⟨i, .cancelled, some rel⟩)
      else (c1, some i)

/-- The victims of a steal search by `p`, in order from its steal pointer, `p` itself passed over (R57). -/
def Chip.victims (c : Chip) (p : Port) : List Port :=
  let s := c.rqc.stealPtr.get p
  [s, s.next, s.next.next, s.next.next.next].filter (· != p)

/-- A steal search over some victims (R57, R58): the hub after it, and the ticket taken with its victim. -/
def stealFrom (p : Port) : List Port → Chip → Chip × Option (SlotNo × Port)
  | [], c => (c, none)
  | v :: vs, c =>
    match searchList (c.stack v).length (.stack v) (·.stealCandidate v) p c with
    | (c1, some i) => (c1.moveStealPtr p v, some (i, v))
    | (c1, none) => stealFrom p vs c1

/-- A steal search by `p` (R57). -/
def Chip.stealSearch (c : Chip) (p : Port) : Chip × Option (SlotNo × Port) := stealFrom p (c.victims p) c

end Sys2Proof.Machine
end

