-- ==== Sys2Proof/Machine/Lists.lean ====
section
/-! DEFINITION. Run stacks and the shared queue (chapter 2): PUSH, PLACE, REQUEUE, STEALABLE_ON, PORT_LEAVE_CLAIM. -/

namespace Sys2Proof.Machine

/-- The status the frame check of a PUSH gives; none when it passes (R41). -/
def frameRefusal : FrameState → Option Status
  | .opened => none
  | .closed => some .frameState
  | .cancelling => some .cancelled
  | .free => some .badFrame

/-- The frame check of a PUSH with or without a frame (R41). -/
def Chip.pushFrameRefusal (c : Chip) : Option FrameRef → Option Status
  | none => none
  | some f => frameRefusal (c.refState f)

/-- R42: the destination of a PUSH aimed at `q`, none when there is no room. -/
def Chip.room (c : Chip) (q : Port) (pinned : Bool) : Option RunList :=
  if (c.stack q).length < (c.pc q).params.depthLimit then some (.stack q)
  else if pinned = false ∧ (c.pc q).params.spill = true ∧ c.rqc.shared.length < c.hcu.sqLimit then some .shared
  else none

/-- R12: the record of a pushed ticket. -/
def pushTicket (p : Port) (r : PushReq) : Ticket where
  state     := .queued
  kind      := .task
  allocator := p
  parent    := r.frame
  pin       := if r.pin then some (r.target.getD p) else none
  payload   := r.payload.map storeWord
  context   := []
  contFrame := none
  summary   := none
  requeues  := 0

/-- A child registration: one more pending child (R82). -/
def Chip.registerChild (c : Chip) (f : FrameRef) : Chip :=
  c.setFrame f.index { c.frame f.index with pending := (c.frame f.index).pending + 1 }

/-- R44: an allocated PUSH is undone: its parent is removed and it is retired CANCELLED as a root ticket. -/
def Chip.undoPush (c : Chip) (i : SlotNo) : Chip :=
  (c.updTicket i fun t => { t with parent := none }).sendRetire .rqc ⟨i, .cancelled, none⟩

/-- The claims of a PUSH in order: hub-state read (R40.1, R150), sender (R40.2), target (R40.3), frame (R41), room (R42), allocation (R43), registration
(R44), placement and answer (R45). A PUSH waits before its room check while another PUSH holds the shared queue (R46); the allocation is a claim of its own on
the TKS, and other blocks' claims may come before it (R14, R46). -/
def pushStage (p : Port) (h : Hand) (k : Current) (r : PushReq) (c : Chip) : Chip :=
  let target := r.target.getD p
  match k.stage with
  | .given =>
    match c.hcu.state with
    | .setup => c.reply h .rqc p k .notRunning []
    | .quiescing => c.reply h .rqc p k .quiescing []
    | .running => (c.raiseCreation).advance .rqc p k .hubRead
  | .hubRead =>
    if c.rqcAttached p then c.advance .rqc p k .senderRead else c.replyCounted h .rqc p k .notAttached []
  | .senderRead =>
    if c.rqcAttached target then c.advance .rqc p k .targetRead else c.replyCounted h .rqc p k .notAttached []
  | .targetRead =>
    match c.pushFrameRefusal r.frame with
    | some s => c.replyCounted h .rqc p k s []
    | none => c.advance .rqc p k .frameRead
  | .frameRead =>
    if c.queueHeld then c
    else
      match c.room target r.pin with
      | none => c.replyCounted h .rqc p k .full []
      | some dest => c.advance .rqc p k (.roomRead dest)
  | .roomRead dest =>
    match c.allocCheck p with
    | .error s => c.replyCounted h .rqc p k s []
    | .ok i => (c.allocate p i (pushTicket p r)).advance .rqc p k (.allocated (c.handle i) dest)
  | .allocated i dest =>
    match r.frame with
    | none => c.advance .rqc p k (.registered i dest)
    | some f =>
      match frameRefusal (c.refState f) with
      | some s => (c.undoPush i.slot).replyCounted h .rqc p k s []
      | none => (c.registerChild f).advance .rqc p k (.registered i dest)
  | .registered i dest =>
    (c.placeAt dest i.slot).replyCounted h .rqc p k .ok (pushBody i (c.landing dest == .shared)) (some i)
  | _ => c

/-- A claim on the PUSH `k`. -/
def pushClaim (p : Port) (h : Hand) (k : Current) (c : Chip) : Chip :=
  match k.req with
  | .push r => pushStage p h k r c
  | _ => c

/-- PUSH (R40 to R46). -/
def execPush (p : Port) (e : Extent) (s : State) : Host.Outcome State Fault Refusal :=
  s.run fun c => c.runRequest .push .rqc p e 7 (pushClaim p)

/-- The channel PLACE messages of a sender stand in. -/
def Wires.places (w : Wires) : PlaceSender → List PlaceMsg
  | .frt => w.placeFrt
  | .ltu => w.placeLtu

/-- The oldest PLACE of a sender is taken off its channel. -/
def Chip.dropPlace (c : Chip) : PlaceSender → Chip
  | .frt => { c with wires := { c.wires with placeFrt := c.wires.placeFrt.tail } }
  | .ltu => { c with wires := { c.wires with placeLtu := c.wires.placeLtu.tail } }

/-- R93: a continuation the FRT sent and the RQC placed on a stack raises RELEASED for the stack's owner. -/
def Chip.raiseReleased (c : Chip) (src : PlaceSender) : RunList → Chip
  | .stack q =>
    match src with
    | .frt => c.raise q .released
    | .ltu => c
  | .shared => c

/-- PLACE (R31, R32, R33): the oldest placement of the sender, unless a PUSH holds the list it lands on. -/
def takePlace (src : PlaceSender) (c : Chip) : Chip :=
  match c.wires.places src with
  | [] => c
  | m :: _ =>
    if c.listHeld (c.landing m.dest) then c
    else ((c.dropPlace src).placeAt m.dest m.slot).raiseReleased src (c.landing m.dest)

def execPlace (src : PlaceSender) (s : State) : Host.Outcome State Fault Refusal := s.run (takePlace src)

/-- REQUEUE (R114): a placement at the shared queue tail in BYPASS mode. -/
def takeRequeue (c : Chip) : Chip :=
  match c.wires.requeues with
  | [] => c
  | i :: rest =>
    if c.queueHeld then c
    else ({ c with wires := { c.wires with requeues := rest } } : Chip).placeShared i

def execRequeue (s : State) : Host.Outcome State Fault Refusal := s.run takeRequeue

/-- STEALABLE_ON (R50): parked service of thieves on the port's stack. -/
def takeStealableOn (p : Port) (c : Chip) : Chip :=
  match c.wires.toRqc.get p with
  | .stealableOn :: _ => if c.stackHeld p then c else (c.dropRqcNotice p).parkedService (.stack p)
  | _ => c

def execStealableOn (p : Port) (s : State) : Host.Outcome State Fault Refusal := s.run (takeStealableOn p)

/-- The answers of parked pops removed by a DETACH or the SETUP notice (R71, R131, R152), produced in one claim. Each is the answer of a POP: a port's Port
Controller takes them in any order (R65, note 2; R170). -/
def Chip.answerParked (c : Chip) (es : List ParkedPop) (st : Status) : Chip :=
  es.foldl (fun c e => c.sendAnswer none e.port ⟨e.tag, st, [], none⟩) c

/-- R35: the tickets of a leaving port's stack, bottom first, are placed at the shared queue tail. The parent states the parked services of all these
placements read (R61, R68, R85) are read at one moment, with no CANCEL_FRAME between two placements: the model's choice (log 32). -/
def Chip.transfer (c : Chip) (is : List SlotNo) : Chip := is.foldl (fun c i => c.placeShared i) c

/-- PORT_LEAVE_CLAIM (R35, R71, R131, R134): from here on the RQC treats the port as not ATTACHED; its parked entries are answered EMPTY, or dropped
for a loss; its stack is transferred, all its placements at one moment (log 32). It waits while a PUSH holds the shared queue. -/
def takePortLeave (p : Port) (c : Chip) : Chip :=
  match c.wires.toRqc.get p with
  | .leave loss :: _ =>
    if c.queueHeld then c
    else
      let c1 := c.dropRqcNotice p
      let c2 : Chip := { c1 with rqc := { c1.rqc with left := c1.rqc.left.set p true } }
      let c3 := c2.setParked (c2.rqc.parked.filter fun e => e.port != p)
      let c4 := if loss then c3 else c3.answerParked (c2.parkedOf p) .empty
      (c4.setStack p []).transfer (c.stack p).reverse
  | _ => c

def execPortLeaveClaim (p : Port) (s : State) : Host.Outcome State Fault Refusal := s.run (takePortLeave p)

end Sys2Proof.Machine
end

