-- ==== Sys2Proof/Machine/Take.lean ====
section
/-! DEFINITION. Taking work (chapter 3) and the requeue decision it shares with the running table (R113): POP, TAKE, PARK_TIMEOUT, STEAL_ENABLE_ON. -/

namespace Sys2Proof.Machine

/-! ## The running table -/

/-- An entry put in its place in ascending order of slot. -/
def insertEntry (e : RunEntry) : List RunEntry → List RunEntry
  | [] => [e]
  | x :: xs => if e.slot.val < x.slot.val then e :: x :: xs else x :: insertEntry e xs

/-- An entry is made; the holder's held count rises (R104). -/
def Chip.addEntry (c : Chip) (e : RunEntry) : Chip :=
  { c with ltu := { c.ltu with running := insertEntry e c.ltu.running, held := c.ltu.held.upd e.holder (· + 1) } }

/-- An entry is removed; the holder's held count falls (R104). -/
def Chip.removeEntry (c : Chip) (e : RunEntry) : Chip :=
  { c with
    ltu := { c.ltu with
      running := c.ltu.running.filter fun x => x.slot != e.slot
      held := c.ltu.held.upd e.holder (· - 1) } }

/-- The ticks a lease of `p` runs, as LEASE_TIME stands; none when it is 0 (R62, R108, R120). -/
def Chip.leaseTicks (c : Chip) (p : Port) : Option Nat :=
  let t := (c.pc p).params.leaseTime
  if t = 0 then none else some t

/-- R20, R114: the ticket leaves RUNNING by requeue: new generation, requeue count one higher, pin removed; REQUEUE is sent. -/
def Chip.requeueTicket (c : Chip) (i : SlotNo) : Chip :=
  ((c.advanceGen i).updTicket i fun t => { t with requeues := t.requeues + 1, pin := none }).sendRequeue i

/-- The requeue decision (R113), with `n` the ticket's requeue count: its retirements have no releasing port. -/
def Chip.requeueDecision (c : Chip) (i : SlotNo) (n : Nat) : Chip :=
  if c.parentCancelling i then c.sendRetire .ltu ⟨i, .cancelled, none⟩
  else if n = c.hcu.requeueLimit then c.sendRetire .ltu ⟨i, .failed, none⟩
  else c.requeueTicket i

/-! ## TAKE -/

/-- R62, R63: a take for a port that has not left: RUNNING, the entry with its lease, and the read-out under parity check, answered OK or POISONED. -/
def Chip.enterTake (c : Chip) (m : TakeMsg) (t : Ticket) : Chip :=
  let c1 := c.updTicket m.slot fun t => { t with state := .running }
  let e : RunEntry := ⟨m.slot, m.port, c.leaseTicks m.port, m.source, t.requeues⟩
  let c2 := c1.addEntry e
  let i := c.handle m.slot
  if t.wordsGood then c2.sendAnswer none m.port ⟨m.tag, .ok, popBody i t m.source t.requeues, some i⟩
  else
    ((c2.removeEntry e).sendRetire .ltu ⟨m.slot, .failed, some m.port⟩).sendAnswer none m.port
      ⟨m.tag, .poisoned, handleBody i, some i⟩

/-- TAKE (R62): the oldest hand-over, by the LTU's mark of its port: none, an entry (R62); detaching, returned unrun (R132); lost, the requeue
decision at once and no response (R64). A hand-over of a FREE slot cannot arise and is dropped (log 18). -/
def takeHandOver (c : Chip) : Chip :=
  match c.wires.takes with
  | [] => c
  | m :: rest =>
    let c1 : Chip := { c with wires := { c.wires with takes := rest } }
    match c1.ticket m.slot with
    | none => c1
    | some t =>
      match c1.ltu.departed.get m.port with
      | none => c1.enterTake m t
      | some .detaching => (c1.sendPlace .ltu ⟨m.slot, .shared⟩).sendAnswer none m.port ⟨m.tag, .empty, [], none⟩
      | some .lost => c1.requeueDecision m.slot t.requeues

def execTake (s : State) : Host.Outcome State Fault Refusal := s.run takeHandOver

/-! ## POP -/

/-- The park decision (R66). -/
def Chip.park (c : Chip) (h : Hand) (p : Port) (k : Current) (timeout : Nat) : Chip :=
  if timeout = 0 then c.reply h .rqc p k .empty []
  else if (c.parkedOf p).length < Config.parkedPerPort ∧ c.rqc.parked.length < Config.parkedCapacity then
    (c.setParked (c.rqc.parked ++ [⟨p, k.tag, if timeout = Config.parkForever then none else some timeout⟩])).endAt .rqc p k
  else c.reply h .rqc p k .parkFull []

/-- The search of R53 and what follows it: the take handed to the LTU, or the park decision. -/
def Chip.popSearch (c : Chip) (h : Hand) (p : Port) (k : Current) (timeout : Nat) : Chip :=
  match searchList (c.stack p).length (.stack p) (·.headOf (.stack p)) p c with
  | (c1, some i) => (c1.sendTake ⟨i, p, k.tag, .own⟩).endAt .rqc p k
  | (c1, none) =>
    match searchList c1.rqc.shared.length .shared (·.headOf .shared) p c1 with
    | (c2, some i) => (c2.sendTake ⟨i, p, k.tag, .shared⟩).endAt .rqc p k
    | (c2, none) =>
      if (c2.pc p).params.stealEnable then
        match c2.stealSearch p with
        | (c3, some (i, v)) => (c3.sendTake ⟨i, p, k.tag, .stolen v⟩).endAt .rqc p k
        | (c3, none) => c3.park h p k timeout
      else c2.park h p k timeout

/-- The claims of a POP: hub-state read, then the sender check with the search (R52, R53). It waits while a PUSH holds the shared queue (R46). -/
def popStage (p : Port) (h : Hand) (k : Current) (timeout : Nat) (c : Chip) : Chip :=
  match k.stage with
  | .given =>
    match c.hcu.state with
    | .setup => c.reply h .rqc p k .notRunning []
    | .running => c.advance .rqc p k .hubRead
    | .quiescing => c.advance .rqc p k .hubRead
  | .hubRead =>
    if c.queueHeld then c
    else if c.rqcAttached p then c.popSearch h p k timeout
    else c.reply h .rqc p k .notAttached []
  | _ => c

/-- A claim on the POP `k`. -/
def popClaim (p : Port) (h : Hand) (k : Current) (c : Chip) : Chip :=
  match k.req with
  | .pop timeout => popStage p h k timeout c
  | _ => c

/-- POP (R52 to R61, R66). -/
def execPop (p : Port) (e : Extent) (s : State) : Host.Outcome State Fault Refusal :=
  s.run fun c => c.runRequest .pop .rqc p e 1 (popClaim p)

/-! ## Parked pops -/

/-- PARK_TIMEOUT (R70): an entry whose deadline has passed leaves the table and its POP is answered TIMEOUT; any other expiry has no effect. -/
def takeParkTimeout (p : Port) (tag : Tag) (c : Chip) : Chip :=
  match c.rqc.parked.find? fun e => e.port == p && e.tag == tag with
  | some e => if e.ticksLeft = some 0 then (c.dropParked e).sendAnswer none p ⟨tag, .timeout, [], none⟩ else c
  | none => c

def execParkTimeout (p : Port) (tag : Tag) (s : State) : Host.Outcome State Fault Refusal := s.run (takeParkTimeout p tag)

/-- R69: `p`'s parked entries are offered a steal search each, oldest first, until one fails. The parent states all these searches read (R61, R85) are
read at one moment, with no CANCEL_FRAME and no CONFIGURE of STEALABLE between two searches: the model's choice (log 32). -/
def offerSteals : Nat → Port → Chip → Chip
  | 0, _, c => c
  | n + 1, p, c =>
    match (c.parkedOf p).head? with
    | none => c
    | some e =>
      match c.stealSearch p with
      | (c1, some (i, v)) => offerSteals n p ((c1.dropParked e).sendTake ⟨i, p, e.tag, .stolen v⟩)
      | (c1, none) => c1

/-- STEAL_ENABLE_ON (R69). It waits while a PUSH holds a stack the search may examine. A port that has turned the setting off again is offered
nothing (log 16); the searches' reads are of one moment (log 32). -/
def takeStealEnableOn (p : Port) (c : Chip) : Chip :=
  match c.wires.toRqc.get p with
  | .stealEnableOn :: _ =>
    if Port.all.any fun q => q != p && c.stackHeld q then c
    else
      let c1 := c.dropRqcNotice p
      if (c1.pc p).params.stealEnable then offerSteals (c1.parkedOf p).length p c1 else c1
  | _ => c

def execStealEnableOn (p : Port) (s : State) : Host.Outcome State Fault Refusal := s.run (takeStealEnableOn p)

end Sys2Proof.Machine
end

