-- ==== Sys2Proof/Machine/Frames.lean ====
section
/-! DEFINITION. Join frames (chapter 4): release and its cascade, OPEN_FRAME, CLOSE_FRAME, CANCEL_FRAME, CHILD_END, the cancel walk, QUERY_FRAME, the port-loss notice to the FRT. -/

namespace Sys2Proof.Machine

/-! ## Release -/

/-- R83 steps 1 and 2: a child's end lowers pending and raises the outcome's counter, saturating. -/
def Frame.countEnd (f : Frame) (o : TicketOutcome) : Frame :=
  let g := { f with pending := f.pending - 1 }
  match o with
  | .ok => { g with ok := min (f.ok + 1) Config.counterMax }
  | .failed => { g with failed := min (f.failed + 1) Config.counterMax }
  | .cancelled => { g with cancelled := min (f.cancelled + 1) Config.counterMax }

def Chip.countEnd (c : Chip) (i : FrameNo) (o : TicketOutcome) : Chip := c.setFrame i ((c.frame i).countEnd o)

/-- The outcome summary of a frame at its release (R5, R89). -/
def Frame.toSummary (f : Frame) : Summary := ⟨f.ok, f.failed, f.cancelled, f.state == .cancelling⟩

/-- The frame freed at its next generation (R89 step 3); its counters are left as they were (R84). -/
def Frame.released (f : Frame) : Frame :=
  { f with
    gen := f.gen + 1, state := .free, pending := 0, continuation := none, opener := none, pin := none
    walkPending := false }

/-- R89: the release of frame `i` writes the outcome summary into its continuation, removes the continued frame, frees the frame and lowers the
frames-in-use count. -/
def Chip.freeFrame (c : Chip) (i : FrameNo) : Chip :=
  let f := c.frame i
  let c1 :=
    match f.continuation with
    | some h => c.updTicket h.slot fun t => { t with summary := some f.toSummary, contFrame := none }
    | none => c
  let c2 := c1.setFrame i f.released
  { c2 with frt := { c2.frt with inUse := c2.frt.inUse - 1 } }

/-- R91 steps 2 and 3: without a usable pin port, the releasing port's stack or the shared queue. -/
def Chip.releaseDest (c : Chip) : Option Port → RunList
  | some r => if c.attached r then .stack r else .shared
  | none => .shared

/-- R91: the continuation in slot `i` is sent to the RQC: to its pin port's stack with the pin kept, else without its pin. -/
def Chip.placeContinuation (c : Chip) (i : SlotNo) (pin : Option Port) (rel : Option Port) : Chip :=
  let unpinned : Chip :=
    (c.updTicket i fun t => { t with pin := none }).sendPlace .frt ⟨i, c.releaseDest rel⟩
  match pin with
  | some q => if c.attached q then c.sendPlace .frt ⟨i, .stack q⟩ else unpinned
  | none => unpinned

/-- R88 to R90: the release of frame `i` with releasing port `rel`, and the cascade outward. Each release of a cascade frees one of the 256 frames,
which bounds the depth (`release_enough`, in Laws/Frames.lean). R88 holds only the frame table through a cascade; that the TKS takes no other claim between
its RETIREs (R18), which fixes the order in which its slots reach the free list, and that each is counted at once, is the model's choice (log 33). -/
def release : Nat → FrameNo → Option Port → Chip → Chip
  | 0, _, _, c => c
  | n + 1, i, rel, c =>
    let f := c.frame i
    let c1 := c.freeFrame i
    match f.continuation with
    | none => c1
    | some h =>
      match (c1.ticket h.slot).bind Ticket.parent with
      | none => c1.placeContinuation h.slot f.pin rel
      | some g =>
        if c1.refState g = .cancelling then
          let c2 := (c1.freeSlot h.slot).countEnd g.index .cancelled
          if (c2.frame g.index).pending = 0 then release n g.index rel c2 else c2
        else c1.placeContinuation h.slot f.pin rel

/-- A release (R88): at most 256 frames can be freed by its cascade. -/
def Chip.release (c : Chip) (i : FrameNo) (rel : Option Port) : Chip := Machine.release 257 i rel c

/-- CHILD_END (R83): the end is counted, and a CLOSED or CANCELLING frame whose pending reaches 0 is released. -/
def Chip.endChild (c : Chip) (m : ChildEndMsg) : Chip :=
  let c1 := c.countEnd m.frame.index m.outcome
  let f := c1.frame m.frame.index
  if f.pending = 0 ∧ (f.state = .closed ∨ f.state = .cancelling) then c1.release m.frame.index m.releasing else c1

/-- The oldest CHILD_END. -/
def takeChildEnd (c : Chip) : Chip :=
  match c.wires.childEnds with
  | [] => c
  | m :: rest => ({ c with wires := { c.wires with childEnds := rest } } : Chip).endChild m

def execChildEnd (s : State) : Host.Outcome State Fault Refusal := s.run takeChildEnd

/-! ## OPEN_FRAME -/

/-- The holder test (R105.3): the handle is current, the slot RUNNING, and its entry names `p` as holder. -/
def Chip.holds (c : Chip) (p : Port) (h : Handle) : Bool :=
  (c.slot h.slot).gen == h.gen &&
    (match c.ticket h.slot with
      | some t => t.state == .running
      | none => false) &&
    (match c.runEntry h.slot with
      | some e => e.holder == p
      | none => false)

/-- The lowest-numbered FREE frame (R78.5). -/
def Chip.freeFrameNo (c : Chip) : Option FrameNo :=
  (List.finRange 256).find? fun i => (c.frame i).state == .free

/-- The parent the handoff gives the continuation (R80). -/
def Chip.handoffParent (c : Chip) (cur : Option Handle) : Option FrameRef :=
  match cur with
  | some h => (c.ticket h.slot).bind Ticket.parent
  | none => none

/-- R13: the record of a continuation. -/
def continuationTicket (p : Port) (r : OpenReq) (parent : Option FrameRef) (f : FrameRef) : Ticket where
  state     := .waiting
  kind      := .continuation
  allocator := p
  parent    := parent
  pin       := r.pin
  payload   := r.payload.map storeWord
  context   := r.context.map storeWord
  contFrame := some f
  summary   := none
  requeues  := 0

/-- R80: the current ticket's parent has passed to the continuation. -/
def Chip.clearParent (c : Chip) : Option Handle → Chip
  | some h => c.updTicket h.slot fun t => { t with parent := none }
  | none => c

/-- R79: the opened frame's record. -/
def openedFrame (gen : FrameGen) (p : Port) (h : Handle) (pin : Option Port) : Frame :=
  ⟨gen, .opened, 0, some h, some p, pin, 0, 0, 0, false⟩

/-- R79, R80: the continuation is allocated in slot `i` with the handoff, and frame `n` is opened. -/
def Chip.openWith (c : Chip) (p : Port) (r : OpenReq) (n : FrameNo) (i : SlotNo) : Chip :=
  let f : FrameRef := ⟨n, (c.frame n).gen⟩
  let c1 := (c.clearParent r.current).allocate p i (continuationTicket p r (c.handoffParent r.current) f)
  let c2 := c1.setFrame n (openedFrame (c.frame n).gen p (c.handle i) r.pin)
  { c2 with frt := { c2.frt with inUse := c2.frt.inUse + 1 } }

/-- The claims of an OPEN_FRAME: hub-state read (R77.1, R150), sender (R77.2), current ticket (R77.3), pin port (R77.4), frame, allocation and
handoff (R78 to R80). -/
def openStage (p : Port) (h : Hand) (k : Current) (r : OpenReq) (c : Chip) : Chip :=
  match k.stage with
  | .given =>
    match c.hcu.state with
    | .setup => c.reply h .frt p k .notRunning []
    | .quiescing => c.reply h .frt p k .quiescing []
    | .running => (c.raiseCreation).advance .frt p k .hubRead
  | .hubRead => if c.attached p then c.advance .frt p k .senderRead else c.replyCounted h .frt p k .notAttached []
  | .senderRead =>
    match r.current with
    | some i => if c.holds p i then c.advance .frt p k .currentRead else c.replyCounted h .frt p k .stale []
    | none => c.advance .frt p k .currentRead
  | .currentRead =>
    match r.pin with
    | some q => if c.attached q then c.advance .frt p k .pinRead else c.replyCounted h .frt p k .notAttached []
    | none => c.advance .frt p k .pinRead
  | .pinRead =>
    match c.freeFrameNo with
    | none => c.replyCounted h .frt p k .framesFull []
    | some n =>
      match c.allocCheck p with
      | .error s => c.replyCounted h .frt p k s []
      | .ok i =>
        (c.openWith p r n i).replyCounted h .frt p k .ok (openBody (c.handle i) ⟨n, (c.frame n).gen⟩) (some (c.handle i))
  | _ => c

/-- A claim on the OPEN_FRAME `k`. -/
def openClaim (p : Port) (h : Hand) (k : Current) (c : Chip) : Chip :=
  match k.req with
  | .openFrame r => openStage p h k r c
  | _ => c

/-- OPEN_FRAME (R76 to R81). -/
def execOpenFrame (p : Port) (e : Extent) (s : State) : Host.Outcome State Fault Refusal :=
  s.run fun c => c.runRequest .openFrame .frt p e 4 (openClaim p)

/-! ## CLOSE_FRAME and CANCEL_FRAME -/

/-- The hub-state read and the sender check that CLOSE_FRAME, CANCEL_FRAME, COMPLETE, RENEW and YIELD make first (R86, R95, R105), and then `act`. -/
def gatedStage (b : Block) (p : Port) (h : Hand) (k : Current) (act : Chip → Chip) (c : Chip) : Chip :=
  match k.stage with
  | .given =>
    match c.hcu.state with
    | .setup => c.reply h b p k .notRunning []
    | .running => c.advance b p k .hubRead
    | .quiescing => c.advance b p k .hubRead
  | .hubRead => if c.attached p then c.advance b p k .senderRead else c.reply h b p k .notAttached []
  | .senderRead => act c
  | _ => c

def Chip.setFrameState (c : Chip) (i : FrameNo) (st : FrameState) : Chip := c.setFrame i { c.frame i with state := st }

/-- R86: the FRT acts on the frame as it finds it. -/
def Chip.closeFrame (c : Chip) (h : Hand) (p : Port) (k : Current) (f : FrameRef) : Chip :=
  match c.refState f with
  | .opened =>
    let n := (c.frame f.index).pending
    let c1 := c.setFrameState f.index .closed
    (if n = 0 then c1.release f.index (some p) else c1).reply h .frt p k .ok (countBody n)
  | .closed => c.reply h .frt p k .frameState []
  | .cancelling => c.reply h .frt p k .cancelled []
  | .free => c.reply h .frt p k .badFrame []

/-- A claim on the CLOSE_FRAME `k`. -/
def closeClaim (p : Port) (h : Hand) (k : Current) (c : Chip) : Chip :=
  match k.req with
  | .closeFrame f => gatedStage .frt p h k (fun c => c.closeFrame h p k f) c
  | _ => c

/-- CLOSE_FRAME (R86, R87). -/
def execCloseFrame (p : Port) (e : Extent) (s : State) : Host.Outcome State Fault Refusal :=
  s.run fun c => c.runRequest .closeFrame .frt p e 2 (closeClaim p)

/-- The five lists a walk examines, in order (R98). -/
def walkLists : List RunList := [.stack .p0, .stack .p1, .stack .p2, .stack .p3, .shared]

/-- R97: a walk is appended to the queue. -/
def Chip.queueWalk (c : Chip) (p : Port) (tag : Tag) (f : FrameRef) : Chip :=
  { c with frt := { c.frt with walks := c.frt.walks ++ [⟨f, p, tag, 0, true, walkLists⟩] } }

/-- R95, R96: the FRT acts on the frame as it finds it. -/
def Chip.cancelFrame (c : Chip) (h : Hand) (p : Port) (k : Current) (f : FrameRef) : Chip :=
  match c.refState f with
  | .free => c.reply h .frt p k .badFrame []
  | .cancelling => c.reply h .frt p k .ok (countBody 0)
  | st =>
    if (c.frame f.index).pending = 0 ∧ st = .opened then
      ((c.setFrameState f.index .cancelling).release f.index (some p)).reply h .frt p k .ok (countBody 0)
    else if Config.walkCapacity ≤ c.frt.walks.length ∨ (c.frt.walks.any fun w => w.frame == f) = true then
      c.reply h .frt p k .busy []
    else
      ((c.setFrame f.index { c.frame f.index with state := .cancelling, walkPending := true }).queueWalk p k.tag f).endAt
        .frt p k

/-- A claim on the CANCEL_FRAME `k`. -/
def cancelClaim (p : Port) (h : Hand) (k : Current) (c : Chip) : Chip :=
  match k.req with
  | .cancelFrame f => gatedStage .frt p h k (fun c => c.cancelFrame h p k f) c
  | _ => c

/-- CANCEL_FRAME (R95, R96). -/
def execCancelFrame (p : Port) (e : Extent) (s : State) : Host.Outcome State Fault Refusal :=
  s.run fun c => c.runRequest .cancelFrame .frt p e 2 (cancelClaim p)

/-! ## The cancel walk -/

/-- Whether a slot's ticket names the frame reference, index and generation (R98). -/
def Chip.names (c : Chip) (i : SlotNo) (f : FrameRef) : Bool := (c.ticket i).bind Ticket.parent == some f

/-- RETIRE with outcome CANCELLED and no releasing port for each of the walk's tickets (R98). R98 gives no order for the tickets of one step, which is the
order in which their slots reach the free list: the model sends them as the list is read, stack top first or queue head first (log 31). -/
def Chip.retireWalked (c : Chip) (is : List SlotNo) : Chip :=
  is.foldl (fun c i => c.sendRetire .walk ⟨i, .cancelled, none⟩) c

/-- CANCEL_WALK_STEP (R98): the head walk's next list. It waits while a PUSH holds that list. -/
def takeWalkStep (c : Chip) : Chip :=
  match c.frt.walks with
  | [] => c
  | w :: ws =>
    match w.todo with
    | [] => c
    | r :: todo =>
      if c.listHeld r then c
      else
        let hit := (c.runList r).filter fun i => c.names i w.frame
        let c1 := c.setRunList r ((c.runList r).filter fun i => !c.names i w.frame)
        let c2 : Chip :=
          { c1 with
            frt := { c1.frt with walks := { w with removed := w.removed + hit.length, todo := todo } :: ws } }
        c2.retireWalked hit

def execCancelWalkStep (s : State) : Host.Outcome State Fault Refusal := s.run takeWalkStep

/-- R99: the frame's walk pending falls when the walk's reference is still current. -/
def Chip.clearWalkPending (c : Chip) (f : FrameRef) : Chip :=
  if (c.frame f.index).gen = f.gen then c.setFrame f.index { c.frame f.index with walkPending := false } else c

/-- CANCEL_WALK_END (R99): after its fifth step the head walk is removed and answered when its mark is set; an empty queue is reported to the HCU. -/
def takeWalkEnd (c : Chip) : Chip :=
  match c.frt.walks with
  | [] => c
  | w :: ws =>
    if w.todo = [] then
      let c1 : Chip := { c with frt := { c.frt with walks := ws } }
      let c2 := if w.answer then c1.sendAnswer (some .frt) w.port ⟨w.tag, .ok, countBody w.removed, none⟩ else c1
      let c3 := c2.clearWalkPending w.frame
      if ws = [] then c3.callCheck else c3
    else c

def execCancelWalkEnd (s : State) : Host.Outcome State Fault Refusal := s.run takeWalkEnd

/-- FRT_PORT_LOSS_NOTICE (R99, R135, R138): the answer marks of the port's walks are cleared. -/
def takeFrtNotice (p : Port) (c : Chip) : Chip :=
  if c.wires.toFrt.get p then
    { c with
      frt := { c.frt with walks := c.frt.walks.map fun w => if w.port = p then { w with answer := false } else w }
      wires := { c.wires with toFrt := c.wires.toFrt.set p false } }
  else c

def execFrtPortLossNotice (p : Port) (s : State) : Host.Outcome State Fault Refusal := s.run (takeFrtNotice p)

/-! ## QUERY FRAME -/

/-- R102: the report of a current, non-FREE frame. -/
def Chip.queryFrame (c : Chip) (h : Hand) (p : Port) (k : Current) (f : FrameRef) : Chip :=
  match c.refState f with
  | .free => c.reply h .frt p k .badFrame []
  | _ => c.reply h .frt p k .ok (frameBody (c.frame f.index))

/-- The claim on the QUERY FRAME `k`. -/
def queryFrameClaim (p : Port) (h : Hand) (k : Current) (c : Chip) : Chip :=
  match k.req with
  | .queryFrame f => c.queryFrame h p k f
  | _ => c

/-- QUERY_FRAME (R102, R161). -/
def execQueryFrame (p : Port) (e : Extent) (s : State) : Host.Outcome State Fault Refusal :=
  s.run fun c => c.runRequest .queryFrame .frt p e 0 (queryFrameClaim p)

end Sys2Proof.Machine
end

