-- ==== Sys2Proof/Machine/Hub.lean ====
section
/-! DEFINITION. Hub states and configuration (chapter 7): QUERY_HUB, QUERY_PORT, CONFIGURE_GLOBAL, CONFIGURE_PORT, START, QUIESCE, COMPLETION_CHECK, QUIESCE_COMPLETION, SETUP_NOTICE, TICK, RST_N_ASSERT, RST_N_DEASSERT, and the REFCLK period. -/

namespace Sys2Proof.Machine

/-! ## START, QUIESCE and quiesce completion -/

def Chip.setHubState (c : Chip) (h : HubState) : Chip := { c with hcu := { c.hcu with state := h } }

/-- R148: from an ATTACHED sender the hub becomes, or stays, RUNNING; a completion due before this START has no effect (R152). -/
def startClaim (p : Port) (h : Hand) (k : Current) (c : Chip) : Chip :=
  match k.req with
  | .start =>
    if c.attached p then
      ({ c with hcu := { c.hcu with state := .running, completionDue := false } } : Chip).reply h .hcu p k .ok
        (hubStateBody .running)
    else c.reply h .hcu p k .notAttached []
  | _ => c

/-- START (R148). -/
def execStart (p : Port) (e : Extent) (s : State) : Host.Outcome State Fault Refusal :=
  s.run fun c => c.runRequest .start .hcu p e 0 (startClaim p)

/-- A completion check is made at once after the QUIESCE when the creation count is 0 (R151). -/
def Chip.beginQuiesce (c : Chip) : Chip :=
  let c1 := c.setHubState .quiescing
  if c.hcu.creation = 0 then c1.callCheck else c1

/-- R149. -/
def quiesceClaim (p : Port) (h : Hand) (k : Current) (c : Chip) : Chip :=
  match k.req with
  | .quiesce =>
    if c.attached p then
      match c.hcu.state with
      | .running => c.beginQuiesce.reply h .hcu p k .ok (hubStateBody .quiescing)
      | .quiescing => c.reply h .hcu p k .ok (hubStateBody .quiescing)
      | .setup => c.reply h .hcu p k .denied []
    else c.reply h .hcu p k .notAttached []
  | _ => c

/-- QUIESCE (R149). -/
def execQuiesce (p : Port) (e : Extent) (s : State) : Host.Outcome State Fault Refusal :=
  s.run fun c => c.runRequest .quiesce .hcu p e 0 (quiesceClaim p)

/-- The quiesce completion condition (R151). -/
def Chip.quiesceComplete (c : Chip) : Bool :=
  c.hcu.state == .quiescing && c.hcu.creation == 0 && c.tks.free.length == Config.slots && c.frt.walks.isEmpty

/-- COMPLETION_CHECK (R151): a call for a check is taken; when the condition holds the quiesce completion is due. -/
def takeCheck (c : Chip) : Chip :=
  if c.hcu.checks = 0 then c
  else
    { c with
      hcu := { c.hcu with checks := c.hcu.checks - 1, completionDue := c.hcu.completionDue || c.quiesceComplete } }

def execCompletionCheck (s : State) : Host.Outcome State Fault Refusal := s.run takeCheck

/-- QUIESCE_COMPLETION (R152): in QUIESCING, with no START since its check, the hub becomes SETUP and the SETUP notice is sent. -/
def takeCompletion (c : Chip) : Chip :=
  if c.hcu.completionDue then
    let c1 : Chip := { c with hcu := { c.hcu with completionDue := false } }
    if c.hcu.state = .quiescing then
      let c2 := c1.setHubState .setup
      { c2 with wires := { c2.wires with setup := c2.wires.setup + 1 } }
    else c1
  else c

def execQuiesceCompletion (s : State) : Host.Outcome State Fault Refusal := s.run takeCompletion

/-- SETUP_NOTICE (R71, R152): every parked entry is removed and its POP answered NOT_RUNNING. It waits while a POP is under way, which has passed its
hub-state check and may still park: such a POP has ended when the notice is taken (R152). -/
def takeSetupNotice (c : Chip) : Chip :=
  if c.wires.setup = 0 ∨ c.popUnderway = true then c
  else
    let c1 : Chip := { c with wires := { c.wires with setup := c.wires.setup - 1 } }
    (c1.setParked []).answerParked c.rqc.parked .notRunning

def execSetupNotice (s : State) : Host.Outcome State Fault Refusal := s.run takeSetupNotice

/-! ## CONFIGURE -/

/-- The ranges of the global parameters (section 7.3). -/
def globalInRange : GlobalParam × Nat → Bool
  | (.quota _, v) => decide (v ≤ 1024)
  | (.sqLimit, v) => decide (v ≤ 1024)
  | (.requeueLimit, v) => decide (v ≤ 7)

/-- One item written (R154). -/
def Hcu.write (h : Hcu) : GlobalParam × Nat → Hcu
  | (.quota p, v) => { h with quota := h.quota.set p v }
  | (.sqLimit, v) => { h with sqLimit := v }
  | (.requeueLimit, v) => { h with requeueLimit := v }

/-- R154, R155: sender, scope, range, then the items in order. -/
def configureGlobalClaim (p : Port) (h : Hand) (k : Current) (c : Chip) : Chip :=
  match k.req with
  | .configureGlobal items =>
    if c.attached p = false then c.reply h .hcu p k .notAttached []
    else if c.hcu.state ≠ .setup then c.reply h .hcu p k .denied []
    else if items.all globalInRange then ({ c with hcu := items.foldl Hcu.write c.hcu } : Chip).reply h .hcu p k .ok []
    else c.reply h .hcu p k .badRequest []
  | _ => c

/-- CONFIGURE_GLOBAL (R154, R155). -/
def execConfigureGlobal (p : Port) (e : Extent) (s : State) : Host.Outcome State Fault Refusal :=
  s.run fun c => c.runRequest .configureGlobal .hcu p e 0 (configureGlobalClaim p)

/-- The ranges of the per-port parameters (section 7.3, R169). -/
def portInRange : PortParam × Nat → Bool
  | (.depthLimit, v) => decide (1 ≤ v ∧ v ≤ 1024)
  | (.spill, v) => decide (v ≤ 1)
  | (.stealable, v) => decide (v ≤ 1)
  | (.stealEnable, v) => decide (v ≤ 1)
  | (.leaseTime, v) => decide (v ≤ 65535)
  | (.eventMask, v) => decide (v ≤ 31)

/-- One item written (R154, R156). -/
def Params.write (q : Params) : PortParam × Nat → Params
  | (.depthLimit, v) => { q with depthLimit := v }
  | (.spill, v) => { q with spill := v == 1 }
  | (.stealable, v) => { q with stealable := v == 1 }
  | (.stealEnable, v) => { q with stealEnable := v == 1 }
  | (.leaseTime, v) => { q with leaseTime := v }
  | (.eventMask, v) => { q with eventMask := .ofCode v }

/-- The changes of R156 that the RQC acts on at once: STEALABLE and STEAL_ENABLE from OFF to ON. -/
def Chip.passOn (c : Chip) (p : Port) (old new : Params) : Chip :=
  let c1 := if !old.stealable && new.stealable then c.notifyRqc p .stealableOn else c
  if !old.stealEnable && new.stealEnable then c1.notifyRqc p .stealEnableOn else c1

/-- R156: the parameters written, WAKE re-evaluated, the changes passed on. -/
def Chip.writeParams (c : Chip) (p : Port) (items : List (PortParam × Nat)) : Chip :=
  let old := (c.pc p).params
  let new := items.foldl Params.write old
  (c.updPc p fun x => { x with params := new }.evalWake).passOn p old new

/-- R154, R156: sender, scope, range, then the items in order. -/
def configurePortClaim (p : Port) (c : Chip) : Chip :=
  match (c.pc p).current with
  | some ⟨tag, .configurePort q items, .given⟩ =>
    if c.attached p = false then c.finish p tag .notAttached []
    else if q ≠ p then c.finish p tag .denied []
    else if items.all portInRange then (c.writeParams p items).finish p tag .ok []
    else c.finish p tag .badRequest []
  | _ => c

/-- CONFIGURE_PORT (R154, R156). -/
def execConfigurePort (p : Port) (s : State) : Host.Outcome State Fault Refusal :=
  s.run fun c => c.runOwn .configurePort p (configurePortClaim p)

/-! ## QUERY HUB and QUERY PORT -/

/-- What Port Controller `q` reports of itself (R160). -/
def Pc.settings (x : Pc) : PortSettings :=
  ⟨x.state.code, x.params.depthLimit, x.params.spill, x.params.stealable, x.params.stealEnable, x.params.leaseTime, x.errors⟩

/-- One block's part of a QUERY HUB is read (R159, R160). -/
def Chip.readHub (c : Chip) (r : HubReport) : QueryPart → HubReport
  | .hcu => { r with hcu := some c.hcu.state.code }
  | .tks => { r with tks := some c.tks.free.length }
  | .rqc => { r with rqc := some (c.rqc.shared.length, c.rqc.parked.length) }
  | .frt => { r with frt := some (c.frt.inUse, c.frt.walks.length) }
  | .pc _ => r

/-- One block's part of a QUERY PORT for `q` is read (R159, R160). -/
def Chip.readPort (c : Chip) (q : Port) (r : PortReport) : QueryPart → PortReport
  | .pc _ => { r with pc := some (c.pc q).settings }
  | .rqc => { r with rqc := some ((c.stack q).length, (c.parkedOf q).length) }
  | .tks => { r with tks := some (c.tks.alloc.get q) }
  | .hcu => { r with hcu := some (c.hcu.quota.get q) }
  | .frt => r

/-- One block's part of a gather is read. -/
def Chip.readPart (c : Chip) (g : Gather) (b : QueryPart) : Gather :=
  match g.parts with
  | .hub r => { g with parts := .hub (c.readHub r b) }
  | .port q r => { g with parts := .port q (c.readPort q r b) }

/-- The OK body once every part has been read. -/
def HubReport.body (r : HubReport) : Option (List Word) :=
  match r.hcu, r.tks, r.rqc, r.frt with
  | some h, some t, some q, some f => some (hubBody h t q.1 f.1 q.2 f.2)
  | _, _, _, _ => none

def PortReport.body (r : PortReport) : Option (List Word) :=
  match r.pc, r.rqc, r.tks, r.hcu with
  | some m, some d, some a, some u => some (portBody m d.1 d.2 a u)
  | _, _, _, _ => none

def Gather.body (g : Gather) : Option (List Word) :=
  match g.parts with
  | .hub r => r.body
  | .port _ r => r.body

/-- Whether a gather is a QUERY HUB. -/
def Gather.isHub (g : Gather) : Bool :=
  match g.parts with
  | .hub _ => true
  | .port _ _ => false

/-- The gather of a tag becomes `g`, or is answered by the Port Controller and is no more when every part has been read (R159). -/
def Chip.putGather (c : Chip) (p : Port) (g : Gather) : Chip :=
  match g.body with
  | some body =>
    (c.updPc p fun x => { x with gathers := x.gathers.filter fun y => y.tag != g.tag }).respond p g.tag .ok body
  | none => c.updPc p fun x => { x with gathers := x.gathers.map fun y => if y.tag = g.tag then g else y }

/-- Block `b` reads its part of the port's oldest gather that lacks it, so that no later QUERY reads an older value from the same block (R159), when that is
a QUERY HUB or a QUERY PORT as `hub` says. The RQC reads its part also while a PUSH holds the shared queue and its target's stack: R46 does not say whether a
read is a claim on a list, and that it is none is the model's choice (log 34). -/
def gatherPart (p : Port) (hub : Bool) (b : QueryPart) (c : Chip) : Chip :=
  match (c.pc p).gathers.find? fun g => g.lacks b with
  | some g => if g.isHub = hub then c.putGather p (c.readPart g b) else c
  | none => c

/-- The parts of a QUERY HUB, and of a QUERY PORT. -/
def hubParts : List QueryPart := [.hcu, .tks, .rqc, .frt]
def portParts : List QueryPart := [.pc .p0, .pc .p1, .pc .p2, .pc .p3, .rqc, .tks, .hcu]

/-- A step of QUERY HUB or QUERY PORT: `whole` dispatches the head, when it is one and none of the kind is under way, and reads every part. -/
def Chip.runGather (c : Chip) (row : ReqRow) (p : Port) (hub : Bool) (parts : List QueryPart) : Gathering → Chip
  | .dispatch => c.dispatchHead row p
  | .part b => gatherPart p hub b c
  | .whole =>
    parts.foldl (fun c b => gatherPart p hub b c)
      (if (c.pc p).gathers.any fun g => g.isHub == hub then c else c.dispatchHead row p)

/-- QUERY_HUB (R159, R160). -/
def execQueryHub (p : Port) (g : Gathering) (s : State) : Host.Outcome State Fault Refusal :=
  s.run fun c => c.runGather .queryHub p true hubParts g

/-- QUERY_PORT (R159, R160). -/
def execQueryPort (p : Port) (g : Gathering) (s : State) : Host.Outcome State Fault Refusal :=
  s.run fun c => c.runGather .queryPort p false portParts g

/-! ## The tick, the clock, reset -/

/-- A deadline one tick nearer (R111, R158). -/
def tickDown (t : Option Nat) : Option Nat := t.map (· - 1)

/-- A tick boundary (R158): the tick count rises by one modulo 2^32, every deadline is one tick nearer, and the periods of the next tick are counted. -/
def Chip.tickBoundary (c : Chip) : Chip :=
  { c with
    hcu := { c.hcu with tick := c.hcu.tick + 1, refPhase := 0 }
    ltu := { c.ltu with running := c.ltu.running.map fun e => { e with ticksLeft := tickDown e.ticksLeft } }
    rqc := { c.rqc with parked := c.rqc.parked.map fun e => { e with ticksLeft := tickDown e.ticksLeft } } }

/-- TICK (R158, R194, R196): the tick boundary, once 200 REFCLK periods have passed since the one before or since reset; no effect before (log 4). -/
def takeTick (c : Chip) : Chip := if Config.tickPeriods ≤ c.hcu.refPhase then c.tickBoundary else c

def execTick (s : State) : Host.Outcome State Fault Refusal := s.run takeTick

/-- The running link timers and the count of periods since the tick boundary advance by one period. -/
def Chip.advancePeriod (c : Chip) : Chip :=
  { c with
    hcu := { c.hcu with refPhase := c.hcu.refPhase + 1 }
    links := .tab fun p => (c.links.get p).period }

/-- One REFCLK period with no command taken (R196; log 4). A tick boundary that is due and that no TICK has taken comes before it, so that ticks are 200 periods
apart (R158). -/
def Chip.period (c : Chip) : Chip := (takeTick c).advancePeriod

/-- The hub while RST_N is held: every operation is abandoned, the WAKE lines deasserted, the tick count 0 (R157; log 7). -/
def Chip.held (straps : PerPort Bool) : Chip := { Chip.powerOn straps with rst := true }

/-- RST_N_ASSERT (R157, R194): taken at any moment. -/
def execRstNAssert (s : State) : Host.Outcome State Fault Refusal := .next { s with chip := .held s.chip.straps }

/-- RST_N_DEASSERT (R157, R194): the straps are sampled and every block begins from its power-on values. -/
def execRstNDeassert (straps : PerPort Bool) (s : State) : Host.Outcome State Fault Refusal :=
  .next { s with chip := if s.chip.rst then .powerOn straps else s.chip }

end Sys2Proof.Machine
end

