-- ==== Sys2Proof/Machine/Ports.lean ====
section
/-! DEFINITION. Ports, attachment and wake events (chapter 6): ATTACH, ATTACH_NOTICE_RQC, DETACH, DETACH_END, FETCH_EVENTS, PENDING_EVENT_RECORD, LINK_UP_REPORT, PORT_LOSS, PORT_LOSS_END, LINK_DOWN_FROM_LINKED. -/

namespace Sys2Proof.Machine

/-- The next report of the Link Engine, if any (R176). -/
def Chip.report (c : Chip) (p : Port) : Option Report := (c.link p).reports.head?

/-- The Port Controller takes the next report. -/
def Chip.dropReport (c : Chip) (p : Port) : Chip := c.updLink p fun l => { l with reports := l.reports.tail }

/-! ## ATTACH -/

/-- The notices of an ATTACH have been taken by the RQC and the LTU (R127 step 5). -/
def Chip.noticesTaken (c : Chip) (p : Port) : Bool :=
  !((c.wires.toRqc.get p).contains .attach) && !((c.wires.toLtu.get p).contains .attach)

/-- R127 steps 1 to 4. -/
def Chip.beginAttach (c : Chip) (p : Port) : Chip :=
  let c1 := (c.setStage p .attaching).updPc p fun x => { x with params := .default, events := .none }.evalWake
  (c1.notifyRqc p .attach).notifyLtu p .attach

/-- R127 steps 5 to 7. -/
def Chip.endAttach (c : Chip) (p : Port) (tag : Tag) : Chip :=
  ((c.updPc p fun x => { x with state := .attached }.evalWake).raisePeerChange p).finish p tag .ok []

/-- ATTACH as its Port Controller takes it: DENIED from an ATTACHED port; from a LINKED one begun, and ended once both notices are taken. -/
def attachClaim (p : Port) (c : Chip) : Chip :=
  match (c.pc p).current with
  | some ⟨tag, .attach, .given⟩ => if c.attached p then c.finish p tag .denied [] else c.beginAttach p
  | some ⟨tag, .attach, .attaching⟩ => if c.noticesTaken p then c.endAttach p tag else c
  | _ => c

/-- ATTACH (R127, R128). -/
def execAttach (p : Port) (s : State) : Host.Outcome State Fault Refusal := s.run fun c => c.runOwn .attach p (attachClaim p)

/-- ATTACH_NOTICE_RQC (R56, R127): the steal pointer is set to the next port and the leave treatment cleared. -/
def takeAttachRqc (p : Port) (c : Chip) : Chip :=
  match c.wires.toRqc.get p with
  | .attach :: _ =>
    let c1 := c.dropRqcNotice p
    { c1 with rqc := { c1.rqc with stealPtr := c1.rqc.stealPtr.set p p.next, left := c1.rqc.left.set p false } }
  | _ => c

def execAttachNoticeRqc (p : Port) (s : State) : Host.Outcome State Fault Refusal := s.run (takeAttachRqc p)

/-! ## DETACH -/

/-- R130: from an ATTACHED port the hold check is sent; from a LINKED one the answer is NOT_ATTACHED. -/
def detachClaim (p : Port) (c : Chip) : Chip :=
  match (c.pc p).current with
  | some ⟨tag, .detach, .given⟩ =>
    if c.attached p then (c.setStage p .holdWait).notifyLtu p .holdCheck else c.finish p tag .notAttached []
  | _ => c

/-- DETACH (R130). -/
def execDetach (p : Port) (s : State) : Host.Outcome State Fault Refusal := s.run fun c => c.runOwn .detach p (detachClaim p)

/-- The OK of a DETACH whose leave has ended. -/
def Chip.answerDetach (c : Chip) (p : Port) : Chip :=
  match (c.pc p).current with
  | some ⟨tag, .detach, .leaving⟩ => c.finish p tag .ok []
  | _ => c

/-- DETACH_END (R131 step 3): on the RQC's report the port is LINKED, its parameters return to their defaults, PEER_CHANGE is raised and the DETACH
answered OK. The OK may stand before or after the EMPTY answers of the port's parked pops, which may still be on their way (R131; log 29). Events on their
way to the port were raised while it was ATTACHED, and are discarded (R141). -/
def takeDetachEnd (p : Port) (c : Chip) : Chip :=
  if (c.pc p).leave = .detach ∧ c.rqcLeaveEnded p = true then
    (((c.dropEvents p).updPc p fun x => { x with state := .linked, leave := .no, params := .default }.evalWake).raisePeerChange
      p).answerDetach p
  else c

def execDetachEnd (p : Port) (s : State) : Host.Outcome State Fault Refusal := s.run (takeDetachEnd p)

/-! ## Events -/

/-- R143: the set is read, emptied and answered in one claim, and WAKE re-evaluated. -/
def fetchClaim (p : Port) (c : Chip) : Chip :=
  match (c.pc p).current with
  | some ⟨tag, .fetchEvents, .given⟩ =>
    (c.updPc p fun x => { x with events := .none }.evalWake).finish p tag .ok (eventsBody (c.pc p).events)
  | _ => c

/-- FETCH_EVENTS (R143). -/
def execFetchEvents (p : Port) (s : State) : Host.Outcome State Fault Refusal :=
  s.run fun c => c.runOwn .fetchEvents p (fetchClaim p)

/-- PENDING_EVENT_RECORD (R141): an event of the kind on its way to the port is taken, recorded or discarded by the port's state. -/
def takeEvent (p : Port) (k : EventKind) (c : Chip) : Chip :=
  if (c.wires.events.get p).contains k then
    ({ c with wires := { c.wires with events := c.wires.events.upd p (·.erase k) } } : Chip).updPc p fun x => x.record k
  else c

def execPendingEventRecord (p : Port) (kind : EventKind) (s : State) : Host.Outcome State Fault Refusal :=
  s.run (takeEvent p kind)

/-! ## Link up -/

/-- R124, R165, R171: the Port Controller at the link-up event. -/
def Pc.linkUp (x : Pc) : Pc :=
  { x with
    state := .linked, leave := .no, outstanding := [], buffer := [], granted := Config.bufferCapacity
    current := none, atBlock := .same none, gathers := [], reserved := 0, responses := [], credit := 0, discarding := false
    events := .none, errors := 0 }.evalWake

/-- LINK_UP_REPORT (R124): taken by a DOWN port that is not leaving; 8 request credits are handed to the Link Engine (R165, R189). -/
def takeLinkUp (p : Port) (c : Chip) : Chip :=
  if c.report p = some .linkUp ∧ (c.pc p).state = .down ∧ (c.pc p).leave = .no then
    ((c.dropReport p).updPc p Pc.linkUp).updLink p fun l => l.addCredits Config.bufferCapacity
  else c

def execLinkUpReport (p : Port) (s : State) : Host.Outcome State Fault Refusal := s.run (takeLinkUp p)

/-! ## Port loss -/

/-- A DETACH the loss has ended (R133) is no longer under way; any other dispatched request is. -/
def endedDetach : Option Current → Option Current
  | some ⟨_, .detach, _⟩ => none
  | k => k

/-- R134 steps 1 to 3 at the Port Controller. -/
def Pc.lose (x : Pc) : Pc :=
  { x with
    leave := .loss, buffer := [], events := .none, responses := [], discarding := true
    current := endedDetach x.current }.evalWake

/-- The port-leave claim of a loss is sent to the RQC; a DETACH's claim that the RQC has not taken is marked as a loss instead, and one it has taken
stands (R133, R134). -/
def Chip.claimLoss (c : Chip) (p : Port) : Chip :=
  match (c.pc p).leave with
  | .detach =>
    { c with
      wires := { c.wires with
        toRqc := c.wires.toRqc.upd p (·.map fun n => if n = .leave false then .leave true else n) } }
  | _ => c.notifyRqc p (.leave true)

/-- PORT_LOSS (R134): the link-down report of an ATTACHED port. Events on their way to the port are discarded (R141). -/
def takePortLoss (p : Port) (c : Chip) : Chip :=
  if c.report p = some .linkDown ∧ c.attached p = true ∧ ((c.pc p).leave = .no ∨ (c.pc p).leave = .detach) then
    (((((c.dropReport p).claimLoss p).notifyLtu p .loss)).dropEvents p).updPc p Pc.lose
  else c

def execPortLoss (p : Port) (s : State) : Host.Outcome State Fault Refusal := s.run (takePortLoss p)

/-- R135 steps 2 to 4: tags and reservations are freed, the parameters return to their defaults, the port is DOWN. -/
def Pc.goDown (x : Pc) : Pc :=
  { x with
    state := .down, leave := .no, outstanding := [], reserved := 0, events := .none, params := .default }.evalWake

def Chip.sendFrtNotice (c : Chip) (p : Port) : Chip :=
  { c with wires := { c.wires with toFrt := c.wires.toFrt.set p true } }

def Chip.setLeave (c : Chip) (p : Port) (l : Leave) : Chip := c.updPc p fun x => { x with leave := l }

/-- Whether the FRT has taken the port-loss notice, and no answer it or another block produced for the port is on its way (R135, R138). -/
def Chip.noticeTaken (c : Chip) (p : Port) : Bool := !(c.wires.toFrt.get p) && (c.wires.answers.get p).isEmpty

/-- Whether both claims of a loss have ended (R135). -/
def Chip.claimsEnded (c : Chip) (p : Port) : Bool := c.rqcLeaveEnded p && c.ltuLossEnded p

/-- PORT_LOSS_END (R135): once both claims have ended and every dispatched request is taken and answered, the notice to the FRT is sent; once that is taken, and
no answer is on its way any more (R134: each produced before the port is next LINKED is discarded), the port becomes DOWN and PEER_CHANGE is raised. -/
def takePortLossEnd (p : Port) (c : Chip) : Chip :=
  match (c.pc p).leave with
  | .loss =>
    if c.claimsEnded p && c.requestsEnded p then (c.sendFrtNotice p).setLeave p .lossNoticed else c
  | .lossNoticed =>
    if c.noticeTaken p then ((c.dropEvents p).updPc p Pc.goDown).raisePeerChange p else c
  | _ => c

def execPortLossEnd (p : Port) (s : State) : Host.Outcome State Fault Refusal := s.run (takePortLossEnd p)

/-! ## Link down from LINKED -/

/-- R138, first point: the buffer and the response queue are discarded, and responses produced from here on. -/
def Pc.drop (x : Pc) : Pc := { x with leave := .linkDown, buffer := [], responses := [], discarding := true }

/-- The link-down report of a LINKED port: an ATTACH that waits for its notices ends unanswered (R127), else R138 begins. -/
def Chip.beginLinkDown (c : Chip) (p : Port) : Chip :=
  match (c.pc p).current with
  | some ⟨_, .attach, .attaching⟩ => (c.taken p).setLeave p .attachAborted
  | _ => c.updPc p Pc.drop

/-- LINK_DOWN_FROM_LINKED (R138, R127): each part of it as soon as what it waits for has come about. -/
def takeLinkDown (p : Port) (c : Chip) : Chip :=
  match (c.pc p).leave with
  | .no =>
    if c.report p = some .linkDown ∧ (c.pc p).state = .linked then (c.dropReport p).beginLinkDown p else c
  | .attachAborted =>
    if c.noticesTaken p then ((c.notifyRqc p (.leave true)).notifyLtu p .loss).setLeave p .attachUndone else c
  | .attachUndone => if c.claimsEnded p then c.updPc p Pc.drop else c
  | .linkDown =>
    if c.requestsEnded p then (c.sendFrtNotice p).setLeave p .linkDownNoticed else c
  | .linkDownNoticed => if c.noticeTaken p then c.updPc p Pc.goDown else c
  | _ => c

def execLinkDownFromLinked (p : Port) (s : State) : Host.Outcome State Fault Refusal := s.run (takeLinkDown p)

end Sys2Proof.Machine
end

