-- ==== Sys2Proof/Machine/Requests.lean ====
section
/-! DEFINITION. Requests and responses at the Port Controller (chapter 8): NOP_ECHO, REQUEST_ARRIVAL, SEND_RESPONSE, RECEIVED_CREDIT. -/

namespace Sys2Proof.Machine

/-- R173: the body is answered word for word. -/
def echoClaim (p : Port) (c : Chip) : Chip :=
  match (c.pc p).current with
  | some ⟨tag, .nopEcho body, .given⟩ => c.finish p tag .ok body
  | _ => c

/-- NOP_ECHO (R173). -/
def execNopEcho (p : Port) (s : State) : Host.Outcome State Fault Refusal :=
  s.run fun c => c.runOwn .nopEcho p (echoClaim p)

/-- A Port Controller whose link is up as it knows it: LINKED or ATTACHED, and not past a link-down report. -/
def Pc.online (x : Pc) : Bool :=
  (x.state == .linked || x.state == .attached) && (x.leave == .no || x.leave == .detach)

/-- An accepted request: it enters the input buffer, its tag is outstanding, and it uses one credit (R164). -/
def Pc.accept (x : Pc) (k : Packet) : Pc :=
  { x with buffer := x.buffer ++ [k], outstanding := x.outstanding ++ [k.tag], granted := x.granted - 1 }

/-- R164: the three arrival checks. A packet discarded at check 2 or 3 uses a credit and returns it at once; each discard is a protocol error. -/
def Chip.arrive (c : Chip) (p : Port) (words : List Word) : Chip :=
  if (c.pc p).granted = 0 then c.updPc p Pc.protocolError
  else
    match decodeHeader words with
    | none => (c.updPc p Pc.protocolError).updLink p fun l => l.addCredits 1
    | some k =>
      if (c.pc p).outstanding.contains k.tag then
        (c.updPc p Pc.protocolError).updLink p fun l => l.addCredits 1
      else c.updPc p fun x => x.accept k

/-- REQUEST_ARRIVAL (R164): the accepted-packet report at the head of the stream. -/
def takeArrival (p : Port) (c : Chip) : Chip :=
  match c.report p with
  | some (.packet words) => if (c.pc p).online then (c.dropReport p).arrive p words else c
  | _ => c

def execRequestArrival (p : Port) (s : State) : Host.Outcome State Fault Refusal := s.run (takeArrival p)

/-- Whether a RETIRE on its way to the TKS names slot `i`. -/
def Chip.retiring (c : Chip) (i : SlotNo) : Bool :=
  (c.wires.retireRqc ++ c.wires.retireLtu ++ c.wires.retireWalk).any fun m => m.slot == i

/-- Whether the handle a response reports is still current although its ticket's RETIRE has been sent: R1 and R63 have it stale by the time the response
leaves. -/
def Chip.awaitsRetire (c : Chip) (r : Response) : Bool :=
  match r.handle with
  | some h => (c.slot h.slot).gen == h.gen && c.retiring h.slot
  | none => false

/-- SEND_RESPONSE of the head response (R171, R185): with a response credit and room in the replay buffer, the head response goes to the Link Engine, once a
RETIRE of the ticket it reports has been taken (R1, R63). -/
def takeSend (p : Port) (c : Chip) : Chip :=
  match (c.pc p).responses with
  | [] => c
  | r :: rest =>
    if (c.pc p).online && decide (1 ≤ (c.pc p).credit) && (c.link p).hasRoom && (c.link p).sameSession && !(c.awaitsRetire r) then
      (c.updPc p fun x => { x with responses := rest, credit := x.credit - 1 }).updLink p fun l => l.enqueue r.words
    else c

/-- The answer with a tag among those on their way, oldest first, when none of them comes before it. -/
def nextAnswer (tag : Tag) (l : List Answer) : Option Answer :=
  match l.find? fun a => a.resp.tag == tag with
  | some a => if (l.takeWhile fun x => x.resp.tag != tag).any fun x => x.precedes a.order then none else some a
  | none => none

/-- The response claim of R170 on the answer with a tag that is on its way to `p`. Answers of one block are taken in the order it produced them, those of
different blocks in either order, and the answer of a POP before or after any other (R65, note 2). -/
def takeAnswer (p : Port) (tag : Tag) (c : Chip) : Chip :=
  match nextAnswer tag (c.wires.answers.get p) with
  | some a =>
    ({ c with wires := { c.wires with answers := c.wires.answers.upd p fun l => l.eraseP fun x => x.resp.tag == tag } } : Chip).updPc p
      fun x => x.enqueue a.resp
  | none => c

/-- SEND_RESPONSE (R170, R171; log 29). -/
def execSendResponse (x : Sending) (s : State) : Host.Outcome State Fault Refusal :=
  s.run fun c =>
    match x with
    | .claim p tag => takeAnswer p tag c
    | .head p => takeSend p c

/-- RECEIVED_CREDIT (R171, R190): the response credit rises by n, saturating at 255. -/
def takeCredit (p : Port) (c : Chip) : Chip :=
  match c.report p with
  | some (.credit n) =>
    if (c.pc p).online then
      (c.dropReport p).updPc p fun x => { x with credit := min (x.credit + n) Config.responseCreditMax }
    else c
  | _ => c

def execReceivedCredit (p : Port) (s : State) : Host.Outcome State Fault Refusal := s.run (takeCredit p)

end Sys2Proof.Machine
end

