-- ==== Sys2Proof/Machine/Running.lean ====
section
/-! DEFINITION. Running tickets (chapter 5) and the LTU's part of a port's leave: COMPLETE, RENEW, YIELD, LEASE_EXPIRY, PORT_LOSS_CLAIM_LTU, HOLD_CHECK, ATTACH_NOTICE_LTU. -/

namespace Sys2Proof.Machine

/-- The holder test for a request of `p`, and `act` on the entry when it passes (R105). The request waits while an OPEN_FRAME holds the entry (R81). -/
def Chip.asHolder (c : Chip) (h : Hand) (p : Port) (k : Current) (i : Handle) (act : RunEntry → Chip) : Chip :=
  if c.entryHeld i.slot then c
  else if c.holds p i then
    match c.runEntry i.slot with
    | some e => act e
    | none => c.reply h .ltu p k .stale []
  else c.reply h .ltu p k .stale []

/-- R106: the entry is removed, RETIRE is sent with the result and the sender as releasing port, and the request is answered OK. -/
def Chip.complete (c : Chip) (h : Hand) (p : Port) (k : Current) (i : Handle) (result : TicketOutcome) : Chip :=
  c.asHolder h p k i fun e =>
    ((c.removeEntry e).sendRetire .ltu ⟨i.slot, result, some p⟩).reply h .ltu p k .ok []

/-- A claim on the COMPLETE `k`. -/
def completeClaim (p : Port) (h : Hand) (k : Current) (c : Chip) : Chip :=
  match k.req with
  | .complete i result => gatedStage .ltu p h k (fun c => c.complete h p k i result) c
  | _ => c

/-- COMPLETE (R105, R106). -/
def execComplete (p : Port) (e : Extent) (s : State) : Host.Outcome State Fault Refusal :=
  s.run fun c => c.runRequest .complete .ltu p e 2 (completeClaim p)

/-- The entry of a slot with a new deadline. -/
def Chip.setLease (c : Chip) (i : SlotNo) (ticks : Option Nat) : Chip :=
  { c with
    ltu := { c.ltu with
      running := c.ltu.running.map fun x => if x.slot = i then { x with ticksLeft := ticks } else x } }

/-- R108: the deadline is replaced from LEASE_TIME as it stands, and the remaining time answered. -/
def Chip.renew (c : Chip) (h : Hand) (p : Port) (k : Current) (i : Handle) : Chip :=
  c.asHolder h p k i fun _ => (c.setLease i.slot (c.leaseTicks p)).reply h .ltu p k .ok (renewBody (c.leaseTicks p))

/-- A claim on the RENEW `k`. -/
def renewClaim (p : Port) (h : Hand) (k : Current) (c : Chip) : Chip :=
  match k.req with
  | .renew i => gatedStage .ltu p h k (fun c => c.renew h p k i) c
  | _ => c

/-- RENEW (R105, R108). -/
def execRenew (p : Port) (e : Extent) (s : State) : Host.Outcome State Fault Refusal :=
  s.run fun c => c.runRequest .renew .ltu p e 2 (renewClaim p)

/-- R109: the entry is removed, the generation advances, PLACE goes to the sender's stack top, and the request is answered OK. -/
def Chip.yield (c : Chip) (h : Hand) (p : Port) (k : Current) (i : Handle) : Chip :=
  c.asHolder h p k i fun e =>
    (((c.removeEntry e).advanceGen i.slot).sendPlace .ltu ⟨i.slot, .stack p⟩).reply h .ltu p k .ok []

/-- A claim on the YIELD `k`. -/
def yieldClaim (p : Port) (h : Hand) (k : Current) (c : Chip) : Chip :=
  match k.req with
  | .yield i => gatedStage .ltu p h k (fun c => c.yield h p k i) c
  | _ => c

/-- YIELD (R105, R109). -/
def execYield (p : Port) (e : Extent) (s : State) : Host.Outcome State Fault Refusal :=
  s.run fun c => c.runRequest .yield .ltu p e 2 (yieldClaim p)

/-- An entry is lost to its holder: it is removed and the requeue decision made (R112, R119). -/
def Chip.loseEntry (c : Chip) (e : RunEntry) : Chip := (c.removeEntry e).requeueDecision e.slot e.requeues

/-- LEASE_EXPIRY (R112): the entry is checked again; when its deadline has been reached it is lost to its holder and LEASE_LOST is raised (R115). It
waits while an OPEN_FRAME holds the entry (R81). -/
def takeLeaseExpiry (i : SlotNo) (c : Chip) : Chip :=
  match c.runEntry i with
  | some e =>
    if e.ticksLeft = some 0 ∧ c.entryHeld i = false then (c.loseEntry e).raise e.holder .leaseLost else c
  | none => c

def execLeaseExpiry (slot : SlotNo) (s : State) : Host.Outcome State Fault Refusal := s.run (takeLeaseExpiry slot)

/-- The entries a port holds, in ascending order of slot. -/
def Chip.entriesOf (c : Chip) (p : Port) : List RunEntry := c.ltu.running.filter fun e => e.holder == p

def Chip.loseEntries (c : Chip) (es : List RunEntry) : Chip := es.foldl (fun c e => c.loseEntry e) c

def Chip.setDeparted (c : Chip) (p : Port) (d : Option Departed) : Chip :=
  { c with ltu := { c.ltu with departed := c.ltu.departed.set p d } }

/-- PORT_LOSS_CLAIM_LTU (R119): every entry of the port, in ascending order of slot, is lost to it, and the port is marked lost (R126, R133). It waits
while an OPEN_FRAME holds one of the entries (R81). The parent states its requeue decisions read (R113, R117) are read at one moment: no CANCEL_FRAME is taken
between two of them (the model's choice, log 32). -/
def takeLossClaim (p : Port) (c : Chip) : Chip :=
  match c.wires.toLtu.get p with
  | .loss :: _ =>
    if (c.entriesOf p).any fun e => c.entryHeld e.slot then c
    else ((c.dropLtuNotice p).setDeparted p (some .lost)).loseEntries (c.entriesOf p)
  | _ => c

def execPortLossClaimLtu (p : Port) (s : State) : Host.Outcome State Fault Refusal := s.run (takeLossClaim p)

/-- The tag of a DETACH that waits for its hold check; the answer of a check whose DETACH a loss has ended is discarded (R133). -/
def Chip.detachWaiting (c : Chip) (p : Port) : Option Tag :=
  match (c.pc p).leave, (c.pc p).current with
  | .no, some ⟨tag, .detach, .holdWait⟩ => some tag
  | _, _ => none

/-- R131: the leave of a DETACH begins: the pending set is emptied, WAKE deasserted, the port-leave claim sent to the RQC. Events on their way to the port are
discarded (R141). -/
def Chip.beginLeave (c : Chip) (p : Port) : Chip :=
  (((c.setStage p .leaving).updPc p fun x => { x with leave := .detach, events := .none }.evalWake).dropEvents p).notifyRqc p
    (.leave false)

/-- HOLD_CHECK (R130): refused, and the DETACH answered HOLDING, while the port holds an entry; else the port is marked detaching and its leave
begins. -/
def takeHoldCheck (p : Port) (c : Chip) : Chip :=
  match c.wires.toLtu.get p with
  | .holdCheck :: _ =>
    let c1 := c.dropLtuNotice p
    if 0 < c.ltu.held.get p then
      match c.detachWaiting p with
      | some tag => c1.finish p tag .holding []
      | none => c1
    else
      let c2 := c1.setDeparted p (some .detaching)
      match c.detachWaiting p with
      | some _ => c2.beginLeave p
      | none => c2
  | _ => c

def execHoldCheck (p : Port) (s : State) : Host.Outcome State Fault Refusal := s.run (takeHoldCheck p)

/-- ATTACH_NOTICE_LTU (R127): the departed mark is cleared. -/
def takeAttachLtu (p : Port) (c : Chip) : Chip :=
  match c.wires.toLtu.get p with
  | .attach :: _ => (c.dropLtuNotice p).setDeparted p none
  | _ => c

def execAttachNoticeLtu (p : Port) (s : State) : Host.Outcome State Fault Refusal := s.run (takeAttachLtu p)

end Sys2Proof.Machine
end

