-- ==== Sys2Proof/Machine/Store.lean ====
section
/-! DEFINITION. The Ticket Store's own commands (chapter 1): RETIRE, QUERY_TICKET, STORED_WORD_DISTURBANCE. -/

namespace Sys2Proof.Machine

/-- R17: the TKS takes a RETIRE: allocator and parent are read, the slot is freed, and a parent's CHILD_END leaves after that. -/
def Chip.retireTicket (c : Chip) (m : RetireMsg) : Chip :=
  let c1 := c.freeSlot m.slot
  match (c.ticket m.slot).bind Ticket.parent with
  | some f => c1.sendChildEnd ⟨f, m.outcome, m.releasing⟩
  | none => c1

/-- The channel RETIRE messages of a sender stand in. -/
def Wires.retires (w : Wires) : RetireSender → List RetireMsg
  | .rqc => w.retireRqc
  | .ltu => w.retireLtu
  | .walk => w.retireWalk

/-- The oldest RETIRE of a sender is taken off its channel. -/
def Chip.dropRetire (c : Chip) : RetireSender → Chip
  | .rqc => { c with wires := { c.wires with retireRqc := c.wires.retireRqc.tail } }
  | .ltu => { c with wires := { c.wires with retireLtu := c.wires.retireLtu.tail } }
  | .walk => { c with wires := { c.wires with retireWalk := c.wires.retireWalk.tail } }

/-- RETIRE (R17): the oldest of the sender's. -/
def takeRetire (src : RetireSender) (c : Chip) : Chip :=
  match c.wires.retires src with
  | [] => c
  | m :: _ => (c.dropRetire src).retireTicket m

def execRetire (src : RetireSender) (s : State) : Host.Outcome State Fault Refusal := s.run (takeRetire src)

/-- The releasing port of the LTU's RETIRE of slot `i` on its way to the TKS: the sender of the COMPLETE, or the port whose take was POISONED (R63, R106). -/
def Chip.retiringHolder (c : Chip) (i : SlotNo) : Option Port :=
  (c.wires.retireLtu.find? fun m => m.slot == i).bind RetireMsg.releasing

/-- R19: the holder of a RUNNING slot. It is read from the LTU's entry; with the entry gone and the LTU's RETIRE still on its way it is the port that ended
the run (R107). While a RUNNING slot's PLACE, REQUEUE, or RETIRE after an expiry or a loss is on its way, the ticket has no entry and the manual gives no holder: the
model's choice (log 28) is none, which is sent as 0 as for a ticket without a holder (R174). -/
def Chip.holderOf (c : Chip) (i : SlotNo) : Option Port :=
  match c.ticket i with
  | some t => if t.state = .running then ((c.runEntry i).map RunEntry.holder).or (c.retiringHolder i) else none
  | none => none

/-- The claim on the QUERY TICKET `k`. The manual does not say whether another claim on the LTU may come between the TKS's read of the slot and the LTU's
read of the holder: the model's choice (log 25) is that both are read at one moment. -/
def queryTicketClaim (p : Port) (h : Hand) (k : Current) (c : Chip) : Chip :=
  match k.req with
  | .queryTicket i => c.reply h .tks p k .ok (ticketBody (c.slot i) (c.holderOf i))
  | _ => c

/-- QUERY_TICKET (R19, R161): always answered OK. -/
def execQueryTicket (p : Port) (e : Extent) (s : State) : Host.Outcome State Fault Refusal :=
  s.run fun c => c.runRequest .queryTicket .tks p e 0 (queryTicketClaim p)

/-- A stored word after a disturbance: its bits are `w` and its parity bit is the one that does not match them (R21; log 22). -/
def disturbed (w : Word) : StoredWord := ⟨w, !parityOf w⟩

/-- The ticket with the word at one place disturbed; words beyond the ticket's counts are not its own (R21). -/
def Ticket.disturb (t : Ticket) (place : WordPlace) (w : Word) : Ticket :=
  match place with
  | .payload i => { t with payload := t.payload.set i.val (disturbed w) }
  | .context i => { t with context := t.context.set i.val (disturbed w) }

/-- STORED_WORD_DISTURBANCE (R21, R23): nothing sees it until the word is next read out under check. -/
def execStoredWordDisturbance (slot : SlotNo) (place : WordPlace) (w : Word) (s : State) : Host.Outcome State Fault Refusal :=
  s.run fun c => c.updTicket slot fun t => t.disturb place w

end Sys2Proof.Machine
end

