-- ==== Sys2Proof/Machine/TaskLink.lean ====
section
/-! DEFINITION. The commands of the task link (chapter 9): each changes one Link Engine, by the functions of Lane.lean. -/

namespace Sys2Proof.Machine

/-- A unit arrives on port `p`'s lane. -/
def State.receive (s : State) (p : Port) (u : RxUnit) : Host.Outcome State Fault Refusal :=
  s.run fun c => c.updLink p fun l => l.receive u

/-- HOLD_OFF_EXPIRY (R177). -/
def execHoldOffExpiry (p : Port) (s : State) : Host.Outcome State Fault Refusal :=
  s.run fun c => c.updLink p Link.endHoldOff

/-- TRAIN_RECEIVED (R178): a unit received while training, a good TRAIN or any other. -/
def execTrainReceived (p : Port) (unit : LaneUnit) (s : State) : Host.Outcome State Fault Refusal := s.receive p (sortUnit unit)

/-- TRAIN_SENT (R178, R179). -/
def execTrainSent (p : Port) (s : State) : Host.Outcome State Fault Refusal := s.run fun c => c.updLink p Link.sendTrain

/-- TRANSMIT_UNIT (R184, R185, R189). -/
def execTransmitUnit (p : Port) (s : State) : Host.Outcome State Fault Refusal := s.run fun c => c.updLink p Link.transmit

/-- START_RECEIVED (R181). -/
def execStartReceived (p : Port) (seq : Seq) (s : State) : Host.Outcome State Fault Refusal := s.receive p (.start seq)

/-- DATA_WORD_RECEIVED (R181). -/
def execDataWordReceived (p : Port) (w : Word) (s : State) : Host.Outcome State Fault Refusal := s.receive p (.data w)

/-- END_RECEIVED (R181, R182, R183). -/
def execEndReceived (p : Port) (s : State) : Host.Outcome State Fault Refusal := s.receive p .stop

/-- DAMAGED_UNIT_RECEIVED (R181): the unit as it came; well-formed when it is damaged. -/
def execDamagedUnitReceived (p : Port) (unit : LaneUnit) (s : State) : Host.Outcome State Fault Refusal :=
  s.receive p (sortUnit unit)

/-- ACK_RECEIVED (R186). -/
def execAckReceived (p : Port) (seq : Seq) (s : State) : Host.Outcome State Fault Refusal := s.receive p (.ack seq)

/-- NAK_RECEIVED (R186, R188). -/
def execNakReceived (p : Port) (seq : Seq) (s : State) : Host.Outcome State Fault Refusal := s.receive p (.nak seq)

/-- CREDIT_RECEIVED (R190). -/
def execCreditReceived (p : Port) (n : BitVec 4) (s : State) : Host.Outcome State Fault Refusal := s.receive p (.credit n)

/-- IDLE_RECEIVED (R191). -/
def execIdleReceived (p : Port) (s : State) : Host.Outcome State Fault Refusal := s.receive p .idle

/-- TRAIN_RECEIVED_IN_UP (R180). -/
def execTrainReceivedInUp (p : Port) (s : State) : Host.Outcome State Fault Refusal := s.receive p .train

/-- REPLAY_TIMER_EXPIRY (R187, R188). -/
def execReplayTimerExpiry (p : Port) (s : State) : Host.Outcome State Fault Refusal :=
  s.run fun c => c.updLink p Link.expireReplay

/-- SILENCE_TIMEOUT (R191, R192). -/
def execSilenceTimeout (p : Port) (s : State) : Host.Outcome State Fault Refusal :=
  s.run fun c => c.updLink p Link.expireSilence

end Sys2Proof.Machine
end

