-- ==== Sys2Proof/Machine/Dispatch.lean ====
section
/-! DEFINITION. The meaning of each command: one arm for each constructor of Instr, each one call of the command's own definition. -/

namespace Sys2Proof.Machine

def exec (i : Instr) (s : State) : Host.Outcome State Fault Refusal :=
  match i with
  | .push p e => Sys2Proof.Machine.execPush p e s
  | .pop p e => Sys2Proof.Machine.execPop p e s
  | .take => Sys2Proof.Machine.execTake s
  | .complete p e => Sys2Proof.Machine.execComplete p e s
  | .renew p e => Sys2Proof.Machine.execRenew p e s
  | .yield p e => Sys2Proof.Machine.execYield p e s
  | .openFrame p e => Sys2Proof.Machine.execOpenFrame p e s
  | .closeFrame p e => Sys2Proof.Machine.execCloseFrame p e s
  | .cancelFrame p e => Sys2Proof.Machine.execCancelFrame p e s
  | .queryHub p g => Sys2Proof.Machine.execQueryHub p g s
  | .queryPort p g => Sys2Proof.Machine.execQueryPort p g s
  | .queryFrame p e => Sys2Proof.Machine.execQueryFrame p e s
  | .queryTicket p e => Sys2Proof.Machine.execQueryTicket p e s
  | .fetchEvents p => Sys2Proof.Machine.execFetchEvents p s
  | .configureGlobal p e => Sys2Proof.Machine.execConfigureGlobal p e s
  | .configurePort p => Sys2Proof.Machine.execConfigurePort p s
  | .attach p => Sys2Proof.Machine.execAttach p s
  | .attachNoticeRqc p => Sys2Proof.Machine.execAttachNoticeRqc p s
  | .attachNoticeLtu p => Sys2Proof.Machine.execAttachNoticeLtu p s
  | .detach p => Sys2Proof.Machine.execDetach p s
  | .holdCheck p => Sys2Proof.Machine.execHoldCheck p s
  | .portLeaveClaim p => Sys2Proof.Machine.execPortLeaveClaim p s
  | .detachEnd p => Sys2Proof.Machine.execDetachEnd p s
  | .start p e => Sys2Proof.Machine.execStart p e s
  | .quiesce p e => Sys2Proof.Machine.execQuiesce p e s
  | .nopEcho p => Sys2Proof.Machine.execNopEcho p s
  | .requestArrival p => Sys2Proof.Machine.execRequestArrival p s
  | .sendResponse x => Sys2Proof.Machine.execSendResponse x s
  | .receivedCredit p => Sys2Proof.Machine.execReceivedCredit p s
  | .place src => Sys2Proof.Machine.execPlace src s
  | .requeue => Sys2Proof.Machine.execRequeue s
  | .retire src => Sys2Proof.Machine.execRetire src s
  | .childEnd => Sys2Proof.Machine.execChildEnd s
  | .cancelWalkStep => Sys2Proof.Machine.execCancelWalkStep s
  | .cancelWalkEnd => Sys2Proof.Machine.execCancelWalkEnd s
  | .stealableOn p => Sys2Proof.Machine.execStealableOn p s
  | .stealEnableOn p => Sys2Proof.Machine.execStealEnableOn p s
  | .leaseExpiry slot => Sys2Proof.Machine.execLeaseExpiry slot s
  | .parkTimeout p tag => Sys2Proof.Machine.execParkTimeout p tag s
  | .pendingEventRecord p kind => Sys2Proof.Machine.execPendingEventRecord p kind s
  | .linkUpReport p => Sys2Proof.Machine.execLinkUpReport p s
  | .portLoss p => Sys2Proof.Machine.execPortLoss p s
  | .portLossClaimLtu p => Sys2Proof.Machine.execPortLossClaimLtu p s
  | .portLossEnd p => Sys2Proof.Machine.execPortLossEnd p s
  | .frtPortLossNotice p => Sys2Proof.Machine.execFrtPortLossNotice p s
  | .linkDownFromLinked p => Sys2Proof.Machine.execLinkDownFromLinked p s
  | .completionCheck => Sys2Proof.Machine.execCompletionCheck s
  | .quiesceCompletion => Sys2Proof.Machine.execQuiesceCompletion s
  | .setupNotice => Sys2Proof.Machine.execSetupNotice s
  | .tick => Sys2Proof.Machine.execTick s
  | .rstNAssert => Sys2Proof.Machine.execRstNAssert s
  | .rstNDeassert straps => Sys2Proof.Machine.execRstNDeassert straps s
  | .holdOffExpiry p => Sys2Proof.Machine.execHoldOffExpiry p s
  | .trainReceived p unit => Sys2Proof.Machine.execTrainReceived p unit s
  | .trainSent p => Sys2Proof.Machine.execTrainSent p s
  | .transmitUnit p => Sys2Proof.Machine.execTransmitUnit p s
  | .startReceived p seq => Sys2Proof.Machine.execStartReceived p seq s
  | .dataWordReceived p w => Sys2Proof.Machine.execDataWordReceived p w s
  | .endReceived p => Sys2Proof.Machine.execEndReceived p s
  | .damagedUnitReceived p unit => Sys2Proof.Machine.execDamagedUnitReceived p unit s
  | .ackReceived p seq => Sys2Proof.Machine.execAckReceived p seq s
  | .nakReceived p seq => Sys2Proof.Machine.execNakReceived p seq s
  | .creditReceived p n => Sys2Proof.Machine.execCreditReceived p n s
  | .idleReceived p => Sys2Proof.Machine.execIdleReceived p s
  | .trainReceivedInUp p => Sys2Proof.Machine.execTrainReceivedInUp p s
  | .replayTimerExpiry p => Sys2Proof.Machine.execReplayTimerExpiry p s
  | .silenceTimeout p => Sys2Proof.Machine.execSilenceTimeout p s
  | .storedWordDisturbance slot place w => Sys2Proof.Machine.execStoredWordDisturbance slot place w s

end Sys2Proof.Machine
end

