-- ==== Sys2Proof/Machine/Step.lean ====
section
/-! DEFINITION. One step: the command at the front of the queue, or one REFCLK period when no command waits. -/

namespace Sys2Proof.Machine

/-- One step of an empty queue (log 4): one REFCLK period passes, unless RST_N is held. -/
def idle (s : State) : State := { s with chip := if s.chip.rst then s.chip else s.chip.period }

/-- Takes the command at the front of the queue and answers what `exec` answers on the state with the queue's rest. -/
def step (s : State) : Host.Outcome State Fault Refusal :=
  match s.pending with
  | [] => .next (idle s)
  | i :: rest => exec i { s with pending := rest }

/-- The command a word spells put at the front of the queue; no word spells one, so the state stays as it is (log 21). -/
def State.withFetchWord (s : State) (nbits w : Nat) : State :=
  match decodeTableWord nbits w with
  | some i => { s with pending := i :: s.pending }
  | none => s

end Sys2Proof.Machine
end

