-- ==== Sys2Proof/Safety.lean ====
section
/-! DEFINITION. The words the statements use: a request ready at its port, a request answered, the status tables of the spec, and the invariants every step keeps. No meaning uses them. -/

namespace Sys2Proof.Machine

/-! ## Requests -/

/-- The request rows of the opcode table, by command. -/
def requestRow : Instr → Option (ReqRow × Port)
  | .push p _ => some (.push, p)
  | .pop p _ => some (.pop, p)
  | .complete p _ => some (.complete, p)
  | .renew p _ => some (.renew, p)
  | .yield p _ => some (.yield, p)
  | .openFrame p _ => some (.openFrame, p)
  | .closeFrame p _ => some (.closeFrame, p)
  | .cancelFrame p _ => some (.cancelFrame, p)
  | .queryHub p _ => some (.queryHub, p)
  | .queryPort p _ => some (.queryPort, p)
  | .queryFrame p _ => some (.queryFrame, p)
  | .queryTicket p _ => some (.queryTicket, p)
  | .fetchEvents p => some (.fetchEvents, p)
  | .configureGlobal p _ => some (.configureGlobal, p)
  | .configurePort p => some (.configurePort, p)
  | .attach p => some (.attach, p)
  | .detach p => some (.detach, p)
  | .start p _ => some (.start, p)
  | .quiesce p _ => some (.quiesce, p)
  | .nopEcho p => some (.nopEcho, p)
  | _ => none

/-- Whether the command of a request row takes its request whole, and so waits for the requests its block has taken before. -/
def takesWhole : Instr → Bool
  | .push _ .whole => true
  | .pop _ .whole => true
  | .complete _ .whole => true
  | .renew _ .whole => true
  | .yield _ .whole => true
  | .openFrame _ .whole => true
  | .closeFrame _ .whole => true
  | .cancelFrame _ .whole => true
  | .queryHub _ .whole => true
  | .queryPort _ .whole => true
  | .queryFrame _ .whole => true
  | .queryTicket _ .whole => true
  | .configureGlobal _ .whole => true
  | .start _ .whole => true
  | .quiesce _ .whole => true
  | _ => false

/-- Whether the command of a request row is a dispatch whatever else its port has under way: an extent of dispatch, or a request the Port Controller takes
itself and answers with its dispatch. -/
def dispatches : Instr → Bool
  | .push _ .dispatch => true
  | .pop _ .dispatch => true
  | .complete _ .dispatch => true
  | .renew _ .dispatch => true
  | .yield _ .dispatch => true
  | .openFrame _ .dispatch => true
  | .closeFrame _ .dispatch => true
  | .cancelFrame _ .dispatch => true
  | .queryHub _ .dispatch => true
  | .queryPort _ .dispatch => true
  | .queryFrame _ .dispatch => true
  | .queryTicket _ .dispatch => true
  | .configureGlobal _ .dispatch => true
  | .start _ .dispatch => true
  | .quiesce _ .dispatch => true
  | .fetchEvents _ => true
  | .configurePort _ => true
  | .attach _ => true
  | .detach _ => true
  | .nopEcho _ => true
  | _ => false

/-- No block has a request of `p`, and the Port Controller gathers none. -/
def Pc.nothingTaken (x : Pc) : Prop := (∀ b, x.atBlock.get b = none) ∧ x.gathers = []

/-- The block that takes a request; none for those the Port Controller takes itself (R125). -/
def Req.block : Req → Option Block
  | .push _ => some .rqc
  | .pop _ => some .rqc
  | .complete _ _ => some .ltu
  | .renew _ => some .ltu
  | .yield _ => some .ltu
  | .openFrame _ => some .frt
  | .closeFrame _ => some .frt
  | .cancelFrame _ => some .frt
  | .queryFrame _ => some .frt
  | .queryTicket _ => some .tks
  | .configureGlobal _ => some .hcu
  | .start => some .hcu
  | .quiesce => some .hcu
  | .queryHub => none
  | .queryPort _ => none
  | .fetchEvents => none
  | .configurePort _ _ => none
  | .attach => none
  | .detach => none
  | .nopEcho _ => none

/-- No answer that keeps its place among those of block `b` is on its way to `p`. -/
def Chip.quiet (c : Chip) (b : Block) (p : Port) : Prop := ∀ a ∈ c.wires.answers.get p, a.order ≠ some b

/-- Block `b` has ended every earlier request of `p`, and the Port Controller has taken its answers (R125, R170). -/
def Chip.idleAt (c : Chip) (b : Block) (p : Port) : Prop := (c.pc p).atBlock.get b = none ∧ c.quiet b p

/-- The hub is out of reset, packet `k` is at the head of `p`'s input buffer, its dispatch waits for nothing (R167), it passes the dispatch checks as
request `r` (R168), and nothing keeps its block from taking it at once: the block is idle for `p`, and no earlier request of `p` keeps it waiting (R118, R159). -/
def Chip.ready (c : Chip) (p : Port) (k : Packet) (r : Req) : Prop :=
  c.rst = false ∧ (c.pc p).mayDispatch = true ∧ (c.pc p).buffer.head? = some k ∧ k.decode = .ok r ∧
    (∀ b, r.block = some b → c.idleAt b p) ∧ (c.pc p).keepsWaiting r = false

/-- The hub is out of reset and block `b` has taken `p`'s request, which stands at stage `st`. -/
def Chip.underWay (c : Chip) (b : Block) (p : Port) (tag : Tag) (r : Req) (st : Stage) : Prop :=
  c.rst = false ∧ (c.pc p).atBlock.get b = some ⟨tag, r, st⟩

/-- The hub is out of reset and `p`'s ATTACH or DETACH stands at stage `st`. -/
def Chip.waiting (c : Chip) (p : Port) (tag : Tag) (r : Req) (st : Stage) : Prop :=
  c.rst = false ∧ (c.pc p).current = some ⟨tag, r, st⟩

/-- The Port Controller once the head of its buffer has been dispatched and taken by its block, with no answer yet. -/
def Pc.passed (x : Pc) : Pc := { x with buffer := x.buffer.tail, granted := x.granted + 1, reserved := x.reserved + 1 }

/-- The Port Controller once the head of its buffer has been dispatched and answered: the entry and its credit are back, the tag is free, the
response stands in the queue unless responses are discarded (R165, R166, R170). -/
def Pc.served (x : Pc) (tag : Tag) (st : Status) (body : List Word) (h : Option Handle := none) : Pc :=
  { x with
    buffer := x.buffer.tail, granted := x.granted + 1
    outstanding := x.outstanding.filter (· != tag)
    responses := if x.discarding then x.responses else x.responses ++ [⟨tag, st, body, h⟩] }

/-- The hub with `p`'s Port Controller at `x` after a dispatch, whose request credit has been handed to `p`'s Link Engine (R165, R189). -/
def Chip.asked (c : Chip) (p : Port) (x : Pc) : Chip :=
  { c with pcs := c.pcs.set p x, links := c.links.set p { c.link p with credits := (c.link p).credits + 1 } }

/-- The hub after a dispatch whose request its block has taken and not answered: nothing but `p`'s Port Controller and the credit handed to its Link
Engine has changed. -/
def Chip.passed (c : Chip) (p : Port) : Chip := c.asked p (c.pc p).passed

/-- The hub after a request has been dispatched and answered, and nothing else has changed. -/
def Chip.answered (c : Chip) (p : Port) (tag : Tag) (st : Status) (body : List Word) (h : Option Handle := none) : Chip :=
  c.asked p ((c.pc p).served tag st body h)

/-- The hub `x` with the Port Controllers and Link Engines of `y`. -/
def Chip.withPortsOf (x y : Chip) : Chip := { x with pcs := y.pcs, links := y.links }

/-! ## The status tables of the spec -/

/-- The status of the first check of a PUSH that fails (R40 to R43), none when all pass. -/
def Chip.pushRefusal (c : Chip) (p : Port) (r : PushReq) : Option Status :=
  let q := r.target.getD p
  if c.hcu.state = .setup then some .notRunning
  else if c.hcu.state = .quiescing then some .quiescing
  else if c.rqcAttached p = false then some .notAttached
  else if c.rqcAttached q = false then some .notAttached
  else
    match r.frame.map c.refState with
    | some .free => some .badFrame
    | some .closed => some .frameState
    | some .cancelling => some .cancelled
    | _ =>
      if (c.pc q).params.depthLimit ≤ (c.stack q).length ∧
          (r.pin = true ∨ (c.pc q).params.spill = false ∨ c.hcu.sqLimit ≤ c.rqc.shared.length) then some .full
      else if c.hcu.quota.get p ≤ c.tks.alloc.get p then some .quota
      else if c.tks.free = [] then some .storeFull
      else none

/-- Where a PUSH aimed at `q` with room goes (R42): the stack top while the depth is below DEPTH_LIMIT, else the shared queue tail. -/
def Chip.pushDest (c : Chip) (q : Port) : RunList :=
  if (c.stack q).length < (c.pc q).params.depthLimit then .stack q else .shared

/-- The status of the first check of an OPEN_FRAME that fails (R77, R78), none when all pass. -/
def Chip.openRefusal (c : Chip) (p : Port) (r : OpenReq) : Option Status :=
  if c.hcu.state = .setup then some .notRunning
  else if c.hcu.state = .quiescing then some .quiescing
  else if c.attached p = false then some .notAttached
  else if r.current.any (fun h => !c.holds p h) then some .stale
  else if r.pin.any (fun q => !c.attached q) then some .notAttached
  else if c.freeFrameNo = none then some .framesFull
  else if c.hcu.quota.get p ≤ c.tks.alloc.get p then some .quota
  else if c.tks.free = [] then some .storeFull
  else none

/-- The status of the two checks CLOSE_FRAME, CANCEL_FRAME, COMPLETE, RENEW and YIELD make first (R86, R95, R105), none when both pass. -/
def Chip.gateRefusal (c : Chip) (p : Port) : Option Status :=
  if c.hcu.state = .setup then some .notRunning
  else if c.attached p = false then some .notAttached
  else none

/-- R91: where a released continuation goes, and the pin it goes with. -/
def Chip.releaseChoice (c : Chip) (pin rel : Option Port) : RunList × Option Port :=
  match pin, rel with
  | some q, some r => if c.attached q then (.stack q, some q) else if c.attached r then (.stack r, none) else (.shared, none)
  | some q, none => if c.attached q then (.stack q, some q) else (.shared, none)
  | none, some r => if c.attached r then (.stack r, none) else (.shared, none)
  | none, none => (.shared, none)

/-! ## Invariants -/

/-- The WAKE line stands as R145 gives. -/
def Pc.wakeRight (x : Pc) : Prop :=
  x.wake = (x.state == .attached && x.leave == .no && x.events.meets x.params.eventMask)

/-- Every WAKE line stands as R145 gives. -/
def Chip.wakesRight (c : Chip) : Prop := ∀ p, (c.pc p).wakeRight

/-- No steal pointer names its own port (R56). -/
def Chip.stealPtrsRight (c : Chip) : Prop := ∀ p, c.rqc.stealPtr.get p ≠ p

/-- Of the ranges of section 9.1, those that hold of every Link Engine; the credits to advertise have their own (`Chip.creditsBalance`). The open packet
holds at most 17 words (R181), and the send pointer names an entry or the end. -/
def Link.inRange (l : Link) : Prop :=
  l.holdOffLeft ≤ 6400 ∧ l.trainRun ≤ 16 ∧ l.trainSent ≤ 16 ∧ l.replay.length ≤ 8 ∧ l.sendPtr ≤ l.replay.length ∧
    l.replayCount ≤ 4 ∧ (∀ t, l.replayTimer = some t → t ≤ 800) ∧ (∀ t, l.silence = some t → t ≤ 1600) ∧
    (∀ k, l.rx = some k → k.words.length ≤ 17)

/-- Every Link Engine in its ranges. -/
def Chip.linksInRange (c : Chip) : Prop := ∀ p, (c.link p).inRange

/-- The credits to advertise are 0 to 8 (section 9.1): those of `p` that its processor may still use, and the packets in its input buffer, make up the 8
there are (R165). -/
def Chip.creditsBalance (c : Chip) (p : Port) : Prop :=
  (c.link p).credits ≤ (c.pc p).granted ∧ (c.pc p).granted + (c.pc p).buffer.length ≤ 8

/-- The parked-pop table holds at most 16 entries and at most 4 of one port (R66), the cancel walk queue at most 8 (R97), the response credits and the
protocol error counts at most 255 (R146, R171). -/
def Chip.tablesInRange (c : Chip) : Prop :=
  c.rqc.parked.length ≤ 16 ∧ (∀ p, (c.parkedOf p).length ≤ 4) ∧ c.frt.walks.length ≤ 8 ∧
    (∀ p, (c.pc p).credit ≤ 255 ∧ (c.pc p).errors ≤ 255)

end Sys2Proof.Machine
end

