-- ==== Sys2Proof/Certificates/Slice0/Obligations.lean ====
section
/-! DEFINITION. The statements for the provers. A statement of a command's result says the whole next state: what it does not change in the record it writes out is unchanged. -/

open Sys2Proof Sys2Proof.Machine

/-! ## The machine -/

/-- A step runs the command at the front of the queue on the state with the queue's rest. -/
def Obligations.StepRunsFront : Prop :=
  ∀ (i : Instr) (rest : List Instr) (chip : Chip), step ⟨i :: rest, chip⟩ = exec i ⟨rest, chip⟩

/-- Every command answers a next state with the queue as it stood: the hub neither faults nor refuses. -/
def Obligations.EveryCommandAnswersNext : Prop :=
  ∀ (i : Instr) (s : State), ∃ chip, exec i s = .next ⟨s.pending, chip⟩

/-- A request taken whole is its claims taken one after another: its dispatch first, or one claim first, and then the rest whole, ends where the whole ends, as long as
the request is still dispatched, or within its block, after that. The extents are the model's way to let other blocks' claims come between (log 2). -/
def Obligations.WholeRequestIsItsClaims : Prop :=
  ∀ (s t : State) (p : Port) (b : Block) (i : Extent → Instr),
    (b, i) ∈ [(Block.rqc, Instr.push p), (.rqc, .pop p), (.ltu, .complete p), (.ltu, .renew p), (.ltu, .yield p), (.frt, .openFrame p),
      (.frt, .closeFrame p), (.frt, .cancelFrame p), (.frt, .queryFrame p), (.tks, .queryTicket p), (.hcu, .configureGlobal p),
      (.hcu, .start p), (.hcu, .quiesce p)] →
    ((s.chip.pc p).atBlock.get b = none → exec (i .dispatch) s = .next t → (t.chip.pc p).current ≠ none →
      exec (i .whole) s = exec (i .whole) t) ∧
    (exec (i (.claim .now)) s = .next t → (t.chip.pc p).atBlock.get b ≠ none → exec (i .whole) s = exec (i .whole) t)

/-- An assertion of RST_N abandons everything, in any state; while it is held no command but those of RST_N is taken, nothing happens on an empty queue, and no WAKE_N
pin is low. The power-on values, which `DeassertGivesPowerOnValues` writes out, stand at once and the straps stay as sampled: the model's choice (log 7). -/
def Obligations.ResetHoldsTheHub : Prop :=
  ∀ s : State,
    (let c : Chip := { Chip.powerOn s.chip.straps with rst := true };
      exec .rstNAssert s = .next ⟨s.pending, c⟩ ∧ ∀ p, c.wakePinLow p = false) ∧
    (s.chip.rst = true →
      (∀ i, i ≠ .rstNAssert → (∀ straps, i ≠ .rstNDeassert straps) → exec i s = .next s) ∧
      (s.pending = [] → step s = .next s) ∧
      ∀ p, s.chip.wakePinLow p = false)

/-- A deassertion of RST_N samples the straps and gives every block its power-on values; `State.reset` is what a deassertion with the four straps high
leaves, with no command waiting (log 5). -/
def Obligations.DeassertGivesPowerOnValues : Prop :=
  ∀ (s : State) (straps : PerPort Bool), s.chip.rst = true →
    (s.pending = [] → exec (.rstNDeassert (.same true)) s = .next State.reset) ∧
    exec (.rstNDeassert straps) s = .next ⟨s.pending, .powerOn straps⟩ ∧
    let c := Chip.powerOn straps
    c.rst = false ∧ c.straps = straps ∧
      (c.hcu.state = .setup ∧ c.hcu.quota = .same 256 ∧ c.hcu.sqLimit = 128 ∧ c.hcu.requeueLimit = 2 ∧ c.hcu.creation = 0 ∧
        c.hcu.tick = 0 ∧ c.hcu.refPhase = 0 ∧ c.hcu.checks = 0 ∧ c.hcu.completionDue = false) ∧
      ((∀ i, c.slot i = ⟨0, none⟩) ∧ c.tks.free = List.finRange 1024 ∧ c.tks.alloc = .same 0) ∧
      (c.rqc.shared = [] ∧ c.rqc.parked = [] ∧
        ∀ p, c.stack p = [] ∧ c.rqc.stealPtr.get p = p.next ∧ c.rqc.left.get p = true) ∧
      ((∀ n, (c.frame n).state = .free ∧ (c.frame n).gen = 0 ∧ (c.frame n).walkPending = false) ∧ c.frt.inUse = 0 ∧
        c.frt.walks = []) ∧
      (c.ltu.running = [] ∧ ∀ p, c.ltu.held.get p = 0 ∧ c.ltu.departed.get p = some .lost) ∧
      (c.wires.takes = [] ∧ c.wires.placeFrt = [] ∧ c.wires.placeLtu = [] ∧ c.wires.requeues = [] ∧ c.wires.retireRqc = [] ∧
        c.wires.retireLtu = [] ∧ c.wires.retireWalk = [] ∧ c.wires.childEnds = [] ∧ c.wires.setup = 0 ∧
        ∀ p, c.wires.toRqc.get p = [] ∧ c.wires.toLtu.get p = [] ∧ c.wires.toFrt.get p = false ∧ c.wires.events.get p = [] ∧
          c.wires.answers.get p = []) ∧
      ∀ p,
        ((c.pc p).state = (if straps.get p then .down else .disabled) ∧ (c.pc p).outstanding = [] ∧ (c.pc p).buffer = [] ∧
          (c.pc p).responses = [] ∧ (c.pc p).events = .none ∧ (c.pc p).errors = 0 ∧ (c.pc p).wake = false ∧
          (c.pc p).params = ⟨64, true, true, true, 12500, .none⟩ ∧ (c.pc p).granted = 0 ∧ (c.pc p).credit = 0) ∧
        ((c.pc p).leave = .no ∧ (c.pc p).current = none ∧ (∀ b, (c.pc p).atBlock.get b = none) ∧ (c.pc p).gathers = [] ∧
          (c.pc p).reserved = 0) ∧
        ((c.link p).state = (if straps.get p then .holdOff else .disabled) ∧
          (straps.get p = true → (c.link p).holdOffLeft = 6400) ∧ (c.link p).replay = [] ∧ (c.link p).expected = 0 ∧
          (c.link p).nextSeq = 0 ∧ (c.link p).trainRun = 0 ∧ (c.link p).trainSent = 0 ∧ (c.link p).credits = 0 ∧
          (c.link p).owed = none ∧ (c.link p).reports = [] ∧ (c.link p).lane = [])

/-- A step on an empty queue is one REFCLK period (log 4): the running link timers and the period count advance, and nothing else changes, but that a tick boundary
that is due, 200 periods after the one before, and that no TICK has taken comes first. -/
def Obligations.EmptyQueueIsOnePeriod : Prop :=
  ∀ c : Chip, c.rst = false →
    let period := fun (d : Chip) => Host.Outcome.next (φ := Fault) (ρ := Refusal) (State.mk []
      { d with
        hcu := { d.hcu with refPhase := d.hcu.refPhase + 1 }
        links := .tab fun p =>
          { d.link p with
            holdOffLeft := (d.link p).holdOffLeft - 1
            replayTimer := (d.link p).replayTimer.map fun t => min (t + 1) 800
            silence := (d.link p).silence.map fun t => min (t + 1) 1600 } })
    (c.hcu.refPhase < 200 → step ⟨[], c⟩ = period c) ∧
    (200 ≤ c.hcu.refPhase → ∀ t, exec .tick ⟨[], c⟩ = .next t → step ⟨[], c⟩ = period t.chip)

/-- TICK, once 200 REFCLK periods have passed since the tick boundary before, or since reset: the tick count rises by one modulo 2^32, and every lease and park
deadline is one tick nearer. Before that it has no effect. -/
def Obligations.TickAdvances : Prop :=
  ∀ s : State, s.chip.rst = false →
    (200 ≤ s.chip.hcu.refPhase →
      exec .tick s = .next { s with chip := { s.chip with
        hcu := { s.chip.hcu with tick := s.chip.hcu.tick + 1, refPhase := 0 }
        ltu := { s.chip.ltu with running := s.chip.ltu.running.map fun e => { e with ticksLeft := e.ticksLeft.map (· - 1) } }
        rqc := { s.chip.rqc with parked := s.chip.rqc.parked.map fun e => { e with ticksLeft := e.ticksLeft.map (· - 1) } } } }) ∧
    (s.chip.hcu.refPhase < 200 → exec .tick s = .next s)

/-! ## Requests and responses -/

/-- REQUEST_ARRIVAL makes the three arrival checks in order: credit, header, tag. A protocol error raises the port's count by one, up to 255, and PROTOCOL, which the
port's own Port Controller takes in the same event (log 13): it is recorded when the port is ATTACHED or LINKED and not leaving. -/
def Obligations.ArrivalChecksInOrder : Prop :=
  (∀ (s : State) (p : Port) (words : List Word) (rest : List Report), s.chip.rst = false →
     (s.chip.link p).reports = .packet words :: rest → (s.chip.pc p).online = true →
     let x := s.chip.pc p
     let l : Link := { s.chip.link p with reports := rest }
     let returned : Link := { l with credits := l.credits + 1 }
     let after := fun (y : Pc) (m : Link) =>
       Host.Outcome.next (φ := Fault) (ρ := Refusal)
         { s with chip := { s.chip with pcs := s.chip.pcs.set p y, links := s.chip.links.set p m } }
     (x.granted = 0 → exec (.requestArrival p) s = after x.protocolError l) ∧
     (0 < x.granted → decodeHeader words = none → exec (.requestArrival p) s = after x.protocolError returned) ∧
     (∀ k, 0 < x.granted → decodeHeader words = some k → k.tag ∈ x.outstanding →
       exec (.requestArrival p) s = after x.protocolError returned) ∧
     (∀ k, 0 < x.granted → decodeHeader words = some k → k.tag ∉ x.outstanding →
       exec (.requestArrival p) s =
         after { x with buffer := x.buffer ++ [k], outstanding := x.outstanding ++ [k.tag], granted := x.granted - 1 } l)) ∧
  (∀ x : Pc, x.protocolError =
     if x.leave = .no ∧ (x.state = .attached ∨ x.state = .linked) then
       { x with
         errors := min (x.errors + 1) 255, events := x.events.insert .protocol
         wake := x.state == .attached && (x.events.insert .protocol).meets x.params.eventMask }
     else { x with errors := min (x.errors + 1) 255 })

/-- The head of the buffer waits while a condition of dispatch fails: a request dispatched that its block has not taken (the LTU's, until its claim on the running
table is made; a POP, until the RQC's claim for it is made), an ATTACH or DETACH unanswered, no room for its response, a port that is not linked or is leaving. The
command of another row than the dispatched request's then does nothing. A head that fails the dispatch checks
is answered BAD_REQUEST under its tag, its credit handed to the Link Engine whatever the link's state (log 12), and changes nothing else, but that a body length
mismatch is a protocol error. -/
def Obligations.DispatchWaitsOrAnswersBadRequest : Prop :=
  ∀ (i : Instr) (row : ReqRow) (p : Port) (s : State), requestRow i = some (row, p) →
    let x := s.chip.pc p
    ((x.current ≠ none ∨ x.atBlock.ltu ≠ none ∨ (∃ tag timeout st, x.atBlock.rqc = some ⟨tag, .pop timeout, st⟩) ∨
        x.state = .down ∨ x.state = .disabled ∨ x.leave ≠ .no ∨ 16 ≤ x.responses.length + x.reserved) →
      (∀ t, exec i s = .next t → (t.chip.pc p).buffer = x.buffer ∧ (t.chip.link p).credits = (s.chip.link p).credits) ∧
      ((∀ k, x.current = some k → k.req.row ≠ row) → dispatches i = true ∨ x.nothingTaken → exec i s = .next s)) ∧
    (x.buffer = [] → x.current = none → dispatches i = true ∨ x.nothingTaken → exec i s = .next s) ∧
    (∀ k, s.chip.rst = false → x.mayDispatch = true → x.buffer.head? = some k → row.takes k = true →
      dispatches i = true ∨ takesWhole i = true ∧ x.nothingTaken →
      let after := fun (y : Pc) => Host.Outcome.next (φ := Fault) (ρ := Refusal) { s with chip := { s.chip with
        pcs := s.chip.pcs.set p y
        links := s.chip.links.set p { s.chip.link p with credits := (s.chip.link p).credits + 1 } } }
      (k.decode = .error .plain → exec i s = after (x.served k.tag .badRequest [])) ∧
      (k.decode = .error .length → exec i s = after (x.protocolError.served k.tag .badRequest [])))

/-- SEND_RESPONSE hands the head response to the Link Engine for one response credit, once a RETIRE of the ticket whose handle it reports has been taken;
RECEIVED_CREDIT raises the response credit up to 255. A response claim takes the answer of a tag that is on its way to the port: its tag is free, its reservation
ended, and it stands last in the queue, or is discarded. An answer that keeps a block's order waits for the earlier ones of that block; any other passes them. A
request's answer taken at once, and the same answer sent on its way and taken by the next step, come to the same (log 29), for the answer of a POP whatever other
answers are on their way. -/
def Obligations.ResponsesCostCredit : Prop :=
  (∀ (s : State) (p : Port), s.chip.rst = false → (s.chip.pc p).online = true →
     (∀ r rest, (s.chip.pc p).responses = r :: rest → (s.chip.link p).sameSession = true →
       let awaits : Prop := ∃ h, r.handle = some h ∧ (s.chip.slot h.slot).gen = h.gen ∧
         ∃ m ∈ s.chip.wires.retireRqc ++ s.chip.wires.retireLtu ++ s.chip.wires.retireWalk, m.slot = h.slot
       (1 ≤ (s.chip.pc p).credit → (s.chip.link p).replay.length < 8 → ¬ awaits →
         exec (.sendResponse (.head p)) s = .next { s with chip := { s.chip with
           pcs := s.chip.pcs.set p { s.chip.pc p with responses := rest, credit := (s.chip.pc p).credit - 1 }
           links := s.chip.links.set p { s.chip.link p with
             replay := (s.chip.link p).replay ++ [⟨(s.chip.link p).nextSeq, r.words, false⟩]
             nextSeq := (s.chip.link p).nextSeq + 1 } } }) ∧
       ((s.chip.pc p).credit = 0 ∨ 8 ≤ (s.chip.link p).replay.length ∨ awaits → exec (.sendResponse (.head p)) s = .next s)) ∧
     (∀ n rest, (s.chip.link p).reports = .credit n :: rest →
       exec (.receivedCredit p) s = .next { s with chip := { s.chip with
         pcs := s.chip.pcs.set p { s.chip.pc p with credit := min ((s.chip.pc p).credit + n) 255 }
         links := s.chip.links.set p { s.chip.link p with reports := rest } } })) ∧
  (∀ (s : State) (p : Port) (tag : Tag), s.chip.rst = false →
     let x := s.chip.pc p
     (∀ before a after, s.chip.wires.answers.get p = before ++ a :: after → a.resp.tag = tag → (∀ y ∈ before, y.resp.tag ≠ tag) →
       (a.order = none ∨ (∀ y ∈ before, y.order ≠ a.order) →
         exec (.sendResponse (.claim p tag)) s = .next { s with chip := { s.chip with
           pcs := s.chip.pcs.set p { x with
             outstanding := x.outstanding.filter (· != tag), reserved := x.reserved - 1
             responses := if x.discarding then x.responses else x.responses ++ [a.resp] }
           wires := { s.chip.wires with answers := s.chip.wires.answers.set p (before ++ after) } } }) ∧
       (a.order ≠ none → (∃ y ∈ before, y.order = a.order) → exec (.sendResponse (.claim p tag)) s = .next s)) ∧
     ((∀ a ∈ s.chip.wires.answers.get p, a.resp.tag ≠ tag) → exec (.sendResponse (.claim p tag)) s = .next s)) ∧
  (∀ (s t : State) (p : Port) (b : Block) (i : Extent → Instr) (k : Current),
     (b, i) ∈ [(Block.rqc, Instr.push p), (.rqc, .pop p), (.ltu, .complete p), (.ltu, .renew p), (.ltu, .yield p), (.frt, .openFrame p),
       (.frt, .closeFrame p), (.frt, .cancelFrame p), (.frt, .queryFrame p), (.tks, .queryTicket p), (.hcu, .configureGlobal p),
       (.hcu, .start p), (.hcu, .quiesce p)] →
     (s.chip.pc p).atBlock.get b = some k ∨ (s.chip.pc p).atBlock.get b = none ∧ (s.chip.pc p).current = some k →
     (∀ a ∈ s.chip.wires.answers.get p, a.resp.tag ≠ k.tag) → i = Instr.pop p ∨ s.chip.quiet b p →
     exec (i (.claim .later)) s = .next t → exec (.sendResponse (.claim p k.tag)) t = exec (i (.claim .now)) s)

/-- NOP_ECHO answers the request's body word for word and changes no state; every body of 0 to 15 words is valid. -/
def Obligations.EchoReturnsBody : Prop :=
  (∀ (s : State) (p : Port) (k : Packet) (body : List Word), s.chip.ready p k (.nopEcho body) →
    body = k.body ∧ exec (.nopEcho p) s = .next { s with chip := s.chip.answered p k.tag .ok k.body }) ∧
  (∀ (tag : Tag) (body : List Word), body.length ≤ 15 →
    (⟨0x20, tag, 0, body⟩ : Packet).decode = .ok (.nopEcho body))

/-! ## PUSH, placement and parked service -/

/-- A PUSH refused by a check is answered with the first failing check's status and changes nothing else. -/
def Obligations.PushRefusedByFirstCheck : Prop :=
  ∀ (s : State) (p : Port) (k : Packet) (r : PushReq) (st : Status), s.chip.ready p k (.push r) → s.chip.queueHeld = false →
    s.chip.pushRefusal p r = some st →
    exec (.push p .whole) s = .next { s with chip := s.chip.answered p k.tag st [] }

/-- A PUSH that passes every check takes the head slot, charges its sender, registers its child, and places the ticket at the target's stack top, or at
the shared queue tail when it spills. -/
def Obligations.PushPlacesNewTicket : Prop :=
  ∀ (s : State) (p : Port) (k : Packet) (r : PushReq) (i : SlotNo) (free : List SlotNo), s.chip.ready p k (.push r) →
    s.chip.queueHeld = false → s.chip.pushRefusal p r = none → s.chip.tks.free = i :: free →
    let q := r.target.getD p
    let h : Handle := ⟨i, (s.chip.slot i).gen⟩
    let new : Ticket := ⟨.queued, .task, p, r.frame, if r.pin then some q else none, r.payload.map storeWord, [], none, none, 0⟩
    let c1 : Chip := { s.chip with
      tks := ⟨s.chip.tks.slots.set i.val ⟨(s.chip.slot i).gen, some new⟩ i.isLt, free,
        s.chip.tks.alloc.set p (s.chip.tks.alloc.get p + 1)⟩
      frt := { s.chip.frt with
        frames := match r.frame with
          | some f => s.chip.frt.frames.set f.index.val
              { s.chip.frame f.index with pending := (s.chip.frame f.index).pending + 1 } f.index.isLt
          | none => s.chip.frt.frames } }
    exec (.push p .whole) s = .next { s with
      chip := (c1.placeAt (s.chip.pushDest q) i).withPortsOf
        (s.chip.answered p k.tag .ok (pushBody h (s.chip.pushDest q == .shared)) (some h)) }

/-- A PUSH past its room check takes its slot as the TKS then stands: QUOTA when its sender holds its quota, STORE_FULL when no slot is free, else the head slot and its
record, with the destination of the room check. One whose frame has changed since its frame check is undone: its ticket loses its parent and is retired CANCELLED, and
the status is the one of the frame as found. The extents between its claims are the model's (log 2); the last creation request to end in QUIESCING calls for a completion
check, in the model's own count (log 15). -/
def Obligations.PushAfterItsRoomCheck : Prop :=
  ∀ (s : State) (p : Port) (tag : Tag) (r : PushReq) (dest : RunList),
    let x := s.chip.pc p
    let tks := s.chip.tks
    let hcu : Hcu := { s.chip.hcu with
      creation := s.chip.hcu.creation - 1
      checks := if s.chip.hcu.state = .quiescing ∧ s.chip.hcu.creation - 1 = 0 then s.chip.hcu.checks + 1 else s.chip.hcu.checks }
    let answered := fun (st : Status) => s.chip.pcs.set p ({ x with atBlock := x.atBlock.set .rqc none }.respond tag st [])
    (s.chip.underWay .rqc p tag (.push r) (.roomRead dest) →
      (∀ e, s.chip.quiet .rqc p → e = .claim .now ∨ e = .whole →
        let refused := fun (st : Status) => Host.Outcome.next (φ := Fault) (ρ := Refusal)
          { s with chip := { s.chip with hcu := hcu, pcs := answered st } }
        (s.chip.hcu.quota.get p ≤ tks.alloc.get p → exec (.push p e) s = refused .quota) ∧
        (tks.alloc.get p < s.chip.hcu.quota.get p → tks.free = [] → exec (.push p e) s = refused .storeFull)) ∧
      (∀ i free h, tks.alloc.get p < s.chip.hcu.quota.get p → tks.free = i :: free →
        let gen := (s.chip.slot i).gen
        let new : Ticket := ⟨.queued, .task, p, r.frame, if r.pin then some (r.target.getD p) else none, r.payload.map storeWord, [], none,
          none, 0⟩
        exec (.push p (.claim h)) s = .next { s with chip := { s.chip with
          tks := ⟨tks.slots.set i.val ⟨gen, some new⟩ i.isLt, free, tks.alloc.set p (tks.alloc.get p + 1)⟩
          pcs := s.chip.pcs.set p
            { x with atBlock := x.atBlock.set .rqc (some ⟨tag, .push r, .allocated ⟨i, gen⟩ dest⟩) } } })) ∧
    (∀ h t f e, s.chip.underWay .rqc p tag (.push r) (.allocated h dest) → s.chip.quiet .rqc p → e = .claim .now ∨ e = .whole →
      r.frame = some f → s.chip.ticket h.slot = some t → s.chip.refState f ≠ .opened →
      let st : Status := match s.chip.refState f with
        | .closed => .frameState
        | .cancelling => .cancelled
        | _ => .badFrame
      exec (.push p e) s = .next { s with chip := { s.chip with
        hcu := hcu
        tks := { tks with slots := tks.slots.set h.slot.val ⟨(s.chip.slot h.slot).gen, some { t with parent := none }⟩ h.slot.isLt }
        pcs := answered st
        wires := { s.chip.wires with retireRqc := s.chip.wires.retireRqc ++ [⟨h.slot, .cancelled, none⟩] } } })

/-- From its room check to its placement a PUSH holds its target's stack and the shared queue, and nothing else does: every other claim on them waits. -/
def Obligations.PushHoldsItsLists : Prop :=
  ∀ s : State,
    (let holds := fun (p : Port) (r : PushReq) =>
        ∃ tag h d, (s.chip.pc p).atBlock.get .rqc = some ⟨tag, .push r, .roomRead d⟩ ∨
          (s.chip.pc p).atBlock.get .rqc = some ⟨tag, .push r, .allocated h d⟩ ∨
          (s.chip.pc p).atBlock.get .rqc = some ⟨tag, .push r, .registered h d⟩
     (s.chip.queueHeld = true ↔ ∃ p r, holds p r) ∧
      ∀ q, s.chip.stackHeld q = true ↔ ∃ p r, holds p r ∧ r.target.getD p = q) ∧
    (∀ src m rest, s.chip.wires.places src = m :: rest → s.chip.listHeld (s.chip.landing m.dest) = true →
      exec (.place src) s = .next s) ∧
    (∀ p, s.chip.stackHeld p = true → exec (.stealableOn p) s = .next s) ∧
    (∀ p q, q ≠ p → s.chip.stackHeld q = true → exec (.stealEnableOn p) s = .next s) ∧
    (∀ w ws r todo, s.chip.frt.walks = w :: ws → w.todo = r :: todo → s.chip.listHeld r = true →
      exec .cancelWalkStep s = .next s) ∧
    (s.chip.queueHeld = true → exec .requeue s = .next s ∧ (∀ p, exec (.portLeaveClaim p) s = .next s) ∧
      (∀ p tag timeout e, e ≠ .dispatch → s.chip.underWay .rqc p tag (.pop timeout) .hubRead → exec (.pop p e) s = .next s) ∧
      (∀ p tag r e, e ≠ .dispatch → s.chip.underWay .rqc p tag (.push r) .frameRead → exec (.push p e) s = .next s))

/-- A placement with no pop parked. On the stack of an ATTACHED port the ticket goes on top, QUEUED: WORK_READY when the stack was empty, RELEASED when
the FRT sent it. A REQUEUE, and a PLACE for the shared queue or for the stack of a port that is not ATTACHED, put it at the shared queue tail, QUEUED and
without its pin: WORK_READY for every ATTACHED port when the queue was empty. -/
def Obligations.PlacementWithNoPopParked : Prop :=
  (∀ (s : State) (src : PlaceSender) (i : SlotNo) (q : Port) (rest : List PlaceMsg) (t : Ticket), s.chip.rst = false →
     s.chip.wires.places src = ⟨i, .stack q⟩ :: rest → s.chip.ticket i = some t → s.chip.rqcAttached q = true →
     s.chip.stackHeld q = false → s.chip.rqc.parked = [] →
     exec (.place src) s = .next { s with chip := { s.chip with
       tks := { s.chip.tks with
         slots := s.chip.tks.slots.set i.val ⟨(s.chip.slot i).gen, some { t with state := .queued }⟩ i.isLt }
       rqc := { s.chip.rqc with runStacks := s.chip.rqc.runStacks.set q (i :: s.chip.stack q) }
       wires := { (s.chip.dropPlace src).wires with
         events := s.chip.wires.events.set q (s.chip.wires.events.get q ++
           (if (s.chip.stack q).isEmpty then [.workReady] else []) ++ (if src = .frt then [.released] else [])) } } }) ∧
  (∀ (s : State) (i : SlotNo) (t : Ticket), s.chip.rst = false → s.chip.ticket i = some t → s.chip.queueHeld = false →
     s.chip.rqc.parked = [] →
     let placed := fun (w : Wires) => Host.Outcome.next (φ := Fault) (ρ := Refusal) { s with chip := { s.chip with
       tks := { s.chip.tks with
         slots := s.chip.tks.slots.set i.val ⟨(s.chip.slot i).gen, some { t with state := .queued, pin := none }⟩ i.isLt }
       rqc := { s.chip.rqc with shared := s.chip.rqc.shared ++ [i] }
       wires := { w with
         events := .tab fun q =>
           if s.chip.rqc.shared.isEmpty && s.chip.rqcAttached q then s.chip.wires.events.get q ++ [.workReady]
           else s.chip.wires.events.get q } } }
     (∀ rest, s.chip.wires.requeues = i :: rest → exec .requeue s = placed { s.chip.wires with requeues := rest }) ∧
     (∀ src dest rest, s.chip.wires.places src = ⟨i, dest⟩ :: rest →
       (dest = .shared ∨ ∃ q, dest = .stack q ∧ s.chip.rqcAttached q = false) →
       exec (.place src) s = placed (s.chip.dropPlace src).wires))

/-- Parked service of a placement. On an empty stack: the owner's oldest parked pop takes the ticket as OWN; without one, an unpinned ticket of a STEALABLE stack goes
to the oldest parked pop of another port that steals. With no pop that may take the bottom ticket, the ticket stays on the stack: WORK_READY when the stack was empty.
On a non-empty stack of a port without a parked pop, an unpinned bottom ticket goes to such a thief, without WORK_READY, and the service goes on with the stack as it then
stands: one ticket served, or retired, and the placement comes to what it comes to without that ticket and that pop. A continuation the FRT sent raises RELEASED all the
same. On an empty shared queue the oldest parked pop takes the ticket as SHARED. A ticket under a CANCELLING parent is retired CANCELLED instead, with the port of the pop
it was offered to as releasing port. The parent states one service reads are read at one moment, the model's reading (log 25). -/
def Obligations.ParkedServiceOfAPlacement : Prop :=
  (∀ (s : State) (src : PlaceSender) (i : SlotNo) (q : Port) (rest : List PlaceMsg) (t : Ticket), s.chip.rst = false →
     s.chip.wires.places src = ⟨i, .stack q⟩ :: rest → s.chip.ticket i = some t → s.chip.rqcAttached q = true →
     s.chip.stackHeld q = false →
     let released : List EventKind := if src = .frt then [.released] else []
     let after := fun (rqc : Rqc) (w : Wires) (events : List EventKind) => Host.Outcome.next (φ := Fault) (ρ := Refusal)
       { s with chip := { s.chip with
         tks := { s.chip.tks with
           slots := s.chip.tks.slots.set i.val ⟨(s.chip.slot i).gen, some { t with state := .queued }⟩ i.isLt }
         rqc := rqc
         wires := { w with events := s.chip.wires.events.set q (s.chip.wires.events.get q ++ events) } } }
     let w := (s.chip.dropPlace src).wires
     let without := fun (e : ParkedPop) => s.chip.rqc.parked.eraseP fun x => x.port == e.port && x.tag == e.tag
     let thief := s.chip.rqc.parked.find? fun x => x.port != q && (s.chip.pc x.port).params.stealEnable
     (∀ e, s.chip.stack q = [] → (s.chip.parkedOf q).head? = some e →
       (s.chip.parentCancelling i = false →
         exec (.place src) s = after { s.chip.rqc with parked := without e }
           { w with takes := s.chip.wires.takes ++ [⟨i, e.port, e.tag, .own⟩] } released) ∧
       (s.chip.parentCancelling i = true →
         exec (.place src) s = after s.chip.rqc
           { w with retireRqc := s.chip.wires.retireRqc ++ [⟨i, .cancelled, some e.port⟩] } released)) ∧
     (∀ e, s.chip.stack q = [] → s.chip.parkedOf q = [] → (s.chip.pc q).params.stealable = true → t.pin = none → thief = some e →
       (s.chip.parentCancelling i = false →
         exec (.place src) s = after
           { s.chip.rqc with
             parked := without e
             stealPtr := s.chip.rqc.stealPtr.set e.port (if q.next = e.port then q.next.next else q.next) }
           { w with takes := s.chip.wires.takes ++ [⟨i, e.port, e.tag, .stolen q⟩] } released) ∧
       (s.chip.parentCancelling i = true →
         exec (.place src) s = after s.chip.rqc
           { w with retireRqc := s.chip.wires.retireRqc ++ [⟨i, .cancelled, some e.port⟩] } released)) ∧
     (∀ above j e, s.chip.stack q = above ++ [j] → s.chip.parkedOf q = [] → (s.chip.pc q).params.stealable = true →
       s.chip.pinned j = false → thief = some e →
       let comesTo := fun (c : Chip) => ∀ u, exec (.place src) { s with chip := c } = .next u →
         exec (.place src) s = .next { u with chip := { u.chip with
           wires := { u.chip.wires with events := s.chip.wires.events.set q (s.chip.wires.events.get q ++ released) } } }
       (s.chip.parentCancelling j = false →
         comesTo { s.chip with
           rqc := { s.chip.rqc with
             runStacks := s.chip.rqc.runStacks.set q above
             parked := without e
             stealPtr := s.chip.rqc.stealPtr.set e.port (if q.next = e.port then q.next.next else q.next) }
           wires := { s.chip.wires with takes := s.chip.wires.takes ++ [⟨j, e.port, e.tag, .stolen q⟩] } }) ∧
       (s.chip.parentCancelling j = true →
         comesTo { s.chip with
           rqc := { s.chip.rqc with runStacks := s.chip.rqc.runStacks.set q above }
           wires := { s.chip.wires with retireRqc := s.chip.wires.retireRqc ++ [⟨j, .cancelled, some e.port⟩] } })) ∧
     (s.chip.parkedOf q = [] →
       ((s.chip.pc q).params.stealable = false ∨ thief = none ∨ (s.chip.stack q = [] ∧ t.pin ≠ none) ∨
         ∃ l j, s.chip.stack q = l ++ [j] ∧ s.chip.pinned j = true) →
       exec (.place src) s = after { s.chip.rqc with runStacks := s.chip.rqc.runStacks.set q (i :: s.chip.stack q) } w
         ((if (s.chip.stack q).isEmpty then [.workReady] else []) ++ released))) ∧
  (∀ (s : State) (i : SlotNo) (t : Ticket) (e : ParkedPop) (es : List ParkedPop), s.chip.rst = false →
     s.chip.ticket i = some t → s.chip.queueHeld = false → s.chip.rqc.shared = [] → s.chip.rqc.parked = e :: es →
     let after := fun (w : Wires) => Host.Outcome.next (φ := Fault) (ρ := Refusal) { s with chip := { s.chip with
       tks := { s.chip.tks with
         slots := s.chip.tks.slots.set i.val ⟨(s.chip.slot i).gen, some { t with state := .queued, pin := none }⟩ i.isLt }
       rqc := if s.chip.parentCancelling i then s.chip.rqc else { s.chip.rqc with parked := es }
       wires := if s.chip.parentCancelling i then
           { w with retireRqc := s.chip.wires.retireRqc ++ [⟨i, .cancelled, some e.port⟩] }
         else { w with takes := s.chip.wires.takes ++ [⟨i, e.port, e.tag, .shared⟩] } } }
     (∀ rest, s.chip.wires.requeues = i :: rest → exec .requeue s = after { s.chip.wires with requeues := rest }) ∧
     (∀ src dest rest, s.chip.wires.places src = ⟨i, dest⟩ :: rest →
       (dest = .shared ∨ ∃ q, dest = .stack q ∧ s.chip.rqcAttached q = false) →
       exec (.place src) s = after (s.chip.dropPlace src).wires))

/-- STEALABLE_ON offers the bottom ticket of the port's stack to the oldest parked pop of another port that steals, and goes on with the stack as it then stands.
STEAL_ENABLE_ON offers the port's parked pops steal searches, oldest first, each from the port's steal pointer past victims that have nothing for it, and goes on until
one fails. A candidate under a CANCELLING parent is retired CANCELLED, and the service or the search goes on. With nobody to serve, nothing to take, or the setting off
again, the notice alone is taken (log 16). -/
def Obligations.StealSettingsTurnedOn : Prop :=
  (∀ (s : State) (p : Port) (rest : List RqcNotice), s.chip.rst = false → s.chip.wires.toRqc.get p = .stealableOn :: rest →
     s.chip.stackHeld p = false → s.chip.parkedOf p = [] →
     let thief := s.chip.rqc.parked.find? fun x => x.port != p && (s.chip.pc x.port).params.stealEnable
     (∀ i above e, s.chip.stack p = above ++ [i] → (s.chip.pc p).params.stealable = true → s.chip.pinned i = false → thief = some e →
       (s.chip.parentCancelling i = false →
         exec (.stealableOn p) s = exec (.stealableOn p) { s with chip := { s.chip with
           rqc := { s.chip.rqc with
             runStacks := s.chip.rqc.runStacks.set p above
             parked := s.chip.rqc.parked.eraseP fun x => x.port == e.port && x.tag == e.tag
             stealPtr := s.chip.rqc.stealPtr.set e.port (if p.next = e.port then p.next.next else p.next) }
           wires := { s.chip.wires with takes := s.chip.wires.takes ++ [⟨i, e.port, e.tag, .stolen p⟩] } } }) ∧
       (s.chip.parentCancelling i = true →
         exec (.stealableOn p) s = exec (.stealableOn p) { s with chip := { s.chip with
           rqc := { s.chip.rqc with runStacks := s.chip.rqc.runStacks.set p above }
           wires := { s.chip.wires with retireRqc := s.chip.wires.retireRqc ++ [⟨i, .cancelled, some e.port⟩] } } })) ∧
     ((s.chip.pc p).params.stealable = false ∨ thief = none ∨ s.chip.stack p = [] ∨
         (∃ l j, s.chip.stack p = l ++ [j] ∧ s.chip.pinned j = true) →
       exec (.stealableOn p) s = .next { s with chip := { s.chip with
         wires := { s.chip.wires with toRqc := s.chip.wires.toRqc.set p rest } } })) ∧
  (∀ (s : State) (p : Port) (rest : List RqcNotice), s.chip.rst = false → s.chip.wires.toRqc.get p = .stealEnableOn :: rest →
     (∀ q, q ≠ p → s.chip.stackHeld q = false) →
     let first := s.chip.rqc.stealPtr.get p
     let victims := [first, first.next, first.next.next, first.next.next.next].filter (· != p)
     let passed := fun (u : Port) =>
       s.chip.rqcAttached u = false ∨ s.chip.stack u = [] ∨ (s.chip.pc u).params.stealable = false ∨
         ∃ l j, s.chip.stack u = l ++ [j] ∧ s.chip.pinned j = true
     let alone := Host.Outcome.next (φ := Fault) (ρ := Refusal) { s with chip := { s.chip with
       wires := { s.chip.wires with toRqc := s.chip.wires.toRqc.set p rest } } }
     (∀ e es before v after i above, s.chip.parkedOf p = e :: es → (s.chip.pc p).params.stealEnable = true →
       victims = before ++ v :: after → (∀ u ∈ before, passed u) →
       s.chip.rqcAttached v = true → (s.chip.pc v).params.stealable = true → s.chip.stack v = above ++ [i] → s.chip.pinned i = false →
       (s.chip.parentCancelling i = false →
         exec (.stealEnableOn p) s = exec (.stealEnableOn p) { s with chip := { s.chip with
           rqc := { s.chip.rqc with
             runStacks := s.chip.rqc.runStacks.set v above
             parked := s.chip.rqc.parked.eraseP fun x => x.port == p && x.tag == e.tag
             stealPtr := s.chip.rqc.stealPtr.set p (if v.next = p then v.next.next else v.next) }
           wires := { s.chip.wires with takes := s.chip.wires.takes ++ [⟨i, p, e.tag, .stolen v⟩] } } }) ∧
       (s.chip.parentCancelling i = true →
         exec (.stealEnableOn p) s = exec (.stealEnableOn p) { s with chip := { s.chip with
           rqc := { s.chip.rqc with runStacks := s.chip.rqc.runStacks.set v above }
           wires := { s.chip.wires with retireRqc := s.chip.wires.retireRqc ++ [⟨i, .cancelled, some p⟩] } } })) ∧
     (s.chip.parkedOf p ≠ [] → (s.chip.pc p).params.stealEnable = true → (∀ u ∈ victims, passed u) →
       exec (.stealEnableOn p) s = alone) ∧
     ((s.chip.pc p).params.stealEnable = false ∨ s.chip.parkedOf p = [] → exec (.stealEnableOn p) s = alone))

/-! ## POP and the take -/

/-- A POP that takes nothing: NOT_RUNNING in SETUP, NOT_ATTACHED from a sender that is not ATTACHED, and, with no source serving it, the park decision:
EMPTY for timeout 0, else parked as the newest entry when the sender has fewer than 4 and the table fewer than 16, else PARK_FULL. -/
def Obligations.PopWithoutATicket : Prop :=
  ∀ (s : State) (p : Port) (k : Packet) (timeout : Nat), s.chip.ready p k (.pop timeout) → s.chip.queueHeld = false →
    let outcome := exec (.pop p .whole) s
    (s.chip.hcu.state = .setup → outcome = .next { s with chip := s.chip.answered p k.tag .notRunning [] }) ∧
    (s.chip.hcu.state ≠ .setup → s.chip.rqcAttached p = false →
      outcome = .next { s with chip := s.chip.answered p k.tag .notAttached [] }) ∧
    (s.chip.hcu.state ≠ .setup → s.chip.rqcAttached p = true → s.chip.stack p = [] → s.chip.rqc.shared = [] →
      ((s.chip.pc p).params.stealEnable = false ∨
        ∀ u, u ≠ p → s.chip.rqcAttached u = false ∨ s.chip.stack u = [] ∨ (s.chip.pc u).params.stealable = false ∨
          ∃ j l, s.chip.stack u = l ++ [j] ∧ s.chip.pinned j = true) →
      (timeout = 0 → outcome = .next { s with chip := s.chip.answered p k.tag .empty [] }) ∧
      (timeout ≠ 0 → (s.chip.parkedOf p).length < 4 → s.chip.rqc.parked.length < 16 →
        outcome = .next { s with chip := { s.chip.passed p with
          rqc := { s.chip.rqc with
            parked := s.chip.rqc.parked ++ [⟨p, k.tag, if timeout = 4095 then none else some timeout⟩] } } }) ∧
      (timeout ≠ 0 → 4 ≤ (s.chip.parkedOf p).length ∨ 16 ≤ s.chip.rqc.parked.length →
        outcome = .next { s with chip := s.chip.answered p k.tag .parkFull [] }))

/-- A POP takes the top of its own stack as OWN, and with that stack empty the head of the shared queue as SHARED. Retire-at-take: when that candidate's
parent is CANCELLING, the POP goes on as if the ticket had been removed and its RETIRE, CANCELLED and with the sender as releasing port, sent. -/
def Obligations.PopTakesOrRetiresItsCandidate : Prop :=
  (∀ (s : State) (p : Port) (k : Packet) (timeout : Nat) (i : SlotNo) (rest : List SlotNo),
     s.chip.ready p k (.pop timeout) → s.chip.queueHeld = false → s.chip.hcu.state ≠ .setup → s.chip.rqcAttached p = true →
     s.chip.parentCancelling i = false →
     (s.chip.stack p = i :: rest →
       exec (.pop p .whole) s = .next { s with chip := { s.chip.passed p with
         rqc := { s.chip.rqc with runStacks := s.chip.rqc.runStacks.set p rest }
         wires := { s.chip.wires with takes := s.chip.wires.takes ++ [⟨i, p, k.tag, .own⟩] } } }) ∧
     (s.chip.stack p = [] → s.chip.rqc.shared = i :: rest →
       exec (.pop p .whole) s = .next { s with chip := { s.chip.passed p with
         rqc := { s.chip.rqc with shared := rest }
         wires := { s.chip.wires with takes := s.chip.wires.takes ++ [⟨i, p, k.tag, .shared⟩] } } })) ∧
  (∀ (s : State) (p : Port) (k : Packet) (timeout : Nat) (i : SlotNo) (rest : List SlotNo),
     s.chip.ready p k (.pop timeout) → s.chip.queueHeld = false → s.chip.hcu.state ≠ .setup → s.chip.rqcAttached p = true →
     s.chip.parentCancelling i = true →
     let wires : Wires := { s.chip.wires with retireRqc := s.chip.wires.retireRqc ++ [⟨i, .cancelled, some p⟩] }
     (s.chip.stack p = i :: rest →
       exec (.pop p .whole) s = exec (.pop p .whole)
         { s with chip := { s.chip with
           rqc := { s.chip.rqc with runStacks := s.chip.rqc.runStacks.set p rest }, wires := wires } }) ∧
     (s.chip.stack p = [] → s.chip.rqc.shared = i :: rest →
       exec (.pop p .whole) s = exec (.pop p .whole)
         { s with chip := { s.chip with rqc := { s.chip.rqc with shared := rest }, wires := wires } }))

/-- With its own stack and the shared queue empty, a POP whose STEAL_ENABLE is ON takes the bottom ticket of the first victim from its steal pointer on that
is ATTACHED, STEALABLE, non-empty and unpinned at the bottom, and its steal pointer moves to the port after the victim. Retire-at-take: when that ticket's parent
is CANCELLING, the POP goes on as if it had been removed and its RETIRE, CANCELLED and with the sender as releasing port, sent. -/
def Obligations.PopStealsFromFirstVictim : Prop :=
  ∀ (s : State) (p v : Port) (k : Packet) (timeout : Nat) (i : SlotNo) (above : List SlotNo) (before after : List Port),
    s.chip.ready p k (.pop timeout) → s.chip.queueHeld = false → s.chip.hcu.state ≠ .setup → s.chip.rqcAttached p = true →
    s.chip.stack p = [] → s.chip.rqc.shared = [] → (s.chip.pc p).params.stealEnable = true →
    ([s.chip.rqc.stealPtr.get p, (s.chip.rqc.stealPtr.get p).next, (s.chip.rqc.stealPtr.get p).next.next,
        (s.chip.rqc.stealPtr.get p).next.next.next].filter (· != p)) = before ++ v :: after →
    (∀ u ∈ before, s.chip.rqcAttached u = false ∨ s.chip.stack u = [] ∨ (s.chip.pc u).params.stealable = false ∨
      ∃ j l, s.chip.stack u = l ++ [j] ∧ s.chip.pinned j = true) →
    s.chip.rqcAttached v = true → (s.chip.pc v).params.stealable = true → s.chip.stack v = above ++ [i] →
    s.chip.pinned i = false →
    (s.chip.parentCancelling i = false →
      exec (.pop p .whole) s = .next { s with chip := { s.chip.passed p with
        rqc := { s.chip.rqc with
          runStacks := s.chip.rqc.runStacks.set v above
          stealPtr := s.chip.rqc.stealPtr.set p (if v.next = p then v.next.next else v.next) }
        wires := { s.chip.wires with takes := s.chip.wires.takes ++ [⟨i, p, k.tag, .stolen v⟩] } } }) ∧
    (s.chip.parentCancelling i = true →
      exec (.pop p .whole) s = exec (.pop p .whole) { s with chip := { s.chip with
        rqc := { s.chip.rqc with runStacks := s.chip.rqc.runStacks.set v above }
        wires := { s.chip.wires with retireRqc := s.chip.wires.retireRqc ++ [⟨i, .cancelled, some p⟩] } } })

/-- TAKE of a good ticket for a port that has not left: RUNNING, an entry with its lease, the held count one higher, and the POP answered with the ticket.
Otherwise no run: POISONED when a stored word is bad, with the ticket retired FAILED; returned unrun to the shared queue for a detaching port, answered EMPTY; given over
to the requeue decision for a lost port, with no answer. An answer is sent on its way to the port (log 29). -/
def Obligations.TakeByMarkAndParity : Prop :=
  ∀ (s : State) (m : TakeMsg) (rest : List TakeMsg) (t : Ticket), s.chip.rst = false → s.chip.wires.takes = m :: rest →
    s.chip.ticket m.slot = some t →
    let h : Handle := ⟨m.slot, (s.chip.slot m.slot).gen⟩
    let lease := (s.chip.pc m.port).params.leaseTime
    let sent := fun (st : Status) (body : List Word) (reported : Option Handle) =>
      s.chip.wires.answers.set m.port (s.chip.wires.answers.get m.port ++ [⟨none, ⟨m.tag, st, body, reported⟩⟩])
    let running : Tks := { s.chip.tks with
      slots := s.chip.tks.slots.set m.slot.val ⟨(s.chip.slot m.slot).gen, some { t with state := .running }⟩ m.slot.isLt }
    (s.chip.ltu.departed.get m.port = none → t.wordsGood = true →
      exec .take s = .next { s with chip := { s.chip with
        tks := running
        ltu := { s.chip.ltu with
          running := insertEntry ⟨m.slot, m.port, if lease = 0 then none else some lease, m.source, t.requeues⟩ s.chip.ltu.running
          held := s.chip.ltu.held.set m.port (s.chip.ltu.held.get m.port + 1) }
        wires := { s.chip.wires with takes := rest, answers := sent .ok (popBody h t m.source t.requeues) (some h) } } }) ∧
    (s.chip.ltu.departed.get m.port = none → t.wordsGood = false → s.chip.runEntry m.slot = none →
      exec .take s = .next { s with chip := { s.chip with
        tks := running
        wires := { s.chip.wires with
          takes := rest, retireLtu := s.chip.wires.retireLtu ++ [⟨m.slot, .failed, some m.port⟩]
          answers := sent .poisoned (handleBody h) (some h) } } }) ∧
    (s.chip.ltu.departed.get m.port = some .detaching →
      exec .take s = .next { s with chip := { s.chip with
        wires := { s.chip.wires with
          takes := rest, placeLtu := s.chip.wires.placeLtu ++ [⟨m.slot, .shared⟩], answers := sent .empty [] none } } }) ∧
    (s.chip.ltu.departed.get m.port = some .lost →
      exec .take s = .next { s with
        chip := ({ s.chip with wires := { s.chip.wires with takes := rest } } : Chip).requeueDecision m.slot t.requeues })

/-- PARK_TIMEOUT removes a parked entry whose deadline has been reached and sends its POP the answer TIMEOUT; an expiry that finds no entry, or one not due, has no
effect. -/
def Obligations.ParkTimeoutAnswersTimeout : Prop :=
  ∀ (s : State) (p : Port) (tag : Tag), s.chip.rst = false →
    (∀ e, (s.chip.rqc.parked.find? fun x => x.port == p && x.tag == tag) = some e → e.ticksLeft = some 0 →
      exec (.parkTimeout p tag) s = .next { s with chip := { s.chip with
        rqc := { s.chip.rqc with parked := s.chip.rqc.parked.eraseP fun x => x.port == p && x.tag == tag }
        wires := { s.chip.wires with
          answers := s.chip.wires.answers.set p (s.chip.wires.answers.get p ++ [⟨none, ⟨tag, .timeout, [], none⟩⟩]) } } }) ∧
    ((∀ e ∈ s.chip.rqc.parked, e.port = p → e.tag = tag → e.ticksLeft ≠ some 0) → exec (.parkTimeout p tag) s = .next s)

/-! ## Running tickets -/

/-- COMPLETE, YIELD and RENEW by the holder. COMPLETE and YIELD end the run: the entry goes and the held count falls; COMPLETE sends RETIRE with the
result, YIELD advances the generation and sends PLACE to the holder's stack top. RENEW replaces the deadline from LEASE_TIME as it stands, and answers the
ticks to it, or no deadline for LEASE_TIME 0. -/
def Obligations.HolderRequestsByTheHolder : Prop :=
  (∀ (s : State) (p : Port) (k : Packet) (h : Handle) (t : Ticket) (e : RunEntry), s.chip.gateRefusal p = none →
     s.chip.entryHeld h.slot = false → (s.chip.slot h.slot).gen = h.gen → s.chip.ticket h.slot = some t → t.state = .running →
     s.chip.runEntry h.slot = some e → e.holder = p →
     let a := s.chip.answered p k.tag .ok []
     let ltu : Ltu := { s.chip.ltu with
       running := s.chip.ltu.running.filter fun x => x.slot != h.slot
       held := s.chip.ltu.held.set p (s.chip.ltu.held.get p - 1) }
     (∀ result, s.chip.ready p k (.complete h result) →
       exec (.complete p .whole) s = .next { s with chip := { a with
         ltu := ltu
         wires := { s.chip.wires with retireLtu := s.chip.wires.retireLtu ++ [⟨h.slot, result, some p⟩] } } }) ∧
     (s.chip.ready p k (.yield h) →
       exec (.yield p .whole) s = .next { s with chip := { a with
         ltu := ltu
         tks := { s.chip.tks with slots := s.chip.tks.slots.set h.slot.val ⟨h.gen + 1, some t⟩ h.slot.isLt }
         wires := { s.chip.wires with placeLtu := s.chip.wires.placeLtu ++ [⟨h.slot, .stack p⟩] } } })) ∧
  (∀ (s : State) (p : Port) (k : Packet) (h : Handle) (t : Ticket) (e : RunEntry), s.chip.ready p k (.renew h) →
     s.chip.gateRefusal p = none → s.chip.entryHeld h.slot = false → (s.chip.slot h.slot).gen = h.gen →
     s.chip.ticket h.slot = some t → t.state = .running → s.chip.runEntry h.slot = some e → e.holder = p →
     let lease := (s.chip.pc p).params.leaseTime
     let left : Option Nat := if lease = 0 then none else some lease
     exec (.renew p .whole) s = .next { s with chip := { s.chip.answered p k.tag .ok (renewBody left) with
       ltu := { s.chip.ltu with
         running := s.chip.ltu.running.map fun x => if x.slot = h.slot then { x with ticksLeft := left } else x } } })

/-- COMPLETE, RENEW and YIELD refused: NOT_RUNNING in SETUP, then NOT_ATTACHED, then STALE when the handle is stale, the slot not RUNNING, or the entry another
port's; nothing else changes. -/
def Obligations.HolderRequestsRefused : Prop :=
  ∀ (s : State) (p : Port) (k : Packet) (h : Handle) (st : Status),
    (s.chip.gateRefusal p = some st ∨
      (s.chip.gateRefusal p = none ∧ st = .stale ∧ s.chip.entryHeld h.slot = false ∧
        ((s.chip.slot h.slot).gen ≠ h.gen ∨ (∀ t, s.chip.ticket h.slot = some t → t.state ≠ .running) ∨
          (∀ e, s.chip.runEntry h.slot = some e → e.holder ≠ p)))) →
    (∀ result, s.chip.ready p k (.complete h result) →
      exec (.complete p .whole) s = .next { s with chip := s.chip.answered p k.tag st [] }) ∧
    (s.chip.ready p k (.renew h) → exec (.renew p .whole) s = .next { s with chip := s.chip.answered p k.tag st [] }) ∧
    (s.chip.ready p k (.yield h) → exec (.yield p .whole) s = .next { s with chip := s.chip.answered p k.tag st [] })

/-- The requeue decision: retired CANCELLED under a CANCELLING parent; else retired FAILED at REQUEUE_LIMIT; else requeued under a new generation, its count
one higher and its pin gone. -/
def Obligations.RequeueDecisionInOrder : Prop :=
  ∀ (c : Chip) (i : SlotNo) (t : Ticket) (n : Nat), c.ticket i = some t →
    let retired := fun (o : TicketOutcome) =>
      ({ c with wires := { c.wires with retireLtu := c.wires.retireLtu ++ [⟨i, o, none⟩] } } : Chip)
    (c.parentCancelling i = true → c.requeueDecision i n = retired .cancelled) ∧
    (c.parentCancelling i = false → n = c.hcu.requeueLimit → c.requeueDecision i n = retired .failed) ∧
    (c.parentCancelling i = false → n ≠ c.hcu.requeueLimit →
      c.requeueDecision i n = { c with
        tks := { c.tks with
          slots := c.tks.slots.set i.val
            ⟨(c.slot i).gen + 1, some { t with requeues := t.requeues + 1, pin := none }⟩ i.isLt }
        wires := { c.wires with requeues := c.wires.requeues ++ [i] } })

/-- LEASE_EXPIRY of a due entry removes it, makes the requeue decision and raises LEASE_LOST for the holder; an entry gone, not due or without a deadline is
left. From its check 3 until the handoff an OPEN_FRAME holds its current ticket's entry: an expiry, a COMPLETE, RENEW or YIELD, and a port-loss claim on that entry
wait. -/
def Obligations.LeaseExpiryTakesTicketBack : Prop :=
  ∀ (s : State) (i : SlotNo),
    (∀ e, s.chip.rst = false → s.chip.runEntry i = some e → e.ticksLeft = some 0 → s.chip.entryHeld i = false →
      exec (.leaseExpiry i) s = .next { s with
        chip := (({ s.chip with
          ltu := { s.chip.ltu with
            running := s.chip.ltu.running.filter fun x => x.slot != e.slot
            held := s.chip.ltu.held.set e.holder (s.chip.ltu.held.get e.holder - 1) } } : Chip).requeueDecision e.slot
              e.requeues).raise e.holder .leaseLost }) ∧
    ((∀ e, s.chip.runEntry i = some e → e.ticksLeft ≠ some 0 ∨ s.chip.entryHeld i = true) →
      exec (.leaseExpiry i) s = .next s) ∧
    (s.chip.entryHeld i = true ↔ ∃ p tag r h st, (s.chip.pc p).atBlock.get .frt = some ⟨tag, .openFrame r, st⟩ ∧
      (st = .currentRead ∨ st = .pinRead) ∧ r.current = some h ∧ h.slot = i) ∧
    (s.chip.entryHeld i = true →
      (∀ p tag h e, h.slot = i → e ≠ .dispatch →
        (∀ result, s.chip.underWay .ltu p tag (.complete h result) .senderRead → exec (.complete p e) s = .next s) ∧
        (s.chip.underWay .ltu p tag (.renew h) .senderRead → exec (.renew p e) s = .next s) ∧
        (s.chip.underWay .ltu p tag (.yield h) .senderRead → exec (.yield p e) s = .next s)) ∧
      (∀ p rest, s.chip.wires.toLtu.get p = .loss :: rest → (∃ e ∈ s.chip.entriesOf p, e.slot = i) →
        exec (.portLossClaimLtu p) s = .next s))

/-- PORT_LOSS_CLAIM_LTU makes the requeue decision for each of the port's entries in turn, and marks the port lost when none is left. That no CANCEL_FRAME comes
between two of the decisions is the model's choice (log 32). -/
def Obligations.LossClaimDecidesEveryEntry : Prop :=
  ∀ (s : State) (p : Port) (rest : List LtuNotice), s.chip.rst = false → s.chip.wires.toLtu.get p = .loss :: rest →
    (∀ e ∈ s.chip.entriesOf p, s.chip.entryHeld e.slot = false) →
    (s.chip.entriesOf p = [] →
      exec (.portLossClaimLtu p) s = .next { s with chip := { s.chip with
        ltu := { s.chip.ltu with departed := s.chip.ltu.departed.set p (some .lost) }
        wires := { s.chip.wires with toLtu := s.chip.wires.toLtu.set p rest } } }) ∧
    (∀ e es, s.chip.entriesOf p = e :: es → (∀ x ∈ es, x.slot ≠ e.slot) →
      exec (.portLossClaimLtu p) s = exec (.portLossClaimLtu p) { s with
        chip := ({ s.chip with
          ltu := { s.chip.ltu with
            running := s.chip.ltu.running.filter fun x => x.slot != e.slot
            held := s.chip.ltu.held.set p (s.chip.ltu.held.get p - 1) } } : Chip).requeueDecision e.slot e.requeues })

/-! ## The ticket store -/

/-- RETIRE frees the slot at its next generation at the free list tail, lowers the allocator's count, and sends CHILD_END for a parent; a free list that
becomes full calls for a completion check (R151). -/
def Obligations.RetireFreesSlot : Prop :=
  ∀ (s : State) (src : RetireSender) (m : RetireMsg) (rest : List RetireMsg) (t : Ticket), s.chip.rst = false →
    s.chip.wires.retires src = m :: rest → s.chip.ticket m.slot = some t →
    exec (.retire src) s = .next { s with chip := { s.chip with
      hcu := { s.chip.hcu with
        checks := if s.chip.tks.free.length + 1 = 1024 then s.chip.hcu.checks + 1 else s.chip.hcu.checks }
      tks := ⟨s.chip.tks.slots.set m.slot.val ⟨(s.chip.slot m.slot).gen + 1, none⟩ m.slot.isLt, s.chip.tks.free ++ [m.slot],
        s.chip.tks.alloc.set t.allocator (s.chip.tks.alloc.get t.allocator - 1)⟩
      wires := { (s.chip.dropRetire src).wires with
        childEnds := match t.parent with
          | some f => s.chip.wires.childEnds ++ [⟨f, m.outcome, m.releasing⟩]
          | none => s.chip.wires.childEnds } } }

/-- STORED_WORD_DISTURBANCE of one of a ticket's words makes that word's parity wrong, so a take of the ticket would be POISONED; of a word beyond the
ticket's counts, or of a FREE slot, it changes nothing. -/
def Obligations.DisturbedWordFailsParity : Prop :=
  ∀ (s : State) (i : SlotNo) (w : Word), s.chip.rst = false →
    (s.chip.ticket i = none → ∀ place, exec (.storedWordDisturbance i place w) s = .next s) ∧
    (∀ t, s.chip.ticket i = some t →
      let after := fun (u : Ticket) => Host.Outcome.next (φ := Fault) (ρ := Refusal) { s with chip := { s.chip with
        tks := { s.chip.tks with slots := s.chip.tks.slots.set i.val ⟨(s.chip.slot i).gen, some u⟩ i.isLt } } }
      (∀ n : Fin 6,
        (n.val < t.payload.length →
          let u : Ticket := { t with payload := t.payload.set n.val ⟨w, !parityOf w⟩ }
          exec (.storedWordDisturbance i (.payload n) w) s = after u ∧ u.wordsGood = false) ∧
        (t.payload.length ≤ n.val → exec (.storedWordDisturbance i (.payload n) w) s = .next s)) ∧
      (∀ n : Fin 4,
        (n.val < t.context.length →
          let u : Ticket := { t with context := t.context.set n.val ⟨w, !parityOf w⟩ }
          exec (.storedWordDisturbance i (.context n) w) s = after u ∧ u.wordsGood = false) ∧
        (t.context.length ≤ n.val → exec (.storedWordDisturbance i (.context n) w) s = .next s)))

/-! ## Join frames -/

/-- CHILD_END lowers pending and raises the outcome's counter up to 65535; a CLOSED or CANCELLING frame whose pending reaches 0 is released. -/
def Obligations.ChildEndCountsAndReleases : Prop :=
  ∀ (s : State) (m : ChildEndMsg) (rest : List ChildEndMsg), s.chip.rst = false → s.chip.wires.childEnds = m :: rest →
    let f := s.chip.frame m.frame.index
    let up := fun (o : TicketOutcome) (n : Nat) => if m.outcome = o then min (n + 1) 65535 else n
    let g : Frame := { f with
      pending := f.pending - 1, ok := up .ok f.ok, failed := up .failed f.failed, cancelled := up .cancelled f.cancelled }
    let c : Chip := { s.chip with
      frt := { s.chip.frt with frames := s.chip.frt.frames.set m.frame.index.val g m.frame.index.isLt }
      wires := { s.chip.wires with childEnds := rest } }
    (1 < f.pending ∨ f.state = .opened → exec .childEnd s = .next { s with chip := c }) ∧
    (f.pending ≤ 1 → f.state = .closed ∨ f.state = .cancelling →
      exec .childEnd s = .next { s with chip := c.release m.frame.index m.releasing })

/-- A release writes the outcome summary into the continuation and removes its continued frame, frees the frame at its next generation, and, unless the
continuation's parent is CANCELLING, sends the continuation to be placed. -/
def Obligations.ReleasePlacesContinuation : Prop :=
  ∀ (c : Chip) (n : FrameNo) (rel : Option Port) (h : Handle) (t : Ticket), (c.frame n).continuation = some h →
    c.ticket h.slot = some t → (∀ g, t.parent = some g → g.index ≠ n ∧ c.refState g ≠ .cancelling) →
    let f := c.frame n
    let choice := c.releaseChoice f.pin rel
    let kept : Option Port := if choice.2 = none then none else t.pin
    c.release n rel = { c with
      tks := { c.tks with
        slots := c.tks.slots.set h.slot.val
          ⟨(c.slot h.slot).gen, some { t with
            summary := some ⟨f.ok, f.failed, f.cancelled, f.state == .cancelling⟩, contFrame := none, pin := kept }⟩
          h.slot.isLt }
      frt := { c.frt with
        frames := c.frt.frames.set n.val
          { f with
            gen := f.gen + 1, state := .free, pending := 0, continuation := none, opener := none, pin := none
            walkPending := false } n.isLt
        inUse := c.frt.inUse - 1 }
      wires := { c.wires with placeFrt := c.wires.placeFrt ++ [⟨h.slot, choice.1⟩] } }

/-- The release cascade: a continuation whose parent is CANCELLING is retired CANCELLED without a message, its slot freed and its end counted in the parent;
the cascade ends there while the parent has other children, and with none goes on to release the parent in turn, whatever the parent's own continuation is, as far
outward as the CANCELLING parents reach. A free list that becomes full calls for a completion check, in the model's own count (log 15). The cascade frees all its
slots at one moment, the model's choice (log 33). -/
def Obligations.ReleaseCascadesOutward : Prop :=
  ∀ (c : Chip) (n : FrameNo) (rel : Option Port) (h : Handle) (t : Ticket) (g : FrameRef),
    (c.frame n).continuation = some h → c.ticket h.slot = some t → t.parent = some g → g.index ≠ n →
    c.refState g = .cancelling →
    let f := c.frame n
    let o := c.frame g.index
    let c1 : Chip := { c with
      hcu := { c.hcu with checks := if c.tks.free.length + 1 = 1024 then c.hcu.checks + 1 else c.hcu.checks }
      tks := ⟨c.tks.slots.set h.slot.val ⟨(c.slot h.slot).gen + 1, none⟩ h.slot.isLt, c.tks.free ++ [h.slot],
        c.tks.alloc.set t.allocator (c.tks.alloc.get t.allocator - 1)⟩
      frt := { c.frt with
        frames := (c.frt.frames.set n.val
          { f with
            gen := f.gen + 1, state := .free, pending := 0, continuation := none, opener := none, pin := none
            walkPending := false } n.isLt).set g.index.val
          { o with pending := o.pending - 1, cancelled := min (o.cancelled + 1) 65535 } g.index.isLt
        inUse := c.frt.inUse - 1 } }
    (1 < o.pending → c.release n rel = c1) ∧
    (o.pending ≤ 1 → c.release n rel = c1.release g.index rel)

/-- An OPEN_FRAME refused by a check is answered with the first failing check's status and changes nothing else. -/
def Obligations.OpenFrameRefusedByFirstCheck : Prop :=
  ∀ (s : State) (p : Port) (k : Packet) (r : OpenReq) (st : Status), s.chip.ready p k (.openFrame r) →
    s.chip.openRefusal p r = some st →
    exec (.openFrame p .whole) s = .next { s with chip := s.chip.answered p k.tag st [] }

/-- OPEN_FRAME opens the lowest-numbered FREE frame with a WAITING continuation in the head slot, and moves the current ticket's parent to the
continuation. -/
def Obligations.OpenFrameOpensLowestFree : Prop :=
  ∀ (s : State) (p : Port) (k : Packet) (r : OpenReq) (n : FrameNo) (i : SlotNo) (free : List SlotNo),
    s.chip.ready p k (.openFrame r) → s.chip.openRefusal p r = none → s.chip.tks.free = i :: free →
    (s.chip.frame n).state = .free → (∀ m, m < n → (s.chip.frame m).state ≠ .free) →
    let gen := (s.chip.frame n).gen
    let h : Handle := ⟨i, (s.chip.slot i).gen⟩
    let parent : Option FrameRef := r.current.bind fun h => (s.chip.ticket h.slot).bind Ticket.parent
    let new : Ticket := ⟨.waiting, .continuation, p, parent, r.pin, r.payload.map storeWord, r.context.map storeWord,
      some ⟨n, gen⟩, none, 0⟩
    let handed : Vector Slot 1024 := match r.current with
      | some h => s.chip.tks.slots.set h.slot.val
          ⟨(s.chip.slot h.slot).gen, (s.chip.ticket h.slot).map fun t => { t with parent := none }⟩ h.slot.isLt
      | none => s.chip.tks.slots
    exec (.openFrame p .whole) s = .next { s with
      chip := { s.chip.answered p k.tag .ok (openBody h ⟨n, gen⟩) (some h) with
        tks := ⟨handed.set i.val ⟨(s.chip.slot i).gen, some new⟩ i.isLt, free,
          s.chip.tks.alloc.set p (s.chip.tks.alloc.get p + 1)⟩
        frt := { s.chip.frt with
          frames := s.chip.frt.frames.set n.val ⟨gen, .opened, 0, some h, some p, r.pin, 0, 0, 0, false⟩ n.isLt
          inUse := s.chip.frt.inUse + 1 } } }

/-- CLOSE_FRAME by its table: an OPEN frame becomes CLOSED, and with no child pending is released; the answer is the pending count found; any other frame is
refused with its own status. -/
def Obligations.CloseFrameByTable : Prop :=
  ∀ (s : State) (p : Port) (k : Packet) (f : FrameRef), s.chip.ready p k (.closeFrame f) →
    let g := s.chip.frame f.index
    let closed : Chip := { s.chip with
      frt := { s.chip.frt with frames := s.chip.frt.frames.set f.index.val { g with state := .closed } f.index.isLt } }
    let answer := fun (st : Status) (body : List Word) => s.chip.answered p k.tag st body
    (∀ st, s.chip.gateRefusal p = some st → exec (.closeFrame p .whole) s = .next { s with chip := answer st [] }) ∧
    (s.chip.gateRefusal p = none →
      (s.chip.refState f = .opened → 0 < g.pending →
        exec (.closeFrame p .whole) s = .next { s with chip := closed.withPortsOf (answer .ok (countBody g.pending)) }) ∧
      (s.chip.refState f = .opened → g.pending = 0 →
        exec (.closeFrame p .whole) s = .next { s with
          chip := (closed.release f.index (some p)).withPortsOf (answer .ok (countBody 0)) }) ∧
      (s.chip.refState f = .closed → exec (.closeFrame p .whole) s = .next { s with chip := answer .frameState [] }) ∧
      (s.chip.refState f = .cancelling → exec (.closeFrame p .whole) s = .next { s with chip := answer .cancelled [] }) ∧
      (s.chip.refState f = .free → exec (.closeFrame p .whole) s = .next { s with chip := answer .badFrame [] }))

/-- CANCEL_FRAME by its table: an OPEN frame with no child pending is released at once; one with children becomes CANCELLING and its walk is queued, or BUSY;
a CANCELLING one is answered 0; a FREE or stale one BAD_FRAME. -/
def Obligations.CancelFrameByTable : Prop :=
  ∀ (s : State) (p : Port) (k : Packet) (f : FrameRef), s.chip.ready p k (.cancelFrame f) →
    let g := s.chip.frame f.index
    let walks := s.chip.frt.walks
    let answer := fun (st : Status) (body : List Word) => s.chip.answered p k.tag st body
    let outcome := exec (.cancelFrame p .whole) s
    (∀ st, s.chip.gateRefusal p = some st → outcome = .next { s with chip := answer st [] }) ∧
    (s.chip.gateRefusal p = none →
      (s.chip.refState f = .opened → g.pending = 0 →
        outcome = .next { s with
          chip := (({ s.chip with
            frt := { s.chip.frt with
              frames := s.chip.frt.frames.set f.index.val { g with state := .cancelling } f.index.isLt } } : Chip).release
                f.index (some p)).withPortsOf (answer .ok (countBody 0)) }) ∧
      (s.chip.refState f = .opened ∨ s.chip.refState f = .closed → 0 < g.pending → walks.length < 8 →
        (∀ w ∈ walks, w.frame ≠ f) →
        outcome = .next { s with chip := { s.chip.passed p with
          frt := { s.chip.frt with
            frames := s.chip.frt.frames.set f.index.val { g with state := .cancelling, walkPending := true } f.index.isLt
            walks := walks ++ [⟨f, p, k.tag, 0, true,
              [.stack .p0, .stack .p1, .stack .p2, .stack .p3, .shared]⟩] } } }) ∧
      (s.chip.refState f = .opened ∨ s.chip.refState f = .closed → 0 < g.pending →
        8 ≤ walks.length ∨ (∃ w ∈ walks, w.frame = f) → outcome = .next { s with chip := answer .busy [] }) ∧
      (s.chip.refState f = .cancelling → outcome = .next { s with chip := answer .ok (countBody 0) }) ∧
      (s.chip.refState f = .free → outcome = .next { s with chip := answer .badFrame [] }))

/-- CANCEL_WALK_STEP removes from the walk's next list every ticket whose parent is the walk's reference, the others keeping their order, retires each CANCELLED
with no releasing port, in the order the list is read (the model's choice, log 31), and counts them. -/
def Obligations.WalkStepRemovesChildren : Prop :=
  ∀ (s : State) (w : Walk) (ws : List Walk) (r : RunList) (todo : List RunList), s.chip.rst = false →
    s.chip.frt.walks = w :: ws → w.todo = r :: todo → s.chip.listHeld r = false →
    let child := fun (i : SlotNo) => (s.chip.ticket i).bind Ticket.parent == some w.frame
    let gone := (s.chip.runList r).filter child
    let kept := (s.chip.runList r).filter fun i => !child i
    exec .cancelWalkStep s = .next { s with chip := { s.chip with
      rqc := match r with
        | .stack q => { s.chip.rqc with runStacks := s.chip.rqc.runStacks.set q kept }
        | .shared => { s.chip.rqc with shared := kept }
      frt := { s.chip.frt with walks := { w with removed := w.removed + gone.length, todo := todo } :: ws }
      wires := { s.chip.wires with
        retireWalk := s.chip.wires.retireWalk ++ gone.map fun i => ⟨i, .cancelled, none⟩ } } }

/-- CANCEL_WALK_END after the fifth step removes the head walk, sends its requester the answer while the answer mark is set, clears a current frame's walk pending, and
calls for a completion check, in the model's own count (log 15), when the queue is empty; FRT_PORT_LOSS_NOTICE clears the answer marks of the port's walks. The answer
stands on the FRT's channel to the requester's port until its response claim (log 29). -/
def Obligations.WalkEndAnswersRequester : Prop :=
  ∀ s : State, s.chip.rst = false →
    (∀ w ws, s.chip.frt.walks = w :: ws → w.todo = [] →
      let f := s.chip.frame w.frame.index
      exec .cancelWalkEnd s = .next { s with chip := { s.chip with
        hcu := { s.chip.hcu with checks := if ws = [] then s.chip.hcu.checks + 1 else s.chip.hcu.checks }
        frt := { s.chip.frt with
          walks := ws
          frames := if f.gen = w.frame.gen then
              s.chip.frt.frames.set w.frame.index.val { f with walkPending := false } w.frame.index.isLt
            else s.chip.frt.frames }
        wires := if w.answer then
            { s.chip.wires with
              answers := s.chip.wires.answers.set w.port
                (s.chip.wires.answers.get w.port ++ [⟨some .frt, ⟨w.tag, .ok, countBody w.removed, none⟩⟩]) }
          else s.chip.wires } }) ∧
    (∀ p, s.chip.wires.toFrt.get p = true →
      exec (.frtPortLossNotice p) s = .next { s with chip := { s.chip with
        frt := { s.chip.frt with
          walks := s.chip.frt.walks.map fun w => { w with answer := w.answer && w.port != p } }
        wires := { s.chip.wires with toFrt := s.chip.wires.toFrt.set p false } } })

/-! ## Ports and events -/

/-- LINK_UP_REPORT of a DOWN port: LINKED, tables empty, error count and response credit 0, and 8 request credits handed to the Link Engine, whatever its state by then
(log 12). -/
def Obligations.LinkUpMakesPortLinked : Prop :=
  ∀ (s : State) (p : Port) (rest : List Report), s.chip.rst = false → (s.chip.link p).reports = .linkUp :: rest →
    (s.chip.pc p).state = .down → (s.chip.pc p).leave = .no →
    exec (.linkUpReport p) s = .next { s with chip := { s.chip with
      pcs := s.chip.pcs.set p
        { s.chip.pc p with
          state := .linked, outstanding := [], buffer := [], granted := 8, current := none, atBlock := .same none, gathers := []
          reserved := 0, responses := [], credit := 0, discarding := false, events := .none, errors := 0, wake := false }
      links := s.chip.links.set p { s.chip.link p with reports := rest, credits := (s.chip.link p).credits + 8 } } }

/-- ATTACH from LINKED sets the defaults, empties the pending set and sends both notices; each notice, taken, clears its block's treatment of the port.
Once both have been taken the port is ATTACHED, PEER_CHANGE is raised for every other port that is ATTACHED and not leaving, and the ATTACH is answered OK; until
then it waits. From ATTACHED it is DENIED. -/
def Obligations.AttachByItsClaims : Prop :=
  (∀ (s : State) (p : Port), s.chip.rst = false →
     (∀ k, s.chip.ready p k .attach → (s.chip.pc p).state = .linked →
       exec (.attach p) s = .next { s with chip := { s.chip.passed p with
         pcs := s.chip.pcs.set p
           { (s.chip.pc p).passed with
             current := some ⟨k.tag, .attach, .attaching⟩, params := ⟨64, true, true, true, 12500, .none⟩, events := .none
             wake := false }
         wires := { s.chip.wires with
           toRqc := s.chip.wires.toRqc.set p (s.chip.wires.toRqc.get p ++ [.attach])
           toLtu := s.chip.wires.toLtu.set p (s.chip.wires.toLtu.get p ++ [.attach]) } } }) ∧
     (∀ k, s.chip.ready p k .attach → (s.chip.pc p).state = .attached →
       exec (.attach p) s = .next { s with chip := s.chip.answered p k.tag .denied [] }) ∧
     (∀ rest, s.chip.wires.toRqc.get p = .attach :: rest →
       exec (.attachNoticeRqc p) s = .next { s with chip := { s.chip with
         rqc := { s.chip.rqc with stealPtr := s.chip.rqc.stealPtr.set p p.next, left := s.chip.rqc.left.set p false }
         wires := { s.chip.wires with toRqc := s.chip.wires.toRqc.set p rest } } }) ∧
     (∀ rest, s.chip.wires.toLtu.get p = .attach :: rest →
       exec (.attachNoticeLtu p) s = .next { s with chip := { s.chip with
         ltu := { s.chip.ltu with departed := s.chip.ltu.departed.set p none }
         wires := { s.chip.wires with toLtu := s.chip.wires.toLtu.set p rest } } })) ∧
  (∀ (s : State) (p : Port) (tag : Tag), s.chip.waiting p tag .attach .attaching →
     (.attach ∉ s.chip.wires.toRqc.get p → .attach ∉ s.chip.wires.toLtu.get p →
       exec (.attach p) s = .next { s with chip := { s.chip with
         pcs := s.chip.pcs.set p
           ({ s.chip.pc p with
             state := .attached, current := none
             wake := (s.chip.pc p).leave == Leave.no && (s.chip.pc p).events.meets (s.chip.pc p).params.eventMask }.respond tag .ok [])
         wires := { s.chip.wires with
           events := .tab fun q =>
             if q ≠ p ∧ (s.chip.pc q).state = .attached ∧ (s.chip.pc q).leave = .no then
               s.chip.wires.events.get q ++ [.peerChange]
             else s.chip.wires.events.get q } } }) ∧
     (.attach ∈ s.chip.wires.toRqc.get p ∨ .attach ∈ s.chip.wires.toLtu.get p → exec (.attach p) s = .next s))

/-- DETACH from ATTACHED sends the hold check; the LTU refuses it, HOLDING, while the port holds an entry, else marks the port detaching and its leave
begins. Once the RQC has reported the end of the leave, DETACH_END makes the port LINKED with default parameters, raises PEER_CHANGE for the others, and answers
the DETACH OK; until then it waits. From LINKED it is NOT_ATTACHED. Events on their way to the port are discarded when the leave begins and when it ends, and answers of
its parked pops still on their way stay so (logs 26, 29). -/
def Obligations.DetachByItsClaims : Prop :=
  (∀ (s : State) (p : Port), s.chip.rst = false →
     (∀ k, s.chip.ready p k .detach → (s.chip.pc p).state = .attached →
       exec (.detach p) s = .next { s with chip := { s.chip.passed p with
         pcs := s.chip.pcs.set p { (s.chip.pc p).passed with current := some ⟨k.tag, .detach, .holdWait⟩ }
         wires := { s.chip.wires with toLtu := s.chip.wires.toLtu.set p (s.chip.wires.toLtu.get p ++ [.holdCheck]) } } }) ∧
     (∀ k, s.chip.ready p k .detach → (s.chip.pc p).state = .linked →
       exec (.detach p) s = .next { s with chip := s.chip.answered p k.tag .notAttached [] }) ∧
     (∀ tag rest, s.chip.waiting p tag .detach .holdWait → (s.chip.pc p).leave = .no →
       s.chip.wires.toLtu.get p = .holdCheck :: rest →
       let wires : Wires := { s.chip.wires with toLtu := s.chip.wires.toLtu.set p rest }
       (0 < s.chip.ltu.held.get p →
         exec (.holdCheck p) s = .next { s with chip := { s.chip with
           pcs := s.chip.pcs.set p ({ s.chip.pc p with current := none }.respond tag .holding [])
           wires := wires } }) ∧
       (s.chip.ltu.held.get p = 0 →
         exec (.holdCheck p) s = .next { s with chip := { s.chip with
           ltu := { s.chip.ltu with departed := s.chip.ltu.departed.set p (some .detaching) }
           pcs := s.chip.pcs.set p
             { s.chip.pc p with
               current := some ⟨tag, .detach, .leaving⟩, leave := .detach, events := .none, wake := false }
           wires := { wires with
             toRqc := s.chip.wires.toRqc.set p (s.chip.wires.toRqc.get p ++ [.leave false])
             events := s.chip.wires.events.set p [] } } }))) ∧
  (∀ (s : State) (p : Port) (tag : Tag), s.chip.waiting p tag .detach .leaving → (s.chip.pc p).leave = .detach →
     ((∀ loss, .leave loss ∉ s.chip.wires.toRqc.get p) → (∀ m ∈ s.chip.wires.takes, m.port ≠ p) →
       exec (.detachEnd p) s = .next { s with chip := { s.chip with
         pcs := s.chip.pcs.set p
           ({ s.chip.pc p with
             state := .linked, leave := .no, params := ⟨64, true, true, true, 12500, .none⟩, current := none
             wake := false }.respond tag .ok [])
         wires := { s.chip.wires with
           events := .tab fun q =>
             if q = p then []
             else if (s.chip.pc q).state = .attached ∧ (s.chip.pc q).leave = .no then s.chip.wires.events.get q ++ [.peerChange]
             else s.chip.wires.events.get q } } }) ∧
     ((∃ loss, .leave loss ∈ s.chip.wires.toRqc.get p) ∨ (∃ m ∈ s.chip.wires.takes, m.port = p) → exec (.detachEnd p) s = .next s))

/-- PORT_LEAVE_CLAIM removes the port's parked pops, each answered EMPTY at a DETACH and dropped at a loss, and places its stack's tickets in the shared queue,
bottom first; from then on the RQC treats the port as not ATTACHED. The answers are sent on their way (log 29). -/
def Obligations.PortLeaveTransfersStack : Prop :=
  ∀ (s : State) (p : Port) (loss : Bool) (rest : List RqcNotice), s.chip.rst = false →
    s.chip.wires.toRqc.get p = .leave loss :: rest → s.chip.queueHeld = false →
    let base : Chip := { s.chip with
      rqc := { s.chip.rqc with
        runStacks := s.chip.rqc.runStacks.set p []
        parked := s.chip.rqc.parked.filter fun e => e.port != p
        left := s.chip.rqc.left.set p true }
      wires := { s.chip.wires with toRqc := s.chip.wires.toRqc.set p rest } }
    let transferred := fun (c : Chip) => Host.Outcome.next (φ := Fault) (ρ := Refusal)
      { s with chip := (s.chip.stack p).reverse.foldl (fun c i => c.placeShared i) c }
    (loss = true → exec (.portLeaveClaim p) s = transferred base) ∧
    (loss = false →
      exec (.portLeaveClaim p) s = transferred { base with
        wires := { base.wires with
          answers := s.chip.wires.answers.set p
            (s.chip.wires.answers.get p ++ (s.chip.parkedOf p).map fun e => ⟨none, ⟨e.tag, .empty, [], none⟩⟩) } })

/-- PORT_LOSS: buffer and responses discarded, pending set emptied with the events on their way, WAKE deasserted, and the claims sent to the RQC and the LTU; a DETACH's
claim not yet taken is marked as a loss instead. -/
def Obligations.PortLossBegins : Prop :=
  ∀ (s : State) (p : Port) (rest : List Report), s.chip.rst = false → (s.chip.link p).reports = .linkDown :: rest →
    (s.chip.pc p).state = .attached → (s.chip.pc p).leave = .no ∨ (s.chip.pc p).leave = .detach →
    exec (.portLoss p) s = .next { s with chip := { s.chip with
      pcs := s.chip.pcs.set p
        { s.chip.pc p with
          leave := .loss, buffer := [], events := .none, responses := [], discarding := true, wake := false
          current := match (s.chip.pc p).current with
            | some ⟨_, .detach, _⟩ => none
            | k => k }
      links := s.chip.links.set p { s.chip.link p with reports := rest }
      wires := { s.chip.wires with
        toLtu := s.chip.wires.toLtu.set p (s.chip.wires.toLtu.get p ++ [.loss])
        toRqc := s.chip.wires.toRqc.set p
          (if (s.chip.pc p).leave = .detach then
            (s.chip.wires.toRqc.get p).map fun n => if n = .leave false then .leave true else n
          else s.chip.wires.toRqc.get p ++ [.leave true])
        events := s.chip.wires.events.set p [] } } }

/-- PORT_LOSS_END and LINK_DOWN_FROM_LINKED: with what they wait for come about, the notice goes to the FRT; once it is taken the port is DOWN with every tag free
and default parameters, and PEER_CHANGE is raised at a loss alone. A link down during an ATTACH ends it unanswered; once both its notices are taken the port-loss claims go
out, and once those have ended the link down goes on. A port's requests have ended when no block has one, no gather is left and no answer is on its way; a CANCEL_FRAME
whose walk is queued has (log 9); what the ends of the claims wait for is log 26's. -/
def Obligations.LeaveEndsDown : Prop :=
  ∀ (s : State) (p : Port), s.chip.rst = false →
    let x := s.chip.pc p
    let w := s.chip.wires
    let after := fun (y : Pc) (v : Wires) => Host.Outcome.next (φ := Fault) (ρ := Refusal) { s with chip := { s.chip with
      pcs := s.chip.pcs.set p y, wires := v } }
    let noticed := fun (l : Leave) => after { x with leave := l } { w with toFrt := w.toFrt.set p true }
    let down : Pc := { x with
      state := .down, leave := .no, outstanding := [], reserved := 0, events := .none
      params := ⟨64, true, true, true, 12500, .none⟩, wake := false }
    let dropped : Pc := { x with leave := .linkDown, buffer := [], responses := [], discarding := true }
    let requestsEnded : Prop := x.current = none ∧ x.atBlock.rqc = none ∧ x.atBlock.ltu = none ∧ x.atBlock.frt = none ∧
      x.gathers = [] ∧ w.answers.get p = []
    let claimsEnded : Prop := (∀ loss, .leave loss ∉ w.toRqc.get p) ∧ (∀ m ∈ w.takes, m.port ≠ p) ∧ .loss ∉ w.toLtu.get p
    let noticeTaken : Prop := w.toFrt.get p = false ∧ w.answers.get p = []
    let notices : Prop := .attach ∉ w.toRqc.get p ∧ .attach ∉ w.toLtu.get p
    (x.leave = .loss →
      (claimsEnded → requestsEnded → exec (.portLossEnd p) s = noticed .lossNoticed) ∧
      (¬ claimsEnded ∨ ¬ requestsEnded → exec (.portLossEnd p) s = .next s)) ∧
    (x.leave = .lossNoticed →
      (noticeTaken → exec (.portLossEnd p) s = after down { w with
        events := .tab fun q =>
          if q = p then []
          else if (s.chip.pc q).state = .attached ∧ (s.chip.pc q).leave = .no then w.events.get q ++ [.peerChange]
          else w.events.get q }) ∧
      (¬ noticeTaken → exec (.portLossEnd p) s = .next s)) ∧
    (∀ rest, x.leave = .no → (s.chip.link p).reports = .linkDown :: rest → x.state = .linked →
      exec (.linkDownFromLinked p) s = .next { s with chip := { s.chip with
        pcs := s.chip.pcs.set p (match x.current with
          | some ⟨_, .attach, .attaching⟩ => { x with current := none, leave := .attachAborted }
          | _ => dropped)
        links := s.chip.links.set p { s.chip.link p with reports := rest } } }) ∧
    (x.leave = .attachAborted →
      (notices → exec (.linkDownFromLinked p) s = after { x with leave := .attachUndone }
        { w with toRqc := w.toRqc.set p (w.toRqc.get p ++ [.leave true]), toLtu := w.toLtu.set p (w.toLtu.get p ++ [.loss]) }) ∧
      (¬ notices → exec (.linkDownFromLinked p) s = .next s)) ∧
    (x.leave = .attachUndone →
      (claimsEnded → exec (.linkDownFromLinked p) s = after dropped w) ∧
      (¬ claimsEnded → exec (.linkDownFromLinked p) s = .next s)) ∧
    (x.leave = .linkDown →
      (requestsEnded → exec (.linkDownFromLinked p) s = noticed .linkDownNoticed) ∧
      (¬ requestsEnded → exec (.linkDownFromLinked p) s = .next s)) ∧
    (x.leave = .linkDownNoticed →
      (noticeTaken → exec (.linkDownFromLinked p) s = after down w) ∧
      (¬ noticeTaken → exec (.linkDownFromLinked p) s = .next s))

/-- PENDING_EVENT_RECORD: the kind is recorded when the port is ATTACHED and not leaving, PROTOCOL also when it is LINKED and not leaving, and is discarded
otherwise. FETCH_EVENTS reads the pending set, empties it and answers it in one claim, and the WAKE line is deasserted. -/
def Obligations.EventsRecordedAndFetched : Prop :=
  (∀ (s : State) (p : Port) (k : EventKind), s.chip.rst = false → k ∈ s.chip.wires.events.get p →
     let x := s.chip.pc p
     exec (.pendingEventRecord p k) s = .next { s with chip := { s.chip with
       pcs := s.chip.pcs.set p
         (if x.leave = .no ∧ (x.state = .attached ∨ x.state = .linked ∧ k = .protocol) then
           { x with
             events := x.events.insert k
             wake := x.state == .attached && (x.events.insert k).meets x.params.eventMask }
         else x)
       wires := { s.chip.wires with events := s.chip.wires.events.set p ((s.chip.wires.events.get p).erase k) } } }) ∧
  (∀ (s : State) (p : Port) (k : Packet), s.chip.ready p k .fetchEvents →
     exec (.fetchEvents p) s = .next { s with chip := { s.chip.answered p k.tag .ok (eventsBody (s.chip.pc p).events) with
       pcs := s.chip.pcs.set p
         { (s.chip.pc p).served k.tag .ok (eventsBody (s.chip.pc p).events) with events := .none, wake := false } } })

/-! ## Hub control -/

/-- START from an ATTACHED sender makes the hub RUNNING from every hub state and changes nothing else but that a completion due is dropped (R152; the due mark
is the model's, log 15); from any other sender it is NOT_ATTACHED. -/
def Obligations.StartMakesHubRunning : Prop :=
  ∀ (s : State) (p : Port) (k : Packet), s.chip.ready p k .start →
    (s.chip.attached p = true →
      exec (.start p .whole) s = .next { s with chip := { s.chip.answered p k.tag .ok (hubStateBody .running) with
        hcu := { s.chip.hcu with state := .running, completionDue := false } } }) ∧
    (s.chip.attached p = false → exec (.start p .whole) s = .next { s with chip := s.chip.answered p k.tag .notAttached [] })

/-- QUIESCE from an ATTACHED sender makes a RUNNING hub QUIESCING, calling for a completion check when the creation count is 0; it changes nothing in
QUIESCING, is DENIED in SETUP, and NOT_ATTACHED from any other sender. A check finds the four conditions together or ends without effect; a completion due in QUIESCING
makes the hub SETUP and sends the SETUP notice; the notice empties the parked-pop table and sends every POP the answer NOT_RUNNING,
and waits while a POP that has passed its hub-state check has not ended. -/
def Obligations.QuiesceAndItsCompletion : Prop :=
  (∀ (s : State) (p : Port) (k : Packet), s.chip.ready p k .quiesce →
     let outcome := exec (.quiesce p .whole) s
     (s.chip.attached p = false → outcome = .next { s with chip := s.chip.answered p k.tag .notAttached [] }) ∧
     (s.chip.attached p = true →
       (s.chip.hcu.state = .running →
         outcome = .next { s with chip := { s.chip.answered p k.tag .ok (hubStateBody .quiescing) with
           hcu := { s.chip.hcu with
             state := .quiescing
             checks := if s.chip.hcu.creation = 0 then s.chip.hcu.checks + 1 else s.chip.hcu.checks } } }) ∧
       (s.chip.hcu.state = .quiescing →
         outcome = .next { s with chip := s.chip.answered p k.tag .ok (hubStateBody .quiescing) }) ∧
       (s.chip.hcu.state = .setup → outcome = .next { s with chip := s.chip.answered p k.tag .denied [] }))) ∧
  (∀ s : State, s.chip.rst = false →
     (0 < s.chip.hcu.checks →
       exec .completionCheck s = .next { s with chip := { s.chip with
         hcu := { s.chip.hcu with
           checks := s.chip.hcu.checks - 1
           completionDue := s.chip.hcu.completionDue ||
             decide (s.chip.hcu.state = .quiescing ∧ s.chip.hcu.creation = 0 ∧ s.chip.tks.free.length = 1024 ∧
               s.chip.frt.walks = []) } } }) ∧
     (s.chip.hcu.completionDue = true →
       (s.chip.hcu.state = .quiescing →
         exec .quiesceCompletion s = .next { s with chip := { s.chip with
           hcu := { s.chip.hcu with state := .setup, completionDue := false }
           wires := { s.chip.wires with setup := s.chip.wires.setup + 1 } } }) ∧
       (s.chip.hcu.state ≠ .quiescing →
         exec .quiesceCompletion s = .next { s with chip := { s.chip with
           hcu := { s.chip.hcu with completionDue := false } } })) ∧
     (let underWay : Prop := ∃ p tag timeout st, (s.chip.pc p).atBlock.get .rqc = some ⟨tag, .pop timeout, st⟩
      (0 < s.chip.wires.setup → ¬ underWay →
        exec .setupNotice s = .next { s with chip := { s.chip with
          rqc := { s.chip.rqc with parked := [] }
          wires := { s.chip.wires with
            setup := s.chip.wires.setup - 1
            answers := .tab fun p => s.chip.wires.answers.get p ++
              (s.chip.parkedOf p).map fun e => ⟨none, ⟨e.tag, .notRunning, [], none⟩⟩ } } }) ∧
      (underWay → exec .setupNotice s = .next s)))

/-- CONFIGURE: NOT_ATTACHED, then DENIED (global parameters outside SETUP; another port's), then BAD_REQUEST for a value out of range; else the items
are written in order, the last value of a parameter kept. For a port's parameters WAKE is re-evaluated, and STEALABLE or STEAL_ENABLE turned ON is sent to the RQC. -/
def Obligations.ConfigureChecksThenWrites : Prop :=
  (∀ (s : State) (p : Port) (k : Packet) (items : List (GlobalParam × Nat)), s.chip.ready p k (.configureGlobal items) →
     let bad : Prop := ∃ x ∈ items, match x.1 with
       | .quota _ => 1024 < x.2
       | .sqLimit => 1024 < x.2
       | .requeueLimit => 7 < x.2
     let outcome := exec (.configureGlobal p .whole) s
     (s.chip.attached p = false → outcome = .next { s with chip := s.chip.answered p k.tag .notAttached [] }) ∧
     (s.chip.attached p = true → s.chip.hcu.state ≠ .setup →
       outcome = .next { s with chip := s.chip.answered p k.tag .denied [] }) ∧
     (s.chip.attached p = true → s.chip.hcu.state = .setup → bad →
       outcome = .next { s with chip := s.chip.answered p k.tag .badRequest [] }) ∧
     (s.chip.attached p = true → s.chip.hcu.state = .setup → ¬ bad →
       outcome = .next { s with chip := { s.chip.answered p k.tag .ok [] with
         hcu := items.foldl (fun h x =>
           match x.1 with
           | .quota q => { h with quota := h.quota.set q x.2 }
           | .sqLimit => { h with sqLimit := x.2 }
           | .requeueLimit => { h with requeueLimit := x.2 }) s.chip.hcu } })) ∧
  (∀ (s : State) (p q : Port) (k : Packet) (items : List (PortParam × Nat)), s.chip.ready p k (.configurePort q items) →
     let bad : Prop := ∃ x ∈ items, match x.1 with
       | .depthLimit => x.2 = 0 ∨ 1024 < x.2
       | .spill => 1 < x.2
       | .stealable => 1 < x.2
       | .stealEnable => 1 < x.2
       | .leaseTime => 65535 < x.2
       | .eventMask => 31 < x.2
     let old := (s.chip.pc p).params
     let new := items.foldl (fun (u : Params) x =>
       match x.1 with
       | .depthLimit => { u with depthLimit := x.2 }
       | .spill => { u with spill := x.2 == 1 }
       | .stealable => { u with stealable := x.2 == 1 }
       | .stealEnable => { u with stealEnable := x.2 == 1 }
       | .leaseTime => { u with leaseTime := x.2 }
       | .eventMask => { u with eventMask := .ofCode x.2 }) old
     let outcome := exec (.configurePort p) s
     (s.chip.attached p = false → outcome = .next { s with chip := s.chip.answered p k.tag .notAttached [] }) ∧
     (s.chip.attached p = true → q ≠ p → outcome = .next { s with chip := s.chip.answered p k.tag .denied [] }) ∧
     (s.chip.attached p = true → q = p → bad → outcome = .next { s with chip := s.chip.answered p k.tag .badRequest [] }) ∧
     (s.chip.attached p = true → q = p → ¬ bad →
       outcome = .next { s with chip := { s.chip.answered p k.tag .ok [] with
         pcs := s.chip.pcs.set p
           { (s.chip.pc p).served k.tag .ok [] with
             params := new, wake := (s.chip.pc p).events.meets new.eventMask }
         wires := { s.chip.wires with
           toRqc := s.chip.wires.toRqc.set p (s.chip.wires.toRqc.get p ++
             (if !old.stealable && new.stealable then [.stealableOn] else []) ++
             (if !old.stealEnable && new.stealEnable then [.stealEnableOn] else [])) } } }))

/-- QUERY in its four forms answers what the owning blocks hold and changes no state; a FREE or stale frame is BAD_FRAME. A RUNNING ticket's holder is its entry's, or,
between a COMPLETE or a POISONED take and its RETIRE, the port that ended the run; for a RUNNING ticket in transit to a run list, and a RETIRE without a releasing port, none
is reported (the model's choice, log 28), as for a ticket that is not RUNNING. The parts of a QUERY HUB or QUERY PORT may be read at different moments: what was read before
stands in the answer, and a later QUERY of the port does not overtake one that has yet to read the same block. -/
def Obligations.QueriesReportState : Prop :=
  (∀ (s : State) (p : Port) (k : Packet),
     ((s.chip.pc p).gathers = [] →
       (s.chip.ready p k .queryHub →
         exec (.queryHub p .whole) s = .next ⟨s.pending, s.chip.answered p k.tag .ok
           (hubBody s.chip.hcu.state.code s.chip.tks.free.length s.chip.rqc.shared.length s.chip.frt.inUse
             s.chip.rqc.parked.length s.chip.frt.walks.length)⟩) ∧
       (∀ q, s.chip.ready p k (.queryPort q) →
         let y := s.chip.pc q
         exec (.queryPort p .whole) s = .next ⟨s.pending, s.chip.answered p k.tag .ok
           (portBody ⟨y.state.code, y.params.depthLimit, y.params.spill, y.params.stealable, y.params.stealEnable,
               y.params.leaseTime, y.errors⟩ (s.chip.stack q).length (s.chip.parkedOf q).length (s.chip.tks.alloc.get q)
             (s.chip.hcu.quota.get q))⟩)) ∧
     (∀ f, s.chip.ready p k (.queryFrame f) →
       (s.chip.refState f ≠ .free →
         exec (.queryFrame p .whole) s = .next ⟨s.pending, s.chip.answered p k.tag .ok (frameBody (s.chip.frame f.index))⟩) ∧
       (s.chip.refState f = .free →
         exec (.queryFrame p .whole) s = .next ⟨s.pending, s.chip.answered p k.tag .badFrame []⟩)) ∧
     (∀ i, s.chip.ready p k (.queryTicket i) →
       let answer := fun (holder : Option Port) => Host.Outcome.next (φ := Fault) (ρ := Refusal)
         ⟨s.pending, s.chip.answered p k.tag .ok (ticketBody (s.chip.slot i) holder)⟩
       ((∀ t, s.chip.ticket i = some t → t.state ≠ .running) → exec (.queryTicket p .whole) s = answer none) ∧
       (∀ t, s.chip.ticket i = some t → t.state = .running →
         (∀ e, s.chip.runEntry i = some e → exec (.queryTicket p .whole) s = answer (some e.holder)) ∧
         (s.chip.runEntry i = none →
           (∀ m, (s.chip.wires.retireLtu.find? fun m => m.slot == i) = some m → exec (.queryTicket p .whole) s = answer m.releasing) ∧
           ((∀ m ∈ s.chip.wires.retireLtu, m.slot ≠ i) → exec (.queryTicket p .whole) s = answer none))))) ∧
  (∀ (s : State) (p : Port) (tag : Tag) (before after : List Gather), s.chip.rst = false →
     let x := s.chip.pc p
     let others := fun (g : Gather) => x.gathers.filter fun y => y.tag != g.tag
     let set := fun (y : Pc) => Host.Outcome.next (φ := Fault) (ρ := Refusal) { s with chip := { s.chip with pcs := s.chip.pcs.set p y } }
     (∀ h t r n g, g = Gather.mk tag (.hub ⟨some h, some t, some (r, n), none⟩) → x.gathers = before ++ g :: after →
       (∀ y ∈ before, y.lacks .frt = false) →
       exec (.queryHub p (.part .frt)) s =
         set ({ x with gathers := others g }.respond tag .ok (hubBody h t r s.chip.frt.inUse n s.chip.frt.walks.length))) ∧
     (∀ q m n u a g, g = Gather.mk tag (.port q ⟨some m, some (n, u), some a, none⟩) → x.gathers = before ++ g :: after →
       (∀ y ∈ before, y.lacks .hcu = false) →
       exec (.queryPort p (.part .hcu)) s =
         set ({ x with gathers := others g }.respond tag .ok (portBody m n u a (s.chip.hcu.quota.get q)))) ∧
     (∀ g, g = Gather.mk tag (.hub ⟨none, none, none, none⟩) → x.gathers = before ++ g :: after → (∀ y ∈ before, y.lacks .hcu = false) →
       exec (.queryHub p (.part .hcu)) s = set { x with
         gathers := x.gathers.map fun y =>
           if y.tag = tag then ⟨tag, .hub ⟨some s.chip.hcu.state.code, none, none, none⟩⟩ else y }) ∧
     (∀ q d a g, g = Gather.mk tag (.port q ⟨none, d, a, none⟩) → x.gathers = before ++ g :: after →
       (∀ y ∈ before, ∀ r, y.parts = .port q r → r.pc ≠ none) →
       exec (.queryPort p (.part (.pc q))) s = set { x with
         gathers := x.gathers.map fun y => if y.tag = tag then ⟨tag, .port q ⟨some (s.chip.pc q).settings, d, a, none⟩⟩ else y }) ∧
     ((∃ g ∈ x.gathers, g.lacks .frt = true) → ∀ f e, x.current = some ⟨tag, .queryFrame f, .given⟩ → x.atBlock.frt = none →
       exec (.queryFrame p e) s = .next s) ∧
     ((∃ g ∈ x.gathers, g.lacks .tks = true) → ∀ i e, x.current = some ⟨tag, .queryTicket i, .given⟩ → x.atBlock.tks = none →
       exec (.queryTicket p e) s = .next s))

/-! ## The task link -/

/-- Training: HOLD_OFF ends, when its time has run, in TRAINING with both counts 0; 16 good TRAINs in a row latch the run; the sixteenth TRAIN sent after that enters UP with
the values of R179 and the link-up report. Units received in HOLD_OFF and DISABLED are ignored. -/
def Obligations.TrainingBringsLinkUp : Prop :=
  ∀ (s : State) (p : Port), s.chip.rst = false →
    let l := s.chip.link p
    let after := fun (m : Link) => Host.Outcome.next (φ := Fault) (ρ := Refusal)
      { s with chip := { s.chip with links := s.chip.links.set p m } }
    (l.state = .holdOff →
      (l.holdOffLeft = 0 → exec (.holdOffExpiry p) s = after { l with state := .training, trainRun := 0, trainSent := 0 }) ∧
      (0 < l.holdOffLeft → exec (.holdOffExpiry p) s = .next s)) ∧
    (l.state = .holdOff ∨ l.state = .disabled →
      (∀ unit, exec (.trainReceived p unit) s = .next s ∧ exec (.damagedUnitReceived p unit) s = .next s) ∧
      (∀ n, exec (.startReceived p n) s = .next s ∧ exec (.ackReceived p n) s = .next s ∧ exec (.nakReceived p n) s = .next s ∧
        exec (.creditReceived p n) s = .next s) ∧
      (∀ w, exec (.dataWordReceived p w) s = .next s) ∧
      exec (.endReceived p) s = .next s ∧ exec (.idleReceived p) s = .next s ∧ exec (.trainReceivedInUp p) s = .next s) ∧
    (l.state = .training →
      (∀ unit, l.trainRun < 16 →
        exec (.trainReceived p unit) s =
          after { l with trainRun := if unit = .control 0xFE01 then l.trainRun + 1 else 0 }) ∧
      (∀ unit, 16 ≤ l.trainRun → exec (.trainReceived p unit) s = .next s) ∧
      (l.trainRun < 16 → exec (.trainSent p) s = after { l with lane := [.control 0xFE01] }) ∧
      (16 ≤ l.trainRun → l.trainSent < 15 →
        exec (.trainSent p) s = after { l with lane := [.control 0xFE01], trainSent := l.trainSent + 1 }) ∧
      (16 ≤ l.trainRun → 15 ≤ l.trainSent →
        exec (.trainSent p) s = after { l with
          lane := [.control 0xFE01], trainSent := 16, state := .up, expected := 0, nextSeq := 0, replay := [], sendPtr := 0
          replayCount := 0, replayTimer := none, owed := none, nakOut := false, settled := false, silence := some 0
          credits := 0, rx := none, reports := l.reports ++ [.linkUp] }))

/-- TRANSMIT_UNIT sends the first that applies: the owed acknowledgement, CREDIT for all credits to advertise, the packet at the send pointer, IDLE. Above the operand's 15,
which only a processor that sends ahead of its credits brings about, CREDIT(15) is sent and the rest kept (the model's choice, log 30). -/
def Obligations.TransmitterOrder : Prop :=
  ∀ (s : State) (p : Port), s.chip.rst = false → (s.chip.link p).state = .up →
    let l := s.chip.link p
    let after := fun (m : Link) => Host.Outcome.next (φ := Fault) (ρ := Refusal)
      { s with chip := { s.chip with links := s.chip.links.set p m } }
    let outcome := exec (.transmitUnit p) s
    (∀ n, l.owed = some (.ack n) → outcome = after { l with owed := none, lane := [.control (symAck n)] }) ∧
    (∀ n, l.owed = some (.nak n) → outcome = after { l with owed := none, lane := [.control (symNak n)] }) ∧
    (l.owed = none → 0 < l.credits → l.credits ≤ 15 →
      outcome = after { l with credits := 0, lane := [.control (symCredit (BitVec.ofNat 4 l.credits))] }) ∧
    (l.owed = none → 15 < l.credits →
      outcome = after { l with credits := l.credits - 15, lane := [.control (symCredit 15)] }) ∧
    (∀ e, l.owed = none → l.credits = 0 → l.replay[l.sendPtr]? = some e →
      outcome = after { l with
        lane := .control (symStart e.seq) ::
          (e.words.map .data ++ [.data (crcOf e.seq e.words), .control (symEnd ())])
        replay := l.replay.set l.sendPtr { e with sent := true }
        sendPtr := l.sendPtr + 1
        replayTimer := some (l.replayTimer.getD 0) }) ∧
    (l.owed = none → l.credits = 0 → l.replay.length ≤ l.sendPtr →
      outcome = after { l with lane := [.control (symIdle ())] })

/-- Receiving in UP. START opens a packet, each data word up to the seventeenth is added, a damaged unit marks it, and END accepts a good packet in
sequence, with ACK owed, or discards any other, with NAK owed unless one is outstanding. A good ACK, NAK, CREDIT, IDLE, START or, once settled, TRAIN closes an open packet
as damaged and is then taken as if none had been open. CREDIT(n) outside a packet produces a received-credit report of n, and none for n = 0; IDLE outside a packet has no
effect but on the silence timer and the settled mark. -/
def Obligations.UnitsReceivedInUp : Prop :=
  (∀ (s : State) (p : Port), s.chip.rst = false → (s.chip.link p).state = .up →
     let l := s.chip.link p
     let heard : Link := { l with silence := some 0, settled := true }
     let after := fun (m : Link) => Host.Outcome.next (φ := Fault) (ρ := Refusal)
       { s with chip := { s.chip with links := s.chip.links.set p m } }
     (∀ n, l.rx = none → exec (.startReceived p n) s = after { heard with rx := some ⟨n, [], false⟩ }) ∧
     (∀ n k, l.rx = some k →
       exec (.startReceived p n) s = after { heard with
         rx := some ⟨n, [], false⟩, nakOut := true, owed := if l.nakOut then l.owed else some (.nak l.expected) }) ∧
     (∀ k, l.rx = some k →
       let closed : State := { s with chip := { s.chip with links := s.chip.links.set p { l with
         rx := none, nakOut := true, owed := if l.nakOut then l.owed else some (.nak l.expected) } } }
       (∀ n, exec (.ackReceived p n) s = exec (.ackReceived p n) closed ∧ exec (.nakReceived p n) s = exec (.nakReceived p n) closed ∧
         exec (.creditReceived p n) s = exec (.creditReceived p n) closed) ∧
       exec (.idleReceived p) s = exec (.idleReceived p) closed ∧
       (l.settled = true → exec (.trainReceivedInUp p) s = exec (.trainReceivedInUp p) closed)) ∧
     (∀ k w, l.rx = some k → k.words.length < 17 →
       exec (.dataWordReceived p w) s = after { heard with rx := some { k with words := k.words ++ [w] } }) ∧
     (∀ k unit, l.rx = some k → sortUnit unit = .damaged →
       exec (.damagedUnitReceived p unit) s = after { l with rx := some { k with damaged := true } }) ∧
     (∀ k, l.rx = some k →
       let good : Prop := k.damaged = false ∧ 2 ≤ k.words.length ∧ k.words.length ≤ 17 ∧
         k.words.getLast? = some (crcOf k.seq k.words.dropLast)
       (good → k.seq = l.expected →
         exec (.endReceived p) s = after { heard with
           rx := none, reports := l.reports ++ [.packet k.words.dropLast], owed := some (.ack l.expected)
           expected := l.expected + 1, nakOut := false }) ∧
       (¬ good ∨ k.seq ≠ l.expected →
         exec (.endReceived p) s = after { heard with
           rx := none, nakOut := true, owed := if l.nakOut then l.owed else some (.nak l.expected) }))) ∧
  (∀ (s : State) (p : Port) (n : BitVec 4), s.chip.rst = false → (s.chip.link p).state = .up → (s.chip.link p).rx = none →
     let l := s.chip.link p
     let heard : Link := { l with silence := some 0, settled := true }
     let after := fun (m : Link) => Host.Outcome.next (φ := Fault) (ρ := Refusal)
       { s with chip := { s.chip with links := s.chip.links.set p m } }
     exec (.creditReceived p n) s =
       after { heard with reports := if n = 0 then l.reports else l.reports ++ [.credit n.toNat] } ∧
     exec (.idleReceived p) s = after heard)

/-- Outside a packet a data word, an END or a damaged unit takes the link down, and so does an eighteenth data word in one; so does a silence timeout once the timer has
reached 64 µs, and a replay called for at a replay count of 4; below 4 an expiry of the replay timer at 32 µs calls for a replay from the oldest entry. A timer that is
stopped, or has been started again since, does not expire. Link down discards the open packet, the owed acknowledgement and the replay buffer, stops the timers, and
enters HOLD_OFF for 6400 periods behind the link-down report. -/
def Obligations.LinkGoesDown : Prop :=
  (∀ (s : State) (p : Port), s.chip.rst = false → (s.chip.link p).state = .up →
     let l := s.chip.link p
     let down := fun (m : Link) => Host.Outcome.next (φ := Fault) (ρ := Refusal)
       { s with chip := { s.chip with links := s.chip.links.set p { m with
         state := .holdOff, holdOffLeft := 6400, rx := none, owed := none, replay := [], sendPtr := 0, replayTimer := none
         silence := none, credits := 0, lane := [], reports := l.reports ++ [.linkDown] } } }
     (∀ w, l.rx = none → exec (.dataWordReceived p w) s = down { l with settled := true }) ∧
     (∀ k w, l.rx = some k → 17 ≤ k.words.length →
       exec (.dataWordReceived p w) s = down { l with settled := true, nakOut := true }) ∧
     (l.rx = none → exec (.endReceived p) s = down { l with settled := true }) ∧
     (∀ unit, l.rx = none → sortUnit unit = .damaged → exec (.damagedUnitReceived p unit) s = down l) ∧
     (∀ t, l.silence = some t → 1600 ≤ t → exec (.silenceTimeout p) s = down l) ∧
     ((∀ t, l.silence = some t → t < 1600) → exec (.silenceTimeout p) s = .next s)) ∧
  (∀ (s : State) (p : Port), s.chip.rst = false → (s.chip.link p).state = .up →
     let l := s.chip.link p
     (∀ t, l.replayTimer = some t → 800 ≤ t →
       (l.replayCount < 4 →
         exec (.replayTimerExpiry p) s = .next { s with chip := { s.chip with links := s.chip.links.set p { l with
           replayCount := l.replayCount + 1, replayTimer := some 0, sendPtr := 0 } } }) ∧
       (4 ≤ l.replayCount →
         exec (.replayTimerExpiry p) s = .next { s with chip := { s.chip with links := s.chip.links.set p { l with
           state := .holdOff, holdOffLeft := 6400, rx := none, owed := none, replay := [], sendPtr := 0, replayTimer := none
           silence := none, credits := 0, lane := [], reports := l.reports ++ [.linkDown] } } })) ∧
     ((∀ t, l.replayTimer = some t → t < 800) → exec (.replayTimerExpiry p) s = .next s))

/-- A good TRAIN in UP: ignored until the link is settled, the silence timer running on; once it is settled, it takes the link down. Any other good unit settles
the link, and is taken as on a settled link. -/
def Obligations.TrainInUp : Prop :=
  ∀ (s : State) (p : Port), s.chip.rst = false → (s.chip.link p).state = .up →
    let l := s.chip.link p
    (l.settled = false → exec (.trainReceivedInUp p) s = .next s) ∧
    (l.settled = true →
      exec (.trainReceivedInUp p) s = .next { s with chip := { s.chip with links := s.chip.links.set p { l with
        nakOut := l.nakOut || l.rx.isSome
        state := .holdOff, holdOffLeft := 6400, rx := none, owed := none, replay := [], sendPtr := 0, replayTimer := none
        silence := none, credits := 0, lane := [], reports := l.reports ++ [.linkDown] } } }) ∧
    (∀ i t, (∃ n, i = .startReceived p n ∨ i = .ackReceived p n ∨ i = .nakReceived p n ∨ i = .creditReceived p n) ∨
        (∃ w, i = .dataWordReceived p w) ∨ i = .endReceived p ∨ i = .idleReceived p →
      exec i s = exec i { s with chip := { s.chip with links := s.chip.links.set p { l with settled := true } } } ∧
        (exec i s = .next t → (t.chip.link p).settled = true))

/-- ACK(n) of a sent packet removes it and every older one; NAK(n) of a sent packet removes the older ones and calls for a replay from it unless it is still to
be sent, or takes the link down at a replay count of 4; NAK of the next sequence removes all; any other has no effect on the buffer. -/
def Obligations.AcknowledgementsEmptyReplayBuffer : Prop :=
  ∀ (s : State) (p : Port) (n : Seq), s.chip.rst = false → (s.chip.link p).state = .up → (s.chip.link p).rx = none →
    let l := s.chip.link p
    let heard : Link := { l with silence := some 0, settled := true }
    let after := fun (m : Link) => Host.Outcome.next (φ := Fault) (ρ := Refusal)
      { s with chip := { s.chip with links := s.chip.links.set p m } }
    let drop := fun (k : Nat) => if k = 0 then heard else { heard with
      replay := l.replay.drop k, sendPtr := l.sendPtr - k, replayCount := 0
      replayTimer := if (l.replay.drop k).any ReplayEntry.sent then some 0 else none }
    (∀ older e newer, l.replay = older ++ e :: newer → e.seq = n → e.sent = true →
      (∀ x ∈ older, x.seq ≠ n ∨ x.sent = false) →
      exec (.ackReceived p n) s = after (drop (older.length + 1)) ∧
      (l.sendPtr ≤ older.length → exec (.nakReceived p n) s = after (drop older.length)) ∧
      (older.length < l.sendPtr → (drop older.length).replayCount < 4 →
        exec (.nakReceived p n) s = after { drop older.length with
          replayCount := (drop older.length).replayCount + 1, replayTimer := some 0, sendPtr := 0 }) ∧
      (older.length < l.sendPtr → 4 ≤ (drop older.length).replayCount →
        exec (.nakReceived p n) s = after { drop older.length with
          state := .holdOff, holdOffLeft := 6400, rx := none, owed := none, replay := [], sendPtr := 0, replayTimer := none
          silence := none, credits := 0, lane := [], reports := l.reports ++ [.linkDown] })) ∧
    ((∀ x ∈ l.replay, x.seq ≠ n ∨ x.sent = false) →
      exec (.ackReceived p n) s = after heard ∧
      (n = l.nextSeq → exec (.nakReceived p n) s = after (drop l.replay.length)) ∧
      (n ≠ l.nextSeq → exec (.nakReceived p n) s = after heard))

/-! ## Invariants -/

/-- The invariants hold of the machine right after reset. -/
def Obligations.InvariantsHoldAtReset : Prop :=
  State.reset.chip.wakesRight ∧ State.reset.chip.stealPtrsRight ∧ State.reset.chip.linksInRange ∧ State.reset.chip.tablesInRange ∧
    ∀ p, State.reset.chip.creditsBalance p

/-- Every step keeps each WAKE line as R145 gives: asserted exactly while its port is ATTACHED and not leaving and its pending set shares a kind with its mask. -/
def Obligations.StepKeepsWakeLines : Prop :=
  ∀ s t : State, s.chip.wakesRight → step s = .next t → t.chip.wakesRight

/-- Every step keeps the steal pointers from naming their own ports, and the parked-pop table, the cancel walk queue, the response credits and the protocol error counts within their capacities. -/
def Obligations.StepKeepsTables : Prop :=
  ∀ s t : State, step s = .next t →
    (s.chip.stealPtrsRight → t.chip.stealPtrsRight) ∧ (s.chip.tablesInRange → t.chip.tablesInRange)

/-- Every step keeps every Link Engine in the ranges of section 9.1 for the hold-off, both training counts, the replay buffer, the send pointer, the replay count, the two
timers and the open packet. Every step keeps a port's credits to advertise within those its processor may still use, and these with its input buffer within 8, so the
credits to advertise within 0 to 8, but for two: a packet that arrives ahead of the CREDIT that carries its credit, and a link up with credits still to be advertised. -/
def Obligations.StepKeepsLinksInRange : Prop :=
  ∀ s t : State, step s = .next t →
    (s.chip.linksInRange → t.chip.linksInRange) ∧
    (∀ p, s.chip.creditsBalance p →
      (s.pending.head? = some (.requestArrival p) → (s.chip.link p).credits < (s.chip.pc p).granted) →
      (s.pending.head? = some (.linkUpReport p) → (s.chip.link p).credits = 0) →
      t.chip.creditsBalance p ∧ (t.chip.link p).credits ≤ 8)
end

