-- ==== Sys2Proof/Laws/State.lean ====
section
/-! SUPPORT. The fields of the hub after each of its shared updates: one lemma for each field of each update, so that no proof unfolds a record update; and the laws of the per-port and per-block tables. -/

namespace Sys2Proof

/-! ## Per-port tables -/

@[simp] theorem PerPort.get_set_self {α : Type} (v : PerPort α) (p : Port) (x : α) : (v.set p x).get p = x := by
  cases p <;> rfl

@[simp] theorem PerPort.get_set_ne {α : Type} (v : PerPort α) {p q : Port} (x : α) (h : q ≠ p) :
    (v.set p x).get q = v.get q := by
  cases p <;> cases q <;> first | rfl | exact absurd rfl h

theorem PerPort.get_set {α : Type} (v : PerPort α) (p q : Port) (x : α) :
    (v.set p x).get q = if q = p then x else v.get q := by
  cases p <;> cases q <;> rfl

@[simp] theorem PerPort.set_get_self {α : Type} (v : PerPort α) (p : Port) : v.set p (v.get p) = v := by
  cases p <;> rfl

@[simp] theorem PerPort.set_set {α : Type} (v : PerPort α) (p : Port) (x y : α) : (v.set p x).set p y = v.set p y := by
  cases p <;> rfl

theorem PerPort.set_comm {α : Type} (v : PerPort α) {p q : Port} (x y : α) (h : p ≠ q) :
    (v.set p x).set q y = (v.set q y).set p x := by
  cases p <;> cases q <;> first | rfl | exact absurd rfl h

@[simp] theorem PerPort.upd_eq {α : Type} (v : PerPort α) (p : Port) (f : α → α) : v.upd p f = v.set p (f (v.get p)) := rfl

@[simp] theorem PerPort.get_tab {α : Type} (f : Port → α) (p : Port) : (PerPort.tab f).get p = f p := by
  cases p <;> rfl

@[simp] theorem PerPort.get_same {α : Type} (x : α) (p : Port) : (PerPort.same x).get p = x := by
  cases p <;> rfl

/-- Two tables with the same value for every port are the same. -/
theorem PerPort.ext_get {α : Type} {v w : PerPort α} (h : ∀ p, v.get p = w.get p) : v = w := by
  cases v; cases w
  have h0 := h .p0; have h1 := h .p1; have h2 := h .p2; have h3 := h .p3
  simp only [PerPort.get] at h0 h1 h2 h3
  subst h0 h1 h2 h3; rfl

/-! ## Per-block tables -/

@[simp] theorem PerBlock.get_set_self {α : Type} (v : PerBlock α) (b : Block) (x : α) : (v.set b x).get b = x := by
  cases b <;> rfl

@[simp] theorem PerBlock.get_set_ne {α : Type} (v : PerBlock α) {a b : Block} (x : α) (h : b ≠ a) :
    (v.set a x).get b = v.get b := by
  cases a <;> cases b <;> first | rfl | exact absurd rfl h

@[simp] theorem PerBlock.set_get_self {α : Type} (v : PerBlock α) (b : Block) : v.set b (v.get b) = v := by
  cases b <;> rfl

@[simp] theorem PerBlock.set_set {α : Type} (v : PerBlock α) (b : Block) (x y : α) : (v.set b x).set b y = v.set b y := by
  cases b <;> rfl

@[simp] theorem PerBlock.get_same {α : Type} (x : α) (b : Block) : (PerBlock.same x).get b = x := by
  cases b <;> rfl

/-- A table in which block `b` holds `x` already. -/
theorem PerBlock.set_same {α : Type} {v : PerBlock α} {b : Block} {x : α} (h : v.get b = x) : v.set b x = v := by
  subst h; exact v.set_get_self b

/-! ## All ports -/

theorem Port.mem_all (p : Port) : p ∈ Port.all := by cases p <;> decide

/-- `all` over the ports is a statement for every port. -/
theorem Port.any_all_eq_false {f : Port → Bool} : (Port.all.any f) = false ↔ ∀ p, f p = false := by
  constructor
  · intro h p
    have := List.any_eq_false.mp h p (Port.mem_all p)
    simpa using this
  · intro h
    exact List.any_eq_false.mpr fun p _ => by simp [h p]

theorem Port.any_all_eq_true {f : Port → Bool} : (Port.all.any f) = true ↔ ∃ p, f p = true := by
  constructor
  · intro h
    obtain ⟨p, _, hp⟩ := List.any_eq_true.mp h
    exact ⟨p, hp⟩
  · rintro ⟨p, hp⟩
    exact List.any_eq_true.mpr ⟨p, Port.mem_all p, hp⟩

end Sys2Proof

namespace Sys2Proof.Machine

/-- Two hubs with the same fields are the same. -/
theorem Chip.ext_fields {c d : Chip} (h1 : c.rst = d.rst) (h2 : c.straps = d.straps) (h3 : c.hcu = d.hcu) (h4 : c.tks = d.tks)
    (h5 : c.rqc = d.rqc) (h6 : c.frt = d.frt) (h7 : c.ltu = d.ltu) (h8 : c.pcs = d.pcs) (h9 : c.links = d.links)
    (h10 : c.wires = d.wires) : c = d := by
  cases c; cases d
  simp only at h1 h2 h3 h4 h5 h6 h7 h8 h9 h10
  subst h1 h2 h3 h4 h5 h6 h7 h8 h9 h10; rfl

/-! ## Access after an update -/

theorem vector_get_set_self {α : Type} {n : Nat} (v : Vector α n) (i : Fin n) (x : α) : (v.set i.val x i.isLt).get i = x := by
  show (v.set i.val x i.isLt)[i.val] = x
  simp

theorem vector_get_set_ne {α : Type} {n : Nat} (v : Vector α n) {i j : Fin n} (x : α) (h : j ≠ i) :
    (v.set i.val x i.isLt).get j = v.get j := by
  have hne : i.val ≠ j.val := fun e => h (Fin.ext e.symm)
  show (v.set i.val x i.isLt)[j.val] = v[j.val]
  exact Vector.getElem_set_ne i.isLt j.isLt hne

@[simp] theorem Chip.slot_setSlot_self (c : Chip) (i : SlotNo) (x : Slot) : (c.setSlot i x).slot i = x :=
  vector_get_set_self _ _ _

@[simp] theorem Chip.slot_setSlot_ne (c : Chip) {i j : SlotNo} (x : Slot) (h : j ≠ i) :
    (c.setSlot i x).slot j = c.slot j :=
  vector_get_set_ne _ _ h

/-- A change of the record of a slot that is not FREE. -/
theorem Chip.updTicket_eq {c : Chip} {i : SlotNo} {t : Ticket} (h : c.ticket i = some t) (f : Ticket → Ticket) :
    c.updTicket i f = c.setSlot i ⟨(c.slot i).gen, some (f t)⟩ := by
  unfold Chip.updTicket; unfold Chip.ticket at h; rw [h]; rfl

@[simp] theorem Chip.frame_setFrame_self (c : Chip) (i : FrameNo) (x : Frame) : (c.setFrame i x).frame i = x :=
  vector_get_set_self _ _ _

@[simp] theorem Chip.frame_setFrame_ne (c : Chip) {i j : FrameNo} (x : Frame) (h : j ≠ i) :
    (c.setFrame i x).frame j = c.frame j :=
  vector_get_set_ne _ _ h

@[simp] theorem Chip.pc_updPc_self (c : Chip) (p : Port) (f : Pc → Pc) : (c.updPc p f).pc p = f (c.pc p) := by
  simp [Chip.pc, Chip.updPc]

@[simp] theorem Chip.pc_updPc_ne (c : Chip) {p q : Port} (f : Pc → Pc) (h : q ≠ p) : (c.updPc p f).pc q = c.pc q := by
  simp [Chip.pc, Chip.updPc, h]

@[simp] theorem Chip.link_updLink_self (c : Chip) (p : Port) (f : Link → Link) : (c.updLink p f).link p = f (c.link p) := by
  simp [Chip.link, Chip.updLink]

@[simp] theorem Chip.stack_setStack_self (c : Chip) (p : Port) (l : List SlotNo) : (c.setStack p l).stack p = l := by
  simp [Chip.stack, Chip.setStack]

@[simp] theorem Chip.stack_setStack_ne (c : Chip) {p q : Port} (l : List SlotNo) (h : q ≠ p) :
    (c.setStack p l).stack q = c.stack q := by
  simp [Chip.stack, Chip.setStack, h]

@[simp] theorem Chip.runList_setRunList_self (c : Chip) (r : RunList) (l : List SlotNo) : (c.setRunList r l).runList r = l := by
  cases r <;> simp [Chip.runList, Chip.setRunList, Chip.stack, Chip.setStack, Chip.setShared]

/-! ## setSlot -/

@[simp] theorem Chip.setSlot_rst (c : Chip) (i : SlotNo) (x : Slot) : (c.setSlot i x).rst = c.rst := rfl
@[simp] theorem Chip.setSlot_straps (c : Chip) (i : SlotNo) (x : Slot) : (c.setSlot i x).straps = c.straps := rfl
@[simp] theorem Chip.setSlot_hcu (c : Chip) (i : SlotNo) (x : Slot) : (c.setSlot i x).hcu = c.hcu := rfl
@[simp] theorem Chip.setSlot_tks (c : Chip) (i : SlotNo) (x : Slot) : (c.setSlot i x).tks = { c.tks with slots := c.tks.slots.set i.val x i.isLt } := rfl
@[simp] theorem Chip.setSlot_rqc (c : Chip) (i : SlotNo) (x : Slot) : (c.setSlot i x).rqc = c.rqc := rfl
@[simp] theorem Chip.setSlot_frt (c : Chip) (i : SlotNo) (x : Slot) : (c.setSlot i x).frt = c.frt := rfl
@[simp] theorem Chip.setSlot_ltu (c : Chip) (i : SlotNo) (x : Slot) : (c.setSlot i x).ltu = c.ltu := rfl
@[simp] theorem Chip.setSlot_pcs (c : Chip) (i : SlotNo) (x : Slot) : (c.setSlot i x).pcs = c.pcs := rfl
@[simp] theorem Chip.setSlot_links (c : Chip) (i : SlotNo) (x : Slot) : (c.setSlot i x).links = c.links := rfl
@[simp] theorem Chip.setSlot_wires (c : Chip) (i : SlotNo) (x : Slot) : (c.setSlot i x).wires = c.wires := rfl

/-! ## updTicket -/

@[simp] theorem Chip.updTicket_rst (c : Chip) (i : SlotNo) (f : Ticket → Ticket) : (c.updTicket i f).rst = c.rst := rfl
@[simp] theorem Chip.updTicket_straps (c : Chip) (i : SlotNo) (f : Ticket → Ticket) : (c.updTicket i f).straps = c.straps := rfl
@[simp] theorem Chip.updTicket_hcu (c : Chip) (i : SlotNo) (f : Ticket → Ticket) : (c.updTicket i f).hcu = c.hcu := rfl
@[simp] theorem Chip.updTicket_tks (c : Chip) (i : SlotNo) (f : Ticket → Ticket) : (c.updTicket i f).tks = (c.setSlot i { c.slot i with ticket := (c.slot i).ticket.map f }).tks := rfl
@[simp] theorem Chip.updTicket_rqc (c : Chip) (i : SlotNo) (f : Ticket → Ticket) : (c.updTicket i f).rqc = c.rqc := rfl
@[simp] theorem Chip.updTicket_frt (c : Chip) (i : SlotNo) (f : Ticket → Ticket) : (c.updTicket i f).frt = c.frt := rfl
@[simp] theorem Chip.updTicket_ltu (c : Chip) (i : SlotNo) (f : Ticket → Ticket) : (c.updTicket i f).ltu = c.ltu := rfl
@[simp] theorem Chip.updTicket_pcs (c : Chip) (i : SlotNo) (f : Ticket → Ticket) : (c.updTicket i f).pcs = c.pcs := rfl
@[simp] theorem Chip.updTicket_links (c : Chip) (i : SlotNo) (f : Ticket → Ticket) : (c.updTicket i f).links = c.links := rfl
@[simp] theorem Chip.updTicket_wires (c : Chip) (i : SlotNo) (f : Ticket → Ticket) : (c.updTicket i f).wires = c.wires := rfl

/-! ## advanceGen -/

@[simp] theorem Chip.advanceGen_rst (c : Chip) (i : SlotNo) : (c.advanceGen i).rst = c.rst := rfl
@[simp] theorem Chip.advanceGen_straps (c : Chip) (i : SlotNo) : (c.advanceGen i).straps = c.straps := rfl
@[simp] theorem Chip.advanceGen_hcu (c : Chip) (i : SlotNo) : (c.advanceGen i).hcu = c.hcu := rfl
@[simp] theorem Chip.advanceGen_tks (c : Chip) (i : SlotNo) : (c.advanceGen i).tks = (c.setSlot i { c.slot i with gen := (c.slot i).gen + 1 }).tks := rfl
@[simp] theorem Chip.advanceGen_rqc (c : Chip) (i : SlotNo) : (c.advanceGen i).rqc = c.rqc := rfl
@[simp] theorem Chip.advanceGen_frt (c : Chip) (i : SlotNo) : (c.advanceGen i).frt = c.frt := rfl
@[simp] theorem Chip.advanceGen_ltu (c : Chip) (i : SlotNo) : (c.advanceGen i).ltu = c.ltu := rfl
@[simp] theorem Chip.advanceGen_pcs (c : Chip) (i : SlotNo) : (c.advanceGen i).pcs = c.pcs := rfl
@[simp] theorem Chip.advanceGen_links (c : Chip) (i : SlotNo) : (c.advanceGen i).links = c.links := rfl
@[simp] theorem Chip.advanceGen_wires (c : Chip) (i : SlotNo) : (c.advanceGen i).wires = c.wires := rfl

/-! ## setFrame -/

@[simp] theorem Chip.setFrame_rst (c : Chip) (i : FrameNo) (x : Frame) : (c.setFrame i x).rst = c.rst := rfl
@[simp] theorem Chip.setFrame_straps (c : Chip) (i : FrameNo) (x : Frame) : (c.setFrame i x).straps = c.straps := rfl
@[simp] theorem Chip.setFrame_hcu (c : Chip) (i : FrameNo) (x : Frame) : (c.setFrame i x).hcu = c.hcu := rfl
@[simp] theorem Chip.setFrame_tks (c : Chip) (i : FrameNo) (x : Frame) : (c.setFrame i x).tks = c.tks := rfl
@[simp] theorem Chip.setFrame_rqc (c : Chip) (i : FrameNo) (x : Frame) : (c.setFrame i x).rqc = c.rqc := rfl
@[simp] theorem Chip.setFrame_frt (c : Chip) (i : FrameNo) (x : Frame) : (c.setFrame i x).frt = { c.frt with frames := c.frt.frames.set i.val x i.isLt } := rfl
@[simp] theorem Chip.setFrame_ltu (c : Chip) (i : FrameNo) (x : Frame) : (c.setFrame i x).ltu = c.ltu := rfl
@[simp] theorem Chip.setFrame_pcs (c : Chip) (i : FrameNo) (x : Frame) : (c.setFrame i x).pcs = c.pcs := rfl
@[simp] theorem Chip.setFrame_links (c : Chip) (i : FrameNo) (x : Frame) : (c.setFrame i x).links = c.links := rfl
@[simp] theorem Chip.setFrame_wires (c : Chip) (i : FrameNo) (x : Frame) : (c.setFrame i x).wires = c.wires := rfl

/-! ## updPc -/

@[simp] theorem Chip.updPc_rst (c : Chip) (p : Port) (f : Pc → Pc) : (c.updPc p f).rst = c.rst := rfl
@[simp] theorem Chip.updPc_straps (c : Chip) (p : Port) (f : Pc → Pc) : (c.updPc p f).straps = c.straps := rfl
@[simp] theorem Chip.updPc_hcu (c : Chip) (p : Port) (f : Pc → Pc) : (c.updPc p f).hcu = c.hcu := rfl
@[simp] theorem Chip.updPc_tks (c : Chip) (p : Port) (f : Pc → Pc) : (c.updPc p f).tks = c.tks := rfl
@[simp] theorem Chip.updPc_rqc (c : Chip) (p : Port) (f : Pc → Pc) : (c.updPc p f).rqc = c.rqc := rfl
@[simp] theorem Chip.updPc_frt (c : Chip) (p : Port) (f : Pc → Pc) : (c.updPc p f).frt = c.frt := rfl
@[simp] theorem Chip.updPc_ltu (c : Chip) (p : Port) (f : Pc → Pc) : (c.updPc p f).ltu = c.ltu := rfl
@[simp] theorem Chip.updPc_pcs (c : Chip) (p : Port) (f : Pc → Pc) : (c.updPc p f).pcs = c.pcs.upd p f := rfl
@[simp] theorem Chip.updPc_links (c : Chip) (p : Port) (f : Pc → Pc) : (c.updPc p f).links = c.links := rfl
@[simp] theorem Chip.updPc_wires (c : Chip) (p : Port) (f : Pc → Pc) : (c.updPc p f).wires = c.wires := rfl

/-! ## updLink -/

@[simp] theorem Chip.updLink_rst (c : Chip) (p : Port) (f : Link → Link) : (c.updLink p f).rst = c.rst := rfl
@[simp] theorem Chip.updLink_straps (c : Chip) (p : Port) (f : Link → Link) : (c.updLink p f).straps = c.straps := rfl
@[simp] theorem Chip.updLink_hcu (c : Chip) (p : Port) (f : Link → Link) : (c.updLink p f).hcu = c.hcu := rfl
@[simp] theorem Chip.updLink_tks (c : Chip) (p : Port) (f : Link → Link) : (c.updLink p f).tks = c.tks := rfl
@[simp] theorem Chip.updLink_rqc (c : Chip) (p : Port) (f : Link → Link) : (c.updLink p f).rqc = c.rqc := rfl
@[simp] theorem Chip.updLink_frt (c : Chip) (p : Port) (f : Link → Link) : (c.updLink p f).frt = c.frt := rfl
@[simp] theorem Chip.updLink_ltu (c : Chip) (p : Port) (f : Link → Link) : (c.updLink p f).ltu = c.ltu := rfl
@[simp] theorem Chip.updLink_pcs (c : Chip) (p : Port) (f : Link → Link) : (c.updLink p f).pcs = c.pcs := rfl
@[simp] theorem Chip.updLink_links (c : Chip) (p : Port) (f : Link → Link) : (c.updLink p f).links = c.links.upd p f := rfl
@[simp] theorem Chip.updLink_wires (c : Chip) (p : Port) (f : Link → Link) : (c.updLink p f).wires = c.wires := rfl

/-! ## setStack -/

@[simp] theorem Chip.setStack_rst (c : Chip) (p : Port) (l : List SlotNo) : (c.setStack p l).rst = c.rst := rfl
@[simp] theorem Chip.setStack_straps (c : Chip) (p : Port) (l : List SlotNo) : (c.setStack p l).straps = c.straps := rfl
@[simp] theorem Chip.setStack_hcu (c : Chip) (p : Port) (l : List SlotNo) : (c.setStack p l).hcu = c.hcu := rfl
@[simp] theorem Chip.setStack_tks (c : Chip) (p : Port) (l : List SlotNo) : (c.setStack p l).tks = c.tks := rfl
@[simp] theorem Chip.setStack_rqc (c : Chip) (p : Port) (l : List SlotNo) : (c.setStack p l).rqc = { c.rqc with runStacks := c.rqc.runStacks.set p l } := rfl
@[simp] theorem Chip.setStack_frt (c : Chip) (p : Port) (l : List SlotNo) : (c.setStack p l).frt = c.frt := rfl
@[simp] theorem Chip.setStack_ltu (c : Chip) (p : Port) (l : List SlotNo) : (c.setStack p l).ltu = c.ltu := rfl
@[simp] theorem Chip.setStack_pcs (c : Chip) (p : Port) (l : List SlotNo) : (c.setStack p l).pcs = c.pcs := rfl
@[simp] theorem Chip.setStack_links (c : Chip) (p : Port) (l : List SlotNo) : (c.setStack p l).links = c.links := rfl
@[simp] theorem Chip.setStack_wires (c : Chip) (p : Port) (l : List SlotNo) : (c.setStack p l).wires = c.wires := rfl

/-! ## setShared -/

@[simp] theorem Chip.setShared_rst (c : Chip) (l : List SlotNo) : (c.setShared l).rst = c.rst := rfl
@[simp] theorem Chip.setShared_straps (c : Chip) (l : List SlotNo) : (c.setShared l).straps = c.straps := rfl
@[simp] theorem Chip.setShared_hcu (c : Chip) (l : List SlotNo) : (c.setShared l).hcu = c.hcu := rfl
@[simp] theorem Chip.setShared_tks (c : Chip) (l : List SlotNo) : (c.setShared l).tks = c.tks := rfl
@[simp] theorem Chip.setShared_rqc (c : Chip) (l : List SlotNo) : (c.setShared l).rqc = { c.rqc with shared := l } := rfl
@[simp] theorem Chip.setShared_frt (c : Chip) (l : List SlotNo) : (c.setShared l).frt = c.frt := rfl
@[simp] theorem Chip.setShared_ltu (c : Chip) (l : List SlotNo) : (c.setShared l).ltu = c.ltu := rfl
@[simp] theorem Chip.setShared_pcs (c : Chip) (l : List SlotNo) : (c.setShared l).pcs = c.pcs := rfl
@[simp] theorem Chip.setShared_links (c : Chip) (l : List SlotNo) : (c.setShared l).links = c.links := rfl
@[simp] theorem Chip.setShared_wires (c : Chip) (l : List SlotNo) : (c.setShared l).wires = c.wires := rfl

/-! ## setParked -/

@[simp] theorem Chip.setParked_rst (c : Chip) (l : List ParkedPop) : (c.setParked l).rst = c.rst := rfl
@[simp] theorem Chip.setParked_straps (c : Chip) (l : List ParkedPop) : (c.setParked l).straps = c.straps := rfl
@[simp] theorem Chip.setParked_hcu (c : Chip) (l : List ParkedPop) : (c.setParked l).hcu = c.hcu := rfl
@[simp] theorem Chip.setParked_tks (c : Chip) (l : List ParkedPop) : (c.setParked l).tks = c.tks := rfl
@[simp] theorem Chip.setParked_rqc (c : Chip) (l : List ParkedPop) : (c.setParked l).rqc = { c.rqc with parked := l } := rfl
@[simp] theorem Chip.setParked_frt (c : Chip) (l : List ParkedPop) : (c.setParked l).frt = c.frt := rfl
@[simp] theorem Chip.setParked_ltu (c : Chip) (l : List ParkedPop) : (c.setParked l).ltu = c.ltu := rfl
@[simp] theorem Chip.setParked_pcs (c : Chip) (l : List ParkedPop) : (c.setParked l).pcs = c.pcs := rfl
@[simp] theorem Chip.setParked_links (c : Chip) (l : List ParkedPop) : (c.setParked l).links = c.links := rfl
@[simp] theorem Chip.setParked_wires (c : Chip) (l : List ParkedPop) : (c.setParked l).wires = c.wires := rfl

/-! ## setRunList -/

@[simp] theorem Chip.setRunList_rst (c : Chip) (r : RunList) (l : List SlotNo) : (c.setRunList r l).rst = c.rst := by cases r <;> rfl
@[simp] theorem Chip.setRunList_straps (c : Chip) (r : RunList) (l : List SlotNo) : (c.setRunList r l).straps = c.straps := by cases r <;> rfl
@[simp] theorem Chip.setRunList_hcu (c : Chip) (r : RunList) (l : List SlotNo) : (c.setRunList r l).hcu = c.hcu := by cases r <;> rfl
@[simp] theorem Chip.setRunList_tks (c : Chip) (r : RunList) (l : List SlotNo) : (c.setRunList r l).tks = c.tks := by cases r <;> rfl
@[simp] theorem Chip.setRunList_frt (c : Chip) (r : RunList) (l : List SlotNo) : (c.setRunList r l).frt = c.frt := by cases r <;> rfl
@[simp] theorem Chip.setRunList_ltu (c : Chip) (r : RunList) (l : List SlotNo) : (c.setRunList r l).ltu = c.ltu := by cases r <;> rfl
@[simp] theorem Chip.setRunList_pcs (c : Chip) (r : RunList) (l : List SlotNo) : (c.setRunList r l).pcs = c.pcs := by cases r <;> rfl
@[simp] theorem Chip.setRunList_links (c : Chip) (r : RunList) (l : List SlotNo) : (c.setRunList r l).links = c.links := by cases r <;> rfl
@[simp] theorem Chip.setRunList_wires (c : Chip) (r : RunList) (l : List SlotNo) : (c.setRunList r l).wires = c.wires := by cases r <;> rfl

/-! ## sendTake -/

@[simp] theorem Chip.sendTake_rst (c : Chip) (m : TakeMsg) : (c.sendTake m).rst = c.rst := rfl
@[simp] theorem Chip.sendTake_straps (c : Chip) (m : TakeMsg) : (c.sendTake m).straps = c.straps := rfl
@[simp] theorem Chip.sendTake_hcu (c : Chip) (m : TakeMsg) : (c.sendTake m).hcu = c.hcu := rfl
@[simp] theorem Chip.sendTake_tks (c : Chip) (m : TakeMsg) : (c.sendTake m).tks = c.tks := rfl
@[simp] theorem Chip.sendTake_rqc (c : Chip) (m : TakeMsg) : (c.sendTake m).rqc = c.rqc := rfl
@[simp] theorem Chip.sendTake_frt (c : Chip) (m : TakeMsg) : (c.sendTake m).frt = c.frt := rfl
@[simp] theorem Chip.sendTake_ltu (c : Chip) (m : TakeMsg) : (c.sendTake m).ltu = c.ltu := rfl
@[simp] theorem Chip.sendTake_pcs (c : Chip) (m : TakeMsg) : (c.sendTake m).pcs = c.pcs := rfl
@[simp] theorem Chip.sendTake_links (c : Chip) (m : TakeMsg) : (c.sendTake m).links = c.links := rfl
@[simp] theorem Chip.sendTake_wires (c : Chip) (m : TakeMsg) : (c.sendTake m).wires = { c.wires with takes := c.wires.takes ++ [m] } := rfl

/-! ## sendPlace -/

@[simp] theorem Chip.sendPlace_rst (c : Chip) (src : PlaceSender) (m : PlaceMsg) : (c.sendPlace src m).rst = c.rst := by cases src <;> rfl
@[simp] theorem Chip.sendPlace_straps (c : Chip) (src : PlaceSender) (m : PlaceMsg) : (c.sendPlace src m).straps = c.straps := by cases src <;> rfl
@[simp] theorem Chip.sendPlace_hcu (c : Chip) (src : PlaceSender) (m : PlaceMsg) : (c.sendPlace src m).hcu = c.hcu := by cases src <;> rfl
@[simp] theorem Chip.sendPlace_tks (c : Chip) (src : PlaceSender) (m : PlaceMsg) : (c.sendPlace src m).tks = c.tks := by cases src <;> rfl
@[simp] theorem Chip.sendPlace_rqc (c : Chip) (src : PlaceSender) (m : PlaceMsg) : (c.sendPlace src m).rqc = c.rqc := by cases src <;> rfl
@[simp] theorem Chip.sendPlace_frt (c : Chip) (src : PlaceSender) (m : PlaceMsg) : (c.sendPlace src m).frt = c.frt := by cases src <;> rfl
@[simp] theorem Chip.sendPlace_ltu (c : Chip) (src : PlaceSender) (m : PlaceMsg) : (c.sendPlace src m).ltu = c.ltu := by cases src <;> rfl
@[simp] theorem Chip.sendPlace_pcs (c : Chip) (src : PlaceSender) (m : PlaceMsg) : (c.sendPlace src m).pcs = c.pcs := by cases src <;> rfl
@[simp] theorem Chip.sendPlace_links (c : Chip) (src : PlaceSender) (m : PlaceMsg) : (c.sendPlace src m).links = c.links := by cases src <;> rfl

/-! ## sendRequeue -/

@[simp] theorem Chip.sendRequeue_rst (c : Chip) (i : SlotNo) : (c.sendRequeue i).rst = c.rst := rfl
@[simp] theorem Chip.sendRequeue_straps (c : Chip) (i : SlotNo) : (c.sendRequeue i).straps = c.straps := rfl
@[simp] theorem Chip.sendRequeue_hcu (c : Chip) (i : SlotNo) : (c.sendRequeue i).hcu = c.hcu := rfl
@[simp] theorem Chip.sendRequeue_tks (c : Chip) (i : SlotNo) : (c.sendRequeue i).tks = c.tks := rfl
@[simp] theorem Chip.sendRequeue_rqc (c : Chip) (i : SlotNo) : (c.sendRequeue i).rqc = c.rqc := rfl
@[simp] theorem Chip.sendRequeue_frt (c : Chip) (i : SlotNo) : (c.sendRequeue i).frt = c.frt := rfl
@[simp] theorem Chip.sendRequeue_ltu (c : Chip) (i : SlotNo) : (c.sendRequeue i).ltu = c.ltu := rfl
@[simp] theorem Chip.sendRequeue_pcs (c : Chip) (i : SlotNo) : (c.sendRequeue i).pcs = c.pcs := rfl
@[simp] theorem Chip.sendRequeue_links (c : Chip) (i : SlotNo) : (c.sendRequeue i).links = c.links := rfl
@[simp] theorem Chip.sendRequeue_wires (c : Chip) (i : SlotNo) : (c.sendRequeue i).wires = { c.wires with requeues := c.wires.requeues ++ [i] } := rfl

/-! ## sendRetire -/

@[simp] theorem Chip.sendRetire_rst (c : Chip) (src : RetireSender) (m : RetireMsg) : (c.sendRetire src m).rst = c.rst := by cases src <;> rfl
@[simp] theorem Chip.sendRetire_straps (c : Chip) (src : RetireSender) (m : RetireMsg) : (c.sendRetire src m).straps = c.straps := by cases src <;> rfl
@[simp] theorem Chip.sendRetire_hcu (c : Chip) (src : RetireSender) (m : RetireMsg) : (c.sendRetire src m).hcu = c.hcu := by cases src <;> rfl
@[simp] theorem Chip.sendRetire_tks (c : Chip) (src : RetireSender) (m : RetireMsg) : (c.sendRetire src m).tks = c.tks := by cases src <;> rfl
@[simp] theorem Chip.sendRetire_rqc (c : Chip) (src : RetireSender) (m : RetireMsg) : (c.sendRetire src m).rqc = c.rqc := by cases src <;> rfl
@[simp] theorem Chip.sendRetire_frt (c : Chip) (src : RetireSender) (m : RetireMsg) : (c.sendRetire src m).frt = c.frt := by cases src <;> rfl
@[simp] theorem Chip.sendRetire_ltu (c : Chip) (src : RetireSender) (m : RetireMsg) : (c.sendRetire src m).ltu = c.ltu := by cases src <;> rfl
@[simp] theorem Chip.sendRetire_pcs (c : Chip) (src : RetireSender) (m : RetireMsg) : (c.sendRetire src m).pcs = c.pcs := by cases src <;> rfl
@[simp] theorem Chip.sendRetire_links (c : Chip) (src : RetireSender) (m : RetireMsg) : (c.sendRetire src m).links = c.links := by cases src <;> rfl

/-! ## sendChildEnd -/

@[simp] theorem Chip.sendChildEnd_rst (c : Chip) (m : ChildEndMsg) : (c.sendChildEnd m).rst = c.rst := rfl
@[simp] theorem Chip.sendChildEnd_straps (c : Chip) (m : ChildEndMsg) : (c.sendChildEnd m).straps = c.straps := rfl
@[simp] theorem Chip.sendChildEnd_hcu (c : Chip) (m : ChildEndMsg) : (c.sendChildEnd m).hcu = c.hcu := rfl
@[simp] theorem Chip.sendChildEnd_tks (c : Chip) (m : ChildEndMsg) : (c.sendChildEnd m).tks = c.tks := rfl
@[simp] theorem Chip.sendChildEnd_rqc (c : Chip) (m : ChildEndMsg) : (c.sendChildEnd m).rqc = c.rqc := rfl
@[simp] theorem Chip.sendChildEnd_frt (c : Chip) (m : ChildEndMsg) : (c.sendChildEnd m).frt = c.frt := rfl
@[simp] theorem Chip.sendChildEnd_ltu (c : Chip) (m : ChildEndMsg) : (c.sendChildEnd m).ltu = c.ltu := rfl
@[simp] theorem Chip.sendChildEnd_pcs (c : Chip) (m : ChildEndMsg) : (c.sendChildEnd m).pcs = c.pcs := rfl
@[simp] theorem Chip.sendChildEnd_links (c : Chip) (m : ChildEndMsg) : (c.sendChildEnd m).links = c.links := rfl
@[simp] theorem Chip.sendChildEnd_wires (c : Chip) (m : ChildEndMsg) : (c.sendChildEnd m).wires = { c.wires with childEnds := c.wires.childEnds ++ [m] } := rfl

/-! ## notifyRqc -/

@[simp] theorem Chip.notifyRqc_rst (c : Chip) (p : Port) (n : RqcNotice) : (c.notifyRqc p n).rst = c.rst := rfl
@[simp] theorem Chip.notifyRqc_straps (c : Chip) (p : Port) (n : RqcNotice) : (c.notifyRqc p n).straps = c.straps := rfl
@[simp] theorem Chip.notifyRqc_hcu (c : Chip) (p : Port) (n : RqcNotice) : (c.notifyRqc p n).hcu = c.hcu := rfl
@[simp] theorem Chip.notifyRqc_tks (c : Chip) (p : Port) (n : RqcNotice) : (c.notifyRqc p n).tks = c.tks := rfl
@[simp] theorem Chip.notifyRqc_rqc (c : Chip) (p : Port) (n : RqcNotice) : (c.notifyRqc p n).rqc = c.rqc := rfl
@[simp] theorem Chip.notifyRqc_frt (c : Chip) (p : Port) (n : RqcNotice) : (c.notifyRqc p n).frt = c.frt := rfl
@[simp] theorem Chip.notifyRqc_ltu (c : Chip) (p : Port) (n : RqcNotice) : (c.notifyRqc p n).ltu = c.ltu := rfl
@[simp] theorem Chip.notifyRqc_pcs (c : Chip) (p : Port) (n : RqcNotice) : (c.notifyRqc p n).pcs = c.pcs := rfl
@[simp] theorem Chip.notifyRqc_links (c : Chip) (p : Port) (n : RqcNotice) : (c.notifyRqc p n).links = c.links := rfl
@[simp] theorem Chip.notifyRqc_wires (c : Chip) (p : Port) (n : RqcNotice) : (c.notifyRqc p n).wires = { c.wires with toRqc := c.wires.toRqc.upd p (· ++ [n]) } := rfl

/-! ## notifyLtu -/

@[simp] theorem Chip.notifyLtu_rst (c : Chip) (p : Port) (n : LtuNotice) : (c.notifyLtu p n).rst = c.rst := rfl
@[simp] theorem Chip.notifyLtu_straps (c : Chip) (p : Port) (n : LtuNotice) : (c.notifyLtu p n).straps = c.straps := rfl
@[simp] theorem Chip.notifyLtu_hcu (c : Chip) (p : Port) (n : LtuNotice) : (c.notifyLtu p n).hcu = c.hcu := rfl
@[simp] theorem Chip.notifyLtu_tks (c : Chip) (p : Port) (n : LtuNotice) : (c.notifyLtu p n).tks = c.tks := rfl
@[simp] theorem Chip.notifyLtu_rqc (c : Chip) (p : Port) (n : LtuNotice) : (c.notifyLtu p n).rqc = c.rqc := rfl
@[simp] theorem Chip.notifyLtu_frt (c : Chip) (p : Port) (n : LtuNotice) : (c.notifyLtu p n).frt = c.frt := rfl
@[simp] theorem Chip.notifyLtu_ltu (c : Chip) (p : Port) (n : LtuNotice) : (c.notifyLtu p n).ltu = c.ltu := rfl
@[simp] theorem Chip.notifyLtu_pcs (c : Chip) (p : Port) (n : LtuNotice) : (c.notifyLtu p n).pcs = c.pcs := rfl
@[simp] theorem Chip.notifyLtu_links (c : Chip) (p : Port) (n : LtuNotice) : (c.notifyLtu p n).links = c.links := rfl
@[simp] theorem Chip.notifyLtu_wires (c : Chip) (p : Port) (n : LtuNotice) : (c.notifyLtu p n).wires = { c.wires with toLtu := c.wires.toLtu.upd p (· ++ [n]) } := rfl

/-! ## dropRqcNotice -/

@[simp] theorem Chip.dropRqcNotice_rst (c : Chip) (p : Port) : (c.dropRqcNotice p).rst = c.rst := rfl
@[simp] theorem Chip.dropRqcNotice_straps (c : Chip) (p : Port) : (c.dropRqcNotice p).straps = c.straps := rfl
@[simp] theorem Chip.dropRqcNotice_hcu (c : Chip) (p : Port) : (c.dropRqcNotice p).hcu = c.hcu := rfl
@[simp] theorem Chip.dropRqcNotice_tks (c : Chip) (p : Port) : (c.dropRqcNotice p).tks = c.tks := rfl
@[simp] theorem Chip.dropRqcNotice_rqc (c : Chip) (p : Port) : (c.dropRqcNotice p).rqc = c.rqc := rfl
@[simp] theorem Chip.dropRqcNotice_frt (c : Chip) (p : Port) : (c.dropRqcNotice p).frt = c.frt := rfl
@[simp] theorem Chip.dropRqcNotice_ltu (c : Chip) (p : Port) : (c.dropRqcNotice p).ltu = c.ltu := rfl
@[simp] theorem Chip.dropRqcNotice_pcs (c : Chip) (p : Port) : (c.dropRqcNotice p).pcs = c.pcs := rfl
@[simp] theorem Chip.dropRqcNotice_links (c : Chip) (p : Port) : (c.dropRqcNotice p).links = c.links := rfl
@[simp] theorem Chip.dropRqcNotice_wires (c : Chip) (p : Port) : (c.dropRqcNotice p).wires = { c.wires with toRqc := c.wires.toRqc.upd p List.tail } := rfl

/-! ## dropLtuNotice -/

@[simp] theorem Chip.dropLtuNotice_rst (c : Chip) (p : Port) : (c.dropLtuNotice p).rst = c.rst := rfl
@[simp] theorem Chip.dropLtuNotice_straps (c : Chip) (p : Port) : (c.dropLtuNotice p).straps = c.straps := rfl
@[simp] theorem Chip.dropLtuNotice_hcu (c : Chip) (p : Port) : (c.dropLtuNotice p).hcu = c.hcu := rfl
@[simp] theorem Chip.dropLtuNotice_tks (c : Chip) (p : Port) : (c.dropLtuNotice p).tks = c.tks := rfl
@[simp] theorem Chip.dropLtuNotice_rqc (c : Chip) (p : Port) : (c.dropLtuNotice p).rqc = c.rqc := rfl
@[simp] theorem Chip.dropLtuNotice_frt (c : Chip) (p : Port) : (c.dropLtuNotice p).frt = c.frt := rfl
@[simp] theorem Chip.dropLtuNotice_ltu (c : Chip) (p : Port) : (c.dropLtuNotice p).ltu = c.ltu := rfl
@[simp] theorem Chip.dropLtuNotice_pcs (c : Chip) (p : Port) : (c.dropLtuNotice p).pcs = c.pcs := rfl
@[simp] theorem Chip.dropLtuNotice_links (c : Chip) (p : Port) : (c.dropLtuNotice p).links = c.links := rfl
@[simp] theorem Chip.dropLtuNotice_wires (c : Chip) (p : Port) : (c.dropLtuNotice p).wires = { c.wires with toLtu := c.wires.toLtu.upd p List.tail } := rfl

/-! ## raise -/

@[simp] theorem Chip.raise_rst (c : Chip) (p : Port) (k : EventKind) : (c.raise p k).rst = c.rst := rfl
@[simp] theorem Chip.raise_straps (c : Chip) (p : Port) (k : EventKind) : (c.raise p k).straps = c.straps := rfl
@[simp] theorem Chip.raise_hcu (c : Chip) (p : Port) (k : EventKind) : (c.raise p k).hcu = c.hcu := rfl
@[simp] theorem Chip.raise_tks (c : Chip) (p : Port) (k : EventKind) : (c.raise p k).tks = c.tks := rfl
@[simp] theorem Chip.raise_rqc (c : Chip) (p : Port) (k : EventKind) : (c.raise p k).rqc = c.rqc := rfl
@[simp] theorem Chip.raise_frt (c : Chip) (p : Port) (k : EventKind) : (c.raise p k).frt = c.frt := rfl
@[simp] theorem Chip.raise_ltu (c : Chip) (p : Port) (k : EventKind) : (c.raise p k).ltu = c.ltu := rfl
@[simp] theorem Chip.raise_pcs (c : Chip) (p : Port) (k : EventKind) : (c.raise p k).pcs = c.pcs := rfl
@[simp] theorem Chip.raise_links (c : Chip) (p : Port) (k : EventKind) : (c.raise p k).links = c.links := rfl
@[simp] theorem Chip.raise_wires (c : Chip) (p : Port) (k : EventKind) : (c.raise p k).wires = { c.wires with events := c.wires.events.upd p (· ++ [k]) } := rfl

/-! ## callCheck -/

@[simp] theorem Chip.callCheck_rst (c : Chip) : (c.callCheck).rst = c.rst := rfl
@[simp] theorem Chip.callCheck_straps (c : Chip) : (c.callCheck).straps = c.straps := rfl
@[simp] theorem Chip.callCheck_hcu (c : Chip) : (c.callCheck).hcu = { c.hcu with checks := c.hcu.checks + 1 } := rfl
@[simp] theorem Chip.callCheck_tks (c : Chip) : (c.callCheck).tks = c.tks := rfl
@[simp] theorem Chip.callCheck_rqc (c : Chip) : (c.callCheck).rqc = c.rqc := rfl
@[simp] theorem Chip.callCheck_frt (c : Chip) : (c.callCheck).frt = c.frt := rfl
@[simp] theorem Chip.callCheck_ltu (c : Chip) : (c.callCheck).ltu = c.ltu := rfl
@[simp] theorem Chip.callCheck_pcs (c : Chip) : (c.callCheck).pcs = c.pcs := rfl
@[simp] theorem Chip.callCheck_links (c : Chip) : (c.callCheck).links = c.links := rfl
@[simp] theorem Chip.callCheck_wires (c : Chip) : (c.callCheck).wires = c.wires := rfl

/-! ## raiseCreation -/

@[simp] theorem Chip.raiseCreation_rst (c : Chip) : (c.raiseCreation).rst = c.rst := rfl
@[simp] theorem Chip.raiseCreation_straps (c : Chip) : (c.raiseCreation).straps = c.straps := rfl
@[simp] theorem Chip.raiseCreation_hcu (c : Chip) : (c.raiseCreation).hcu = { c.hcu with creation := c.hcu.creation + 1 } := rfl
@[simp] theorem Chip.raiseCreation_tks (c : Chip) : (c.raiseCreation).tks = c.tks := rfl
@[simp] theorem Chip.raiseCreation_rqc (c : Chip) : (c.raiseCreation).rqc = c.rqc := rfl
@[simp] theorem Chip.raiseCreation_frt (c : Chip) : (c.raiseCreation).frt = c.frt := rfl
@[simp] theorem Chip.raiseCreation_ltu (c : Chip) : (c.raiseCreation).ltu = c.ltu := rfl
@[simp] theorem Chip.raiseCreation_pcs (c : Chip) : (c.raiseCreation).pcs = c.pcs := rfl
@[simp] theorem Chip.raiseCreation_links (c : Chip) : (c.raiseCreation).links = c.links := rfl
@[simp] theorem Chip.raiseCreation_wires (c : Chip) : (c.raiseCreation).wires = c.wires := rfl

/-! ## lowerCreation -/

@[simp] theorem Chip.lowerCreation_rst (c : Chip) : (c.lowerCreation).rst = c.rst := by unfold Chip.lowerCreation; dsimp only; split <;> rfl
@[simp] theorem Chip.lowerCreation_straps (c : Chip) : (c.lowerCreation).straps = c.straps := by unfold Chip.lowerCreation; dsimp only; split <;> rfl
@[simp] theorem Chip.lowerCreation_tks (c : Chip) : (c.lowerCreation).tks = c.tks := by unfold Chip.lowerCreation; dsimp only; split <;> rfl
@[simp] theorem Chip.lowerCreation_rqc (c : Chip) : (c.lowerCreation).rqc = c.rqc := by unfold Chip.lowerCreation; dsimp only; split <;> rfl
@[simp] theorem Chip.lowerCreation_frt (c : Chip) : (c.lowerCreation).frt = c.frt := by unfold Chip.lowerCreation; dsimp only; split <;> rfl
@[simp] theorem Chip.lowerCreation_ltu (c : Chip) : (c.lowerCreation).ltu = c.ltu := by unfold Chip.lowerCreation; dsimp only; split <;> rfl
@[simp] theorem Chip.lowerCreation_pcs (c : Chip) : (c.lowerCreation).pcs = c.pcs := by unfold Chip.lowerCreation; dsimp only; split <;> rfl
@[simp] theorem Chip.lowerCreation_links (c : Chip) : (c.lowerCreation).links = c.links := by unfold Chip.lowerCreation; dsimp only; split <;> rfl
@[simp] theorem Chip.lowerCreation_wires (c : Chip) : (c.lowerCreation).wires = c.wires := by unfold Chip.lowerCreation; dsimp only; split <;> rfl

/-! ## allocate -/

@[simp] theorem Chip.allocate_rst (c : Chip) (p : Port) (i : SlotNo) (t : Ticket) : (c.allocate p i t).rst = c.rst := rfl
@[simp] theorem Chip.allocate_straps (c : Chip) (p : Port) (i : SlotNo) (t : Ticket) : (c.allocate p i t).straps = c.straps := rfl
@[simp] theorem Chip.allocate_hcu (c : Chip) (p : Port) (i : SlotNo) (t : Ticket) : (c.allocate p i t).hcu = c.hcu := rfl
@[simp] theorem Chip.allocate_rqc (c : Chip) (p : Port) (i : SlotNo) (t : Ticket) : (c.allocate p i t).rqc = c.rqc := rfl
@[simp] theorem Chip.allocate_frt (c : Chip) (p : Port) (i : SlotNo) (t : Ticket) : (c.allocate p i t).frt = c.frt := rfl
@[simp] theorem Chip.allocate_ltu (c : Chip) (p : Port) (i : SlotNo) (t : Ticket) : (c.allocate p i t).ltu = c.ltu := rfl
@[simp] theorem Chip.allocate_pcs (c : Chip) (p : Port) (i : SlotNo) (t : Ticket) : (c.allocate p i t).pcs = c.pcs := rfl
@[simp] theorem Chip.allocate_links (c : Chip) (p : Port) (i : SlotNo) (t : Ticket) : (c.allocate p i t).links = c.links := rfl
@[simp] theorem Chip.allocate_wires (c : Chip) (p : Port) (i : SlotNo) (t : Ticket) : (c.allocate p i t).wires = c.wires := rfl

/-! ## freeSlot -/

@[simp] theorem Chip.freeSlot_rst (c : Chip) (i : SlotNo) : (c.freeSlot i).rst = c.rst := by
  unfold Chip.freeSlot; split <;> first | rfl | (dsimp only; split <;> rfl)
@[simp] theorem Chip.freeSlot_straps (c : Chip) (i : SlotNo) : (c.freeSlot i).straps = c.straps := by
  unfold Chip.freeSlot; split <;> first | rfl | (dsimp only; split <;> rfl)
@[simp] theorem Chip.freeSlot_rqc (c : Chip) (i : SlotNo) : (c.freeSlot i).rqc = c.rqc := by
  unfold Chip.freeSlot; split <;> first | rfl | (dsimp only; split <;> rfl)
@[simp] theorem Chip.freeSlot_frt (c : Chip) (i : SlotNo) : (c.freeSlot i).frt = c.frt := by
  unfold Chip.freeSlot; split <;> first | rfl | (dsimp only; split <;> rfl)
@[simp] theorem Chip.freeSlot_ltu (c : Chip) (i : SlotNo) : (c.freeSlot i).ltu = c.ltu := by
  unfold Chip.freeSlot; split <;> first | rfl | (dsimp only; split <;> rfl)
@[simp] theorem Chip.freeSlot_pcs (c : Chip) (i : SlotNo) : (c.freeSlot i).pcs = c.pcs := by
  unfold Chip.freeSlot; split <;> first | rfl | (dsimp only; split <;> rfl)
@[simp] theorem Chip.freeSlot_links (c : Chip) (i : SlotNo) : (c.freeSlot i).links = c.links := by
  unfold Chip.freeSlot; split <;> first | rfl | (dsimp only; split <;> rfl)
@[simp] theorem Chip.freeSlot_wires (c : Chip) (i : SlotNo) : (c.freeSlot i).wires = c.wires := by
  unfold Chip.freeSlot; split <;> first | rfl | (dsimp only; split <;> rfl)

/-! ## respond -/

@[simp] theorem Chip.respond_rst (c : Chip) (p : Port) (tag : Tag) (st : Status) (body : List Word) : (c.respond p tag st body).rst = c.rst := rfl
@[simp] theorem Chip.respond_straps (c : Chip) (p : Port) (tag : Tag) (st : Status) (body : List Word) : (c.respond p tag st body).straps = c.straps := rfl
@[simp] theorem Chip.respond_hcu (c : Chip) (p : Port) (tag : Tag) (st : Status) (body : List Word) : (c.respond p tag st body).hcu = c.hcu := rfl
@[simp] theorem Chip.respond_tks (c : Chip) (p : Port) (tag : Tag) (st : Status) (body : List Word) : (c.respond p tag st body).tks = c.tks := rfl
@[simp] theorem Chip.respond_rqc (c : Chip) (p : Port) (tag : Tag) (st : Status) (body : List Word) : (c.respond p tag st body).rqc = c.rqc := rfl
@[simp] theorem Chip.respond_frt (c : Chip) (p : Port) (tag : Tag) (st : Status) (body : List Word) : (c.respond p tag st body).frt = c.frt := rfl
@[simp] theorem Chip.respond_ltu (c : Chip) (p : Port) (tag : Tag) (st : Status) (body : List Word) : (c.respond p tag st body).ltu = c.ltu := rfl
@[simp] theorem Chip.respond_pcs (c : Chip) (p : Port) (tag : Tag) (st : Status) (body : List Word) : (c.respond p tag st body).pcs = c.pcs.upd p fun x => x.respond tag st body := rfl
@[simp] theorem Chip.respond_links (c : Chip) (p : Port) (tag : Tag) (st : Status) (body : List Word) : (c.respond p tag st body).links = c.links := rfl
@[simp] theorem Chip.respond_wires (c : Chip) (p : Port) (tag : Tag) (st : Status) (body : List Word) : (c.respond p tag st body).wires = c.wires := rfl

/-! ## setStage -/

@[simp] theorem Chip.setStage_rst (c : Chip) (p : Port) (st : Stage) : (c.setStage p st).rst = c.rst := rfl
@[simp] theorem Chip.setStage_straps (c : Chip) (p : Port) (st : Stage) : (c.setStage p st).straps = c.straps := rfl
@[simp] theorem Chip.setStage_hcu (c : Chip) (p : Port) (st : Stage) : (c.setStage p st).hcu = c.hcu := rfl
@[simp] theorem Chip.setStage_tks (c : Chip) (p : Port) (st : Stage) : (c.setStage p st).tks = c.tks := rfl
@[simp] theorem Chip.setStage_rqc (c : Chip) (p : Port) (st : Stage) : (c.setStage p st).rqc = c.rqc := rfl
@[simp] theorem Chip.setStage_frt (c : Chip) (p : Port) (st : Stage) : (c.setStage p st).frt = c.frt := rfl
@[simp] theorem Chip.setStage_ltu (c : Chip) (p : Port) (st : Stage) : (c.setStage p st).ltu = c.ltu := rfl
@[simp] theorem Chip.setStage_pcs (c : Chip) (p : Port) (st : Stage) : (c.setStage p st).pcs = c.pcs.upd p fun x => { x with current := x.current.map fun k => { k with stage := st } } := rfl
@[simp] theorem Chip.setStage_links (c : Chip) (p : Port) (st : Stage) : (c.setStage p st).links = c.links := rfl
@[simp] theorem Chip.setStage_wires (c : Chip) (p : Port) (st : Stage) : (c.setStage p st).wires = c.wires := rfl

/-! ## taken -/

@[simp] theorem Chip.taken_rst (c : Chip) (p : Port) : (c.taken p).rst = c.rst := rfl
@[simp] theorem Chip.taken_straps (c : Chip) (p : Port) : (c.taken p).straps = c.straps := rfl
@[simp] theorem Chip.taken_hcu (c : Chip) (p : Port) : (c.taken p).hcu = c.hcu := rfl
@[simp] theorem Chip.taken_tks (c : Chip) (p : Port) : (c.taken p).tks = c.tks := rfl
@[simp] theorem Chip.taken_rqc (c : Chip) (p : Port) : (c.taken p).rqc = c.rqc := rfl
@[simp] theorem Chip.taken_frt (c : Chip) (p : Port) : (c.taken p).frt = c.frt := rfl
@[simp] theorem Chip.taken_ltu (c : Chip) (p : Port) : (c.taken p).ltu = c.ltu := rfl
@[simp] theorem Chip.taken_pcs (c : Chip) (p : Port) : (c.taken p).pcs = c.pcs.upd p fun x => { x with current := none } := rfl
@[simp] theorem Chip.taken_links (c : Chip) (p : Port) : (c.taken p).links = c.links := rfl
@[simp] theorem Chip.taken_wires (c : Chip) (p : Port) : (c.taken p).wires = c.wires := rfl

/-! ## finish -/

@[simp] theorem Chip.finish_rst (c : Chip) (p : Port) (tag : Tag) (st : Status) (body : List Word) : (c.finish p tag st body).rst = c.rst := rfl
@[simp] theorem Chip.finish_straps (c : Chip) (p : Port) (tag : Tag) (st : Status) (body : List Word) : (c.finish p tag st body).straps = c.straps := rfl
@[simp] theorem Chip.finish_hcu (c : Chip) (p : Port) (tag : Tag) (st : Status) (body : List Word) : (c.finish p tag st body).hcu = c.hcu := rfl
@[simp] theorem Chip.finish_tks (c : Chip) (p : Port) (tag : Tag) (st : Status) (body : List Word) : (c.finish p tag st body).tks = c.tks := rfl
@[simp] theorem Chip.finish_rqc (c : Chip) (p : Port) (tag : Tag) (st : Status) (body : List Word) : (c.finish p tag st body).rqc = c.rqc := rfl
@[simp] theorem Chip.finish_frt (c : Chip) (p : Port) (tag : Tag) (st : Status) (body : List Word) : (c.finish p tag st body).frt = c.frt := rfl
@[simp] theorem Chip.finish_ltu (c : Chip) (p : Port) (tag : Tag) (st : Status) (body : List Word) : (c.finish p tag st body).ltu = c.ltu := rfl
@[simp] theorem Chip.finish_pcs (c : Chip) (p : Port) (tag : Tag) (st : Status) (body : List Word) : (c.finish p tag st body).pcs = (c.pcs.upd p fun x => { x with current := none }).upd p fun x => x.respond tag st body := rfl
@[simp] theorem Chip.finish_links (c : Chip) (p : Port) (tag : Tag) (st : Status) (body : List Word) : (c.finish p tag st body).links = c.links := rfl
@[simp] theorem Chip.finish_wires (c : Chip) (p : Port) (tag : Tag) (st : Status) (body : List Word) : (c.finish p tag st body).wires = c.wires := rfl

/-! ## dropEvents -/

@[simp] theorem Chip.dropEvents_rst (c : Chip) (p : Port) : (c.dropEvents p).rst = c.rst := rfl
@[simp] theorem Chip.dropEvents_straps (c : Chip) (p : Port) : (c.dropEvents p).straps = c.straps := rfl
@[simp] theorem Chip.dropEvents_hcu (c : Chip) (p : Port) : (c.dropEvents p).hcu = c.hcu := rfl
@[simp] theorem Chip.dropEvents_tks (c : Chip) (p : Port) : (c.dropEvents p).tks = c.tks := rfl
@[simp] theorem Chip.dropEvents_rqc (c : Chip) (p : Port) : (c.dropEvents p).rqc = c.rqc := rfl
@[simp] theorem Chip.dropEvents_frt (c : Chip) (p : Port) : (c.dropEvents p).frt = c.frt := rfl
@[simp] theorem Chip.dropEvents_ltu (c : Chip) (p : Port) : (c.dropEvents p).ltu = c.ltu := rfl
@[simp] theorem Chip.dropEvents_pcs (c : Chip) (p : Port) : (c.dropEvents p).pcs = c.pcs := rfl
@[simp] theorem Chip.dropEvents_links (c : Chip) (p : Port) : (c.dropEvents p).links = c.links := rfl
@[simp] theorem Chip.dropEvents_wires (c : Chip) (p : Port) : (c.dropEvents p).wires = { c.wires with events := c.wires.events.set p [] } := rfl

/-! ## deliver -/

@[simp] theorem Chip.deliver_rst (c : Chip) (o : Option Block) (p : Port) : (c.deliver o p).rst = c.rst := rfl
@[simp] theorem Chip.deliver_straps (c : Chip) (o : Option Block) (p : Port) : (c.deliver o p).straps = c.straps := rfl
@[simp] theorem Chip.deliver_hcu (c : Chip) (o : Option Block) (p : Port) : (c.deliver o p).hcu = c.hcu := rfl
@[simp] theorem Chip.deliver_tks (c : Chip) (o : Option Block) (p : Port) : (c.deliver o p).tks = c.tks := rfl
@[simp] theorem Chip.deliver_rqc (c : Chip) (o : Option Block) (p : Port) : (c.deliver o p).rqc = c.rqc := rfl
@[simp] theorem Chip.deliver_frt (c : Chip) (o : Option Block) (p : Port) : (c.deliver o p).frt = c.frt := rfl
@[simp] theorem Chip.deliver_ltu (c : Chip) (o : Option Block) (p : Port) : (c.deliver o p).ltu = c.ltu := rfl
@[simp] theorem Chip.deliver_pcs (c : Chip) (o : Option Block) (p : Port) : (c.deliver o p).pcs = c.pcs.set p (((c.wires.answers.get p).filter fun a => a.precedes o).foldl (fun x a => x.enqueue a.resp) (c.pc p)) := rfl
@[simp] theorem Chip.deliver_links (c : Chip) (o : Option Block) (p : Port) : (c.deliver o p).links = c.links := rfl
@[simp] theorem Chip.deliver_wires (c : Chip) (o : Option Block) (p : Port) : (c.deliver o p).wires = { c.wires with answers := c.wires.answers.set p ((c.wires.answers.get p).filter fun a => !(a.precedes o)) } := rfl

/-! ## sendAnswer -/

@[simp] theorem Chip.sendAnswer_rst (c : Chip) (o : Option Block) (p : Port) (r : Response) : (c.sendAnswer o p r).rst = c.rst := rfl
@[simp] theorem Chip.sendAnswer_straps (c : Chip) (o : Option Block) (p : Port) (r : Response) : (c.sendAnswer o p r).straps = c.straps := rfl
@[simp] theorem Chip.sendAnswer_hcu (c : Chip) (o : Option Block) (p : Port) (r : Response) : (c.sendAnswer o p r).hcu = c.hcu := rfl
@[simp] theorem Chip.sendAnswer_tks (c : Chip) (o : Option Block) (p : Port) (r : Response) : (c.sendAnswer o p r).tks = c.tks := rfl
@[simp] theorem Chip.sendAnswer_rqc (c : Chip) (o : Option Block) (p : Port) (r : Response) : (c.sendAnswer o p r).rqc = c.rqc := rfl
@[simp] theorem Chip.sendAnswer_frt (c : Chip) (o : Option Block) (p : Port) (r : Response) : (c.sendAnswer o p r).frt = c.frt := rfl
@[simp] theorem Chip.sendAnswer_ltu (c : Chip) (o : Option Block) (p : Port) (r : Response) : (c.sendAnswer o p r).ltu = c.ltu := rfl
@[simp] theorem Chip.sendAnswer_pcs (c : Chip) (o : Option Block) (p : Port) (r : Response) : (c.sendAnswer o p r).pcs = c.pcs := rfl
@[simp] theorem Chip.sendAnswer_links (c : Chip) (o : Option Block) (p : Port) (r : Response) : (c.sendAnswer o p r).links = c.links := rfl
@[simp] theorem Chip.sendAnswer_wires (c : Chip) (o : Option Block) (p : Port) (r : Response) : (c.sendAnswer o p r).wires = { c.wires with answers := c.wires.answers.set p (c.wires.answers.get p ++ [⟨o, r⟩]) } := rfl

/-! ## answer -/

@[simp] theorem Chip.answer_rst (c : Chip) (h : Hand) (o : Option Block) (p : Port) (r : Response) : (c.answer h o p r).rst = c.rst := by cases h <;> rfl
@[simp] theorem Chip.answer_straps (c : Chip) (h : Hand) (o : Option Block) (p : Port) (r : Response) : (c.answer h o p r).straps = c.straps := by cases h <;> rfl
@[simp] theorem Chip.answer_hcu (c : Chip) (h : Hand) (o : Option Block) (p : Port) (r : Response) : (c.answer h o p r).hcu = c.hcu := by cases h <;> rfl
@[simp] theorem Chip.answer_tks (c : Chip) (h : Hand) (o : Option Block) (p : Port) (r : Response) : (c.answer h o p r).tks = c.tks := by cases h <;> rfl
@[simp] theorem Chip.answer_rqc (c : Chip) (h : Hand) (o : Option Block) (p : Port) (r : Response) : (c.answer h o p r).rqc = c.rqc := by cases h <;> rfl
@[simp] theorem Chip.answer_frt (c : Chip) (h : Hand) (o : Option Block) (p : Port) (r : Response) : (c.answer h o p r).frt = c.frt := by cases h <;> rfl
@[simp] theorem Chip.answer_ltu (c : Chip) (h : Hand) (o : Option Block) (p : Port) (r : Response) : (c.answer h o p r).ltu = c.ltu := by cases h <;> rfl
@[simp] theorem Chip.answer_links (c : Chip) (h : Hand) (o : Option Block) (p : Port) (r : Response) : (c.answer h o p r).links = c.links := by cases h <;> rfl

/-! ## advance -/

@[simp] theorem Chip.advance_rst (c : Chip) (b : Block) (p : Port) (k : Current) (st : Stage) : (c.advance b p k st).rst = c.rst := rfl
@[simp] theorem Chip.advance_straps (c : Chip) (b : Block) (p : Port) (k : Current) (st : Stage) : (c.advance b p k st).straps = c.straps := rfl
@[simp] theorem Chip.advance_hcu (c : Chip) (b : Block) (p : Port) (k : Current) (st : Stage) : (c.advance b p k st).hcu = c.hcu := rfl
@[simp] theorem Chip.advance_tks (c : Chip) (b : Block) (p : Port) (k : Current) (st : Stage) : (c.advance b p k st).tks = c.tks := rfl
@[simp] theorem Chip.advance_rqc (c : Chip) (b : Block) (p : Port) (k : Current) (st : Stage) : (c.advance b p k st).rqc = c.rqc := rfl
@[simp] theorem Chip.advance_frt (c : Chip) (b : Block) (p : Port) (k : Current) (st : Stage) : (c.advance b p k st).frt = c.frt := rfl
@[simp] theorem Chip.advance_ltu (c : Chip) (b : Block) (p : Port) (k : Current) (st : Stage) : (c.advance b p k st).ltu = c.ltu := rfl
@[simp] theorem Chip.advance_pcs (c : Chip) (b : Block) (p : Port) (k : Current) (st : Stage) : (c.advance b p k st).pcs = c.pcs.upd p fun x => x.move b k (some { k with stage := st }) := rfl
@[simp] theorem Chip.advance_links (c : Chip) (b : Block) (p : Port) (k : Current) (st : Stage) : (c.advance b p k st).links = c.links := rfl
@[simp] theorem Chip.advance_wires (c : Chip) (b : Block) (p : Port) (k : Current) (st : Stage) : (c.advance b p k st).wires = c.wires := rfl

/-! ## endAt -/

@[simp] theorem Chip.endAt_rst (c : Chip) (b : Block) (p : Port) (k : Current) : (c.endAt b p k).rst = c.rst := rfl
@[simp] theorem Chip.endAt_straps (c : Chip) (b : Block) (p : Port) (k : Current) : (c.endAt b p k).straps = c.straps := rfl
@[simp] theorem Chip.endAt_hcu (c : Chip) (b : Block) (p : Port) (k : Current) : (c.endAt b p k).hcu = c.hcu := rfl
@[simp] theorem Chip.endAt_tks (c : Chip) (b : Block) (p : Port) (k : Current) : (c.endAt b p k).tks = c.tks := rfl
@[simp] theorem Chip.endAt_rqc (c : Chip) (b : Block) (p : Port) (k : Current) : (c.endAt b p k).rqc = c.rqc := rfl
@[simp] theorem Chip.endAt_frt (c : Chip) (b : Block) (p : Port) (k : Current) : (c.endAt b p k).frt = c.frt := rfl
@[simp] theorem Chip.endAt_ltu (c : Chip) (b : Block) (p : Port) (k : Current) : (c.endAt b p k).ltu = c.ltu := rfl
@[simp] theorem Chip.endAt_pcs (c : Chip) (b : Block) (p : Port) (k : Current) : (c.endAt b p k).pcs = c.pcs.upd p fun x => x.move b k none := rfl
@[simp] theorem Chip.endAt_links (c : Chip) (b : Block) (p : Port) (k : Current) : (c.endAt b p k).links = c.links := rfl
@[simp] theorem Chip.endAt_wires (c : Chip) (b : Block) (p : Port) (k : Current) : (c.endAt b p k).wires = c.wires := rfl

/-! ## reply -/

@[simp] theorem Chip.reply_rst (c : Chip) (h : Hand) (b : Block) (p : Port) (k : Current) (st : Status) (body : List Word) (i : Option Handle) : (c.reply h b p k st body i).rst = c.rst := by cases h <;> rfl
@[simp] theorem Chip.reply_straps (c : Chip) (h : Hand) (b : Block) (p : Port) (k : Current) (st : Status) (body : List Word) (i : Option Handle) : (c.reply h b p k st body i).straps = c.straps := by cases h <;> rfl
@[simp] theorem Chip.reply_hcu (c : Chip) (h : Hand) (b : Block) (p : Port) (k : Current) (st : Status) (body : List Word) (i : Option Handle) : (c.reply h b p k st body i).hcu = c.hcu := by cases h <;> rfl
@[simp] theorem Chip.reply_tks (c : Chip) (h : Hand) (b : Block) (p : Port) (k : Current) (st : Status) (body : List Word) (i : Option Handle) : (c.reply h b p k st body i).tks = c.tks := by cases h <;> rfl
@[simp] theorem Chip.reply_rqc (c : Chip) (h : Hand) (b : Block) (p : Port) (k : Current) (st : Status) (body : List Word) (i : Option Handle) : (c.reply h b p k st body i).rqc = c.rqc := by cases h <;> rfl
@[simp] theorem Chip.reply_frt (c : Chip) (h : Hand) (b : Block) (p : Port) (k : Current) (st : Status) (body : List Word) (i : Option Handle) : (c.reply h b p k st body i).frt = c.frt := by cases h <;> rfl
@[simp] theorem Chip.reply_ltu (c : Chip) (h : Hand) (b : Block) (p : Port) (k : Current) (st : Status) (body : List Word) (i : Option Handle) : (c.reply h b p k st body i).ltu = c.ltu := by cases h <;> rfl
@[simp] theorem Chip.reply_links (c : Chip) (h : Hand) (b : Block) (p : Port) (k : Current) (st : Status) (body : List Word) (i : Option Handle) : (c.reply h b p k st body i).links = c.links := by cases h <;> rfl

/-! ## replyCounted -/

@[simp] theorem Chip.replyCounted_rst (c : Chip) (h : Hand) (b : Block) (p : Port) (k : Current) (st : Status) (body : List Word) (i : Option Handle) : (c.replyCounted h b p k st body i).rst = c.rst := by simp [Chip.replyCounted]
@[simp] theorem Chip.replyCounted_straps (c : Chip) (h : Hand) (b : Block) (p : Port) (k : Current) (st : Status) (body : List Word) (i : Option Handle) : (c.replyCounted h b p k st body i).straps = c.straps := by simp [Chip.replyCounted]
@[simp] theorem Chip.replyCounted_tks (c : Chip) (h : Hand) (b : Block) (p : Port) (k : Current) (st : Status) (body : List Word) (i : Option Handle) : (c.replyCounted h b p k st body i).tks = c.tks := by simp [Chip.replyCounted]
@[simp] theorem Chip.replyCounted_rqc (c : Chip) (h : Hand) (b : Block) (p : Port) (k : Current) (st : Status) (body : List Word) (i : Option Handle) : (c.replyCounted h b p k st body i).rqc = c.rqc := by simp [Chip.replyCounted]
@[simp] theorem Chip.replyCounted_frt (c : Chip) (h : Hand) (b : Block) (p : Port) (k : Current) (st : Status) (body : List Word) (i : Option Handle) : (c.replyCounted h b p k st body i).frt = c.frt := by simp [Chip.replyCounted]
@[simp] theorem Chip.replyCounted_ltu (c : Chip) (h : Hand) (b : Block) (p : Port) (k : Current) (st : Status) (body : List Word) (i : Option Handle) : (c.replyCounted h b p k st body i).ltu = c.ltu := by simp [Chip.replyCounted]
@[simp] theorem Chip.replyCounted_links (c : Chip) (h : Hand) (b : Block) (p : Port) (k : Current) (st : Status) (body : List Word) (i : Option Handle) : (c.replyCounted h b p k st body i).links = c.links := by simp [Chip.replyCounted]

end Sys2Proof.Machine
end

