-- ==== Sys2Proof/Laws/Requests.lean ====
section
/-! SUPPORT. What a request row does with the head of an input buffer: the hub after the dispatch, and the claims that follow it. -/

namespace Sys2Proof.Machine

/-! ## Running a command -/

/-- Out of reset a command runs its meaning on the hub. -/
theorem State.run_of_not_rst {s : State} {f : Chip → Chip} (h : s.chip.rst = false) :
    s.run f = .next ⟨s.pending, f s.chip⟩ := by
  simp [State.run, h]

/-- In reset a command of `run` changes nothing. -/
theorem State.run_of_rst {s : State} {f : Chip → Chip} (h : s.chip.rst = true) : s.run f = .next s := by
  simp [State.run, h]

/-- A command of `run` answers a next state with the queue as it stood. -/
theorem State.run_next (s : State) (f : Chip → Chip) : ∃ c, s.run f = .next ⟨s.pending, c⟩ := ⟨_, rfl⟩

/-- Every command answers a next state with the queue as it stood; `run` commands give `f` of the hub, out of reset. -/
theorem State.run_eq_next {s t : State} {f : Chip → Chip} (h : s.run f = .next t) :
    t.pending = s.pending ∧ t.chip = if s.chip.rst then s.chip else f s.chip := by
  unfold State.run at h
  injection h with h
  subst h
  exact ⟨rfl, rfl⟩

/-! ## The Port Controller of a port asked -/

@[simp] theorem Chip.asked_rst (c : Chip) (p x) : (c.asked p x).rst = c.rst := rfl
@[simp] theorem Chip.asked_straps (c : Chip) (p x) : (c.asked p x).straps = c.straps := rfl
@[simp] theorem Chip.asked_hcu (c : Chip) (p x) : (c.asked p x).hcu = c.hcu := rfl
@[simp] theorem Chip.asked_tks (c : Chip) (p x) : (c.asked p x).tks = c.tks := rfl
@[simp] theorem Chip.asked_rqc (c : Chip) (p x) : (c.asked p x).rqc = c.rqc := rfl
@[simp] theorem Chip.asked_frt (c : Chip) (p x) : (c.asked p x).frt = c.frt := rfl
@[simp] theorem Chip.asked_ltu (c : Chip) (p x) : (c.asked p x).ltu = c.ltu := rfl
@[simp] theorem Chip.asked_wires (c : Chip) (p x) : (c.asked p x).wires = c.wires := rfl
@[simp] theorem Chip.asked_pcs (c : Chip) (p x) : (c.asked p x).pcs = c.pcs.set p x := rfl

@[simp] theorem Chip.asked_pc_self (c : Chip) (p x) : (c.asked p x).pc p = x := by simp [Chip.pc]

@[simp] theorem Chip.asked_pc_ne (c : Chip) {p q : Port} (x : Pc) (h : q ≠ p) : (c.asked p x).pc q = c.pc q := by
  simp [Chip.pc, h]

/-- A change of the Port Controller asked. -/
@[simp] theorem Chip.asked_updPc (c : Chip) (p : Port) (x : Pc) (f : Pc → Pc) : (c.asked p x).updPc p f = c.asked p (f x) := by
  simp [Chip.updPc, Chip.asked]

/-- The hub once the head packet of `p`'s buffer has been dispatched as request `k`. -/
def Chip.dispatched (c : Chip) (p : Port) (k : Current) : Chip := c.asked p { (c.pc p).passed with current := some k }

/-- The hub once block `b` has taken that request, as `k`. -/
def Chip.within (c : Chip) (b : Block) (p : Port) (k : Current) : Chip :=
  c.asked p { (c.pc p).passed with atBlock := (c.pc p).atBlock.set b (some k) }

/-- The Port Controller asked differs from the one before in nothing that another block reads: its state, its parameters, its place in leaving. -/
def Pc.alike (x y : Pc) : Prop := y.state = x.state ∧ y.params = x.params ∧ y.leave = x.leave

theorem Chip.asked_pc {c : Chip} {p : Port} {x : Pc} (h : (c.pc p).alike x) (q : Port) : (c.pc q).alike ((c.asked p x).pc q) := by
  by_cases hq : q = p
  · subst hq; simpa using h
  · rw [Chip.asked_pc_ne c x hq]; exact ⟨rfl, rfl, rfl⟩

theorem Chip.asked_attached {c : Chip} {p : Port} {x : Pc} (h : (c.pc p).alike x) (q : Port) :
    (c.asked p x).attached q = c.attached q := by
  simp [Chip.attached, (Chip.asked_pc h q).1]

theorem Chip.asked_rqcAttached {c : Chip} {p : Port} {x : Pc} (h : (c.pc p).alike x) (q : Port) :
    (c.asked p x).rqcAttached q = c.rqcAttached q := by
  simp [Chip.rqcAttached, Chip.asked_attached h]

theorem Chip.asked_room {c : Chip} {p : Port} {x : Pc} (h : (c.pc p).alike x) (q : Port) (b : Bool) :
    (c.asked p x).room q b = c.room q b := by
  unfold Chip.room
  simp only [(Chip.asked_pc h q).2.1]; rfl

@[simp] theorem Chip.dispatched_rst (c : Chip) (p k) : (c.dispatched p k).rst = c.rst := rfl
@[simp] theorem Chip.dispatched_straps (c : Chip) (p k) : (c.dispatched p k).straps = c.straps := rfl
@[simp] theorem Chip.dispatched_hcu (c : Chip) (p k) : (c.dispatched p k).hcu = c.hcu := rfl
@[simp] theorem Chip.dispatched_tks (c : Chip) (p k) : (c.dispatched p k).tks = c.tks := rfl
@[simp] theorem Chip.dispatched_rqc (c : Chip) (p k) : (c.dispatched p k).rqc = c.rqc := rfl
@[simp] theorem Chip.dispatched_frt (c : Chip) (p k) : (c.dispatched p k).frt = c.frt := rfl
@[simp] theorem Chip.dispatched_ltu (c : Chip) (p k) : (c.dispatched p k).ltu = c.ltu := rfl
@[simp] theorem Chip.dispatched_wires (c : Chip) (p k) : (c.dispatched p k).wires = c.wires := rfl

@[simp] theorem Chip.dispatched_current (c : Chip) (p k) : ((c.dispatched p k).pc p).current = some k := by
  simp [Chip.dispatched]

@[simp] theorem Chip.dispatched_atBlock (c : Chip) (p k) : ((c.dispatched p k).pc p).atBlock = (c.pc p).atBlock := by
  simp [Chip.dispatched, Pc.passed]

@[simp] theorem Chip.dispatched_attached (c : Chip) (p k q) : (c.dispatched p k).attached q = c.attached q :=
  Chip.asked_attached (by exact ⟨rfl, rfl, rfl⟩) q

@[simp] theorem Chip.dispatched_rqcAttached (c : Chip) (p k q) : (c.dispatched p k).rqcAttached q = c.rqcAttached q :=
  Chip.asked_rqcAttached (by exact ⟨rfl, rfl, rfl⟩) q

@[simp] theorem Chip.dispatched_room (c : Chip) (p k q b) : (c.dispatched p k).room q b = c.room q b :=
  Chip.asked_room (by exact ⟨rfl, rfl, rfl⟩) q b

/-- The request that a Port Controller has dispatched goes on there. -/
@[simp] theorem Chip.dispatched_setStage (c : Chip) (p : Port) (k : Current) (st : Stage) :
    (c.dispatched p k).setStage p st = c.dispatched p { k with stage := st } := by
  simp [Chip.setStage, Chip.dispatched]

@[simp] theorem Chip.within_rst (c : Chip) (b p k) : (c.within b p k).rst = c.rst := rfl
@[simp] theorem Chip.within_straps (c : Chip) (b p k) : (c.within b p k).straps = c.straps := rfl
@[simp] theorem Chip.within_hcu (c : Chip) (b p k) : (c.within b p k).hcu = c.hcu := rfl
@[simp] theorem Chip.within_tks (c : Chip) (b p k) : (c.within b p k).tks = c.tks := rfl
@[simp] theorem Chip.within_rqc (c : Chip) (b p k) : (c.within b p k).rqc = c.rqc := rfl
@[simp] theorem Chip.within_frt (c : Chip) (b p k) : (c.within b p k).frt = c.frt := rfl
@[simp] theorem Chip.within_ltu (c : Chip) (b p k) : (c.within b p k).ltu = c.ltu := rfl
@[simp] theorem Chip.within_wires (c : Chip) (b p k) : (c.within b p k).wires = c.wires := rfl

@[simp] theorem Chip.within_atBlock (c : Chip) (b p k) : ((c.within b p k).pc p).atBlock.get b = some k := by
  simp [Chip.within]

@[simp] theorem Chip.within_attached (c : Chip) (b p k q) : (c.within b p k).attached q = c.attached q :=
  Chip.asked_attached (by exact ⟨rfl, rfl, rfl⟩) q

@[simp] theorem Chip.within_rqcAttached (c : Chip) (b p k q) : (c.within b p k).rqcAttached q = c.rqcAttached q :=
  Chip.asked_rqcAttached (by exact ⟨rfl, rfl, rfl⟩) q

@[simp] theorem Chip.within_room (c : Chip) (b p k q x) : (c.within b p k).room q x = c.room q x :=
  Chip.asked_room (by exact ⟨rfl, rfl, rfl⟩) q x

/-- The credit handed over by the dispatch of a ready head, as `addCredits` hands it over. -/
theorem Chip.asked_eq (c : Chip) (p : Port) (x : Pc) :
    c.asked p x = { c with pcs := c.pcs.set p x, links := c.links.set p ((c.link p).addCredits 1) } := rfl

/-! ## A ready port -/

section ready
variable {c : Chip} {p : Port} {m : Packet} {r : Req}

/-- A ready port has no request dispatched that is not taken. -/
theorem Chip.ready.current (h : c.ready p m r) : (c.pc p).current = none := by
  have := h.2.1
  simp [Pc.mayDispatch] at this
  exact this.1.1.1.2

theorem Chip.ready.leave (h : c.ready p m r) : (c.pc p).leave = .no := by
  have := h.2.1
  simp [Pc.mayDispatch] at this
  exact this.1.1.1.1.2

theorem Chip.ready.atBlock (h : c.ready p m r) {b : Block} (hb : r.block = some b) : (c.pc p).atBlock.get b = none :=
  (h.2.2.2.2.1 b hb).1

theorem Chip.ready.quiet (h : c.ready p m r) {b : Block} (hb : r.block = some b) : c.quiet b p := (h.2.2.2.2.1 b hb).2

theorem Chip.ready.keepsWaiting (h : c.ready p m r) : (c.pc p).keepsWaiting r = false := h.2.2.2.2.2

theorem Pc.with_current_none {x : Pc} (h : x.current = none) : { x with current := none } = x := by
  cases x; simp only at h; subst h; rfl

/-- Dispatch of a ready head by its own row, for a request its block or its Port Controller takes as it stands. -/
theorem Chip.dispatchHead_ready (h : c.ready p m r) (hh : (c.pc p).passed.hand m.tag r = { (c.pc p).passed with current := some ⟨m.tag, r, .given⟩ }) :
    c.dispatchHead r.row p = c.dispatched p ⟨m.tag, r, .given⟩ := by
  obtain ⟨_, hm, hb, hd, _⟩ := h
  unfold Chip.dispatchHead
  cases hbuf : (c.pc p).buffer with
  | nil => simp [hbuf] at hb
  | cons k' rest =>
    simp [hbuf] at hb
    subst hb
    have ht : r.row.takes k' = true := by simp [ReqRow.takes, hd]
    have hp : (c.pc p).passed = { c.pc p with buffer := (c.pc p).buffer.tail, granted := (c.pc p).granted + 1, reserved := (c.pc p).reserved + 1 } :=
      rfl
    simp only [hm, ht, Bool.and_self, if_true]
    rw [Chip.dispatched, ← hh, Chip.asked_eq, hp]
    simp [Chip.updPc, Chip.updLink, Pc.dispatch, hd, Chip.pc, Chip.link]

/-- Dispatch of a ready QUERY HUB or QUERY PORT by its own row: the Port Controller takes it and has a gather to make. -/
theorem Chip.dispatchHead_gather (h : c.ready p m r) {g : Gather}
    (hh : (c.pc p).passed.hand m.tag r = { (c.pc p).passed with gathers := (c.pc p).gathers ++ [g] }) :
    c.dispatchHead r.row p = c.asked p { (c.pc p).passed with gathers := (c.pc p).gathers ++ [g] } := by
  obtain ⟨_, hm, hb, hd, _⟩ := h
  unfold Chip.dispatchHead
  cases hbuf : (c.pc p).buffer with
  | nil => simp [hbuf] at hb
  | cons k' rest =>
    simp [hbuf] at hb
    subst hb
    have ht : r.row.takes k' = true := by simp [ReqRow.takes, hd]
    have hp : (c.pc p).passed = { c.pc p with buffer := (c.pc p).buffer.tail, granted := (c.pc p).granted + 1, reserved := (c.pc p).reserved + 1 } :=
      rfl
    simp only [hm, ht, Bool.and_self, if_true]
    rw [← hh, Chip.asked_eq, hp]
    simp [Chip.updPc, Chip.updLink, Pc.dispatch, hd, Chip.pc, Chip.link]

end ready

/-! ## The claims of a block -/

/-- Claims that change nothing. -/
theorem repeatClaim_fixed {f : Chip → Chip} {c : Chip} (h : f c = c) : ∀ n, repeatClaim n f c = c
  | 0 => rfl
  | n + 1 => by rw [repeatClaim, h]; exact repeatClaim_fixed h n

/-- One claim, and then the rest. -/
theorem repeatClaim_succ (n : Nat) (f : Chip → Chip) (c : Chip) : repeatClaim (n + 1) f c = repeatClaim n f (f c) := rfl

/-- A block with no request of the port goes on with none. -/
theorem Chip.goOn_none {c : Chip} {row : ReqRow} {b : Block} {p : Port} {f : Current → Chip → Chip}
    (h : (c.pc p).atBlock.get b = none) : c.goOn row b p f = c := by
  simp [Chip.goOn, h]

/-- A block goes on with the request it has taken, when the row is its own. -/
theorem Chip.goOn_some {c : Chip} {row : ReqRow} {b : Block} {p : Port} {f : Current → Chip → Chip} {k : Current}
    (h : (c.pc p).atBlock.get b = some k) (hr : k.req.row = row) : c.goOn row b p f = f k c := by
  simp [Chip.goOn, h, hr]

/-- A row goes on with no request of another row. -/
theorem Chip.goOn_other {c : Chip} {row : ReqRow} {b : Block} {p : Port} {f : Current → Chip → Chip} {k : Current}
    (h : (c.pc p).atBlock.get b = some k) (hr : k.req.row ≠ row) : c.goOn row b p f = c := by
  simp [Chip.goOn, h, hr]

/-- The rest of the claims once the block has ended the request. -/
theorem repeat_goOn_none {c : Chip} {row : ReqRow} {b : Block} {p : Port} {f : Current → Chip → Chip}
    (h : (c.pc p).atBlock.get b = none) (n : Nat) : repeatClaim n (fun c => c.goOn row b p f) c = c :=
  repeatClaim_fixed (Chip.goOn_none h) n

/-- The next claim on a request within its block. -/
theorem repeat_goOn_within {c : Chip} {b : Block} {p : Port} {f : Current → Chip → Chip} {k : Current} (n : Nat) :
    repeatClaim (n + 1) (fun c => c.goOn k.req.row b p f) (c.within b p k) =
      repeatClaim n (fun c => c.goOn k.req.row b p f) (f k (c.within b p k)) := by
  rw [repeatClaim_succ, Chip.goOn_some (Chip.within_atBlock c b p k) rfl]

section taken
variable {c : Chip} {p : Port} {m : Packet} {r : Req} {b : Block}

/-- A request row of a block that takes a ready head whole: the dispatch, its first claim, and the rest. -/
theorem Chip.runRequest_ready (h : c.ready p m r) (hb : r.block = some b) (n : Nat) (f : Hand → Current → Chip → Chip) :
    c.runRequest r.row b p .whole n f =
      repeatClaim n (fun c => c.goOn r.row b p (f .now)) (f .now ⟨m.tag, r, .given⟩ (c.dispatched p ⟨m.tag, r, .given⟩)) := by
  have hd : c.dispatchHead r.row p = c.dispatched p ⟨m.tag, r, .given⟩ := by
    refine Chip.dispatchHead_ready h ?_
    cases r <;> first | rfl | cases hb
  have hw : ((c.dispatched p ⟨m.tag, r, .given⟩).pc p).keepsWaiting r = false := by
    rw [← h.keepsWaiting]
    simp only [Chip.dispatched, Chip.asked_pc_self]; rfl
  simp [Chip.runRequest, Chip.nextClaim, h.atBlock hb, hd, Chip.takeUp, hw]

/-- A claim that takes the request dispatched on to its next claim. -/
theorem Chip.dispatched_advance (h : c.ready p m r) (st : Stage) :
    (c.dispatched p ⟨m.tag, r, .given⟩).advance b p ⟨m.tag, r, .given⟩ st = c.within b p ⟨m.tag, r, st⟩ := by
  have hc := h.current
  simp [Chip.advance, Chip.dispatched, Chip.within, Pc.move, Pc.passed, hc]

/-- A claim that takes a request within its block on to the next. -/
theorem Chip.within_advance (h : c.ready p m r) (st st' : Stage) :
    (c.within b p ⟨m.tag, r, st⟩).advance b p ⟨m.tag, r, st⟩ st' = c.within b p ⟨m.tag, r, st'⟩ := by
  have hc := h.current
  simp [Chip.advance, Chip.within, Pc.move, Pc.passed, hc]

/-- The Port Controller of a ready port once its request has come to block `b` and is there no more. -/
theorem Chip.move_of_ready (h : c.ready p m r) (hb : r.block = some b) {d : Chip} {st : Stage}
    (hd : d.pcs = (c.dispatched p ⟨m.tag, r, st⟩).pcs ∧ st = .given ∨ d.pcs = (c.within b p ⟨m.tag, r, st⟩).pcs) :
    (d.pc p).move b ⟨m.tag, r, st⟩ none = (c.pc p).passed := by
  have hc := h.current
  have ha : ((c.pc p).atBlock.set b none) = (c.pc p).atBlock := PerBlock.set_same (h.atBlock hb)
  rcases hd with ⟨hd, rfl⟩ | hd
  · simp [Chip.pc, hd, Chip.dispatched, Pc.move, Pc.passed]
    simp only [Chip.pc] at ha hc
    simp [ha, hc]
  · simp [Chip.pc, hd, Chip.within, Pc.move, Pc.passed]
    simp only [Chip.pc] at ha hc
    simp [ha, hc]

theorem Chip.set_of_ready {d : Chip} {st : Stage}
    (hd : d.pcs = (c.dispatched p ⟨m.tag, r, st⟩).pcs ∧ st = .given ∨ d.pcs = (c.within b p ⟨m.tag, r, st⟩).pcs) (x : Pc) :
    d.pcs.set p x = c.pcs.set p x := by
  rcases hd with ⟨hd, rfl⟩ | hd <;> simp [hd, Chip.dispatched, Chip.within]

/-- A block ends, without an answer, a request of a ready port, whatever its claims did to the rest of the hub. -/
theorem Chip.endAt_of_ready (h : c.ready p m r) (hb : r.block = some b) {d : Chip} {st : Stage}
    (hd : d.pcs = (c.dispatched p ⟨m.tag, r, st⟩).pcs ∧ st = .given ∨ d.pcs = (c.within b p ⟨m.tag, r, st⟩).pcs) :
    d.endAt b p ⟨m.tag, r, st⟩ = { d with pcs := c.pcs.set p (c.pc p).passed } := by
  have hm := Chip.move_of_ready h hb hd
  rw [← hm, ← Chip.set_of_ready hd]
  simp [Chip.endAt, Chip.updPc, Chip.pc]

end taken

/-! ## Answers -/

/-- A quiet port has no answer on its way that comes before the block's answer of any request. -/
theorem Chip.quiet.precedes {c : Chip} {b : Block} {p : Port} (h : c.quiet b p) (r : Req) :
    ∀ a ∈ c.wires.answers.get p, a.precedes (r.order b) = false := by
  intro a ha
  have hb := h a ha
  have hs : a.precedes (some b) = false := by simpa [Answer.precedes] using hb
  cases r <;> first | exact hs | rfl

/-- With no answer on its way that comes before, those due are delivered already. -/
theorem Chip.deliver_quiet {c : Chip} {o : Option Block} {p : Port} (h : ∀ a ∈ c.wires.answers.get p, a.precedes o = false) :
    c.deliver o p = c := by
  have h1 : ((c.wires.answers.get p).filter fun a => !(a.precedes o)) = c.wires.answers.get p :=
    List.filter_eq_self.mpr fun a ha => by simp [h a ha]
  have h2 : ((c.wires.answers.get p).filter fun a => a.precedes o) = [] :=
    List.filter_eq_nil_iff.mpr fun a ha => by simp [h a ha]
  apply Chip.ext_fields <;> simp [h1, h2, Chip.pc]

/-- An answer the Port Controller takes at once. -/
theorem Chip.answer_now {c : Chip} {o : Option Block} {p : Port} (h : ∀ a ∈ c.wires.answers.get p, a.precedes o = false)
    (r : Response) : c.answer .now o p r = { c with pcs := c.pcs.set p ((c.pc p).enqueue r) } := by
  simp [Chip.answer, Chip.deliver_quiet h, Chip.updPc, Chip.pc]

/-- A block ends and answers a request, the Port Controller taking the answer at once. -/
theorem Chip.reply_now {c : Chip} {b : Block} {p : Port} {k : Current}
    (h : ∀ a ∈ c.wires.answers.get p, a.precedes (k.req.order b) = false) (st : Status) (body : List Word) (i : Option Handle) :
    c.reply .now b p k st body i =
      { c with pcs := c.pcs.set p (((c.pc p).move b k none).enqueue ⟨k.tag, st, body, i⟩) } := by
  have hq : ∀ a ∈ (c.endAt b p k).wires.answers.get p, a.precedes (k.req.order b) = false := h
  rw [Chip.reply, Chip.answer_now hq]
  simp [Chip.endAt, Chip.updPc, Chip.pc]

/-! ## The response claim -/

/-- The first answer of a tag, behind answers of other tags. -/
theorem nextAnswer_of_split {tag : Tag} {before after : List Answer} {a : Answer} (ht : a.resp.tag = tag)
    (h : ∀ x ∈ before, x.resp.tag ≠ tag) :
    nextAnswer tag (before ++ a :: after) = (if before.any fun x => x.precedes a.order then none else some a) ∧
      (before ++ a :: after).eraseP (fun x => x.resp.tag == tag) = before ++ after := by
  have hf : (before ++ a :: after).find? (fun x => x.resp.tag == tag) = some a := by
    rw [List.find?_append, List.find?_eq_none.mpr (fun x hx => by simpa using h x hx)]
    simp [ht]
  have hw : (before ++ a :: after).takeWhile (fun x => x.resp.tag != tag) = before := by
    rw [List.takeWhile_append_of_pos (fun x hx => by simpa using h x hx)]
    simp [ht]
  refine ⟨by simp only [nextAnswer, hf, hw], ?_⟩
  rw [List.eraseP_append_right _ (fun x hx => by simpa using h x hx)]
  simp [ht]

/-- With no answer of the tag on its way there is nothing to take. -/
theorem takeAnswer_none {c : Chip} {p : Port} {tag : Tag} (h : ∀ a ∈ c.wires.answers.get p, a.resp.tag ≠ tag) :
    takeAnswer p tag c = c := by
  unfold takeAnswer nextAnswer
  rw [List.find?_eq_none.mpr fun a ha => by simpa using h a ha]

/-- An answer waits for an earlier one of the same block. -/
theorem takeAnswer_waits {c : Chip} {p : Port} {before after : List Answer} {a x : Answer}
    (hw : c.wires.answers.get p = before ++ a :: after) (h : ∀ x ∈ before, x.resp.tag ≠ a.resp.tag) (hx : x ∈ before)
    (ho : x.precedes a.order = true) : takeAnswer p a.resp.tag c = c := by
  have hany : before.any (fun x => x.precedes a.order) = true := List.any_eq_true.mpr ⟨x, hx, ho⟩
  unfold takeAnswer
  rw [hw, (nextAnswer_of_split rfl h).1, hany]
  rfl

/-- An answer that none on its way comes before is taken, the others staying on their way. -/
theorem takeAnswer_next {c : Chip} {p : Port} {before after : List Answer} {a : Answer}
    (hw : c.wires.answers.get p = before ++ a :: after) (h : ∀ x ∈ before, x.resp.tag ≠ a.resp.tag)
    (ho : ∀ x ∈ before, x.precedes a.order = false) :
    takeAnswer p a.resp.tag c =
      { c with
        pcs := c.pcs.set p ((c.pc p).enqueue a.resp)
        wires := { c.wires with answers := c.wires.answers.set p (before ++ after) } } := by
  have hany : before.any (fun x => x.precedes a.order) = false := List.any_eq_false.mpr fun x hx => by simp [ho x hx]
  unfold takeAnswer
  rw [hw, (nextAnswer_of_split rfl h).1, hany]
  simp [Chip.updPc, Chip.pc, hw, (nextAnswer_of_split rfl h).2]

/-- An answer sent on its way and taken next comes to the same as one taken at once. -/
theorem takeAnswer_answer {c : Chip} {o : Option Block} {p : Port} {r : Response}
    (h : ∀ a ∈ c.wires.answers.get p, a.precedes o = false) (ht : ∀ a ∈ c.wires.answers.get p, a.resp.tag ≠ r.tag) :
    takeAnswer p r.tag (c.answer .later o p r) = c.answer .now o p r := by
  have hw : (c.answer .later o p r).wires.answers.get p = c.wires.answers.get p ++ ⟨o, r⟩ :: [] := by
    simp [Chip.answer, Chip.sendAnswer]
  rw [Chip.answer_now h, takeAnswer_next (a := ⟨o, r⟩) hw ht h]
  simp [Chip.answer, Chip.sendAnswer, Chip.pc]

/-- The same of the answer a claim ends with. -/
theorem takeAnswer_reply {c : Chip} {b : Block} {p : Port} {k : Current}
    (h : ∀ a ∈ c.wires.answers.get p, a.precedes (k.req.order b) = false) (ht : ∀ a ∈ c.wires.answers.get p, a.resp.tag ≠ k.tag) (st : Status) (body : List Word) (i : Option Handle) :
    takeAnswer p k.tag (c.reply .later b p k st body i) = c.reply .now b p k st body i :=
  takeAnswer_answer (c := c.endAt b p k) (r := ⟨k.tag, st, body, i⟩) h ht

/-- The Port Controller answers a request it has dispatched itself. -/
theorem Chip.finish_eq (c : Chip) (p : Port) (tag : Tag) (st : Status) (body : List Word) :
    c.finish p tag st body = { c with pcs := c.pcs.set p ({ c.pc p with current := none }.respond tag st body) } := by
  simp [Chip.finish, Chip.taken, Chip.respond, Chip.updPc, Chip.pc]

section answered
variable {c : Chip} {p : Port} {m : Packet} {r : Req} {b : Block}

/-- A block answers a request of a ready port, whatever its claims did to the rest of the hub. -/
theorem Chip.reply_of_ready (h : c.ready p m r) (hb : r.block = some b) {d : Chip} {st : Stage}
    (hd : d.pcs = (c.dispatched p ⟨m.tag, r, st⟩).pcs ∧ st = .given ∨ d.pcs = (c.within b p ⟨m.tag, r, st⟩).pcs)
    (ha : d.wires.answers = c.wires.answers) (status : Status) (body : List Word) (i : Option Handle := none) :
    d.reply .now b p ⟨m.tag, r, st⟩ status body i =
      { d with pcs := c.pcs.set p ((c.pc p).served m.tag status body i) } := by
  have hq : d.quiet b p := by
    unfold Chip.quiet
    rw [ha]; exact h.quiet hb
  rw [Chip.reply_now (hq.precedes r), Chip.move_of_ready h hb hd, Chip.set_of_ready hd]
  rfl

/-- A request answered at its first claim. -/
theorem Chip.dispatched_reply (h : c.ready p m r) (hb : r.block = some b) (status : Status) (body : List Word)
    (i : Option Handle := none) :
    (c.dispatched p ⟨m.tag, r, .given⟩).reply .now b p ⟨m.tag, r, .given⟩ status body i = c.answered p m.tag status body i := by
  exact Chip.reply_of_ready h hb (.inl ⟨rfl, rfl⟩) rfl status body i

/-- A request answered within its block. -/
theorem Chip.within_reply (h : c.ready p m r) (hb : r.block = some b) (st : Stage) (status : Status) (body : List Word)
    (i : Option Handle := none) :
    (c.within b p ⟨m.tag, r, st⟩).reply .now b p ⟨m.tag, r, st⟩ status body i = c.answered p m.tag status body i := by
  exact Chip.reply_of_ready h hb (.inr rfl) rfl status body i

/-- A request its block ends without an answer. -/
theorem Chip.within_endAt (h : c.ready p m r) (hb : r.block = some b) (st : Stage) :
    (c.within b p ⟨m.tag, r, st⟩).endAt b p ⟨m.tag, r, st⟩ = c.passed p := by
  rw [Chip.endAt_of_ready h hb (.inr rfl)]; rfl

/-- A request the Port Controller answers itself. -/
theorem Chip.dispatched_finish (h : c.ready p m r) (k : Current) (status : Status) (body : List Word) :
    (c.dispatched p k).finish p m.tag status body = c.answered p m.tag status body := by
  have hc := h.current
  simp [Chip.finish, Chip.taken, Chip.respond, Chip.dispatched, Chip.answered, Pc.respond, Pc.enqueue, Pc.served, Pc.passed, hc]

/-- An answered request is within no block. -/
theorem Chip.answered_atBlock (h : c.ready p m r) (hb : r.block = some b) (tag st body i) :
    ((c.answered p tag st body i).pc p).atBlock.get b = none := by
  simp only [Chip.answered, Chip.asked_pc_self]
  exact h.atBlock hb

theorem Chip.passed_atBlock (h : c.ready p m r) (hb : r.block = some b) : ((c.passed p).pc p).atBlock.get b = none := by
  simp only [Chip.passed, Chip.asked_pc_self]
  exact h.atBlock hb

end answered

end Sys2Proof.Machine
end

