-- ==== Sys2Proof/Laws/Exec.lean ====
section
/-! SUPPORT. What a command does to the hub out of reset, in groups: the requests a block takes, those the Port Controller takes, the commands of one Link Engine, and the others. -/

namespace Sys2Proof.Machine

/-- What the command of a request that a block takes does: its block, its port, its extent, the claims after its first, its claim. -/
def requestRun : Instr → Option (ReqRow × Block × Port × Extent × Nat × (Hand → Current → Chip → Chip))
  | .push p e => some (.push, .rqc, p, e, 7, pushClaim p)
  | .pop p e => some (.pop, .rqc, p, e, 1, popClaim p)
  | .complete p e => some (.complete, .ltu, p, e, 2, completeClaim p)
  | .renew p e => some (.renew, .ltu, p, e, 2, renewClaim p)
  | .yield p e => some (.yield, .ltu, p, e, 2, yieldClaim p)
  | .openFrame p e => some (.openFrame, .frt, p, e, 4, openClaim p)
  | .closeFrame p e => some (.closeFrame, .frt, p, e, 2, closeClaim p)
  | .cancelFrame p e => some (.cancelFrame, .frt, p, e, 2, cancelClaim p)
  | .queryFrame p e => some (.queryFrame, .frt, p, e, 0, queryFrameClaim p)
  | .queryTicket p e => some (.queryTicket, .tks, p, e, 0, queryTicketClaim p)
  | .configureGlobal p e => some (.configureGlobal, .hcu, p, e, 0, configureGlobalClaim p)
  | .start p e => some (.start, .hcu, p, e, 0, startClaim p)
  | .quiesce p e => some (.quiesce, .hcu, p, e, 0, quiesceClaim p)
  | _ => none

/-- What the command of a request that the Port Controller takes, and gathers nothing for, does. -/
def ownRun : Instr → Option (ReqRow × Port × (Chip → Chip))
  | .fetchEvents p => some (.fetchEvents, p, fetchClaim p)
  | .configurePort p => some (.configurePort, p, configurePortClaim p)
  | .attach p => some (.attach, p, attachClaim p)
  | .detach p => some (.detach, p, detachClaim p)
  | .nopEcho p => some (.nopEcho, p, echoClaim p)
  | _ => none

/-- What the command of a QUERY HUB or QUERY PORT does: which of the two it is, its parts, its gathering. -/
def gatherRun : Instr → Option (ReqRow × Port × Bool × List QueryPart × Gathering)
  | .queryHub p g => some (.queryHub, p, true, hubParts, g)
  | .queryPort p g => some (.queryPort, p, false, portParts, g)
  | _ => none

/-- What a command of the task link does to its port's Link Engine. -/
def linkRun : Instr → Option (Port × (Link → Link))
  | .holdOffExpiry p => some (p, Link.endHoldOff)
  | .trainReceived p unit => some (p, fun l => l.receive (sortUnit unit))
  | .trainSent p => some (p, Link.sendTrain)
  | .transmitUnit p => some (p, Link.transmit)
  | .startReceived p seq => some (p, fun l => l.receive (.start seq))
  | .dataWordReceived p w => some (p, fun l => l.receive (.data w))
  | .endReceived p => some (p, fun l => l.receive .stop)
  | .damagedUnitReceived p unit => some (p, fun l => l.receive (sortUnit unit))
  | .ackReceived p seq => some (p, fun l => l.receive (.ack seq))
  | .nakReceived p seq => some (p, fun l => l.receive (.nak seq))
  | .creditReceived p n => some (p, fun l => l.receive (.credit n))
  | .idleReceived p => some (p, fun l => l.receive .idle)
  | .trainReceivedInUp p => some (p, fun l => l.receive .train)
  | .replayTimerExpiry p => some (p, Link.expireReplay)
  | .silenceTimeout p => some (p, Link.expireSilence)
  | _ => none

/-- What a command other than those of RST_N does to a hub out of reset. -/
def effect : Instr → Chip → Chip
  | .push p e => fun c => c.runRequest .push .rqc p e 7 (pushClaim p)
  | .pop p e => fun c => c.runRequest .pop .rqc p e 1 (popClaim p)
  | .take => takeHandOver
  | .complete p e => fun c => c.runRequest .complete .ltu p e 2 (completeClaim p)
  | .renew p e => fun c => c.runRequest .renew .ltu p e 2 (renewClaim p)
  | .yield p e => fun c => c.runRequest .yield .ltu p e 2 (yieldClaim p)
  | .openFrame p e => fun c => c.runRequest .openFrame .frt p e 4 (openClaim p)
  | .closeFrame p e => fun c => c.runRequest .closeFrame .frt p e 2 (closeClaim p)
  | .cancelFrame p e => fun c => c.runRequest .cancelFrame .frt p e 2 (cancelClaim p)
  | .queryHub p g => fun c => c.runGather .queryHub p true hubParts g
  | .queryPort p g => fun c => c.runGather .queryPort p false portParts g
  | .queryFrame p e => fun c => c.runRequest .queryFrame .frt p e 0 (queryFrameClaim p)
  | .queryTicket p e => fun c => c.runRequest .queryTicket .tks p e 0 (queryTicketClaim p)
  | .fetchEvents p => fun c => c.runOwn .fetchEvents p (fetchClaim p)
  | .configureGlobal p e => fun c => c.runRequest .configureGlobal .hcu p e 0 (configureGlobalClaim p)
  | .configurePort p => fun c => c.runOwn .configurePort p (configurePortClaim p)
  | .attach p => fun c => c.runOwn .attach p (attachClaim p)
  | .attachNoticeRqc p => takeAttachRqc p
  | .attachNoticeLtu p => takeAttachLtu p
  | .detach p => fun c => c.runOwn .detach p (detachClaim p)
  | .holdCheck p => takeHoldCheck p
  | .portLeaveClaim p => takePortLeave p
  | .detachEnd p => takeDetachEnd p
  | .start p e => fun c => c.runRequest .start .hcu p e 0 (startClaim p)
  | .quiesce p e => fun c => c.runRequest .quiesce .hcu p e 0 (quiesceClaim p)
  | .nopEcho p => fun c => c.runOwn .nopEcho p (echoClaim p)
  | .requestArrival p => takeArrival p
  | .sendResponse (.head p) => takeSend p
  | .sendResponse (.claim p tag) => takeAnswer p tag
  | .receivedCredit p => takeCredit p
  | .place src => takePlace src
  | .requeue => takeRequeue
  | .retire src => takeRetire src
  | .childEnd => takeChildEnd
  | .cancelWalkStep => takeWalkStep
  | .cancelWalkEnd => takeWalkEnd
  | .stealableOn p => takeStealableOn p
  | .stealEnableOn p => takeStealEnableOn p
  | .leaseExpiry slot => takeLeaseExpiry slot
  | .parkTimeout p tag => takeParkTimeout p tag
  | .pendingEventRecord p kind => takeEvent p kind
  | .linkUpReport p => takeLinkUp p
  | .portLoss p => takePortLoss p
  | .portLossClaimLtu p => takeLossClaim p
  | .portLossEnd p => takePortLossEnd p
  | .frtPortLossNotice p => takeFrtNotice p
  | .linkDownFromLinked p => takeLinkDown p
  | .completionCheck => takeCheck
  | .quiesceCompletion => takeCompletion
  | .setupNotice => takeSetupNotice
  | .tick => takeTick
  | .holdOffExpiry p => fun c => c.updLink p Link.endHoldOff
  | .trainReceived p unit => fun c => c.updLink p (fun l => l.receive (sortUnit unit))
  | .trainSent p => fun c => c.updLink p Link.sendTrain
  | .transmitUnit p => fun c => c.updLink p Link.transmit
  | .startReceived p seq => fun c => c.updLink p (fun l => l.receive (.start seq))
  | .dataWordReceived p w => fun c => c.updLink p (fun l => l.receive (.data w))
  | .endReceived p => fun c => c.updLink p (fun l => l.receive .stop)
  | .damagedUnitReceived p unit => fun c => c.updLink p (fun l => l.receive (sortUnit unit))
  | .ackReceived p seq => fun c => c.updLink p (fun l => l.receive (.ack seq))
  | .nakReceived p seq => fun c => c.updLink p (fun l => l.receive (.nak seq))
  | .creditReceived p n => fun c => c.updLink p (fun l => l.receive (.credit n))
  | .idleReceived p => fun c => c.updLink p (fun l => l.receive .idle)
  | .trainReceivedInUp p => fun c => c.updLink p (fun l => l.receive .train)
  | .replayTimerExpiry p => fun c => c.updLink p Link.expireReplay
  | .silenceTimeout p => fun c => c.updLink p Link.expireSilence
  | .storedWordDisturbance slot place w => fun c => c.updTicket slot fun t => t.disturb place w
  | .rstNAssert => id
  | .rstNDeassert _ => id

/-- A command other than those of RST_N runs its effect. -/
theorem exec_eq_run (i : Instr) (s : State) (h1 : i ≠ .rstNAssert) (h2 : ∀ straps, i ≠ .rstNDeassert straps) :
    exec i s = s.run (effect i) := by
  cases i <;> first | rfl | exact absurd rfl h1 | exact absurd rfl (h2 _) | (rename_i b; cases b <;> rfl)

/-- The effect of a request that a block takes. -/
theorem effect_of_requestRun {i : Instr} {row : ReqRow} {b : Block} {p : Port} {e : Extent} {n : Nat} {f : Hand → Current → Chip → Chip}
    (h : requestRun i = some (row, b, p, e, n, f)) : effect i = fun c => c.runRequest row b p e n f := by
  cases i <;> simp only [requestRun, Option.some.injEq, Prod.mk.injEq, reduceCtorEq] at h <;>
    (obtain ⟨rfl, rfl, rfl, rfl, rfl, rfl⟩ := h; rfl)

/-- The effect of a request that the Port Controller takes. -/
theorem effect_of_ownRun {i : Instr} {row : ReqRow} {p : Port} {f : Chip → Chip} (h : ownRun i = some (row, p, f)) :
    effect i = fun c => c.runOwn row p f := by
  cases i <;> simp only [ownRun, Option.some.injEq, Prod.mk.injEq, reduceCtorEq] at h <;> (obtain ⟨rfl, rfl, rfl⟩ := h; rfl)

/-- The effect of a QUERY HUB or QUERY PORT. -/
theorem effect_of_gatherRun {i : Instr} {row : ReqRow} {p : Port} {hub : Bool} {parts : List QueryPart} {g : Gathering}
    (h : gatherRun i = some (row, p, hub, parts, g)) : effect i = fun c => c.runGather row p hub parts g := by
  cases i <;> simp only [gatherRun, Option.some.injEq, Prod.mk.injEq, reduceCtorEq] at h <;>
    (obtain ⟨rfl, rfl, rfl, rfl, rfl⟩ := h; rfl)

/-- Every request row is of one of the three groups. -/
theorem requestRow_cases {i : Instr} {row : ReqRow} {p : Port} (h : requestRow i = some (row, p)) :
    (∃ b e n f, requestRun i = some (row, b, p, e, n, f)) ∨ (∃ f, ownRun i = some (row, p, f)) ∨
      ∃ hub parts g, gatherRun i = some (row, p, hub, parts, g) := by
  cases i <;> simp [requestRow] at h <;> obtain ⟨rfl, rfl⟩ := h <;>
    first
      | exact .inl ⟨_, _, _, _, rfl⟩
      | exact .inr (.inl ⟨_, rfl⟩)
      | exact .inr (.inr ⟨_, _, _, rfl⟩)

/-- The effect of a command of the task link: its port's Link Engine alone changes. -/
theorem effect_of_linkRun {i : Instr} {p : Port} {f : Link → Link} (h : linkRun i = some (p, f)) :
    effect i = fun c => c.updLink p f := by
  cases i <;> simp [linkRun] at h <;> (obtain ⟨rfl, rfl⟩ := h; rfl)

/-- Out of reset a command other than those of RST_N answers its effect. -/
theorem exec_effect {i : Instr} {s : State} (hr : s.chip.rst = false) (h1 : i ≠ .rstNAssert)
    (h2 : ∀ straps, i ≠ .rstNDeassert straps) : exec i s = .next ⟨s.pending, effect i s.chip⟩ := by
  rw [exec_eq_run i s h1 h2, State.run_of_not_rst hr]

theorem requestRow_ne_rst {i : Instr} {x : ReqRow × Port} (h : requestRow i = some x) :
    i ≠ .rstNAssert ∧ ∀ straps, i ≠ .rstNDeassert straps :=
  ⟨by rintro rfl; simp [requestRow] at h, by rintro _ rfl; simp [requestRow] at h⟩

theorem requestRun_ne_rst {i : Instr} {x : ReqRow × Block × Port × Extent × Nat × (Hand → Current → Chip → Chip)}
    (h : requestRun i = some x) : i ≠ .rstNAssert ∧ ∀ straps, i ≠ .rstNDeassert straps :=
  ⟨by rintro rfl; simp [requestRun] at h, by rintro _ rfl; simp [requestRun] at h⟩

/-- A request row of a block that takes a ready head whole answers the hub after the dispatch and the claims. -/
theorem exec_ready {s : State} {p : Port} {m : Packet} {r : Req} (h : s.chip.ready p m r) {b : Block} (hb : r.block = some b) {i : Instr}
    {n : Nat} {f : Hand → Current → Chip → Chip} (hi : requestRun i = some (r.row, b, p, .whole, n, f)) :
    exec i s = .next ⟨s.pending,
      repeatClaim n (fun c => c.goOn r.row b p (f .now)) (f .now ⟨m.tag, r, .given⟩ (s.chip.dispatched p ⟨m.tag, r, .given⟩))⟩ := by
  rw [exec_effect h.1 (requestRun_ne_rst hi).1 (requestRun_ne_rst hi).2, effect_of_requestRun hi]
  dsimp only
  rw [Chip.runRequest_ready h hb]

/-- A ready head that the Port Controller takes itself: the dispatch, and then its claim. -/
theorem exec_own {s : State} {p : Port} {m : Packet} {r : Req} (h : s.chip.ready p m r) {i : Instr} {f : Chip → Chip}
    (hi : ownRun i = some (r.row, p, f)) : exec i s = .next ⟨s.pending, f (s.chip.dispatched p ⟨m.tag, r, .given⟩)⟩ := by
  have h1 : i ≠ .rstNAssert := by rintro rfl; simp [ownRun] at hi
  have h2 : ∀ st, i ≠ .rstNDeassert st := by rintro st rfl; simp [ownRun] at hi
  have hd : s.chip.dispatchHead r.row p = s.chip.dispatched p ⟨m.tag, r, .given⟩ := by
    refine Chip.dispatchHead_ready h ?_
    cases i <;> simp only [ownRun, Option.some.injEq, Prod.mk.injEq, reduceCtorEq] at hi <;> obtain ⟨hrow, _, _⟩ := hi <;>
      cases r <;> first | rfl | cases hrow
  rw [exec_effect h.1 h1 h2, effect_of_ownRun hi]
  dsimp only
  rw [Chip.runOwn, hd]

/-- How many claims a step of an extent takes of a request within its block that needs at most `n` after its first. -/
def claimsTaken (e : Extent) (n : Nat) : Nat :=
  match e with
  | .dispatch => 0
  | .claim _ => 1
  | .whole => n + 1

/-- Whose hand an extent gives its answers to. -/
def handOf (e : Extent) : Hand :=
  match e with
  | .dispatch => .now
  | .claim h => h
  | .whole => .now

/-- A claim or the whole of a request row whose request is within its block. -/
theorem exec_underWay {s : State} {b : Block} {p : Port} {tag : Tag} {r : Req} {st : Stage} (h : s.chip.underWay b p tag r st) {i : Instr}
    {e : Extent} (he : e ≠ .dispatch) {n : Nat} {f : Hand → Current → Chip → Chip} (hi : requestRun i = some (r.row, b, p, e, n, f)) :
    exec i s = .next ⟨s.pending, repeatClaim (claimsTaken e n) (fun c => c.goOn r.row b p (f (handOf e))) s.chip⟩ := by
  rw [exec_effect h.1 (requestRun_ne_rst hi).1 (requestRun_ne_rst hi).2, effect_of_requestRun hi]
  dsimp only
  cases e with
  | dispatch => exact absurd rfl he
  | claim hd => simp [Chip.runRequest, Chip.nextClaim, h.2, repeatClaim, claimsTaken, handOf]
  | whole => simp [Chip.runRequest, Chip.nextClaim, h.2, repeatClaim, claimsTaken, handOf]

/-- A dispatch by a row whose head is not to be dispatched changes nothing. -/
theorem Chip.dispatchHead_waits {c : Chip} {row : ReqRow} {p : Port} (h : (c.pc p).mayDispatch = false ∨ (c.pc p).buffer = []) :
    c.dispatchHead row p = c := by
  unfold Chip.dispatchHead
  split
  · rfl
  · rename_i k rest hb
    rcases h with h | h
    · simp [h]
    · simp [h] at hb

/-- A TICK at its boundary, and one before it. -/
theorem takeTick_due {c : Chip} (h : 200 ≤ c.hcu.refPhase) : takeTick c = c.tickBoundary := if_pos h

theorem takeTick_early {c : Chip} (h : c.hcu.refPhase < 200) : takeTick c = c := if_neg (Nat.not_le.mpr h)

/-- One period: the boundary that is due, if one is, and then the timers. -/
theorem Chip.period_due {c : Chip} (h : 200 ≤ c.hcu.refPhase) : c.period = c.tickBoundary.advancePeriod := by
  rw [Chip.period, takeTick_due h]

theorem Chip.period_early {c : Chip} (h : c.hcu.refPhase < 200) : c.period = c.advancePeriod := by
  rw [Chip.period, takeTick_early h]

/-- After a period at most 200 have passed since the tick boundary (R158). -/
theorem Chip.period_refPhase (c : Chip) : c.period.hcu.refPhase ≤ 200 := by
  rcases Nat.lt_or_ge c.hcu.refPhase 200 with h | h
  · rw [Chip.period_early h]; exact h
  · rw [Chip.period_due h]; exact Nat.le_add_left 1 199

/-- One step: the front command's effect, a command of RST_N, or one period. -/
theorem step_cases {s t : State} (h : step s = .next t) :
    (t = idle s) ∨ (∃ straps, t.chip = .held straps ∨ t.chip = .powerOn straps) ∨ t.chip = s.chip ∨
      ∃ i, s.chip.rst = false ∧ t.chip = effect i s.chip := by
  unfold step at h
  cases hp : s.pending with
  | nil => rw [hp] at h; injection h with h; exact .inl h.symm
  | cons i rest =>
    rw [hp] at h
    dsimp only at h
    by_cases h1 : i = .rstNAssert
    · subst h1; injection h with h; subst h; exact .inr (.inl ⟨_, .inl rfl⟩)
    by_cases h2 : ∃ straps, i = .rstNDeassert straps
    · obtain ⟨straps, rfl⟩ := h2
      injection h with h; subst h
      by_cases hr : s.chip.rst = true
      · exact .inr (.inl ⟨straps, .inr (by simp [hr])⟩)
      · exact .inr (.inr (.inl (by simp [hr])))
    rw [exec_eq_run i _ h1 (fun st hst => h2 ⟨st, hst⟩)] at h
    have := (State.run_eq_next h).2
    dsimp only at this
    cases hr : s.chip.rst
    · exact .inr (.inr (.inr ⟨i, rfl, by simpa [hr] using this⟩))
    · exact .inr (.inr (.inl (by simpa [hr] using this)))

end Sys2Proof.Machine
end

