-- ==== Sys2Proof/Laws/Claims.lean ====
section
/-! SUPPORT. The claims of a request: a request counted in the creation count, the lists and entries that requests hold, and what the first checks of a request come to. -/

namespace Sys2Proof.Machine

/-! ## Few claims are enough -/

/-- Claims that each change nothing or come nearer to an end, by some measure, change nothing after that many. -/
theorem repeatClaim_done {f : Chip → Chip} (μ : Chip → Nat) (h : ∀ c, f c = c ∨ μ (f c) < μ c) :
    ∀ n c, μ c ≤ n → f (repeatClaim n f c) = repeatClaim n f c
  | 0, c, hc => by
    rcases h c with h | h
    · exact h
    · omega
  | n + 1, c, hc => by
    rcases h c with h' | h'
    · rw [repeatClaim_fixed h' (n + 1)]; exact h'
    · exact repeatClaim_done μ h n (f c) (by omega)

/-- One claim more or fewer, at the front or at the back. -/
theorem repeatClaim_back (f : Chip → Chip) : ∀ n c, repeatClaim n f (f c) = f (repeatClaim n f c)
  | 0, _ => rfl
  | n + 1, c => by rw [repeatClaim, repeatClaim, repeatClaim_back f n]

/-! ## A request in the creation count -/

/-- The hub with a request of `p` within block `b` that is counted in the creation count (R150). -/
def Chip.counted (c : Chip) (b : Block) (p : Port) (k : Current) : Chip := (c.within b p k).raiseCreation

@[simp] theorem Chip.counted_atBlock (c : Chip) (b : Block) (p : Port) (k : Current) :
    ((c.counted b p k).pc p).atBlock.get b = some k := c.within_atBlock b p k

@[simp] theorem Chip.counted_attached (c : Chip) (b : Block) (p : Port) (k : Current) (q : Port) :
    (c.counted b p k).attached q = c.attached q := c.within_attached b p k q

@[simp] theorem Chip.counted_rqcAttached (c : Chip) (b : Block) (p : Port) (k : Current) (q : Port) :
    (c.counted b p k).rqcAttached q = c.rqcAttached q := c.within_rqcAttached b p k q

@[simp] theorem Chip.counted_room (c : Chip) (b : Block) (p : Port) (k : Current) (q : Port) (x : Bool) :
    (c.counted b p k).room q x = c.room q x := c.within_room b p k q x

@[simp] theorem Chip.counted_tks (c : Chip) (b p k) : (c.counted b p k).tks = c.tks := rfl
@[simp] theorem Chip.counted_rqc (c : Chip) (b p k) : (c.counted b p k).rqc = c.rqc := rfl
@[simp] theorem Chip.counted_frt (c : Chip) (b p k) : (c.counted b p k).frt = c.frt := rfl
@[simp] theorem Chip.counted_ltu (c : Chip) (b p k) : (c.counted b p k).ltu = c.ltu := rfl
@[simp] theorem Chip.counted_wires (c : Chip) (b p k) : (c.counted b p k).wires = c.wires := rfl

section counted
variable {c : Chip} {p : Port} {m : Packet} {r : Req} {b : Block}

/-- The claim that counts a request takes it to its next. -/
theorem Chip.dispatched_counted (h : c.ready p m r) (st : Stage) :
    (c.dispatched p ⟨m.tag, r, .given⟩).raiseCreation.advance b p ⟨m.tag, r, .given⟩ st = c.counted b p ⟨m.tag, r, st⟩ := by
  show ((c.dispatched p ⟨m.tag, r, .given⟩).advance b p ⟨m.tag, r, .given⟩ st).raiseCreation = _
  rw [Chip.dispatched_advance h]; rfl

/-- A claim that takes a counted request on to the next. -/
theorem Chip.counted_advance (h : c.ready p m r) (st st' : Stage) :
    (c.counted b p ⟨m.tag, r, st⟩).advance b p ⟨m.tag, r, st⟩ st' = c.counted b p ⟨m.tag, r, st'⟩ := by
  show ((c.within b p ⟨m.tag, r, st⟩).advance b p ⟨m.tag, r, st⟩ st').raiseCreation = _
  rw [Chip.within_advance h]; rfl

/-- In a hub that is not QUIESCING the creation count falls and calls for no check. -/
theorem Chip.lowerCreation_of_not_quiescing {c : Chip} (h : c.hcu.state ≠ .quiescing) :
    c.lowerCreation = { c with hcu := { c.hcu with creation := c.hcu.creation - 1 } } := by
  simp [Chip.lowerCreation, h]

/-- A counted request of a ready port is answered, whatever its claims did to the rest of a RUNNING hub. -/
theorem Chip.replyCounted_of_ready (h : c.ready p m r) (hb : r.block = some b) (hs : c.hcu.state = .running) {d : Chip} {st : Stage}
    (hd : d.pcs = (c.counted b p ⟨m.tag, r, st⟩).pcs) (hh : d.hcu = (c.counted b p ⟨m.tag, r, st⟩).hcu)
    (ha : d.wires.answers = c.wires.answers) (status : Status) (body : List Word) (i : Option Handle := none) :
    d.replyCounted .now b p ⟨m.tag, r, st⟩ status body i =
      { d with hcu := c.hcu, pcs := c.pcs.set p ((c.pc p).served m.tag status body i) } := by
  unfold Chip.replyCounted
  rw [Chip.reply_of_ready h hb (d := d) (.inr hd) ha status body i]
  have hh' : d.hcu = { c.hcu with creation := c.hcu.creation + 1 } := hh
  rw [Chip.lowerCreation_of_not_quiescing (by show d.hcu.state ≠ _; rw [hh']; simp [hs])]
  simp [hh']

/-- A counted request that is answered leaves the creation count as it found it, in a RUNNING hub. -/
theorem Chip.counted_reply (h : c.ready p m r) (hb : r.block = some b) (hs : c.hcu.state = .running) (st : Stage) (status : Status)
    (body : List Word) (i : Option Handle := none) :
    (c.counted b p ⟨m.tag, r, st⟩).replyCounted .now b p ⟨m.tag, r, st⟩ status body i = c.answered p m.tag status body i :=
  Chip.replyCounted_of_ready h hb hs rfl rfl rfl status body i

end counted

/-! ## Lists and entries held -/

theorem Chip.pushHold_of_atBlock {c d : Chip} {q : Port} (h : (d.pc q).atBlock = (c.pc q).atBlock) : d.pushHold q = c.pushHold q := by
  simp only [Chip.pushHold, h]

theorem Chip.within_pc_ne (c : Chip) (b : Block) (p : Port) (k : Current) {q : Port} (h : q ≠ p) :
    (c.within b p k).pc q = c.pc q := Chip.asked_pc_ne c _ h

/-- A request within its block that is no PUSH past its room check holds no list. -/
theorem Chip.within_queueHeld {c : Chip} {b : Block} {p : Port} {k : Current}
    (hst : (∀ d, k.stage ≠ .roomRead d) ∧ (∀ h d, k.stage ≠ .allocated h d) ∧ ∀ h d, k.stage ≠ .registered h d)
    (h : c.queueHeld = false) :
    (c.within b p k).queueHeld = false := by
  unfold Chip.queueHeld at *
  rw [Port.any_all_eq_false] at *
  intro q
  by_cases hq : q = p
  · subst hq
    have h' := h q
    have hcur : ∀ x, ((c.within b q k).pc q).atBlock.rqc = some x → x = k ∨ (c.pc q).atBlock.rqc = some x := by
      intro x hx
      cases b <;> simp [Chip.within, Pc.passed, PerBlock.set] at hx <;> first | exact .inl hx.symm | exact .inr hx
    unfold Chip.pushHold at h' ⊢
    split
    · rename_i x r d hx
      rcases hcur _ hx with rfl | hx
      · exact absurd rfl (hst.1 _)
      · rw [hx] at h'; simp at h'
    · rename_i x r a d hx
      rcases hcur _ hx with rfl | hx
      · exact absurd rfl (hst.2.1 _ _)
      · rw [hx] at h'; simp at h'
    · rename_i x r a d hx
      rcases hcur _ hx with rfl | hx
      · exact absurd rfl (hst.2.2 _ _)
      · rw [hx] at h'; simp at h'
    · rfl
  · rw [Chip.pushHold_of_atBlock (c := c) (by rw [Chip.within_pc_ne c b p k hq])]; exact h q

theorem Chip.counted_queueHeld {c : Chip} {b : Block} {p : Port} {k : Current}
    (hst : (∀ d, k.stage ≠ .roomRead d) ∧ (∀ h d, k.stage ≠ .allocated h d) ∧ ∀ h d, k.stage ≠ .registered h d)
    (h : c.queueHeld = false) :
    (c.counted b p k).queueHeld = false :=
  Chip.within_queueHeld (b := b) hst h

/-- A request within a block other than the FRT, or one that is no OPEN_FRAME past its current ticket, holds no running-table entry. -/
theorem Chip.within_entryHeld {c : Chip} {b : Block} {p : Port} {k : Current} {i : SlotNo}
    (hst : k.stage ≠ .currentRead ∧ k.stage ≠ .pinRead) (h : c.entryHeld i = false) : (c.within b p k).entryHeld i = false := by
  unfold Chip.entryHeld at *
  rw [Port.any_all_eq_false] at *
  intro q
  have h' := h q
  by_cases hq : q = p
  · subst hq
    have hcur : ∀ x, ((c.within b q k).pc q).atBlock.frt = some x → x = k ∨ (c.pc q).atBlock.frt = some x := by
      intro x hx
      cases b <;> simp [Chip.within, Pc.passed, PerBlock.set] at hx <;> first | exact .inl hx.symm | exact .inr hx
    unfold Chip.openHolds at h' ⊢
    split
    · rename_i x r hx
      rcases hcur _ hx with rfl | hx
      · exact absurd rfl hst.1
      · rw [hx] at h'; exact h'
    · rename_i x r hx
      rcases hcur _ hx with rfl | hx
      · exact absurd rfl hst.2
      · rw [hx] at h'; exact h'
    · rfl
  · unfold Chip.openHolds at h' ⊢
    rw [Chip.within_pc_ne c b p k hq]; exact h'

/-! ## The first checks of a request -/

/-- A PUSH whose sender, target and frame pass comes to its room check with four of its claims to go. -/
theorem push_to_room {c : Chip} {p : Port} {m : Packet} {r : PushReq} (h : c.ready p m (.push r)) (hst : c.hcu.state = .running)
    (ha : c.rqcAttached p = true) (hb : c.rqcAttached (r.target.getD p) = true) (hf : c.pushFrameRefusal r.frame = none) :
    repeatClaim 7 (fun c => c.goOn .push .rqc p (pushClaim p .now))
        (pushClaim p .now ⟨m.tag, .push r, .given⟩ (c.dispatched p ⟨m.tag, .push r, .given⟩)) =
      repeatClaim 4 (fun c => c.goOn .push .rqc p (pushClaim p .now)) (c.counted .rqc p ⟨m.tag, .push r, .frameRead⟩) := by
  have hfr : (c.counted .rqc p ⟨m.tag, .push r, .targetRead⟩).pushFrameRefusal r.frame = none := by rw [← hf]; cases r.frame <;> rfl
  have e0 : pushClaim p .now ⟨m.tag, .push r, .given⟩ (c.dispatched p ⟨m.tag, .push r, .given⟩) = c.counted .rqc p ⟨m.tag, .push r, .hubRead⟩ := by
    simp only [pushClaim, pushStage, Chip.dispatched_hcu, hst, Chip.dispatched_counted h]
  rw [e0, repeatClaim_succ, Chip.goOn_some (row := .push) (Chip.counted_atBlock ..) rfl]
  simp only [pushClaim, pushStage, Chip.counted_rqcAttached, ha, if_true, Chip.counted_advance h]
  rw [repeatClaim_succ, Chip.goOn_some (row := .push) (Chip.counted_atBlock ..) rfl]
  simp only [pushClaim, pushStage, Chip.counted_rqcAttached, hb, if_true, Chip.counted_advance h]
  rw [repeatClaim_succ, Chip.goOn_some (row := .push) (Chip.counted_atBlock ..) rfl]
  simp only [pushClaim, pushStage, hfr, Chip.counted_advance h]

/-- A POP outside SETUP, with no list held: its search, or NOT_ATTACHED. -/
theorem pop_to_search {c : Chip} {p : Port} {m : Packet} {n : Nat} (h : c.ready p m (.pop n)) (hst : c.hcu.state ≠ .setup)
    (hq : c.queueHeld = false) :
    repeatClaim 1 (fun c => c.goOn .pop .rqc p (popClaim p .now))
        (popClaim p .now ⟨m.tag, .pop n, .given⟩ (c.dispatched p ⟨m.tag, .pop n, .given⟩)) =
      if c.rqcAttached p then (c.within .rqc p ⟨m.tag, .pop n, .hubRead⟩).popSearch .now p ⟨m.tag, .pop n, .hubRead⟩ n
      else c.answered p m.tag .notAttached [] := by
  have e0 : popClaim p .now ⟨m.tag, .pop n, .given⟩ (c.dispatched p ⟨m.tag, .pop n, .given⟩) = c.within .rqc p ⟨m.tag, .pop n, .hubRead⟩ := by
    simp only [popClaim, popStage, Chip.dispatched_hcu]
    cases hs : c.hcu.state
    · exact absurd hs hst
    · simp [Chip.dispatched_advance h]
    · simp [Chip.dispatched_advance h]
  rw [e0, repeatClaim_succ, Chip.goOn_some (row := .pop) (Chip.within_atBlock ..) rfl]
  simp only [popClaim, popStage, Chip.within_queueHeld (b := .rqc) (p := p) (k := ⟨m.tag, .pop n, .hubRead⟩) (by simp) hq, Bool.false_eq_true,
    if_false, Chip.within_rqcAttached, repeatClaim, Chip.within_reply h rfl]

/-- The park decision of a POP that has taken nothing. -/
theorem park_ready {c : Chip} {p : Port} {m : Packet} {n : Nat} (h : c.ready p m (.pop n)) :
    (c.within .rqc p ⟨m.tag, .pop n, .hubRead⟩).park .now p ⟨m.tag, .pop n, .hubRead⟩ n =
      if n = 0 then c.answered p m.tag .empty []
      else if (c.parkedOf p).length < 4 ∧ c.rqc.parked.length < 16 then
        { c.passed p with
          rqc := { c.rqc with parked := c.rqc.parked ++ [⟨p, m.tag, if n = 4095 then none else some n⟩] } }
      else c.answered p m.tag .parkFull [] := by
  unfold Chip.park
  rw [Chip.within_reply h rfl, Chip.within_reply h rfl]
  split
  · rfl
  · show (if (c.parkedOf p).length < 4 ∧ c.rqc.parked.length < 16 then _ else _) = _
    split
    · exact Chip.endAt_of_ready h rfl (.inr rfl)
    · rfl

/-- What the two checks before a gated request come to: a refusal, or the third claim. -/
theorem gated_whole {c : Chip} {p : Port} {m : Packet} {r : Req} {b : Block} (h : c.ready p m r) (hb : r.block = some b)
    {f : Current → Chip → Chip} {act : Current → Chip → Chip}
    (hf : ∀ d st, f ⟨m.tag, r, st⟩ d = gatedStage b p .now ⟨m.tag, r, st⟩ (act ⟨m.tag, r, st⟩) d) :
    repeatClaim 2 (fun c => c.goOn r.row b p f) (f ⟨m.tag, r, .given⟩ (c.dispatched p ⟨m.tag, r, .given⟩)) =
      match c.gateRefusal p with
      | some st => c.answered p m.tag st []
      | none => act ⟨m.tag, r, .senderRead⟩ (c.within b p ⟨m.tag, r, .senderRead⟩) := by
  have idle : ∀ n st, repeatClaim n (fun c => c.goOn r.row b p f) (c.answered p m.tag st []) = c.answered p m.tag st [] := fun n st =>
    repeat_goOn_none (Chip.answered_atBlock h hb _ _ _ _) n
  rw [hf]
  unfold Chip.gateRefusal
  have go :
      repeatClaim 2 (fun c => c.goOn r.row b p f) (c.within b p ⟨m.tag, r, .hubRead⟩) =
        match (if c.attached p = false then some Status.notAttached else none) with
        | some st => c.answered p m.tag st []
        | none => act ⟨m.tag, r, .senderRead⟩ (c.within b p ⟨m.tag, r, .senderRead⟩) := by
    rw [repeatClaim_succ, Chip.goOn_some (Chip.within_atBlock ..) rfl, hf]
    simp only [gatedStage, Chip.within_attached]
    cases ha : c.attached p
    · simp only [Bool.false_eq_true, if_false, if_true, Chip.within_reply h hb]; exact idle _ _
    · simp only [if_true, Bool.true_eq_false, if_false, Chip.within_advance h]
      rw [repeatClaim_succ, Chip.goOn_some (Chip.within_atBlock ..) rfl, hf]
      rfl
  simp only [gatedStage, Chip.dispatched_hcu]
  cases hs : c.hcu.state
  · simp only [if_true, Chip.dispatched_reply h hb]; exact idle _ _
  · simp only [Chip.dispatched_advance h, reduceCtorEq, if_false]; exact go
  · simp only [Chip.dispatched_advance h, reduceCtorEq, if_false]; exact go

end Sys2Proof.Machine
end

