-- ==== Sys2Proof/Laws/Frames.lean ====
section
/-! SUPPORT. Freeing a slot, freeing a frame, placing a continuation, one release of a cascade, the holder test: what each does, said once. -/

namespace Sys2Proof.Machine

/-! ## Slots and entries -/

theorem Chip.slot_of_ticket {c : Chip} {i : SlotNo} {t : Ticket} (h : c.ticket i = some t) : c.slot i = ⟨(c.slot i).gen, some t⟩ := by
  have h : (c.slot i).ticket = some t := h
  cases hs : c.slot i
  rw [hs] at h
  simp only at h
  rw [h]

@[simp] theorem Chip.ticket_setSlot_self (c : Chip) (i : SlotNo) (x : Slot) : (c.setSlot i x).ticket i = x.ticket := by
  simp [Chip.ticket]

/-- A slot that is not FREE is freed: next generation, free list tail, its allocator's count one lower, and a call for a completion check when the free
list becomes full. -/
theorem Chip.freeSlot_eq {c : Chip} {i : SlotNo} {t : Ticket} (h : c.ticket i = some t) :
    c.freeSlot i = { c with
      hcu := { c.hcu with checks := if c.tks.free.length + 1 = 1024 then c.hcu.checks + 1 else c.hcu.checks }
      tks := ⟨c.tks.slots.set i.val ⟨(c.slot i).gen + 1, none⟩ i.isLt, c.tks.free ++ [i],
        c.tks.alloc.set t.allocator (c.tks.alloc.get t.allocator - 1)⟩ } := by
  unfold Chip.freeSlot
  rw [h]
  have hl : (c.tks.free ++ [i]).length = c.tks.free.length + 1 := by simp
  by_cases hf : c.tks.free.length + 1 = 1024
  · rw [if_pos hf]
    exact if_pos (show (c.tks.free ++ [i]).length = 1024 by rw [hl, hf])
  · rw [if_neg hf]
    exact if_neg (show ¬ (c.tks.free ++ [i]).length = 1024 by rw [hl]; exact hf)

/-- A RETIRE of a slot that is not FREE: the slot is freed, and CHILD_END leaves for its parent. -/
theorem Chip.retireTicket_eq {c : Chip} {m : RetireMsg} {t : Ticket} (h : c.ticket m.slot = some t) :
    c.retireTicket m = { c.freeSlot m.slot with
      wires := { c.wires with
        childEnds := match t.parent with
          | some f => c.wires.childEnds ++ [⟨f, m.outcome, m.releasing⟩]
          | none => c.wires.childEnds } } := by
  unfold Chip.retireTicket
  rw [h, Chip.freeSlot_eq h]
  cases hp : t.parent <;> simp [hp, Chip.sendChildEnd]

/-- The requeue decision changes the Ticket Store and the messages alone. -/
theorem Chip.requeueDecision_step (c : Chip) (i : SlotNo) (n : Nat) :
    c.requeueDecision i n = { c with tks := (c.requeueDecision i n).tks, wires := (c.requeueDecision i n).wires } := by
  unfold Chip.requeueDecision Chip.requeueTicket
  repeat' split
  all_goals rfl

theorem Chip.runEntry_slot {c : Chip} {i : SlotNo} {e : RunEntry} (h : c.runEntry i = some e) : e.slot = i := by
  have := List.find?_some h
  simpa using this

/-- An entry made for a slot that had none, and removed again, leaves the table as it was. -/
theorem filter_insertEntry (e : RunEntry) : ∀ l : List RunEntry, (l.find? fun x => x.slot == e.slot) = none →
    ((insertEntry e l).filter fun x => x.slot != e.slot) = l
  | [], _ => by simp [insertEntry]
  | x :: xs, h => by
    simp only [List.find?_cons] at h
    cases hx : x.slot == e.slot
    · rw [hx] at h
      dsimp only at h
      have ih := filter_insertEntry e xs h
      unfold insertEntry
      split
      · simp [hx, bne]
        intro y hy
        have := List.find?_eq_none.mp h y hy
        simpa using this
      · simp [hx, bne]
        simpa [bne] using ih
    · rw [hx] at h
      cases h

/-- The holder's request acts on its entry. -/
theorem Chip.asHolder_pass {c : Chip} {hd : Hand} {p : Port} {k : Current} {h : Handle} {act : RunEntry → Chip} {e : RunEntry} {t : Ticket}
    (h1 : c.entryHeld h.slot = false) (h2 : (c.slot h.slot).gen = h.gen) (h3 : c.ticket h.slot = some t) (h4 : t.state = .running)
    (h5 : c.runEntry h.slot = some e) (h6 : e.holder = p) : c.asHolder hd p k h act = act e := by
  unfold Chip.asHolder
  have : c.holds p h = true := by simp [Chip.holds, h2, h3, h4, h5, h6]
  simp [h1, this, h5]

/-- A request that fails the holder test is STALE. -/
theorem Chip.asHolder_fail {c : Chip} {hd : Hand} {p : Port} {k : Current} {h : Handle} {act : RunEntry → Chip} (h1 : c.entryHeld h.slot = false)
    (h2 : (c.slot h.slot).gen ≠ h.gen ∨ (∀ t, c.ticket h.slot = some t → t.state ≠ .running) ∨
      (∀ e, c.runEntry h.slot = some e → e.holder ≠ p)) :
    c.asHolder hd p k h act = c.reply hd .ltu p k .stale [] := by
  unfold Chip.asHolder
  have : c.holds p h = false := by
    unfold Chip.holds
    rcases h2 with h | h' | h'
    · simp [h]
    · cases ht : c.ticket h.slot with
      | none => simp
      | some t => simp [h' t ht]
    · cases ht : c.runEntry h.slot with
      | none => simp
      | some t => simp [h' t ht]
  simp [h1, this]

/-! ## Release -/

/-- The release of frame `n` whose continuation is the ticket `t` of handle `h`: the outcome summary written, the continued frame removed, the frame
freed. -/
theorem Chip.freeFrame_eq {c : Chip} {n : FrameNo} {h : Handle} {t : Ticket} (h1 : (c.frame n).continuation = some h)
    (h2 : c.ticket h.slot = some t) :
    c.freeFrame n = { c with
      tks := { c.tks with
        slots := c.tks.slots.set h.slot.val
          ⟨(c.slot h.slot).gen, some { t with summary := some (c.frame n).toSummary, contFrame := none }⟩ h.slot.isLt }
      frt := { c.frt with frames := c.frt.frames.set n.val (c.frame n).released n.isLt, inUse := c.frt.inUse - 1 } } := by
  simp only [Chip.freeFrame, h1]
  rw [Chip.updTicket_eq h2]; rfl

theorem Chip.freeFrame_ticket {c : Chip} {n : FrameNo} {h : Handle} {t : Ticket} (h1 : (c.frame n).continuation = some h)
    (h2 : c.ticket h.slot = some t) :
    (c.freeFrame n).ticket h.slot = some { t with summary := some (c.frame n).toSummary, contFrame := none } := by
  rw [Chip.freeFrame_eq h1 h2]
  unfold Chip.ticket
  exact congrArg Slot.ticket (vector_get_set_self c.tks.slots h.slot _)

theorem Chip.freeFrame_frame_ne (c : Chip) {n m : FrameNo} (h : m ≠ n) : (c.freeFrame n).frame m = c.frame m := by
  unfold Chip.freeFrame
  dsimp only
  split
  · exact vector_get_set_ne c.frt.frames _ h
  · exact vector_get_set_ne c.frt.frames _ h

theorem Chip.freeFrame_refState_ne (c : Chip) {n : FrameNo} {g : FrameRef} (h : g.index ≠ n) :
    (c.freeFrame n).refState g = c.refState g := by
  unfold Chip.refState
  rw [Chip.freeFrame_frame_ne c h]

/-- Where a continuation is sent, and with what pin (R91). -/
theorem Chip.placeContinuation_eq {c : Chip} {i : SlotNo} {t : Ticket} (h : c.ticket i = some t) (pin rel : Option Port) :
    c.placeContinuation i pin rel = { c with
      tks := { c.tks with
        slots := c.tks.slots.set i.val
          ⟨(c.slot i).gen, some { t with pin := if (c.releaseChoice pin rel).2 = none then none else t.pin }⟩ i.isLt }
      wires := { c.wires with placeFrt := c.wires.placeFrt ++ [⟨i, (c.releaseChoice pin rel).1⟩] } } := by
  have hsame : c.tks.slots.set i.val ⟨(c.slot i).gen, some t⟩ i.isLt = c.tks.slots := by
    have : (⟨(c.slot i).gen, some t⟩ : Slot) = c.tks.slots[i.val] := (Chip.slot_of_ticket h).symm
    rw [this]; exact Vector.set_getElem_self i.isLt
  unfold Chip.placeContinuation
  dsimp only
  rw [Chip.updTicket_eq h]
  unfold Chip.releaseDest Chip.releaseChoice
  cases pin with
  | none =>
    cases rel with
    | none => simp [Chip.sendPlace, Chip.setSlot]
    | some r => by_cases hr : c.attached r = true <;> simp [Chip.sendPlace, Chip.setSlot, hr]
  | some q =>
    by_cases hq : c.attached q = true
    · cases rel <;> simp [Chip.sendPlace, hq, hsame]
    · cases rel with
      | none => simp [Chip.sendPlace, Chip.setSlot, hq]
      | some r => by_cases hr : c.attached r = true <;> simp [Chip.sendPlace, Chip.setSlot, hq, hr]

/-- One release of a cascade, for a continuation that is a root or whose parent is not CANCELLING. -/
theorem release_places {c : Chip} {n : FrameNo} {h : Handle} {t : Ticket} (k : Nat) (rel : Option Port)
    (h1 : (c.frame n).continuation = some h) (h2 : c.ticket h.slot = some t)
    (h3 : ∀ g, t.parent = some g → (c.freeFrame n).refState g ≠ .cancelling) :
    release (k + 1) n rel c = (c.freeFrame n).placeContinuation h.slot (c.frame n).pin rel := by
  conv => lhs; unfold release
  simp only [h1, Chip.freeFrame_ticket h1 h2, Option.bind_some]
  cases hp : t.parent with
  | none => rfl
  | some g => simp only [h3 g hp, if_false]

/-- One release of a cascade, for a continuation whose parent is CANCELLING. -/
theorem release_cascades {c : Chip} {n : FrameNo} {h : Handle} {t : Ticket} {g : FrameRef} (k : Nat) (rel : Option Port)
    (h1 : (c.frame n).continuation = some h) (h2 : c.ticket h.slot = some t) (h3 : t.parent = some g)
    (h4 : (c.freeFrame n).refState g = .cancelling) :
    release (k + 1) n rel c =
      if ((((c.freeFrame n).freeSlot h.slot).countEnd g.index .cancelled).frame g.index).pending = 0 then
        release k g.index rel (((c.freeFrame n).freeSlot h.slot).countEnd g.index .cancelled)
      else ((c.freeFrame n).freeSlot h.slot).countEnd g.index .cancelled := by
  conv => lhs; unfold release
  simp only [h1, Chip.freeFrame_ticket h1 h2, Option.bind_some, h3, h4, if_true]

/-! ## The depth of a cascade -/

/-- The CANCELLING frames other than `i`. -/
def Chip.cancellingBut (c : Chip) (i : FrameNo) : Nat := (Finset.univ.filter fun j : FrameNo => j ≠ i ∧ (c.frame j).state = .cancelling).card

theorem Chip.cancellingBut_lt (c : Chip) (i : FrameNo) : c.cancellingBut i < 256 := by
  have h : (Finset.univ.filter fun j : FrameNo => j ≠ i ∧ (c.frame j).state = .cancelling) ⊂ Finset.univ :=
    (Finset.filter_ssubset).mpr ⟨i, Finset.mem_univ i, by simp⟩
  have := Finset.card_lt_card h
  simpa [Chip.cancellingBut] using this

theorem Chip.freeFrame_frame_self (c : Chip) (n : FrameNo) : (c.freeFrame n).frame n = (c.frame n).released := by
  unfold Chip.freeFrame
  dsimp only
  split
  · exact vector_get_set_self c.frt.frames n _
  · exact vector_get_set_self c.frt.frames n _

/-- A frame just freed is no CANCELLING parent. -/
theorem Chip.freeFrame_cancelling {c : Chip} {n : FrameNo} {g : FrameRef} (h : (c.freeFrame n).refState g = .cancelling) : g.index ≠ n := by
  intro hg
  rw [Chip.refState, hg, Chip.freeFrame_frame_self] at h
  split at h <;> cases h

theorem Chip.freeSlot_frame (c : Chip) (i : SlotNo) (n : FrameNo) : (c.freeSlot i).frame n = c.frame n := by
  have h : (c.freeSlot i).frt = c.frt := by
    unfold Chip.freeSlot
    split
    · rfl
    · dsimp only
      split <;> rfl
  simp only [Chip.frame, h]

/-- A release that goes on to the parent has one CANCELLING frame fewer before it. -/
theorem Chip.cancellingBut_outward {c : Chip} {n : FrameNo} {i : SlotNo} {g : FrameRef} (h : (c.freeFrame n).refState g = .cancelling) :
    (((c.freeFrame n).freeSlot i).countEnd g.index .cancelled).cancellingBut g.index < c.cancellingBut n := by
  have hg := Chip.freeFrame_cancelling h
  rw [Chip.freeFrame_refState_ne c hg] at h
  have hs : (c.frame g.index).state = .cancelling := by
    unfold Chip.refState at h
    split at h
    · exact h
    · cases h
  apply Finset.card_lt_card
  refine ⟨?_, ?_⟩
  · intro j hj
    simp only [Finset.mem_filter, Finset.mem_univ, true_and] at hj ⊢
    obtain ⟨h1, h2⟩ := hj
    have e : (((c.freeFrame n).freeSlot i).countEnd g.index .cancelled).frame j = (c.freeFrame n).frame j := by
      rw [← Chip.freeSlot_frame (c.freeFrame n) i j]
      exact vector_get_set_ne _ _ h1
    rw [e] at h2
    have hn : j ≠ n := by
      rintro rfl
      rw [Chip.freeFrame_frame_self] at h2
      cases h2
    rw [Chip.freeFrame_frame_ne c hn] at h2
    exact ⟨hn, h2⟩
  · intro hsub
    have := hsub (Finset.mem_filter.mpr ⟨Finset.mem_univ g.index, hg, hs⟩)
    simp at this

/-- More steps than there are CANCELLING frames to pass change nothing. -/
theorem release_enough : ∀ (m k : Nat) (n : FrameNo) (rel : Option Port) (c : Chip), c.cancellingBut n ≤ m → m < k →
    release k n rel c = release (m + 1) n rel c
  | m, 0, _, _, _, _, hk => by omega
  | m, k + 1, n, rel, c, hm, hk => by
    unfold release
    dsimp only
    split
    · rfl
    · rename_i h _
      split
      · rfl
      · rename_i g _
        split
        · rename_i hg
          have hlt := Chip.cancellingBut_outward (i := h.slot) hg
          split
          · match m, hm, hk with
            | 0, hm, _ => omega
            | m + 1, hm, hk => exact release_enough m k _ rel _ (by omega) (by omega)
          · rfl
        · rfl

/-- One release of a cascade, for a continuation whose parent is CANCELLING: the parent's end is counted, and with no other child left it is released in
turn, however many frames the cascade has passed. -/
theorem Chip.release_outward {c : Chip} {n : FrameNo} {h : Handle} {t : Ticket} {g : FrameRef} (rel : Option Port)
    (h1 : (c.frame n).continuation = some h) (h2 : c.ticket h.slot = some t) (h3 : t.parent = some g)
    (h4 : (c.freeFrame n).refState g = .cancelling) :
    c.release n rel =
      if ((((c.freeFrame n).freeSlot h.slot).countEnd g.index .cancelled).frame g.index).pending = 0 then
        (((c.freeFrame n).freeSlot h.slot).countEnd g.index .cancelled).release g.index rel
      else ((c.freeFrame n).freeSlot h.slot).countEnd g.index .cancelled := by
  unfold Chip.release
  rw [release_cascades 256 rel h1 h2 h3 h4]
  have hlt := Chip.cancellingBut_lt (((c.freeFrame n).freeSlot h.slot).countEnd g.index .cancelled) g.index
  split
  · rw [release_enough 255 256 g.index rel _ (by omega) (by omega), release_enough 255 257 g.index rel _ (by omega) (by omega)]
  · rfl

/-! ## What a release changes -/

/-- What a release changes: the Ticket Store, the Frame Table, the calls for a completion check, the messages. -/
def Chip.frtStep (c d : Chip) : Prop := d = { c with hcu := d.hcu, tks := d.tks, frt := d.frt, wires := d.wires }

theorem Chip.frtStep.trans {c d e : Chip} (h1 : c.frtStep d) (h2 : d.frtStep e) : c.frtStep e := by
  unfold Chip.frtStep at *
  rw [h2, h1]

theorem Chip.frtStep.pcs {c d : Chip} (h : c.frtStep d) : d.pcs = c.pcs := by rw [h]
theorem Chip.frtStep.links {c d : Chip} (h : c.frtStep d) : d.links = c.links := by rw [h]
theorem Chip.frtStep.rqc {c d : Chip} (h : c.frtStep d) : d.rqc = c.rqc := by rw [h]
theorem Chip.frtStep.ltu {c d : Chip} (h : c.frtStep d) : d.ltu = c.ltu := by rw [h]
theorem Chip.frtStep.rst {c d : Chip} (h : c.frtStep d) : d.rst = c.rst := by rw [h]
theorem Chip.frtStep.straps {c d : Chip} (h : c.frtStep d) : d.straps = c.straps := by rw [h]

theorem Chip.freeFrame_step (c : Chip) (n : FrameNo) : c.frtStep (c.freeFrame n) := by
  unfold Chip.freeFrame
  dsimp only
  split <;> rfl

theorem Chip.placeContinuation_step (c : Chip) (i : SlotNo) (pin rel : Option Port) : c.frtStep (c.placeContinuation i pin rel) := by
  unfold Chip.placeContinuation
  dsimp only
  split
  · split <;> rfl
  · rfl

theorem Chip.freeSlot_step (c : Chip) (i : SlotNo) : c.frtStep (c.freeSlot i) := by
  unfold Chip.freeSlot
  split
  · rfl
  · dsimp only
    split <;> rfl

theorem release_step : ∀ (k : Nat) (n : FrameNo) (rel : Option Port) (c : Chip), c.frtStep (release k n rel c)
  | 0, _, _, _ => rfl
  | k + 1, n, rel, c => by
    unfold release
    dsimp only
    split
    · exact c.freeFrame_step n
    · rename_i h _
      split
      · exact (c.freeFrame_step n).trans (Chip.placeContinuation_step _ _ _ _)
      · rename_i g _
        split
        · have e1 : c.frtStep ((c.freeFrame n).freeSlot h.slot) := (c.freeFrame_step n).trans (Chip.freeSlot_step _ _)
          have e2 : c.frtStep (((c.freeFrame n).freeSlot h.slot).countEnd g.index .cancelled) := e1.trans rfl
          split
          · exact e2.trans (release_step k _ rel _)
          · exact e2
        · exact (c.freeFrame_step n).trans (Chip.placeContinuation_step _ _ _ _)

/-- A release, with its cascade, changes the Ticket Store, the Frame Table, the calls for a completion check and the messages alone. -/
theorem Chip.release_step (c : Chip) (n : FrameNo) (rel : Option Port) : c.frtStep (c.release n rel) := Machine.release_step _ n rel c

/-- The walk queue is no part of a release. -/
theorem release_walks : ∀ (k : Nat) (n : FrameNo) (rel : Option Port) (c : Chip), (release k n rel c).frt.walks = c.frt.walks
  | 0, _, _, _ => rfl
  | k + 1, n, rel, c => by
    have hf : (c.freeFrame n).frt.walks = c.frt.walks := by
      unfold Chip.freeFrame
      dsimp only
      split <;> rfl
    have hp : ∀ (d : Chip) i pin, (d.placeContinuation i pin rel).frt = d.frt := by
      intro d i pin
      unfold Chip.placeContinuation
      dsimp only
      split
      · split <;> rfl
      · rfl
    unfold release
    dsimp only
    split
    · exact hf
    · split
      · rw [hp, hf]
      · split
        · split
          · rw [release_walks k]
            show ((c.freeFrame n).freeSlot _).frt.walks = _
            rw [Chip.freeSlot_frt, hf]
          · show ((c.freeFrame n).freeSlot _).frt.walks = _
            rw [Chip.freeSlot_frt, hf]
        · rw [hp, hf]

/-! ## OPEN_FRAME -/

/-- The lowest-numbered FREE frame. -/
theorem Chip.freeFrameNo_eq {c : Chip} {n : FrameNo} (h1 : (c.frame n).state = .free) (h2 : ∀ m, m < n → (c.frame m).state ≠ .free) :
    c.freeFrameNo = some n := by
  unfold Chip.freeFrameNo
  rw [List.find?_eq_some_iff_getElem]
  refine ⟨by simp [h1], n.val, by simp, by simp, fun j hj => ?_⟩
  simp
  exact h2 ⟨j, by omega⟩ hj

/-- An OPEN_FRAME whose sender, current ticket and pin port pass comes to its last claim. -/
theorem open_to_room {c : Chip} {p : Port} {m : Packet} {r : OpenReq} (h : c.ready p m (.openFrame r)) (hst : c.hcu.state = .running)
    (ha : c.attached p = true) (hc : r.current.any (fun h => !c.holds p h) = false) (hpn : r.pin.any (fun q => !c.attached q) = false) :
    repeatClaim 4 (fun c => c.goOn .openFrame .frt p (openClaim p .now))
        (openClaim p .now ⟨m.tag, .openFrame r, .given⟩ (c.dispatched p ⟨m.tag, .openFrame r, .given⟩)) =
      openStage p .now ⟨m.tag, .openFrame r, .pinRead⟩ r (c.counted .frt p ⟨m.tag, .openFrame r, .pinRead⟩) := by
  have hh : ∀ st h', (c.counted .frt p ⟨m.tag, .openFrame r, st⟩).holds p h' = c.holds p h' := fun _ _ => rfl
  have e0 : openClaim p .now ⟨m.tag, .openFrame r, .given⟩ (c.dispatched p ⟨m.tag, .openFrame r, .given⟩) =
      c.counted .frt p ⟨m.tag, .openFrame r, .hubRead⟩ := by
    simp only [openClaim, openStage, Chip.dispatched_hcu, hst, Chip.dispatched_counted h]
  have next : ∀ n st, repeatClaim (n + 1) (fun c => c.goOn .openFrame .frt p (openClaim p .now)) (c.counted .frt p ⟨m.tag, .openFrame r, st⟩) =
      repeatClaim n (fun c => c.goOn .openFrame .frt p (openClaim p .now))
        (openStage p .now ⟨m.tag, .openFrame r, st⟩ r (c.counted .frt p ⟨m.tag, .openFrame r, st⟩)) := fun n st => by
    rw [repeatClaim_succ, Chip.goOn_some (row := .openFrame) (Chip.counted_atBlock ..) rfl]; rfl
  rw [e0, next]
  simp only [openStage, Chip.counted_attached, ha, if_true, Chip.counted_advance h]
  rw [next]
  have e1 : openStage p .now ⟨m.tag, .openFrame r, .senderRead⟩ r (c.counted .frt p ⟨m.tag, .openFrame r, .senderRead⟩) =
      c.counted .frt p ⟨m.tag, .openFrame r, .currentRead⟩ := by
    simp only [openStage]
    cases hcur : r.current with
    | none => exact Chip.counted_advance h _ _
    | some h' => rw [hcur] at hc; simp at hc; simp only [hh, hc, if_true]; exact Chip.counted_advance h _ _
  rw [e1, next]
  have e2 : openStage p .now ⟨m.tag, .openFrame r, .currentRead⟩ r (c.counted .frt p ⟨m.tag, .openFrame r, .currentRead⟩) =
      c.counted .frt p ⟨m.tag, .openFrame r, .pinRead⟩ := by
    simp only [openStage]
    cases hcur : r.pin with
    | none => exact Chip.counted_advance h _ _
    | some h' => rw [hcur] at hpn; simp at hpn; simp only [Chip.counted_attached, hpn, if_true]; exact Chip.counted_advance h _ _
  rw [e2, next]
  rfl

/-! ## What a release reads of the ports: their states alone -/

theorem Chip.withPortsOf_freeFrame (d c : Chip) (n : FrameNo) : (d.withPortsOf c).freeFrame n = (d.freeFrame n).withPortsOf c := by
  unfold Chip.freeFrame
  dsimp only
  rw [show (d.withPortsOf c).frame n = d.frame n from rfl]
  split <;> rfl

theorem Chip.withPortsOf_freeSlot (d c : Chip) (i : SlotNo) : (d.withPortsOf c).freeSlot i = (d.freeSlot i).withPortsOf c := by
  unfold Chip.freeSlot
  rw [show (d.withPortsOf c).ticket i = d.ticket i from rfl]
  split
  · rfl
  · dsimp only
    rw [show ((d.withPortsOf c).setSlot i ⟨((d.withPortsOf c).slot i).gen + 1, none⟩) =
      (d.setSlot i ⟨(d.slot i).gen + 1, none⟩).withPortsOf c from rfl]
    split <;> rename_i hf
    · rw [if_pos (by exact hf)]; rfl
    · rw [if_neg (by exact hf)]; rfl

theorem Chip.withPortsOf_placeContinuation {c d : Chip} (h : ∀ q, (c.pc q).state = (d.pc q).state) (i : SlotNo) (pin rel : Option Port) :
    (d.withPortsOf c).placeContinuation i pin rel = (d.placeContinuation i pin rel).withPortsOf c := by
  have ha : ∀ q, (d.withPortsOf c).attached q = d.attached q := fun q => by
    show ((c.pc q).state == .attached) = _
    rw [h q]; rfl
  have hd : (d.withPortsOf c).releaseDest rel = d.releaseDest rel := by
    unfold Chip.releaseDest
    simp only [ha]
  unfold Chip.placeContinuation
  rw [hd]
  simp only [ha]
  split
  · split <;> rfl
  · rfl

theorem release_withPortsOf : ∀ (k : Nat) (n : FrameNo) (rel : Option Port) {c d : Chip}, (∀ q, (c.pc q).state = (d.pc q).state) →
    release k n rel (d.withPortsOf c) = (release k n rel d).withPortsOf c
  | 0, _, _, _, _, _ => rfl
  | k + 1, n, rel, c, d, h => by
    have same : ∀ {e : Chip}, d.frtStep e → ∀ q, (c.pc q).state = (e.pc q).state := fun he q => by
      unfold Chip.pc at *
      rw [he.pcs]; exact h q
    have h1 := d.freeFrame_step n
    unfold release
    dsimp only
    rw [show (d.withPortsOf c).frame n = d.frame n from rfl, Chip.withPortsOf_freeFrame]
    split
    · rfl
    · rename_i j hj
      rw [show ((d.freeFrame n).withPortsOf c).ticket j.slot = (d.freeFrame n).ticket j.slot from rfl]
      split
      · exact Chip.withPortsOf_placeContinuation (same h1) _ _ _
      · rename_i g hg
        rw [show ((d.freeFrame n).withPortsOf c).refState g = (d.freeFrame n).refState g from rfl]
        split
        · have h2 : d.frtStep (((d.freeFrame n).freeSlot j.slot).countEnd g.index .cancelled) :=
            (h1.trans (Chip.freeSlot_step _ j.slot)).trans rfl
          rw [Chip.withPortsOf_freeSlot,
            show (((d.freeFrame n).freeSlot j.slot).withPortsOf c).countEnd g.index .cancelled =
              (((d.freeFrame n).freeSlot j.slot).countEnd g.index .cancelled).withPortsOf c from rfl]
          rw [show (((((d.freeFrame n).freeSlot j.slot).countEnd g.index .cancelled).withPortsOf c).frame g.index).pending =
            ((((d.freeFrame n).freeSlot j.slot).countEnd g.index .cancelled).frame g.index).pending from rfl]
          split
          · exact release_withPortsOf k _ rel (same h2)
          · rfl
        · exact Chip.withPortsOf_placeContinuation (same h1) _ _ _

/-- The RETIRE messages a walk step sends. -/
theorem Chip.retireWalked_eq : ∀ (is : List SlotNo) (c : Chip),
    c.retireWalked is = { c with
      wires := { c.wires with retireWalk := c.wires.retireWalk ++ is.map fun i => ⟨i, .cancelled, none⟩ } }
  | [], c => by simp [Chip.retireWalked]
  | i :: is, c => by
    show (c.sendRetire .walk ⟨i, .cancelled, none⟩).retireWalked is = _
    rw [Chip.retireWalked_eq is]
    simp [Chip.sendRetire]

/-- A release reads of the Port Controllers their states alone, and nothing of the Link Engines. -/
theorem Chip.release_withPortsOf {c d : Chip} (h : ∀ q, (c.pc q).state = (d.pc q).state) (n : FrameNo) (rel : Option Port) :
    (d.withPortsOf c).release n rel = (d.release n rel).withPortsOf c := Machine.release_withPortsOf _ n rel h

end Sys2Proof.Machine
end

