-- ==== Sys2Proof/Laws/Gathers.lean ====
section
/-! SUPPORT. QUERY HUB and QUERY PORT: one block's part of the only gather of a port, and every part of it at one moment. -/

namespace Sys2Proof.Machine

section one
variable {c : Chip} {p : Port} {x : Pc} {g : Gather} {b : QueryPart}

/-- A part of the port's only gather, with others still to read. -/
theorem gatherPart_more (hx : x.gathers = [g]) (hl : g.lacks b = true) (hb : ((c.asked p x).readPart g b).body = none) :
    gatherPart p g.isHub b (c.asked p x) = c.asked p { x with gathers := [(c.asked p x).readPart g b] } := by
  have ht : ((c.asked p x).readPart g b).tag = g.tag := by unfold Chip.readPart; split <;> rfl
  simp [gatherPart, hx, hl, Chip.putGather, hb, ht]

/-- The last part of the port's only gather: it is answered. -/
theorem gatherPart_last {body : List Word} (hx : x.gathers = [g]) (hl : g.lacks b = true)
    (hb : ((c.asked p x).readPart g b).body = some body) :
    gatherPart p g.isHub b (c.asked p x) = c.asked p ({ x with gathers := [] }.respond g.tag .ok body) := by
  have ht : ((c.asked p x).readPart g b).tag = g.tag := by unfold Chip.readPart; split <;> rfl
  simp [gatherPart, hx, hl, Chip.putGather, hb, ht, Chip.respond]

/-- A part that the port's only gather does not lack. -/
theorem gatherPart_skip (hub : Bool) (hx : x.gathers = [g]) (hl : g.lacks b = false) :
    gatherPart p hub b (c.asked p x) = c.asked p x := by
  simp [gatherPart, hx, hl]

/-- Of the four Port Controllers, the one of the port queried is read. -/
theorem gatherPart_pcs {tag : Tag} {q : Port} (hx : x.gathers = [⟨tag, .port q .unread⟩]) :
    gatherPart p false (.pc .p3) (gatherPart p false (.pc .p2) (gatherPart p false (.pc .p1) (gatherPart p false (.pc .p0) (c.asked p x)))) =
      c.asked p { x with gathers := [⟨tag, .port q ⟨some ((c.asked p x).pc q).settings, none, none, none⟩⟩] } := by
  have hread : gatherPart p false (.pc q) (c.asked p x) =
      c.asked p { x with gathers := [⟨tag, .port q ⟨some ((c.asked p x).pc q).settings, none, none, none⟩⟩] } :=
    gatherPart_more (b := .pc q) hx (by simp [Gather.lacks, PortReport.unread]) rfl
  have hskip : ∀ q', q' ≠ q → gatherPart p false (.pc q') (c.asked p x) = c.asked p x := fun q' h =>
    gatherPart_skip false hx (by simp [Gather.lacks, h])
  have hdone : ∀ q', gatherPart p false (.pc q')
      (c.asked p { x with gathers := [⟨tag, .port q ⟨some ((c.asked p x).pc q).settings, none, none, none⟩⟩] }) =
      c.asked p { x with gathers := [⟨tag, .port q ⟨some ((c.asked p x).pc q).settings, none, none, none⟩⟩] } := fun q' =>
    gatherPart_skip false rfl (by simp [Gather.lacks])
  cases q <;> simp [hread, hskip, hdone]

/-- What the Port Controllers report of themselves is as it was before a dispatch. -/
theorem Chip.asked_settings (h : (c.pc p).alike x) (he : x.errors = (c.pc p).errors) (q : Port) :
    ((c.asked p x).pc q).settings = (c.pc q).settings := by
  have := Chip.asked_pc h q
  have herr : ((c.asked p x).pc q).errors = (c.pc q).errors := by
    by_cases hq : q = p
    · subst hq; rw [Chip.asked_pc_self]; exact he
    · rw [Chip.asked_pc_ne c x hq]
  simp only [Pc.settings, this.1, this.2.1, herr]

end one

section whole
variable {c : Chip} {p : Port} {m : Packet}

/-- A ready QUERY HUB of a port that gathers nothing, taken whole. -/
theorem queryHub_whole (h : c.ready p m .queryHub) (hg : (c.pc p).gathers = []) :
    c.runGather .queryHub p true hubParts .whole =
      c.answered p m.tag .ok (hubBody c.hcu.state.code c.tks.free.length c.rqc.shared.length c.frt.inUse c.rqc.parked.length
        c.frt.walks.length) := by
  have hd : c.dispatchHead .queryHub p = _ := Chip.dispatchHead_gather h (g := ⟨m.tag, .hub .unread⟩) rfl
  simp only [Chip.runGather, hg, List.any_nil, Bool.false_eq_true, if_false, hd, List.nil_append, hubParts, List.foldl_cons,
    List.foldl_nil]
  have e1 := gatherPart_more (c := c) (p := p) (x := { (c.pc p).passed with gathers := [⟨m.tag, .hub .unread⟩] }) (b := .hcu) rfl rfl rfl
  have e2 := gatherPart_more (c := c) (p := p)
    (x := { (c.pc p).passed with gathers := [⟨m.tag, .hub ⟨some c.hcu.state.code, none, none, none⟩⟩] }) (b := .tks) rfl rfl rfl
  have e3 := gatherPart_more (c := c) (p := p)
    (x := { (c.pc p).passed with gathers := [⟨m.tag, .hub ⟨some c.hcu.state.code, some c.tks.free.length, none, none⟩⟩] }) (b := .rqc)
    rfl rfl rfl
  have e4 := gatherPart_last (c := c) (p := p)
    (x := { (c.pc p).passed with
      gathers := [⟨m.tag, .hub ⟨some c.hcu.state.code, some c.tks.free.length, some (c.rqc.shared.length, c.rqc.parked.length), none⟩⟩] })
    (b := .frt) rfl rfl rfl
  refine ((congrArg (fun d => gatherPart p true .frt (gatherPart p true .rqc (gatherPart p true .tks d))) e1).trans
    ((congrArg (fun d => gatherPart p true .frt (gatherPart p true .rqc d)) e2).trans
      ((congrArg (fun d => gatherPart p true .frt d) e3).trans e4))).trans ?_
  simp [Chip.answered, Pc.respond, Pc.enqueue, Pc.passed, Pc.served, hg]

/-- A ready QUERY PORT of a port that gathers nothing, taken whole. -/
theorem queryPort_whole {q : Port} (h : c.ready p m (.queryPort q)) (hg : (c.pc p).gathers = []) :
    c.runGather .queryPort p false portParts .whole =
      c.answered p m.tag .ok (portBody (c.pc q).settings (c.stack q).length (c.parkedOf q).length (c.tks.alloc.get q)
        (c.hcu.quota.get q)) := by
  have hd : c.dispatchHead .queryPort p = _ := Chip.dispatchHead_gather h (g := ⟨m.tag, .port q .unread⟩) rfl
  simp only [Chip.runGather, hg, List.any_nil, Bool.false_eq_true, if_false, hd, List.nil_append, portParts, List.foldl_cons,
    List.foldl_nil]
  have hs : ∀ gs, ((c.asked p { (c.pc p).passed with gathers := gs }).pc q).settings = (c.pc q).settings := fun gs =>
    Chip.asked_settings (x := { (c.pc p).passed with gathers := gs }) ⟨rfl, rfl, rfl⟩ rfl q
  have e1 := gatherPart_pcs (c := c) (p := p) (x := { (c.pc p).passed with gathers := [⟨m.tag, .port q .unread⟩] }) rfl
  simp only [hs] at e1
  have e2 := gatherPart_more (c := c) (p := p)
    (x := { (c.pc p).passed with gathers := [⟨m.tag, .port q ⟨some (c.pc q).settings, none, none, none⟩⟩] }) (b := .rqc) rfl rfl rfl
  have e3 := gatherPart_more (c := c) (p := p)
    (x := { (c.pc p).passed with
      gathers := [⟨m.tag, .port q ⟨some (c.pc q).settings, some ((c.stack q).length, (c.parkedOf q).length), none, none⟩⟩] })
    (b := .tks) rfl rfl rfl
  have e4 := gatherPart_last (c := c) (p := p)
    (x := { (c.pc p).passed with
      gathers := [⟨m.tag, .port q ⟨some (c.pc q).settings, some ((c.stack q).length, (c.parkedOf q).length), some (c.tks.alloc.get q),
        none⟩⟩] })
    (b := .hcu) rfl rfl rfl
  refine ((congrArg (fun d => gatherPart p false .hcu (gatherPart p false .tks (gatherPart p false .rqc d))) e1).trans
    ((congrArg (fun d => gatherPart p false .hcu (gatherPart p false .tks d)) e2).trans
      ((congrArg (fun d => gatherPart p false .hcu d) e3).trans e4))).trans ?_
  simp [Chip.answered, Pc.respond, Pc.enqueue, Pc.passed, Pc.served, hg]

end whole

end Sys2Proof.Machine
end

