-- ==== Sys2Proof/Laws/Link.lean ====
section
/-! SUPPORT. The task link: the symbol a good TRAIN is, what a command of the link does to the hub, and what each function of a Link Engine can do. -/

namespace Sys2Proof.Machine

/-- A command of the task link changes its port's Link Engine and nothing else. -/
theorem exec_linkRun {s : State} {i : Instr} {p : Port} {f : Link → Link} (hr : s.chip.rst = false)
    (h : linkRun i = some (p, f)) :
    exec i s = .next { s with chip := { s.chip with links := s.chip.links.set p (f (s.chip.link p)) } } := by
  have h1 : i ≠ .rstNAssert := by rintro rfl; simp [linkRun] at h
  have h2 : ∀ st, i ≠ .rstNDeassert st := by rintro st rfl; simp [linkRun] at h
  rw [exec_eq_run i s h1 h2, State.run_of_not_rst hr, effect_of_linkRun h]; rfl

/-- The good TRAIN is the symbol 0xFE01. -/
theorem sortUnit_eq_train {u : LaneUnit} : sortUnit u = .train ↔ u = .control 0xFE01#16 := by
  constructor
  · intro e
    cases u with
    | data w => simp [sortUnit] at e
    | undecodable => simp [sortUnit] at e
    | control y =>
      simp only [sortUnit] at e
      split at e
      · cases e
      · rename_i hc
        have hc := Decidable.not_not.mp hc
        split at e <;> first | cases e | (split at e <;> cases e)
        rename_i h1 h2
        congr 1
        apply BitVec.eq_of_toNat_eq
        have h3 := congrArg BitVec.toNat hc
        have h4 := congrArg BitVec.toNat h2
        simp [BitVec.extractLsb'_toNat, BitVec.toNat_not, Nat.shiftRight_eq_div_pow] at h1 h3 h4 ⊢
        have := y.isLt
        omega
  · rintro rfl; rfl

/-- A unit received in TRAINING. -/
theorem Link.receive_training {l : Link} (h : l.state = .training) (u : RxUnit) :
    l.receive u = if l.trainRun < 16 then { l with trainRun := if u = .train then l.trainRun + 1 else 0 } else l := by
  simp only [Link.receive, h, Link.trainUnit, Config.trainLength]
  split
  · cases u <;> simp
  · rfl

/-- A unit received in UP. -/
theorem Link.receive_up {l : Link} (h : l.state = .up) (u : RxUnit) : l.receive u = l.unitInUp u := by
  simp [Link.receive, h]

/-- A unit received in UP outside a packet. -/
theorem Link.receive_outside {l : Link} (h : l.state = .up) (hx : l.rx = none) {u : RxUnit} (hu : u ≠ .train) :
    l.receive u = (l.count u).unitOutside u := by
  simp [Link.receive, h, Link.unitInUp, hu, hx]

/-- A unit received in UP inside a packet. -/
theorem Link.receive_inside {l : Link} (h : l.state = .up) {k : OpenPacket} (hx : l.rx = some k) {u : RxUnit} (hu : u ≠ .train) :
    l.receive u = (l.count u).unitInside k u := by
  simp [Link.receive, h, Link.unitInUp, hu, hx]

/-- A good unit other than TRAIN starts the silence timer and settles the link. -/
theorem Link.count_good {l : Link} {u : RxUnit} (h1 : u ≠ .train) (h2 : u ≠ .damaged) :
    l.count u = { l with silence := some 0, settled := true } := by
  cases u <;> first | rfl | exact absurd rfl h1 | exact absurd rfl h2

/-- Owing a NAK changes the owed acknowledgement and the mark that a NAK is outstanding, and nothing else. -/
theorem Link.oweNak_eq (l : Link) :
    l.oweNak = { l with owed := if l.nakOut then l.owed else some (.nak l.expected), nakOut := true } := by
  unfold Link.oweNak
  cases h : l.nakOut
  · simp
  · cases l; simp only at h; subst h; simp

/-- A packet is good exactly when it is undamaged, holds 2 to 17 words, and ends with the CRC word of the others. -/
theorem OpenPacket.good_iff (k : OpenPacket) :
    k.good = true ↔ k.damaged = false ∧ 2 ≤ k.words.length ∧ k.words.length ≤ 17 ∧
      k.words.getLast? = some (crcOf k.seq k.words.dropLast) := by
  have h : decide (2 ≤ k.words.length ∧ k.words.length ≤ Config.packetWordsMax) = true ↔
      2 ≤ k.words.length ∧ k.words.length ≤ 17 := decide_eq_true_iff
  unfold OpenPacket.good
  rw [Bool.and_eq_true, Bool.and_eq_true, h, beq_iff_eq, Bool.not_eq_true']
  exact ⟨fun ⟨⟨a, b, c⟩, d⟩ => ⟨a, b, c, d⟩, fun ⟨a, b, c, d⟩ => ⟨⟨a, b, c⟩, d⟩⟩

end Sys2Proof.Machine
end

