-- ==== Sys2Proof/Laws/Service.lean ====
section
/-! SUPPORT. Parked service, placement and the searches of a take: which fields they change, and which fields they read. -/

namespace Sys2Proof.Machine

/-! ## What they change: the Ticket Store, the Run Queue Controller and the messages -/

/-- The hub `d` differs from `c` in its Ticket Store, its Run Queue Controller, and its takes, its RQC's RETIREs and its events alone. -/
def Chip.rqcStep (c d : Chip) : Prop :=
  d = { c with
    tks := d.tks, rqc := d.rqc
    wires := { c.wires with takes := d.wires.takes, retireRqc := d.wires.retireRqc, events := d.wires.events } }

theorem Chip.rqcStep.refl (c : Chip) : c.rqcStep c := rfl

theorem Chip.rqcStep.trans {c d e : Chip} (h1 : c.rqcStep d) (h2 : d.rqcStep e) : c.rqcStep e := by
  unfold Chip.rqcStep at *
  rw [h2, h1]

theorem Chip.rqcStep.rst {c d : Chip} (h : c.rqcStep d) : d.rst = c.rst := by rw [h]
theorem Chip.rqcStep.straps {c d : Chip} (h : c.rqcStep d) : d.straps = c.straps := by rw [h]
theorem Chip.rqcStep.hcu {c d : Chip} (h : c.rqcStep d) : d.hcu = c.hcu := by rw [h]
theorem Chip.rqcStep.frt {c d : Chip} (h : c.rqcStep d) : d.frt = c.frt := by rw [h]
theorem Chip.rqcStep.ltu {c d : Chip} (h : c.rqcStep d) : d.ltu = c.ltu := by rw [h]
theorem Chip.rqcStep.pcs {c d : Chip} (h : c.rqcStep d) : d.pcs = c.pcs := by rw [h]
theorem Chip.rqcStep.links {c d : Chip} (h : c.rqcStep d) : d.links = c.links := by rw [h]
theorem Chip.rqcStep.answers {c d : Chip} (h : c.rqcStep d) : d.wires.answers = c.wires.answers := by rw [h]

theorem Chip.setRunList_step (c : Chip) (r : RunList) (l : List SlotNo) : c.rqcStep (c.setRunList r l) := by
  cases r <;> rfl

theorem Chip.sendRetire_step (c : Chip) (m : RetireMsg) : c.rqcStep (c.sendRetire .rqc m) := rfl

theorem Chip.noteSource_step (c : Chip) (p : Port) (src : Source) : c.rqcStep (c.noteSource p src) := by
  cases src <;> rfl

theorem Chip.carryOut_step (c : Chip) (r : RunList) (o : Offer) : c.rqcStep (c.carryOut r o) := by
  unfold Chip.carryOut
  dsimp only
  split
  · exact (c.setRunList_step r o.rest).trans (Chip.sendRetire_step _ _)
  · refine (c.setRunList_step r o.rest).trans ?_
    refine Chip.rqcStep.trans (d := (c.setRunList r o.rest).dropParked o.entry) rfl ?_
    exact (Chip.noteSource_step _ _ _).trans rfl

theorem serve_step : ∀ (n : Nat) (r : RunList) (c : Chip), c.rqcStep (serve n r c)
  | 0, _, c => Chip.rqcStep.refl c
  | n + 1, r, c => by
    unfold serve
    split
    · exact Chip.rqcStep.refl c
    · exact (c.carryOut_step r _).trans (serve_step n r _)

theorem Chip.parkedService_step (c : Chip) (r : RunList) : c.rqcStep (c.parkedService r) := serve_step _ r c

theorem Chip.raiseAll_step (k : EventKind) : ∀ (ps : List Port) (c : Chip), c.rqcStep (c.raiseAll ps k)
  | [], c => Chip.rqcStep.refl c
  | p :: ps, c => Chip.rqcStep.trans (d := c.raise p k) rfl (Chip.raiseAll_step k ps _)

theorem Chip.placeOnStack_step (c : Chip) (q : Port) (i : SlotNo) : c.rqcStep (c.placeOnStack q i) := by
  unfold Chip.placeOnStack
  dsimp only
  have h : c.rqcStep (((c.setStack q (i :: c.stack q)).updTicket i fun t => { t with state := .queued }).parkedService
      (.stack q)) := Chip.rqcStep.trans (d := (c.setStack q (i :: c.stack q)).updTicket i fun t => { t with state := .queued }) rfl
        (Chip.parkedService_step _ _)
  split
  · exact h.trans rfl
  · exact h

theorem Chip.placeShared_step (c : Chip) (i : SlotNo) : c.rqcStep (c.placeShared i) := by
  unfold Chip.placeShared
  dsimp only
  have h : c.rqcStep (((c.setShared (c.rqc.shared ++ [i])).updTicket i fun t =>
      { t with state := .queued, pin := none }).parkedService .shared) :=
    Chip.rqcStep.trans (d := (c.setShared (c.rqc.shared ++ [i])).updTicket i fun t => { t with state := .queued, pin := none }) rfl
      (Chip.parkedService_step _ _)
  split
  · exact h.trans (Chip.raiseAll_step _ _ _)
  · exact h

/-- A placement changes the Ticket Store, the Run Queue Controller and the messages alone. -/
theorem Chip.placeAt_step (c : Chip) (dest : RunList) (i : SlotNo) : c.rqcStep (c.placeAt dest i) := by
  unfold Chip.placeAt
  split
  · exact c.placeOnStack_step _ i
  · exact c.placeShared_step i

theorem Chip.transfer_step : ∀ (is : List SlotNo) (c : Chip), c.rqcStep (c.transfer is)
  | [], c => Chip.rqcStep.refl c
  | i :: is, c => (c.placeShared_step i).trans (Chip.transfer_step is _)

theorem searchList_step : ∀ (n : Nat) (r : RunList) (cand : Chip → Option (SlotNo × List SlotNo)) (rel : Port) (c : Chip),
    c.rqcStep (searchList n r cand rel c).1
  | 0, _, _, _, c => Chip.rqcStep.refl c
  | n + 1, r, cand, rel, c => by
    unfold searchList
    split
    · exact Chip.rqcStep.refl c
    · dsimp only
      split
      · exact ((c.setRunList_step r _).trans (Chip.sendRetire_step _ _)).trans (searchList_step n r cand rel _)
      · exact c.setRunList_step r _

theorem stealFrom_step (p : Port) : ∀ (vs : List Port) (c : Chip), c.rqcStep (stealFrom p vs c).1
  | [], c => Chip.rqcStep.refl c
  | v :: vs, c => by
    unfold stealFrom
    have h := searchList_step (c.stack v).length (.stack v) (·.stealCandidate v) p c
    split
    · rename_i c1 i hs
      rw [hs] at h
      exact h.trans rfl
    · rename_i c1 hs
      rw [hs] at h
      exact h.trans (stealFrom_step p vs c1)

/-- A steal search changes the Run Queue Controller and the messages, and no other field but, formally, the Ticket Store. -/
theorem Chip.stealSearch_step (c : Chip) (p : Port) : c.rqcStep (c.stealSearch p).1 := stealFrom_step p _ c

/-! ## With nothing to offer, and events for several ports -/

/-- Parked service that has nothing to offer. -/
theorem Chip.parkedService_none {c : Chip} {r : RunList} (h : c.offer r = none) : c.parkedService r = c := by
  unfold Chip.parkedService
  cases (c.runList r).length
  · rfl
  · simp [serve, h]

/-- With no pop parked nothing is offered. -/
theorem Chip.offer_of_no_parked {c : Chip} (h : c.rqc.parked = []) (r : RunList) : c.offer r = none := by
  cases r with
  | stack q =>
    simp [Chip.offer, Chip.stackOffer, Chip.parkedOf, h, Chip.oldestThief]
  | shared => simp [Chip.offer, Chip.sharedOffer, h]

/-- An event raised for each of some different ports. -/
theorem Chip.raiseAll_eq (k : EventKind) : ∀ (ps : List Port) (c : Chip), ps.Nodup → c.raiseAll ps k = { c with
    wires := { c.wires with events := .tab fun q => if q ∈ ps then c.wires.events.get q ++ [k] else c.wires.events.get q } } := by
  intro ps
  induction ps with
  | nil => intro c _; apply Chip.ext_fields <;> rfl
  | cons p ps ih =>
    intro c hn
    have := List.nodup_cons.mp hn
    show (c.raise p k).raiseAll ps k = _
    rw [ih _ this.2]
    apply Chip.ext_fields <;> try rfl
    simp only [Chip.raise_wires]
    congr 1
    apply PerPort.ext_get; intro q
    simp only [PerPort.get_tab, PerPort.upd_eq, PerPort.get_set, List.mem_cons]
    by_cases hq : q = p
    · subst hq; simp [this.1]
    · simp [hq]

theorem Port.all_nodup : Port.all.Nodup := by decide

/-! ## Parked service of one ticket, and the searches of a take -/

/-- Parked service of a list with one ticket, when there is an offer. -/
theorem Chip.parkedService_one {c : Chip} {r : RunList} {i : SlotNo} {o : Offer} (h : c.runList r = [i])
    (ho : c.offer r = some o) : c.parkedService r = c.carryOut r o := by
  unfold Chip.parkedService
  rw [h]
  show serve 1 r c = _
  simp only [serve, ho]

/-- An offer carried out leaves its list without the candidate. -/
theorem Chip.carryOut_runList (c : Chip) (r : RunList) (o : Offer) : (c.carryOut r o).runList r = o.rest := by
  have h : ∀ d : Chip, (d.setRunList r o.rest).runList r = o.rest := by
    intro d; cases r <;> simp [Chip.setRunList, Chip.runList, Chip.setStack, Chip.setShared, Chip.stack]
  unfold Chip.carryOut
  dsimp only
  split
  · exact h c
  · cases o.source <;> exact h c

/-- Parked service that has an offer is that offer carried out, and then parked service at the list as it then stands. -/
theorem Chip.parkedService_next {c : Chip} {r : RunList} {o : Offer} (ho : c.offer r = some o)
    (hl : (c.runList r).length = o.rest.length + 1) : c.parkedService r = (c.carryOut r o).parkedService r := by
  unfold Chip.parkedService
  rw [hl, Chip.carryOut_runList]
  simp only [serve, ho]

theorem Chip.carryOut_events (c : Chip) (r : RunList) (o : Offer) : (c.carryOut r o).wires.events = c.wires.events := by
  unfold Chip.carryOut
  dsimp only
  split
  · cases r <;> rfl
  · cases o.source <;> cases r <;> rfl

/-- Parked service raises no event. -/
theorem serve_events : ∀ (n : Nat) (r : RunList) (c : Chip), (serve n r c).wires.events = c.wires.events
  | 0, _, _ => rfl
  | n + 1, r, c => by
    unfold serve
    split
    · rfl
    · rename_i o _
      rw [serve_events n r, Chip.carryOut_events]

theorem Chip.parkedService_events (c : Chip) (r : RunList) : (c.parkedService r).wires.events = c.wires.events := serve_events _ r c

theorem Chip.setRunList_parentCancelling (c : Chip) (r : RunList) (l : List SlotNo) (i : SlotNo) :
    (c.setRunList r l).parentCancelling i = c.parentCancelling i := by cases r <;> rfl

/-- A search whose first candidate is not under a CANCELLING parent takes it. -/
theorem searchList_hit {c : Chip} {n : Nat} {r : RunList} {cand : Chip → Option (SlotNo × List SlotNo)} {rel : Port} {i : SlotNo}
    {rest : List SlotNo} (hn : n ≠ 0) (h : cand c = some (i, rest)) (hc : c.parentCancelling i = false) :
    searchList n r cand rel c = (c.setRunList r rest, some i) := by
  cases n with
  | zero => exact absurd rfl hn
  | succ n => simp only [searchList, h, hc, Bool.false_eq_true, if_false]

/-- A search whose first candidate is under a CANCELLING parent retires it and goes on. -/
theorem searchList_retire {c : Chip} {n : Nat} {r : RunList} {cand : Chip → Option (SlotNo × List SlotNo)} {rel : Port} {i : SlotNo}
    {rest : List SlotNo} (h : cand c = some (i, rest)) (hc : c.parentCancelling i = true) :
    searchList (n + 1) r cand rel c =
      searchList n r cand rel ((c.setRunList r rest).sendRetire .rqc ⟨i, .cancelled, some rel⟩) := by
  conv => lhs; unfold searchList
  simp only [h, hc, if_true]

/-- A search with no candidate takes nothing. -/
theorem searchList_none {c : Chip} {n : Nat} {r : RunList} {cand : Chip → Option (SlotNo × List SlotNo)} {rel : Port}
    (h : cand c = none) : searchList n r cand rel c = (c, none) := by
  cases n with
  | zero => rfl
  | succ n => simp only [searchList, h]

/-- A victim that a steal search passes over: not ATTACHED, empty, not STEALABLE, or pinned at the bottom. -/
def Chip.passedOver (c : Chip) (v : Port) : Prop :=
  c.rqcAttached v = false ∨ c.stack v = [] ∨ (c.pc v).params.stealable = false ∨
    ∃ j l, c.stack v = l ++ [j] ∧ c.pinned j = true

theorem Chip.stealCandidate_none {c : Chip} {v : Port} (h : c.passedOver v) : c.stealCandidate v = none := by
  unfold Chip.stealCandidate
  rcases h with h | h | h | ⟨j, l, h1, h2⟩
  · simp [h]
  · simp [h]
  · simp [h]
  · simp [h1, h2]

/-- A steal search takes the bottom ticket of its first victim. -/
theorem stealFrom_first {c : Chip} {p v : Port} {i : SlotNo} {above : List SlotNo} {vs : List Port} (ha : c.rqcAttached v = true)
    (hs : (c.pc v).params.stealable = true) (hst : c.stack v = above ++ [i]) (hp : c.pinned i = false)
    (hc : c.parentCancelling i = false) :
    stealFrom p (v :: vs) c = ((c.setStack v above).moveStealPtr p v, some (i, v)) := by
  have hcand : c.stealCandidate v = some (i, above) := by
    unfold Chip.stealCandidate
    simp [ha, hs, hst, hp]
  unfold stealFrom
  rw [searchList_hit (by rw [hst]; simp) hcand hc]
  rfl

/-- A steal search goes past victims it passes over. -/
theorem stealFrom_past {c : Chip} {p : Port} (r : List Port) : ∀ vs : List Port, (∀ u ∈ vs, c.passedOver u) →
    stealFrom p (vs ++ r) c = stealFrom p r c
  | [], _ => rfl
  | v :: vs, h => by
    show stealFrom p (v :: (vs ++ r)) c = _
    conv => lhs; unfold stealFrom
    rw [searchList_none (Chip.stealCandidate_none (h v (by simp)))]
    exact stealFrom_past r vs (fun u hu => h u (by simp [hu]))

/-- A steal search that passes every victim over takes nothing. -/
theorem stealFrom_none {c : Chip} {p : Port} {vs : List Port} (h : ∀ u ∈ vs, c.passedOver u) : stealFrom p vs c = (c, none) := by
  have := stealFrom_past (p := p) [] vs h
  rwa [List.append_nil] at this

theorem Chip.victims_ne {c : Chip} {p u : Port} (h : u ∈ c.victims p) : u ≠ p := by
  unfold Chip.victims at h
  simp at h; exact h.2

/-! ## What they read: no Port Controller but its state and its parameters -/

/-- The hub `c` with the Ticket Store, the Run Queue Controller, the Frame Table and the messages of `d`. -/
def Chip.over (d c : Chip) : Chip := { c with tks := d.tks, rqc := d.rqc, frt := d.frt, wires := d.wires }

/-- Every port has the same state and parameters in both hubs. -/
def Chip.samePorts (c d : Chip) : Prop := ∀ q, (c.pc q).state = (d.pc q).state ∧ (c.pc q).params = (d.pc q).params

theorem Chip.samePorts.step {c d e : Chip} (h : c.samePorts d) (hs : d.rqcStep e) : c.samePorts e := by
  intro q
  have := h q
  unfold Chip.pc at *
  rw [hs.pcs]
  exact this

theorem Chip.over_pc (d c : Chip) (q : Port) : (d.over c).pc q = c.pc q := rfl

theorem Chip.over_rqcAttached {c d : Chip} (h : c.samePorts d) (q : Port) : (d.over c).rqcAttached q = d.rqcAttached q := by
  simp only [Chip.rqcAttached, Chip.attached, Chip.over_pc, (h q).1]; rfl

theorem Chip.over_oldestThief {c d : Chip} (h : c.samePorts d) (q : Port) : (d.over c).oldestThief q = d.oldestThief q := by
  simp only [Chip.oldestThief, Chip.over_pc, (h _).2]; rfl

theorem Chip.over_offer {c d : Chip} (h : c.samePorts d) (r : RunList) : (d.over c).offer r = d.offer r := by
  cases r with
  | stack q => simp only [Chip.offer, Chip.stackOffer, Chip.over_oldestThief h, Chip.over_pc, (h q).2]; rfl
  | shared => rfl

theorem Chip.over_parentCancelling (d c : Chip) (i : SlotNo) : (d.over c).parentCancelling i = d.parentCancelling i := rfl

theorem Chip.over_setRunList (d c : Chip) (r : RunList) (l : List SlotNo) :
    (d.over c).setRunList r l = (d.setRunList r l).over c := by cases r <;> rfl

theorem Chip.over_sendRetire (d c : Chip) (src : RetireSender) (m : RetireMsg) :
    (d.over c).sendRetire src m = (d.sendRetire src m).over c := by cases src <;> rfl

theorem Chip.over_noteSource (d c : Chip) (p : Port) (src : Source) :
    (d.over c).noteSource p src = (d.noteSource p src).over c := by cases src <;> rfl

theorem Chip.over_carryOut (d c : Chip) (r : RunList) (o : Offer) : (d.over c).carryOut r o = (d.carryOut r o).over c := by
  unfold Chip.carryOut
  rw [Chip.over_parentCancelling, Chip.over_setRunList]
  dsimp only
  split
  · exact Chip.over_sendRetire _ _ _ _
  · show ((((d.setRunList r o.rest).dropParked o.entry).over c).noteSource _ _).sendTake _ = _
    rw [Chip.over_noteSource]; rfl

theorem over_serve : ∀ (n : Nat) (r : RunList) {c d : Chip}, c.samePorts d → serve n r (d.over c) = (serve n r d).over c
  | 0, _, _, _, _ => rfl
  | n + 1, r, c, d, h => by
    unfold serve
    rw [Chip.over_offer h]
    split
    · rfl
    · rw [Chip.over_carryOut]; exact over_serve n r (h.step (d.carryOut_step r _))

theorem Chip.over_runList (d c : Chip) (r : RunList) : (d.over c).runList r = d.runList r := by cases r <;> rfl

theorem Chip.over_parkedService {c d : Chip} (h : c.samePorts d) (r : RunList) :
    (d.over c).parkedService r = (d.parkedService r).over c := by
  unfold Chip.parkedService
  rw [Chip.over_runList]; exact over_serve _ r h

theorem Chip.over_raiseAll (c : Chip) (k : EventKind) : ∀ (ps : List Port) (d : Chip),
    (d.over c).raiseAll ps k = (d.raiseAll ps k).over c
  | [], _ => rfl
  | p :: ps, d => Chip.over_raiseAll c k ps (d.raise p k)

theorem Chip.over_idlePorts {c d : Chip} (h : c.samePorts d) : (d.over c).idlePorts = d.idlePorts := by
  simp only [Chip.idlePorts, Chip.over_rqcAttached h]; rfl

theorem Chip.over_placeOnStack {c d : Chip} (h : c.samePorts d) (q : Port) (i : SlotNo) :
    (d.over c).placeOnStack q i = (d.placeOnStack q i).over c := by
  have key := Chip.over_parkedService
    (d := (d.setStack q (i :: d.stack q)).updTicket i fun t => { t with state := .queued }) (h.step rfl) (.stack q)
  unfold Chip.placeOnStack
  dsimp only
  rw [show (((d.over c).setStack q (i :: (d.over c).stack q)).updTicket i fun t => { t with state := .queued }) =
    ((d.setStack q (i :: d.stack q)).updTicket i fun t => { t with state := .queued }).over c from rfl, key]
  show (if (d.stack q).isEmpty && _ then _ else _) = _
  rw [show ∀ x : Chip, (x.over c).stack q = x.stack q from fun _ => rfl]
  split <;> rfl

theorem Chip.over_placeShared {c d : Chip} (h : c.samePorts d) (i : SlotNo) :
    (d.over c).placeShared i = (d.placeShared i).over c := by
  let d1 : Chip := (d.setShared (d.rqc.shared ++ [i])).updTicket i fun t => { t with state := .queued, pin := none }
  have h1 : c.samePorts d1 := h.step (show d.rqcStep d1 from rfl)
  have key : (d1.over c).parkedService .shared = (d1.parkedService .shared).over c := Chip.over_parkedService h1 .shared
  have hi : ((d1.parkedService .shared).over c).idlePorts = (d1.parkedService .shared).idlePorts :=
    Chip.over_idlePorts (h1.step (Chip.parkedService_step d1 .shared))
  show (if d.rqc.shared.isEmpty && !((d1.over c).parkedService .shared).rqc.shared.isEmpty then
      ((d1.over c).parkedService .shared).raiseAll ((d1.over c).parkedService .shared).idlePorts .workReady
    else (d1.over c).parkedService .shared) =
    (if d.rqc.shared.isEmpty && !(d1.parkedService .shared).rqc.shared.isEmpty then
      (d1.parkedService .shared).raiseAll (d1.parkedService .shared).idlePorts .workReady
    else d1.parkedService .shared).over c
  rw [key, hi, Chip.over_raiseAll]
  show (if d.rqc.shared.isEmpty && !(d1.parkedService .shared).rqc.shared.isEmpty then _ else _) = _
  split <;> rfl

theorem Chip.over_landing {c d : Chip} (h : c.samePorts d) (r : RunList) : (d.over c).landing r = d.landing r := by
  cases r with
  | stack q => simp only [Chip.landing, Chip.over_rqcAttached h]
  | shared => rfl

/-- A placement reads of the Port Controllers their states and parameters alone, and nothing of Hub Control, the Running Table and the Link Engines. -/
theorem Chip.over_placeAt {c d : Chip} (h : c.samePorts d) (dest : RunList) (i : SlotNo) :
    (d.over c).placeAt dest i = (d.placeAt dest i).over c := by
  unfold Chip.placeAt
  rw [Chip.over_landing h]
  split
  · exact Chip.over_placeOnStack h _ i
  · exact Chip.over_placeShared h i

end Sys2Proof.Machine
end

