-- ==== Sys2Proof/Laws/Ports.lean ====
section
/-! SUPPORT. The ports' operations: the WAKE line re-evaluated, PEER_CHANGE raised for the others, the ends a leave waits for, the answers of parked pops. -/

namespace Sys2Proof.Machine

@[simp] theorem EventSet.none_meets (m : EventSet) : EventSet.none.meets m = false := by simp [EventSet.meets, EventSet.none]

theorem Params.default_eq : Params.default = ⟨64, true, true, true, 12500, .none⟩ := rfl

/-- A re-evaluated WAKE line stands as R145 gives. -/
theorem Pc.evalWake_right (x : Pc) : x.evalWake.wakeRight := rfl

theorem Pc.active_iff (x : Pc) : x.active = true ↔ x.state = .attached ∧ x.leave = .no := by simp [Pc.active]

/-- PEER_CHANGE goes to every other port that is ATTACHED and not leaving. -/
theorem Chip.raisePeerChange_eq (c : Chip) (p : Port) : c.raisePeerChange p = { c with
    wires := { c.wires with
      events := .tab fun q =>
        if q ≠ p ∧ (c.pc q).state = .attached ∧ (c.pc q).leave = .no then c.wires.events.get q ++ [.peerChange]
        else c.wires.events.get q } } := by
  unfold Chip.raisePeerChange
  rw [Chip.raiseAll_eq _ _ _ (Port.all_nodup.filter _)]
  have : ∀ q, q ∈ Port.all.filter (fun q => q != p && (c.pc q).active) ↔
      q ≠ p ∧ (c.pc q).state = .attached ∧ (c.pc q).leave = .no := by
    intro q
    simp [List.mem_filter, Port.mem_all, Pc.active_iff]
  simp only [this]

/-- The RQC has reported the end of a leave: its claim is taken, and so is every take handed over for the port. -/
theorem Chip.rqcLeaveEnded_iff (c : Chip) (p : Port) :
    c.rqcLeaveEnded p = true ↔ (∀ loss, .leave loss ∉ c.wires.toRqc.get p) ∧ ∀ m ∈ c.wires.takes, m.port ≠ p := by
  simp only [Chip.rqcLeaveEnded, Bool.and_eq_true, Bool.not_eq_true', List.any_eq_false, Bool.or_eq_true, beq_iff_eq]
  constructor
  · rintro ⟨h1, h2⟩
    refine ⟨fun loss hm => h1 _ hm ?_, h2⟩
    cases loss <;> simp
  · rintro ⟨h1, h2⟩
    refine ⟨fun n hn hor => ?_, h2⟩
    rcases hor with rfl | rfl
    · exact h1 _ hn
    · exact h1 _ hn

/-- The LTU has reported the end of a loss: its claim is taken. -/
theorem Chip.ltuLossEnded_iff (c : Chip) (p : Port) : c.ltuLossEnded p = true ↔ .loss ∉ c.wires.toLtu.get p := by
  simp [Chip.ltuLossEnded]

theorem Chip.noticesTaken_iff (c : Chip) (p : Port) :
    c.noticesTaken p = true ↔ .attach ∉ c.wires.toRqc.get p ∧ .attach ∉ c.wires.toLtu.get p := by
  simp [Chip.noticesTaken]

/-- The answers of parked pops that are on their way: each port's in the order of its entries, and nothing else changes. -/
theorem Chip.answerParked_eq (st : Status) : ∀ (es : List ParkedPop) (c : Chip),
    c.answerParked es st = { c with
      wires := { c.wires with
        answers := .tab fun p =>
          c.wires.answers.get p ++ (es.filter fun e => e.port == p).map fun e => ⟨none, ⟨e.tag, st, [], none⟩⟩ } }
  | [], c => by
    apply Chip.ext_fields <;> try rfl
    simp only [List.filter_nil, List.map_nil, List.append_nil]
    rfl
  | e :: es, c => by
    show (c.sendAnswer none e.port ⟨e.tag, st, [], none⟩).answerParked es st = _
    rw [Chip.answerParked_eq st es]
    apply Chip.ext_fields <;> try rfl
    simp only [Chip.sendAnswer]
    congr 1
    apply PerPort.ext_get; intro p
    simp only [PerPort.get_tab]
    by_cases hp : e.port = p
    · subst hp; simp
    · have h' : p ≠ e.port := fun hh => hp hh.symm
      simp [hp, h']

/-- Of one port's parked pops alone, the table of every port is the change of that port. -/
theorem PerPort.tab_one {α : Type} (v : PerPort α) (p : Port) (f : Port → α → α) (h : ∀ q, q ≠ p → f q (v.get q) = v.get q) :
    (PerPort.tab fun q => f q (v.get q)) = v.set p (f p (v.get p)) := by
  apply PerPort.ext_get; intro q
  by_cases hq : q = p
  · subst hq; simp
  · simp [hq, h q hq]

end Sys2Proof.Machine
end

