-- ==== Sys2Proof/WellFormed.lean ====
section
/-! DEFINITION. Which commands name an event that can be what they say. The operands' types bound every other operand. -/

namespace Sys2Proof

/-- A DAMAGED_UNIT_RECEIVED carries a unit that R181 sorts as damaged; a part of a QUERY HUB or QUERY PORT is one that R160 gives it. -/
def Instr.wellFormed : Instr → Bool
  | .queryHub _ (.part b) => Machine.hubParts.contains b
  | .queryPort _ (.part b) => Machine.portParts.contains b
  | .damagedUnitReceived _ unit => Machine.sortUnit unit == .damaged
  | _ => true

end Sys2Proof
end

