-- ==== Sys2Proof/Tests/Slice0.lean ====
section
/-! SUPPORT. Small tests of the model, and for each statement a concrete state and operands that meet its hypotheses, clause by clause. -/

namespace Sys2Proof.Tests

open Sys2Proof Sys2Proof.Machine

/-! ## Small states -/

/-- Four ATTACHED ports with their links UP, in a RUNNING hub. -/
def hub : Chip :=
  let c := Chip.powerOn (.same true)
  { c with
    hcu := { c.hcu with state := .running }
    rqc := { c.rqc with left := .same false }
    ltu := { c.ltu with departed := .same none }
    pcs := .same { Pc.powerOn true with state := .attached, granted := 8, credit := 1 }
    links := .same { Link.powerOn true with state := .up, silence := some 0, settled := true } }

/-- The state with no command waiting. -/
def on (c : Chip) : State := ⟨[], c⟩

/-- The hub a command answers. -/
def after (i : Instr) (c : Chip) : Chip :=
  match exec i (on c) with
  | .next t => t.chip
  | _ => c

/-- `c` with the request `k` at the head of `p`'s input buffer. -/
def ask (c : Chip) (p : Port) (k : Packet) : Chip :=
  c.updPc p fun x => { x with buffer := [k], outstanding := [k.tag], granted := 7 }

/-- `c` with `p`'s request at stage `st` within block `b`. -/
def doing (c : Chip) (b : Block) (p : Port) (tag : Tag) (r : Req) (st : Stage) : Chip :=
  c.updPc p fun x => { x with atBlock := x.atBlock.set b (some ⟨tag, r, st⟩), outstanding := [tag], reserved := 1 }

/-- `c` with `p`'s request dispatched and standing at stage `st` at its Port Controller. -/
def keeping (c : Chip) (p : Port) (tag : Tag) (r : Req) (st : Stage) : Chip :=
  c.updPc p fun x => { x with current := some ⟨tag, r, st⟩, outstanding := [tag], reserved := 1 }

/-- `c` with answers on their way to port `p`, of these tags and each of order `o`. -/
def owing (c : Chip) (o : Option Block) (p : Port) (tags : List Tag) : Chip :=
  { c with wires := { c.wires with answers := c.wires.answers.set p (tags.map fun tag => ⟨o, ⟨tag, .ok, [], none⟩⟩) } }

/-- `c` with the ticket `t` in slot `i`. -/
def put (c : Chip) (i : SlotNo) (t : Ticket) : Chip := c.setSlot i ⟨(c.slot i).gen, some t⟩

/-- `c` with other messages in flight. -/
def wired (c : Chip) (f : Wires → Wires) : Chip := { c with wires := f c.wires }

/-- `c` in another hub state. -/
def inState (c : Chip) (h : HubState) : Chip := { c with hcu := { c.hcu with state := h } }

/-- `c` with frame 0 in state `st`, with `pending` children. -/
def framed (c : Chip) (st : FrameState) (pending : Nat) : Chip :=
  c.setFrame 0 { Frame.powerOn with state := st, pending := pending, continuation := some ⟨9, 0⟩, opener := some .p0 }

/-- `c` with port `p` in state `st`. -/
def stand (c : Chip) (p : Port) (st : PortState) : Chip := c.updPc p fun x => { x with state := st }

/-- A queued task of port P0 without words. -/
def task : Ticket := ⟨.queued, .task, .p0, none, none, [], [], none, none, 0⟩

/-- Frame 0 at generation 0. -/
def ref0 : FrameRef := ⟨0, 0⟩

/-- The packet of a request: kind code, flags, body, under tag 5. -/
def pkt (kind : BitVec 6) (flags : BitVec 8) (body : List Word) : Packet := ⟨kind, 5, flags, body⟩

/-- `Chip.ready`, read off by evaluation. -/
def readyHere (c : Chip) (p : Port) (k : Packet) (r : Req) : Bool :=
  !c.rst && (c.pc p).mayDispatch && ((c.pc p).buffer.head? == some k) &&
    (match k.decode with
      | .ok r' => r' == r
      | .error _ => false) &&
    (match r.block with
      | some b => ((c.pc p).atBlock.get b).isNone && (c.wires.answers.get p).all fun a => a.order != some b
      | none => true) &&
    !(c.pc p).keepsWaiting r

theorem ready_of {c : Chip} {p : Port} {k : Packet} {r : Req} (h : readyHere c p k r = true) : c.ready p k r := by
  unfold readyHere at h
  simp only [Bool.and_eq_true, Bool.not_eq_true', beq_iff_eq] at h
  obtain ⟨⟨⟨⟨⟨h1, h2⟩, h3⟩, h4⟩, h5⟩, h6⟩ := h
  refine ⟨h1, h2, h3, ?_, ?_, h6⟩
  · split at h4
    · rename_i r' hd; rw [hd, beq_iff_eq.mp h4]
    · cases h4
  · intro b hb
    rw [hb] at h5
    simp only [Bool.and_eq_true, Option.isNone_iff_eq_none, List.all_eq_true, bne_iff_ne] at h5
    exact h5

/-! ## Well-formed commands -/

/-- A DAMAGED_UNIT_RECEIVED that carries a good symbol is refused. -/
theorem test_damaged_good_symbol_refused : Instr.wellFormed (.damagedUnitReceived .p0 (.control 0xFD02)) = false := by decide

theorem test_damaged_data_refused : Instr.wellFormed (.damagedUnitReceived .p0 (.data 0)) = false := by decide

/-- A QUERY HUB has no part of a Port Controller, and a QUERY PORT none of the FRT. -/
theorem test_foreign_parts_refused :
    Instr.wellFormed (.queryHub .p0 (.part (.pc .p0))) = false ∧ Instr.wellFormed (.queryPort .p0 (.part .frt)) = false := by decide

theorem test_parts_accepted :
    Instr.wellFormed (.queryHub .p0 (.part .frt)) = true ∧ Instr.wellFormed (.queryPort .p0 (.part (.pc .p3))) = true := by decide

theorem test_damaged_unit_accepted :
    Instr.wellFormed (.damagedUnitReceived .p0 .undecodable) = true ∧
      Instr.wellFormed (.damagedUnitReceived .p0 (.control 0xFD03)) = true ∧
      Instr.wellFormed (.damagedUnitReceived .p0 (.control 0xF708)) = true ∧ Instr.wellFormed .tick = true := by decide

/-! ## Line symbols and CRC (R175) -/

theorem test_symbol_values :
    symTrain () = 0xFE01 ∧ symIdle () = 0xFD02 ∧ symStart 3 = 0xCC33 ∧ symEnd () = 0xFB04 ∧ symAck 0 = 0xFA05 ∧ symNak 15 = 0x09F6 ∧
      symCredit 8 = 0x7887 := by decide

/-- A symbol whose check field is wrong, whose type is none, or whose operand is not the 0 R175 gives, is damaged. -/
theorem test_symbols_sorted :
    sortUnit (.control 0xCC33) = .start 3 ∧ sortUnit (.control 0xCC32) = .damaged ∧ sortUnit (.control (symbol 0 0)) = .damaged ∧
      sortUnit (.control (symbol 8 0)) = .damaged ∧ sortUnit (.control (symbol 1 1)) = .damaged ∧
      sortUnit (.control (symbol 4 1)) = .damaged := by decide

/-- The check value of CRC-16 with this generator and initial value: 0x29B1 for the nine ASCII digits 1 to 9. -/
theorem test_crc_check_value :
    [0x31, 0x32, 0x33, 0x34, 0x35, 0x36, 0x37, 0x38, 0x39].foldl crcByte 0xFFFF = 0x29B1 := by decide +kernel

/-! ## Requests and responses -/

/-- A header with its length field wrong, or a must-be-zero bit set, is undecodable. -/
theorem test_header_decoded :
    decodeHeader [0x00000060, 7] = none ∧ decodeHeader [0x00000460, 7] = some ⟨0x20, 1, 0, [7]⟩ ∧ decodeHeader [0x00400460, 7] = none ∧
      decodeHeader [0x00000860, 7] = none ∧ decodeHeader [] = none := by decide +kernel

theorem test_echo_answers_body :
    ((after (.nopEcho .p1) (ask hub .p1 (pkt 0x20 0 [1, 2]))).pc .p1).responses = [⟨5, .ok, [1, 2], none⟩] := by decide +kernel

theorem test_bad_request_answered :
    ((after (.pop .p1 .whole) (ask hub .p1 (pkt 0x02 0 []))).pc .p1).responses = [⟨5, .badRequest, [], none⟩] ∧
      ((after (.pop .p1 .whole) (ask hub .p1 (pkt 0x02 0 []))).pc .p1).errors = 1 := by decide +kernel

/-! ## Runs of a few commands -/

/-- A PUSH takes slot 0 to the top of its own stack and raises WORK_READY. -/
theorem test_push_to_own_stack :
    (after (.push .p0 .whole) (ask hub .p0 (pkt 1 0 [6]))).stack .p0 = [0] ∧
      (after (.push .p0 .whole) (ask hub .p0 (pkt 1 0 [6]))).wires.events.get .p0 = [.workReady] ∧
      (after (.push .p0 .whole) (ask hub .p0 (pkt 1 0 [6]))).ticket 0 =
        some ⟨.queued, .task, .p0, none, none, [⟨6, false⟩], [], none, none, 0⟩ := by decide +kernel

/-- A POP of a port without work steals the bottom of the first victim's stack. -/
theorem test_pop_steals_bottom :
    (after (.pop .p1 .whole) (ask ((put (put hub 0 task) 1 task).setStack .p2 [0, 1]) .p1 (pkt 2 0 [0]))).wires.takes =
      [⟨1, .p1, 5, .stolen .p2⟩] := by decide +kernel

/-- A lease that has run out gives the ticket back and raises LEASE_LOST. -/
theorem test_lease_expiry :
    let c : Chip := put { hub with ltu := { hub.ltu with running := [⟨3, .p1, some 0, .own, 0⟩], held := .same 1 } } 3
      { task with state := .running }
    (after (.leaseExpiry 3) c).wires.requeues = [3] ∧ (after (.leaseExpiry 3) c).wires.events.get .p1 = [.leaseLost] ∧
      ((after (.leaseExpiry 3) c).slot 3).gen = 1 := by decide +kernel

/-- A PUSH served at its placement may be answered after the POP it serves (R45, R170). -/
theorem test_pop_answered_before_push :
    let c := after (.push .p1 (.claim .later)) (doing ((put hub 0 task).setParked [⟨.p1, 8, none⟩]) .rqc .p1 5 (.push ⟨none, none, false, []⟩)
      (.registered ⟨0, 0⟩ (.stack .p1)))
    ((after (.sendResponse (.claim .p1 5)) (after (.sendResponse (.claim .p1 8)) (after .take c))).pc .p1).responses.map Response.tag = [8, 5] := by
  decide +kernel

/-- The POP whose take comes second may be answered first (R65, note 2). -/
theorem test_pops_answered_in_either_order :
    let c := wired (put (put hub 0 task) 1 task) fun w => { w with takes := [⟨0, .p1, 8, .own⟩, ⟨1, .p1, 9, .own⟩] }
    ((after (.sendResponse (.claim .p1 8)) (after (.sendResponse (.claim .p1 9)) (after .take (after .take c)))).pc .p1).responses.map
      Response.tag = [9, 8] := by
  decide +kernel

/-- A second answer that keeps a block's order waits for the first; a POP's passes it (R65, R170). -/
theorem test_answers_of_one_block_in_order :
    ((after (.sendResponse (.claim .p0 6)) (owing hub (some .ltu) .p0 [5, 6])).pc .p0).responses = [] ∧
      ((after (.sendResponse (.claim .p0 6)) (owing hub none .p0 [5, 6])).pc .p0).responses.map Response.tag = [6] := by decide +kernel

/-- A DETACH, and a CONFIGURE, waits while the LTU has yet to make its claim on a COMPLETE or RENEW sent before (R104, R120). -/
theorem test_next_request_waits_for_the_running_table :
    ((after (.detach .p0) (doing (ask hub .p0 (pkt 0x1A 0 [])) .ltu .p0 6 (.complete ⟨0, 0⟩ .ok) .hubRead)).pc .p0).current = none ∧
      ((after (.configurePort .p0) (doing (ask hub .p0 (pkt 0x18 0 [1, 0x14])) .ltu .p0 6 (.renew ⟨0, 0⟩) .senderRead)).pc .p0).params.leaseTime =
        12500 := by decide +kernel

/-- Each Port Controller reads its part for itself: that of P2 before that of P1, whose QUERY PORT is the older (R159). -/
theorem test_port_parts_by_port :
    let c := hub.updPc .p0 fun x => { x with gathers := [⟨4, .port .p1 .unread⟩, ⟨6, .port .p2 .unread⟩] }
    ((after (.queryPort .p0 (.part (.pc .p2))) c).pc .p0).gathers =
      [⟨4, .port .p1 .unread⟩, ⟨6, .port .p2 ⟨some (hub.pc .p2).settings, none, none, none⟩⟩] := by decide +kernel

/-- A TICK has its effect 200 periods after reset, and one that no TICK takes comes with the period after (R158, R194, R196). -/
theorem test_tick_every_200_periods :
    let at199 : Chip := { hub with hcu := { hub.hcu with refPhase := 199 } }
    (after .tick at199).hcu = at199.hcu ∧ (after .tick at199.period).hcu.tick = 1 ∧ (after .tick at199.period).hcu.refPhase = 0 ∧
      at199.period.period.hcu.tick = 1 ∧ at199.period.period.hcu.refPhase = 1 := by decide +kernel

/-- The OK of a DETACH may stand before the EMPTY of a parked pop (R131). -/
theorem test_detach_answered_before_empty :
    let c := wired (keeping (hub.setParked [⟨.p0, 8, none⟩]) .p0 5 .detach .leaving) fun w => { w with toRqc := .same [.leave false] }
    let d := after (.portLeaveClaim .p0) (c.updPc .p0 fun x => { x with leave := .detach })
    ((after (.sendResponse (.claim .p0 8)) (after (.detachEnd .p0) d)).pc .p0).responses.map Response.status = [.ok, .empty] := by
  decide +kernel

/-- The head of a buffer is dispatched while an earlier request of its port is with another block (R14, R167). -/
theorem test_dispatch_beside_another_block :
    let c := doing (ask hub .p0 (pkt 8 0 [0])) .rqc .p0 6 (.push ⟨none, none, false, []⟩) .frameRead
    ((after (.openFrame .p0 .whole) c).frame 0).state = .opened := by decide +kernel

/-- Between a COMPLETE and its RETIRE the slot is RUNNING and its holder the sender (R107). -/
theorem test_holder_after_complete :
    let c := wired (put hub 3 { task with state := .running }) fun w => { w with retireLtu := [⟨3, .ok, some .p2⟩] }
    c.holderOf 3 = some .p2 ∧ (put hub 3 { task with state := .running }).holderOf 3 = none := by decide +kernel

/-- A response that reports a handle waits for the ticket's RETIRE (R1, R63). -/
theorem test_poisoned_response_waits :
    let c := wired (hub.updPc .p0 fun x => { x with responses := [⟨5, .poisoned, [0], some ⟨0, 0⟩⟩] }) fun w =>
      { w with retireLtu := [⟨0, .failed, some .p0⟩] }
    ((after (.sendResponse (.head .p0)) (put c 0 task)).pc .p0).responses.length = 1 ∧
      ((after (.sendResponse (.head .p0)) (after (.retire .ltu) (put c 0 task))).pc .p0).responses = [] := by decide +kernel

/-- No word spells a command. -/
theorem test_no_words : decodeTableWord 16 0 = none ∧ (State.reset.withFetchWord 16 0).pending = [] := by decide +kernel

/-! ## Witnesses: the hypotheses of each statement, met clause by clause -/

/-- The requests of `WholeRequestIsItsClaims`, one for each of its commands, each with a second claim to take. -/
def severalClaims : List (Packet × (Extent → Instr)) :=
  [(pkt 1 0 [], .push .p0), (pkt 2 0 [0], .pop .p0), (pkt 3 0 [0], .complete .p0), (pkt 4 0 [0], .renew .p0), (pkt 5 0 [0], .yield .p0),
   (pkt 8 0 [0], .openFrame .p0), (pkt 9 0 [0], .closeFrame .p0), (pkt 0x0A 0 [0], .cancelFrame .p0), (pkt 0x10 0 [2], .queryFrame .p0),
   (pkt 0x10 0 [3], .queryTicket .p0), (pkt 0x18 0 [0, 5], .configureGlobal .p0), (pkt 0x1B 0 [], .start .p0), (pkt 0x1C 0 [], .quiesce .p0)]

theorem witness_WholeRequestIsItsClaims :
    (∀ x ∈ severalClaims, ∃ t, ((ask hub .p0 x.1).pc .p0).atBlock = .same none ∧ exec (x.2 .dispatch) (on (ask hub .p0 x.1)) = .next t ∧
      (t.chip.pc .p0).current ≠ none) ∧
      ∃ t, exec (.push .p0 (.claim .now)) (on (keeping hub .p0 5 (.push ⟨none, none, false, []⟩) .given)) = .next t ∧
        (t.chip.pc .p0).atBlock.get .rqc ≠ none := by
  refine ⟨?_, ⟨[], after (.push .p0 (.claim .now)) (keeping hub .p0 5 (.push ⟨none, none, false, []⟩) .given)⟩, rfl, by decide +kernel⟩
  intro x hx
  refine ⟨⟨[], after (x.2 .dispatch) (ask hub .p0 x.1)⟩, ?_⟩
  simp only [severalClaims, List.mem_cons, List.not_mem_nil, or_false] at hx
  rcases hx with rfl | rfl | rfl | rfl | rfl | rfl | rfl | rfl | rfl | rfl | rfl | rfl | rfl <;> exact ⟨rfl, rfl, by decide +kernel⟩

/-- A hub held in reset. -/
def heldHub : Chip := { Chip.powerOn (.same true) with rst := true }

theorem witness_ResetHoldsTheHub :
    heldHub.rst = true ∧ Instr.tick ≠ .rstNAssert ∧ (∀ straps, Instr.tick ≠ .rstNDeassert straps) ∧ (on heldHub).pending = [] :=
  ⟨rfl, by decide, by simp, rfl⟩

theorem witness_DeassertGivesPowerOnValues : (on heldHub).chip.rst = true ∧ (on heldHub).pending = [] := ⟨rfl, rfl⟩

/-- `hub` with `n` periods since its tick boundary. -/
def phased (n : Nat) : Chip := { hub with hcu := { hub.hcu with refPhase := n } }

theorem witness_EmptyQueueIsOnePeriod :
    (phased 199).rst = false ∧ (phased 199).hcu.refPhase < 200 ∧ (phased 200).rst = false ∧ 200 ≤ (phased 200).hcu.refPhase ∧
      ∃ t, exec .tick (on (phased 200)) = .next t := ⟨rfl, by decide, rfl, by decide, _, rfl⟩

theorem witness_TickAdvances : (on (phased 199)).chip.rst = false ∧ (phased 199).hcu.refPhase < 200 ∧ 200 ≤ (phased 200).hcu.refPhase :=
  ⟨rfl, by decide, by decide⟩

/-- `hub` with one packet reported on port P0's link, `granted` request credits, and tag 3 outstanding. -/
def arriving (words : List Word) (granted : Nat) : Chip :=
  (hub.updLink .p0 fun l => { l with reports := [.packet words] }).updPc .p0 fun x => { x with granted := granted, outstanding := [3] }

theorem witness_ArrivalChecksInOrder :
    (arriving [] 0).rst = false ∧ ((arriving [] 0).link .p0).reports = [.packet []] ∧ ((arriving [] 0).pc .p0).online = true ∧
      ((arriving [] 0).pc .p0).granted = 0 ∧
      (0 < ((arriving [] 1).pc .p0).granted ∧ decodeHeader [] = none) ∧
      (0 < ((arriving [0xE0] 1).pc .p0).granted ∧ decodeHeader [0xE0] = some ⟨0x20, 3, 0, []⟩ ∧
        (3 : Tag) ∈ ((arriving [0xE0] 1).pc .p0).outstanding) ∧
      (decodeHeader [0x120] = some ⟨0x20, 4, 0, []⟩ ∧ (4 : Tag) ∉ ((arriving [0x120] 1).pc .p0).outstanding) ∧
      ((hub.pc .p0).leave = .no ∧ (hub.pc .p0).state = .attached) ∧ ((stand hub .p0 .down).pc .p0).state ≠ .attached := by
  decide +kernel

theorem witness_DispatchWaitsOrAnswersBadRequest :
    (requestRow (.pop .p0 .whole) = some (.pop, .p0) ∧ takesWhole (.pop .p0 .whole) = true ∧ dispatches (.pop .p0 .dispatch) = true ∧
      (hub.pc .p0).nothingTaken) ∧
      (let c := keeping (ask hub .p0 (pkt 2 0 [0])) .p0 6 .attach .attaching;
        (c.pc .p0).current = some ⟨6, .attach, .attaching⟩ ∧ Req.attach.row ≠ .pop ∧ (c.pc .p0).nothingTaken) ∧
      ((hub.pc .p0).current = none ∧ (hub.pc .p0).buffer = []) ∧
      ((doing hub .ltu .p0 6 (.renew ⟨0, 0⟩) .hubRead).pc .p0).atBlock.ltu ≠ none ∧
      ((doing hub .rqc .p0 6 (.pop 0) .hubRead).pc .p0).atBlock.rqc = some ⟨6, .pop 0, .hubRead⟩ ∧
      ((stand hub .p0 .down).pc .p0).state = .down ∧ ((stand hub .p0 .disabled).pc .p0).state = .disabled ∧
      ((hub.updPc .p0 fun x => { x with leave := .loss }).pc .p0).leave ≠ .no ∧
      16 ≤ ((hub.updPc .p0 fun x => { x with reserved := 16 }).pc .p0).responses.length +
        ((hub.updPc .p0 fun x => { x with reserved := 16 }).pc .p0).reserved ∧
      (let c := ask (hub.updPc .p0 fun x => { x with reserved := 15 }) .p0 (pkt 0x3F 0 []);
        c.rst = false ∧ (c.pc .p0).mayDispatch = true ∧ (c.pc .p0).buffer.head? = some (pkt 0x3F 0 []) ∧
          ReqRow.pop.takes (pkt 0x3F 0 []) = true) ∧
      ReqRow.pop.takes (pkt 2 0 []) = true := by
  refine ⟨⟨rfl, rfl, rfl, fun b => by cases b <;> rfl, rfl⟩, ⟨rfl, by decide, fun b => by cases b <;> rfl, rfl⟩, ?_⟩
  decide +kernel

/-- Its two kinds of bad packet: an unknown request kind, and a POP without its word. -/
theorem witness_bad_packets : (pkt 0x3F 0 []).decode = .error .plain ∧ (pkt 2 0 []).decode = .error .length := ⟨rfl, rfl⟩

theorem witness_ResponsesCostCredit :
    let c := put (hub.updPc .p0 fun x => { x with responses := [⟨5, .poisoned, [0], some ⟨0, 0⟩⟩] }) 0 task
    let filled (n : Nat) : Chip := c.updLink .p0 fun l => { l with replay := List.replicate n ⟨0, [], true⟩ }
    let retiring : Chip := wired c fun w => { w with retireLtu := [⟨0, .failed, some .p0⟩] }
    (c.rst = false ∧ (c.pc .p0).online = true ∧ (c.pc .p0).responses = [⟨5, .poisoned, [0], some ⟨0, 0⟩⟩] ∧
      (c.link .p0).sameSession = true) ∧
      ((c.slot 0).gen = 0 ∧ c.wires.retireRqc ++ c.wires.retireLtu ++ c.wires.retireWalk = [] ∧
        ∃ m ∈ retiring.wires.retireRqc ++ retiring.wires.retireLtu ++ retiring.wires.retireWalk, m.slot = 0) ∧
      (1 ≤ ((filled 7).pc .p0).credit ∧ ((filled 7).link .p0).replay.length < 8) ∧ 8 ≤ ((filled 8).link .p0).replay.length ∧
      ((c.updPc .p0 fun x => { x with credit := 0 }).pc .p0).credit = 0 ∧
      ((c.updLink .p0 fun l => { l with reports := [.credit 15] }).link .p0).reports = [.credit 15] ∧
      hub.wires.answers.get .p0 = [] := by
  decide +kernel

/-- An answer behind another of its block, behind one of another block, and a POP's behind one of any; `a` stands first. -/
theorem witness_ResponsesCostCredit_claims :
    let a : Answer := ⟨some .tks, ⟨4, .ok, [], none⟩⟩
    let b (o : Option Block) : Answer := ⟨o, ⟨5, .ok, [], none⟩⟩
    let c (o : Option Block) : Chip := wired hub fun w => { w with answers := .same [a, b o] }
    ((c (some .tks)).rst = false ∧ (c (some .tks)).wires.answers.get .p0 = [a] ++ b (some .tks) :: [] ∧ (∀ y ∈ [a], y.resp.tag ≠ 5) ∧
      (b (some .tks)).order ≠ none ∧ ∃ y ∈ [a], y.order = (b (some .tks)).order) ∧
      ((c (some .ltu)).wires.answers.get .p0 = [a] ++ b (some .ltu) :: [] ∧ ∀ y ∈ [a], y.order ≠ (b (some .ltu)).order) ∧
      ((c none).wires.answers.get .p0 = [a] ++ b none :: [] ∧ (b none).order = none) := by
  decide +kernel

/-- A POP within its block whose answer is on its way behind another, and a QUERY TICKET dispatched whose answer is on its way alone. -/
theorem witness_ResponsesCostCredit_later :
    (let c := doing (owing hub (some .rqc) .p0 [4]) .rqc .p0 5 (.pop 0) .hubRead;
      (c.pc .p0).atBlock.get .rqc = some ⟨5, .pop 0, .hubRead⟩ ∧ (∀ a ∈ c.wires.answers.get .p0, a.resp.tag ≠ 5) ∧
        ∃ t, exec (.pop .p0 (.claim .later)) (on c) = .next t ∧
          (t.chip.wires.answers.get .p0).getLast? = some ⟨none, ⟨5, .empty, [], none⟩⟩) ∧
      (let c := keeping hub .p0 5 (.queryTicket 0) .given;
        (c.pc .p0).atBlock.get .tks = none ∧ (c.pc .p0).current = some ⟨5, .queryTicket 0, .given⟩ ∧
          (∀ a ∈ c.wires.answers.get .p0, a.resp.tag ≠ 5) ∧ c.quiet .tks .p0 ∧
          ∃ t, exec (.queryTicket .p0 (.claim .later)) (on c) = .next t ∧ (t.chip.wires.answers.get .p0).map Answer.order = [some .tks]) := by
  refine ⟨⟨rfl, by decide +kernel, on (after (.pop .p0 (.claim .later)) (doing (owing hub (some .rqc) .p0 [4]) .rqc .p0 5 (.pop 0) .hubRead)),
    rfl, by decide +kernel⟩, rfl, rfl, by decide +kernel, by unfold Chip.quiet; decide +kernel,
    on (after (.queryTicket .p0 (.claim .later)) (keeping hub .p0 5 (.queryTicket 0) .given)), rfl, by decide +kernel⟩

theorem witness_EchoReturnsBody :
    (ask hub .p0 (pkt 0x20 0 [])).ready .p0 (pkt 0x20 0 []) (.nopEcho []) ∧
      (ask hub .p0 (pkt 0x20 0 (List.replicate 15 1))).ready .p0 (pkt 0x20 0 (List.replicate 15 1)) (.nopEcho (List.replicate 15 1)) ∧
      (List.replicate 15 (1 : Word)).length ≤ 15 :=
  ⟨ready_of (by decide +kernel), ready_of (by decide +kernel), by decide⟩

/-! ### PUSH, placement and parked service -/

/-- A PUSH of no words for the sender's own stack, for P1's stack, with frame 0. -/
def push0 : PushReq := ⟨none, none, false, []⟩
def push1 : PushReq := ⟨none, some .p1, false, []⟩
def pushFrame : PushReq := ⟨some ref0, none, false, []⟩

/-- `hub` whose port P0 asks one of those PUSHes, the hub changed by `f` before. -/
def askPush (f : Chip → Chip) : Chip := ask (f hub) .p0 (pkt 1 0 [])
def askPushTo1 (f : Chip → Chip) : Chip := ask (f hub) .p0 (pkt 1 2 [0x1000])
def askPushFrame (f : Chip → Chip) : Chip := ask (f hub) .p0 (pkt 1 1 [0])

theorem witness_push_ready :
    (askPush id).ready .p0 (pkt 1 0 []) (.push push0) ∧ (askPushTo1 id).ready .p0 (pkt 1 2 [0x1000]) (.push push1) ∧
      (askPushFrame id).ready .p0 (pkt 1 1 [0]) (.push pushFrame) ∧ (askPush id).queueHeld = false :=
  ⟨ready_of (by decide +kernel), ready_of (by decide +kernel), ready_of (by decide +kernel), by decide +kernel⟩

/-- A PUSH refused with each status its checks give. -/
theorem witness_PushRefusedByFirstCheck :
    (askPush fun c => inState c .setup).pushRefusal .p0 push0 = some .notRunning ∧
      (askPush fun c => inState c .quiescing).pushRefusal .p0 push0 = some .quiescing ∧
      (askPush fun c => stand c .p0 .linked).pushRefusal .p0 push0 = some .notAttached ∧
      (askPushTo1 fun c => stand c .p1 .linked).pushRefusal .p0 push1 = some .notAttached ∧
      (askPushFrame id).pushRefusal .p0 pushFrame = some .badFrame ∧
      (askPushFrame fun c => framed c .closed 1).pushRefusal .p0 pushFrame = some .frameState ∧
      (askPushFrame fun c => framed c .cancelling 1).pushRefusal .p0 pushFrame = some .cancelled ∧
      (askPush fun c => ((c.setStack .p0 [1]).updPc .p0 fun x => { x with params := { x.params with depthLimit := 1, spill := false } })).pushRefusal
        .p0 push0 = some .full ∧
      (askPush fun c => { c with hcu := { c.hcu with quota := .same 0 } }).pushRefusal .p0 push0 = some .quota ∧
      (askPush fun c => { c with tks := { c.tks with free := [] } }).pushRefusal .p0 push0 = some .storeFull := by
  decide +kernel

/-- A PUSH with room on the stack at its last place, and one that spills at its first. -/
theorem witness_PushPlacesNewTicket :
    let one : Chip → Chip := fun c => { c with tks := { c.tks with free := [1023] } }
    let deep (n : Nat) : Chip → Chip := fun c => (one c).setStack .p0 (List.replicate n 7)
    ((askPush (deep 63)).pushRefusal .p0 push0 = none ∧ (askPush (deep 63)).pushDest .p0 = .stack .p0) ∧
      ((askPush (deep 64)).pushRefusal .p0 push0 = none ∧ (askPush (deep 64)).pushDest .p0 = .shared) ∧
      (askPushFrame fun c => framed (one c) .opened 0).pushRefusal .p0 pushFrame = none ∧
      (askPush (deep 63)).tks.free = [1023] ∧ (askPush (deep 63)).queueHeld = false := by
  decide +kernel

/-- A PUSH at its registration, with frame 0 found in state `st`. -/
def registering (st : FrameState) : Chip :=
  doing (framed (put hub 0 { task with parent := some ref0 }) st 0) .rqc .p0 5 (.push pushFrame) (.allocated ⟨0, 0⟩ (.stack .p0))

theorem witness_PushAfterItsRoomCheck :
    (let c := doing hub .rqc .p0 5 (.push push0) (.roomRead .shared);
      c.underWay .rqc .p0 5 (.push push0) (.roomRead .shared) ∧ c.quiet .rqc .p0 ∧ c.tks.alloc.get .p0 < c.hcu.quota.get .p0 ∧
        c.tks.free = 0 :: (List.finRange 1024).tail ∧ ({ c with tks := { c.tks with free := [] } } : Chip).tks.free = [] ∧
        ({ c with hcu := { c.hcu with quota := .same 0 } } : Chip).hcu.quota.get .p0 ≤ c.tks.alloc.get .p0) ∧
    (registering .closed).underWay .rqc .p0 5 (.push pushFrame) (.allocated ⟨0, 0⟩ (.stack .p0)) ∧ (registering .closed).quiet .rqc .p0 ∧
      pushFrame.frame = some ref0 ∧
      (registering .closed).ticket 0 = some { task with parent := some ref0 } ∧ (registering .closed).refState ref0 ≠ .opened ∧
      (registering .cancelling).refState ref0 = .cancelling ∧ (registering .free).refState ref0 = .free := by
  unfold Chip.underWay Chip.quiet
  decide +kernel

/-- A PUSH of P0 holds P0's stack and the shared queue. -/
def holding : Chip := doing (put hub 0 task) .rqc .p0 5 (.push push0) (.allocated ⟨0, 0⟩ (.stack .p0))

theorem witness_PushHoldsItsLists :
    (let c := wired holding fun w => { w with placeFrt := [⟨1, .stack .p0⟩], placeLtu := [⟨1, .shared⟩] };
      c.wires.places .frt = [⟨1, .stack .p0⟩] ∧ c.listHeld (c.landing (.stack .p0)) = true ∧
        c.wires.places .ltu = [⟨1, .shared⟩] ∧ c.listHeld (c.landing .shared) = true) ∧
      (holding.stackHeld .p0 = true ∧ Port.p0 ≠ .p1 ∧
        (holding.pc .p0).atBlock.get .rqc = some ⟨5, .push push0, .allocated ⟨0, 0⟩ (.stack .p0)⟩ ∧
        (let c := doing hub .rqc .p2 5 (.push push1) (.roomRead .shared);
          (c.pc .p2).atBlock.get .rqc = some ⟨5, .push push1, .roomRead .shared⟩ ∧ c.stackHeld .p1 = true ∧ c.queueHeld = true) ∧
        (let c := doing (put hub 0 task) .rqc .p2 5 (.push push1) (.registered ⟨0, 0⟩ .shared);
          (c.pc .p2).atBlock.get .rqc = some ⟨5, .push push1, .registered ⟨0, 0⟩ .shared⟩ ∧ c.stackHeld .p1 = true ∧ c.queueHeld = true)) ∧
      (let c : Chip := { holding with frt := { holding.frt with walks := [⟨ref0, .p1, 2, 0, true, [.stack .p0, .shared]⟩] } };
        c.frt.walks = [⟨ref0, .p1, 2, 0, true, [.stack .p0, .shared]⟩] ∧ c.listHeld (.stack .p0) = true) ∧
      holding.queueHeld = true ∧
      ((doing holding .rqc .p1 6 (.pop 0) .hubRead).underWay .rqc .p1 6 (.pop 0) .hubRead ∧
        (doing holding .rqc .p1 6 (.pop 0) .hubRead).queueHeld = true) ∧
      ((doing holding .rqc .p1 6 (.push push1) .frameRead).underWay .rqc .p1 6 (.push push1) .frameRead ∧
        (doing holding .rqc .p1 6 (.push push1) .frameRead).queueHeld = true) := by
  unfold Chip.underWay
  decide +kernel

/-- Ticket 1 waits in a channel, to be placed as `f` says. -/
def placing (f : Wires → Wires) : Chip := wired (put hub 1 { task with state := .waiting }) f

theorem witness_PlacementWithNoPopParked :
    (let c := placing fun w => { w with placeFrt := [⟨1, .stack .p3⟩] };
      c.rst = false ∧ c.wires.places .frt = [⟨1, .stack .p3⟩] ∧ c.ticket 1 = some { task with state := .waiting } ∧
        c.rqcAttached .p3 = true ∧ c.stackHeld .p3 = false ∧ c.rqc.parked = [] ∧ c.queueHeld = false) ∧
      (placing fun w => { w with requeues := [1] }).wires.requeues = [1] ∧
      (placing fun w => { w with placeLtu := [⟨1, .shared⟩] }).wires.places .ltu = [⟨1, .shared⟩] ∧
      (let c := placing fun w => { w with placeLtu := [⟨1, .stack .p3⟩] };
        ({ c with rqc := { c.rqc with left := .same true } } : Chip).rqcAttached .p3 = false) := by
  decide +kernel

/-- A parked pop of port `p` without a deadline. -/
def parkedOne (p : Port) : ParkedPop := ⟨p, 8, none⟩

/-- `c` with these pops parked. -/
def parking (c : Chip) (l : List ParkedPop) : Chip := c.setParked l

/-- Ticket 1, which is unpinned, is to be placed on P0's stack: P0's own pop is parked; P3's is, which steals; nobody's that may take the bottom ticket; P3's is, with
an unpinned ticket at the bottom of P0's stack. -/
theorem witness_ParkedServiceOfAPlacement :
    (let c := placing fun w => { w with placeLtu := [⟨1, .stack .p0⟩], placeFrt := [⟨1, .stack .p0⟩] };
      (c.rst = false ∧ c.wires.places .ltu = [⟨1, .stack .p0⟩] ∧ c.wires.places .frt = [⟨1, .stack .p0⟩] ∧
        c.ticket 1 = some { task with state := .waiting } ∧ c.rqcAttached .p0 = true ∧ c.stackHeld .p0 = false ∧ c.stack .p0 = [] ∧
        c.parentCancelling 1 = false) ∧
        ((parking c [parkedOne .p1, parkedOne .p0]).parkedOf .p0).head? = some (parkedOne .p0) ∧
        ((parking c [parkedOne .p3]).parkedOf .p0 = [] ∧ ((parking c [parkedOne .p3]).pc .p0).params.stealable = true ∧
          task.pin = none ∧
          ((parking c [parkedOne .p3]).rqc.parked.find? fun x =>
            x.port != .p0 && ((parking c [parkedOne .p3]).pc x.port).params.stealEnable) = some (parkedOne .p3)) ∧
        (c.parkedOf .p0 = [] ∧ (c.rqc.parked.find? fun x => x.port != .p0 && (c.pc x.port).params.stealEnable) = none) ∧
        ((c.updPc .p0 fun x => { x with params := { x.params with stealable := false } }).pc .p0).params.stealable = false ∧
        ((put c 1 { task with pin := some .p0 }).ticket 1 = some { task with pin := some .p0 } ∧ some Port.p0 ≠ none) ∧
        (let d := put (c.setStack .p0 [2]) 2 { task with pin := some .p0 };
          d.stack .p0 = [] ++ [2] ∧ d.pinned 2 = true) ∧
        (let d := parking (put (c.setStack .p0 [0, 2]) 2 task) [parkedOne .p3];
          d.stack .p0 = [0] ++ [2] ∧ d.parkedOf .p0 = [] ∧ d.pinned 2 = false ∧ d.parentCancelling 2 = false ∧
            (d.rqc.parked.find? fun x => x.port != .p0 && (d.pc x.port).params.stealEnable) = some (parkedOne .p3) ∧
            (framed (put d 2 { task with parent := some ref0 }) .cancelling 1).parentCancelling 2 = true)) ∧
      (let c := parking (placing fun w => { w with requeues := [1], placeFrt := [⟨1, .stack .p0⟩], placeLtu := [⟨1, .shared⟩] }) [parkedOne .p2];
        c.wires.requeues = [1] ∧ c.queueHeld = false ∧ c.rqc.shared = [] ∧ c.rqc.parked = [parkedOne .p2] ∧
          c.parentCancelling 1 = false ∧ c.wires.places .ltu = [⟨1, .shared⟩] ∧ c.wires.places .frt = [⟨1, .stack .p0⟩] ∧
          ({ c with rqc := { c.rqc with left := .same true } } : Chip).rqcAttached .p0 = false) ∧
      (framed (put (parking hub [parkedOne .p2]) 1 { task with parent := some ref0 }) .cancelling 1).parentCancelling 1 = true := by
  decide +kernel

theorem witness_StealSettingsTurnedOn :
    (let c := parking ((wired (put hub 1 task) fun w => { w with toRqc := .same [.stealableOn] }).setStack .p0 [0, 1]) [parkedOne .p3];
      c.rst = false ∧ c.wires.toRqc.get .p0 = [.stealableOn] ∧ c.stackHeld .p0 = false ∧ c.parkedOf .p0 = [] ∧ c.stack .p0 = [0] ++ [1] ∧
        (c.pc .p0).params.stealable = true ∧ c.pinned 1 = false ∧
        (c.rqc.parked.find? fun x => x.port != .p0 && (c.pc x.port).params.stealEnable) = some (parkedOne .p3) ∧ c.parentCancelling 1 = false) ∧
      (framed (put hub 1 { task with parent := some ref0 }) .cancelling 1).parentCancelling 1 = true ∧
      (hub.rqc.parked.find? fun x => x.port != .p0 && (hub.pc x.port).params.stealEnable) = none ∧ hub.stack .p0 = [] ∧
      (let c := put (hub.setStack .p0 [2]) 2 { task with pin := some .p0 };
        c.stack .p0 = [] ++ [2] ∧ c.pinned 2 = true) ∧
      ((hub.updPc .p0 fun x => { x with params := { x.params with stealable := false, stealEnable := false } }).pc .p0).params.stealable = false ∧
      (let c := parking ((wired (put hub 1 task) fun w => { w with toRqc := .same [.stealEnableOn] }).setStack .p2 [0, 1]) [parkedOne .p0, parkedOne .p0];
        c.rst = false ∧ c.wires.toRqc.get .p0 = [.stealEnableOn] ∧ (∀ q ∈ Port.all, q ≠ .p0 → c.stackHeld q = false) ∧
          c.parkedOf .p0 = parkedOne .p0 :: [parkedOne .p0] ∧ (c.pc .p0).params.stealEnable = true ∧ c.rqc.stealPtr.get .p0 = .p1 ∧
          [Port.p1, Port.p1.next, Port.p1.next.next, Port.p1.next.next.next].filter (· != .p0) = [.p1] ++ .p2 :: [.p3] ∧ c.stack .p1 = [] ∧
          c.rqcAttached .p2 = true ∧ (c.pc .p2).params.stealable = true ∧ c.stack .p2 = [0] ++ [1] ∧ c.pinned 1 = false ∧
          c.parentCancelling 1 = false) ∧
      (let c := parking hub [parkedOne .p0];
        c.parkedOf .p0 ≠ [] ∧ (c.pc .p0).params.stealEnable = true ∧ ∀ u ∈ [Port.p1, .p2, .p3], c.stack u = []) ∧
      ((hub.updPc .p0 fun x => { x with params := { x.params with stealEnable := false } }).pc .p0).params.stealEnable = false ∧
      hub.parkedOf .p0 = [] := by
  decide +kernel

/-! ### POP and the take -/

/-- `hub`, changed by `f`, whose port P0 asks a POP with the timeout `n`. -/
def askPop (n : Nat) (f : Chip → Chip) : Chip := ask (f hub) .p0 (pkt 2 0 [BitVec.ofNat 32 n])

theorem witness_pop_ready :
    (askPop 0 id).ready .p0 (pkt 2 0 [0]) (.pop 0) ∧ (askPop 1 id).ready .p0 (pkt 2 0 [1]) (.pop 1) ∧
      (askPop 4095 id).ready .p0 (pkt 2 0 [4095]) (.pop 4095) ∧ (askPop 0 id).queueHeld = false :=
  ⟨ready_of (by decide +kernel), ready_of (by decide +kernel), ready_of (by decide +kernel), by decide +kernel⟩

/-- The sources empty with stealing off; stealing on with each reason to pass a victim over; the park decision at 3 and 4 of the port and 15 and 16 of the
table. -/
theorem witness_PopWithoutATicket :
    (askPop 0 fun c => inState c .setup).hcu.state = .setup ∧
      ((askPop 0 fun c => stand c .p0 .linked).hcu.state ≠ .setup ∧ (askPop 0 fun c => stand c .p0 .linked).rqcAttached .p0 = false) ∧
      ((askPop 0 id).hcu.state ≠ .setup ∧ (askPop 0 id).rqcAttached .p0 = true ∧ (askPop 0 id).stack .p0 = [] ∧
        (askPop 0 id).rqc.shared = []) ∧
      (((hub.updPc .p0 fun x => { x with params := { x.params with stealEnable := false } }).pc .p0).params.stealEnable = false) ∧
      (let c := ((stand (put hub 4 { task with pin := some .p3 }) .p1 .linked).setStack .p3 ([2] ++ [4])).updPc .p2 fun x =>
          { x with params := { x.params with stealable := false } };
        ∀ u ∈ Port.all, u ≠ .p0 → c.rqcAttached u = false ∨ c.stack u = [] ∨ (c.pc u).params.stealable = false ∨
          (c.stack u = [2] ++ [4] ∧ c.pinned 4 = true)) ∧
      (let c := parking hub (List.replicate 3 (parkedOne .p0) ++ List.replicate 12 (parkedOne .p1));
        (c.parkedOf .p0).length < 4 ∧ c.rqc.parked.length < 16) ∧
      4 ≤ ((parking hub (List.replicate 4 (parkedOne .p0))).parkedOf .p0).length ∧
      16 ≤ (parking hub (List.replicate 16 (parkedOne .p1))).rqc.parked.length := by
  decide +kernel

theorem witness_PopTakesOrRetiresItsCandidate :
    (let c := askPop 0 fun c => (put c 1 task).setStack .p0 [1];
      c.hcu.state ≠ .setup ∧ c.rqcAttached .p0 = true ∧ c.parentCancelling 1 = false ∧ c.stack .p0 = [1]) ∧
      (let c := askPop 0 fun c => (put c 1 task).setShared [1];
        c.parentCancelling 1 = false ∧ c.stack .p0 = [] ∧ c.rqc.shared = [1]) ∧
      (let c := askPop 0 fun c => framed ((put c 1 { task with parent := some ref0 }).setStack .p0 [1]) .cancelling 1;
        c.hcu.state ≠ .setup ∧ c.rqcAttached .p0 = true ∧ c.parentCancelling 1 = true ∧ c.stack .p0 = [1]) ∧
      (let c := askPop 0 fun c => framed ((put c 1 { task with parent := some ref0 }).setShared [1]) .cancelling 1;
        c.parentCancelling 1 = true ∧ c.stack .p0 = [] ∧ c.rqc.shared = [1]) := by
  decide +kernel

/-- The first victim P1 is passed over, the second P2 gives its bottom ticket. -/
theorem witness_PopStealsFromFirstVictim :
    let c := askPop 0 fun c => (put c 1 task).setStack .p2 [0, 1]
    c.hcu.state ≠ .setup ∧ c.rqcAttached .p0 = true ∧ c.stack .p0 = [] ∧ c.rqc.shared = [] ∧ (c.pc .p0).params.stealEnable = true ∧
      ([c.rqc.stealPtr.get .p0, (c.rqc.stealPtr.get .p0).next, (c.rqc.stealPtr.get .p0).next.next,
        (c.rqc.stealPtr.get .p0).next.next.next].filter (· != .p0)) = [.p1] ++ .p2 :: [.p3] ∧
      c.stack .p1 = [] ∧ c.rqcAttached .p2 = true ∧ (c.pc .p2).params.stealable = true ∧ c.stack .p2 = [0] ++ [1] ∧
      c.pinned 1 = false ∧ c.parentCancelling 1 = false ∧
      (framed (put c 1 { task with parent := some ref0 }) .cancelling 1).parentCancelling 1 = true := by
  decide +kernel

/-- `hub` whose port P1 has been handed ticket 1. -/
def handed (t : Ticket) (d : Option Departed) : Chip :=
  let c := wired (put hub 1 t) fun w => { w with takes := [⟨1, .p1, 5, .own⟩] }
  { c with ltu := { c.ltu with departed := c.ltu.departed.set .p1 d } }

theorem witness_TakeByMarkAndParity :
    ((handed task none).rst = false ∧ (handed task none).wires.takes = [⟨1, .p1, 5, .own⟩] ∧ (handed task none).ticket 1 = some task ∧
      (handed task none).ltu.departed.get .p1 = none ∧ task.wordsGood = true) ∧
      ({ task with payload := [⟨1, false⟩] } : Ticket).wordsGood = false ∧ (handed task none).runEntry 1 = none ∧
      (handed task (some .detaching)).ltu.departed.get .p1 = some .detaching ∧
      (handed task (some .lost)).ltu.departed.get .p1 = some .lost := by
  decide +kernel

theorem witness_ParkTimeoutAnswersTimeout :
    (let c := parking hub [⟨.p0, 8, some 0⟩];
      c.rst = false ∧ (c.rqc.parked.find? fun x => x.port == .p0 && x.tag == 8) = some ⟨.p0, 8, some 0⟩) ∧
      (∀ e ∈ (parking hub [⟨.p0, 8, some 1⟩]).rqc.parked, e.port = .p0 → e.tag = 8 → e.ticksLeft ≠ some 0) ∧
      (∀ e ∈ (parking hub [⟨.p0, 8, none⟩]).rqc.parked, e.port = .p0 → e.tag = 8 → e.ticksLeft ≠ some 0) := by
  decide +kernel

/-! ### Running tickets -/

/-- Ticket 0 is RUNNING, held by `p`; P0 asks the request `k` about it. -/
def runningHub (p : Port) (k : Packet) : Chip :=
  ask (put { hub with ltu := { hub.ltu with running := [⟨0, p, some 0, .own, 0⟩], held := .same 1 } } 0 { task with state := .running }) .p0 k

theorem witness_HolderRequestsByTheHolder :
    ((runningHub .p0 (pkt 3 0 [0])).ready .p0 (pkt 3 0 [0]) (.complete ⟨0, 0⟩ .ok) ∧
      (runningHub .p0 (pkt 3 0 [0x10000])).ready .p0 (pkt 3 0 [0x10000]) (.complete ⟨0, 0⟩ .failed) ∧
      (runningHub .p0 (pkt 5 0 [0])).ready .p0 (pkt 5 0 [0]) (.yield ⟨0, 0⟩) ∧
      (runningHub .p0 (pkt 4 0 [0])).ready .p0 (pkt 4 0 [0]) (.renew ⟨0, 0⟩)) ∧
      (let c := runningHub .p0 (pkt 3 0 [0]);
        c.gateRefusal .p0 = none ∧ c.entryHeld 0 = false ∧ (c.slot 0).gen = 0 ∧
          c.ticket 0 = some { task with state := .running } ∧ c.runEntry 0 = some ⟨0, .p0, some 0, .own, 0⟩) :=
  ⟨⟨ready_of (by decide +kernel), ready_of (by decide +kernel), ready_of (by decide +kernel), ready_of (by decide +kernel)⟩,
    by decide +kernel⟩

theorem witness_HolderRequestsRefused :
    (inState (runningHub .p0 (pkt 3 0 [0])) .setup).gateRefusal .p0 = some .notRunning ∧
      (stand (runningHub .p0 (pkt 3 0 [0])) .p0 .linked).gateRefusal .p0 = some .notAttached ∧
      (let c := runningHub .p1 (pkt 3 0 [0]);
        c.gateRefusal .p0 = none ∧ c.entryHeld 0 = false ∧ (c.slot 0).gen ≠ (1 : SlotGen) ∧
          (c.runEntry 0).map RunEntry.holder = some .p1 ∧ Port.p1 ≠ .p0 ∧ c.ticket 1 = none) := by
  decide +kernel

theorem witness_RequeueDecisionInOrder :
    (put hub 0 task).ticket 0 = some task ∧
      (framed (put hub 0 { task with parent := some ref0 }) .cancelling 1).parentCancelling 0 = true ∧
      ((put hub 0 task).parentCancelling 0 = false ∧ 2 = (put hub 0 task).hcu.requeueLimit ∧ 1 ≠ (put hub 0 task).hcu.requeueLimit) := by
  decide +kernel

/-- An entry due; an entry with a tick left; an entry without a deadline; an entry due that an OPEN_FRAME holds at each of its stages, with the claims that
wait for it. -/
theorem witness_LeaseExpiryTakesTicketBack :
    let c := runningHub .p1 (pkt 3 0 [0])
    let open0 : Req := .openFrame ⟨some ⟨0, 0⟩, none, [], []⟩
    let held := doing c .frt .p1 6 open0 .currentRead
    let holder := fun r => doing held .ltu .p1 7 r .senderRead
    let left (n : Option Nat) : Chip := { c with ltu := { c.ltu with running := [⟨0, .p1, n, .own, 0⟩] } }
    (c.rst = false ∧ c.runEntry 0 = some ⟨0, .p1, some 0, .own, 0⟩ ∧ c.entryHeld 0 = false) ∧
      (left (some 1)).runEntry 0 = some ⟨0, .p1, some 1, .own, 0⟩ ∧ (left none).runEntry 0 = some ⟨0, .p1, none, .own, 0⟩ ∧
      (held.entryHeld 0 = true ∧ (held.pc .p1).atBlock.get .frt = some ⟨6, open0, .currentRead⟩ ∧
        (doing c .frt .p1 6 open0 .pinRead).entryHeld 0 = true) ∧ c.runEntry 1 = none ∧
      ((holder (.complete ⟨0, 0⟩ .ok)).underWay .ltu .p1 7 (.complete ⟨0, 0⟩ .ok) .senderRead ∧
        (holder (.renew ⟨0, 0⟩)).underWay .ltu .p1 7 (.renew ⟨0, 0⟩) .senderRead ∧
        (holder (.yield ⟨0, 0⟩)).underWay .ltu .p1 7 (.yield ⟨0, 0⟩) .senderRead ∧ (holder (.yield ⟨0, 0⟩)).entryHeld 0 = true) ∧
      (let d := wired held fun w => { w with toLtu := .same [.loss] };
        d.wires.toLtu.get .p1 = [.loss] ∧ ∃ e ∈ d.entriesOf .p1, e.slot = 0) := by
  unfold Chip.underWay
  decide +kernel

theorem witness_LossClaimDecidesEveryEntry :
    let c := wired (runningHub .p1 (pkt 3 0 [0])) fun w => { w with toLtu := .same [.loss] }
    (c.rst = false ∧ c.wires.toLtu.get .p1 = [.loss] ∧ (∀ e ∈ c.entriesOf .p1, c.entryHeld e.slot = false)) ∧
      c.entriesOf .p2 = [] ∧ c.entriesOf .p1 = ⟨0, .p1, some 0, .own, 0⟩ :: [] := by
  decide +kernel

/-! ### Tickets and frames -/

theorem witness_RetireFreesSlot :
    let c := wired (put hub 1 task) fun w =>
      { w with retireRqc := [⟨1, .ok, none⟩], retireLtu := [⟨1, .failed, some .p0⟩], retireWalk := [⟨1, .cancelled, none⟩] }
    c.rst = false ∧ c.wires.retires .rqc = [⟨1, .ok, none⟩] ∧ c.wires.retires .ltu = [⟨1, .failed, some .p0⟩] ∧
      c.wires.retires .walk = [⟨1, .cancelled, none⟩] ∧ c.ticket 1 = some task := by
  decide +kernel

theorem witness_DisturbedWordFailsParity :
    let t : Ticket := { task with payload := List.replicate 6 ⟨0, false⟩, context := List.replicate 4 ⟨0, false⟩ }
    (put hub 1 t).rst = false ∧ (put hub 1 t).ticket 1 = some t ∧ (5 : Fin 6).val < t.payload.length ∧ (3 : Fin 4).val < t.context.length ∧
      task.payload.length ≤ (0 : Fin 6).val ∧ task.context.length ≤ (0 : Fin 4).val ∧ hub.ticket 1 = none := by
  decide +kernel

/-- A child of frame 0 has ended. -/
def ending (st : FrameState) (pending : Nat) : Chip := wired (framed hub st pending) fun w => { w with childEnds := [⟨ref0, .ok, some .p0⟩] }

theorem witness_ChildEndCountsAndReleases :
    ((ending .closed 2).rst = false ∧ (ending .closed 2).wires.childEnds = [⟨ref0, .ok, some .p0⟩] ∧ 1 < ((ending .closed 2).frame 0).pending) ∧
      ((ending .opened 1).frame 0).state = .opened ∧
      (((ending .closed 1).frame 0).pending ≤ 1 ∧ ((ending .closed 1).frame 0).state = .closed) ∧
      (((ending .cancelling 1).frame 0).pending ≤ 1 ∧ ((ending .cancelling 1).frame 0).state = .cancelling) := by
  decide +kernel

/-- A continuation of frame 0, in slot 9. -/
def cont : Ticket := ⟨.waiting, .continuation, .p0, none, none, [], [], some ref0, none, 0⟩

theorem witness_ReleasePlacesContinuation :
    let c := framed (put hub 9 cont) .closed 0
    let d := framed (put hub 9 { cont with parent := some ⟨1, 0⟩ }) .closed 0
    ((c.frame 0).continuation = some ⟨9, 0⟩ ∧ c.ticket 9 = some cont ∧ cont.parent = none) ∧
      (d.ticket 9 = some { cont with parent := some ⟨1, 0⟩ } ∧ (1 : FrameNo) ≠ 0 ∧ d.refState ⟨1, 0⟩ ≠ .cancelling) := by
  decide +kernel

/-- Frame 0 is to be released; its continuation is a child of the CANCELLING frame 1, whose own continuation, in slot 10, is a child of frame 2. -/
def nested (pending : Nat) (outer : FrameState) : Chip :=
  ((framed (put (put hub 9 { cont with parent := some ⟨1, 0⟩ }) 10 { cont with contFrame := some ⟨1, 0⟩, parent := some ⟨2, 0⟩ }) .closed 0).setFrame 1
    { Frame.powerOn with state := .cancelling, pending := pending, continuation := some ⟨10, 0⟩ }).setFrame 2
    { Frame.powerOn with state := outer, pending := 1 }

theorem witness_ReleaseCascadesOutward :
    (let c := nested 2 .opened;
      (c.frame 0).continuation = some ⟨9, 0⟩ ∧ c.ticket 9 = some { cont with parent := some ⟨1, 0⟩ } ∧ (1 : FrameNo) ≠ 0 ∧
        c.refState ⟨1, 0⟩ = .cancelling ∧ 1 < (c.frame 1).pending) ∧
      ∀ st ∈ [FrameState.opened, .closed, .cancelling],
        let c := nested 1 st
        (c.frame 0).continuation = some ⟨9, 0⟩ ∧ c.ticket 9 = some { cont with parent := some ⟨1, 0⟩ } ∧
          c.refState ⟨1, 0⟩ = .cancelling ∧ (c.frame 1).pending ≤ 1 ∧
          (c.ticket 10).bind Ticket.parent = some ⟨2, 0⟩ ∧ c.refState ⟨2, 0⟩ = st := by
  decide +kernel

/-- P0 asks an OPEN_FRAME without a current ticket, with ticket 0 as current ticket, with P1 as pin port. -/
def open0 : OpenReq := ⟨none, none, [], []⟩
def openCur : OpenReq := ⟨some ⟨0, 0⟩, none, [], []⟩
def openPin : OpenReq := ⟨none, some .p1, [], []⟩

theorem witness_OpenFrameRefusedByFirstCheck :
    ((ask hub .p0 (pkt 8 0 [0])).ready .p0 (pkt 8 0 [0]) (.openFrame open0) ∧
      (ask hub .p0 (pkt 8 1 [0])).ready .p0 (pkt 8 1 [0]) (.openFrame openCur) ∧
      (ask hub .p0 (pkt 8 2 [0x10000])).ready .p0 (pkt 8 2 [0x10000]) (.openFrame openPin)) ∧
      ((inState hub .setup).openRefusal .p0 open0 = some .notRunning ∧ (inState hub .quiescing).openRefusal .p0 open0 = some .quiescing ∧
        (stand hub .p0 .linked).openRefusal .p0 open0 = some .notAttached ∧ hub.openRefusal .p0 openCur = some .stale ∧
        (stand hub .p1 .linked).openRefusal .p0 openPin = some .notAttached ∧
        ({ hub with frt := { hub.frt with frames := Vector.replicate 256 { Frame.powerOn with state := .opened } } } : Chip).openRefusal .p0
          open0 = some .framesFull ∧
        ({ hub with hcu := { hub.hcu with quota := .same 0 } } : Chip).openRefusal .p0 open0 = some .quota ∧
        ({ hub with tks := { hub.tks with free := [] } } : Chip).openRefusal .p0 open0 = some .storeFull) :=
  ⟨⟨ready_of (by decide +kernel), ready_of (by decide +kernel), ready_of (by decide +kernel)⟩, by decide +kernel⟩

theorem witness_OpenFrameOpensLowestFree :
    let c : Chip := { framed (runningHub .p0 (pkt 8 1 [0])) .opened 0 with tks := { (runningHub .p0 (pkt 8 1 [0])).tks with free := [1023] } }
    c.ready .p0 (pkt 8 1 [0]) (.openFrame openCur) ∧ (c.openRefusal .p0 openCur = none ∧ c.tks.free = [1023] ∧ (c.frame 1).state = .free ∧
      ∀ m : FrameNo, m < 1 → (c.frame m).state ≠ .free) :=
  ⟨ready_of (by decide +kernel), by decide +kernel⟩

theorem witness_CloseFrameByTable :
    let c := ask (framed hub .opened 1) .p0 (pkt 9 0 [0])
    c.ready .p0 (pkt 9 0 [0]) (.closeFrame ref0) ∧
      ((inState c .setup).gateRefusal .p0 = some .notRunning ∧ (stand c .p0 .linked).gateRefusal .p0 = some .notAttached ∧
        c.gateRefusal .p0 = none ∧ c.refState ref0 = .opened ∧ 0 < (c.frame 0).pending ∧ ((framed c .opened 0).frame 0).pending = 0 ∧
        (framed c .closed 1).refState ref0 = .closed ∧ (framed c .cancelling 1).refState ref0 = .cancelling ∧
        c.refState ⟨0, 1⟩ = .free) :=
  ⟨ready_of (by decide +kernel), by decide +kernel⟩

/-- A full walk queue, one with room for a last walk, and one that holds the frame's own walk of another generation's reference. -/
theorem witness_CancelFrameByTable :
    let c := ask (framed hub .opened 1) .p0 (pkt 0x0A 0 [0])
    let walks (n : Nat) (f : FrameRef) : Chip :=
      { c with frt := { c.frt with walks := List.replicate n ⟨f, .p1, 2, 0, true, [.shared]⟩ } }
    c.ready .p0 (pkt 0x0A 0 [0]) (.cancelFrame ref0) ∧
      ((inState c .setup).gateRefusal .p0 = some .notRunning ∧ c.gateRefusal .p0 = none ∧ c.refState ref0 = .opened ∧
        0 < (c.frame 0).pending ∧ ((framed c .opened 0).frame 0).pending = 0 ∧ (framed c .closed 1).refState ref0 = .closed ∧
        ((walks 7 ⟨1, 0⟩).frt.walks.length < 8 ∧ ∀ w ∈ (walks 7 ⟨1, 0⟩).frt.walks, w.frame ≠ ref0) ∧
        8 ≤ (walks 8 ⟨1, 0⟩).frt.walks.length ∧ (∃ w ∈ (walks 1 ref0).frt.walks, w.frame = ref0) ∧
        (framed c .cancelling 1).refState ref0 = .cancelling ∧ (framed c .free 0).refState ref0 = .free) :=
  ⟨ready_of (by decide +kernel), by decide +kernel⟩

/-- A walk on frame 0 with the lists `todo` still to be examined. -/
def walking (todo : List RunList) : Chip := { hub with frt := { hub.frt with walks := [⟨ref0, .p0, 5, 0, true, todo⟩] } }

theorem witness_WalkStepRemovesChildren :
    (walking [.stack .p0, .shared]).rst = false ∧ (walking [.stack .p0, .shared]).frt.walks = [⟨ref0, .p0, 5, 0, true, [.stack .p0, .shared]⟩] ∧
      (walking [.stack .p0, .shared]).listHeld (.stack .p0) = false ∧ (walking [.shared]).frt.walks = [⟨ref0, .p0, 5, 0, true, [.shared]⟩] ∧
      (walking [.shared]).listHeld .shared = false := by
  decide +kernel

theorem witness_WalkEndAnswersRequester :
    (walking []).frt.walks = [⟨ref0, .p0, 5, 0, true, []⟩] ∧
      (wired hub fun w => { w with toFrt := .same true }).wires.toFrt.get .p3 = true := by
  decide +kernel

/-! ### Ports, events, hub control -/

/-- `hub` with reports of P0's link to be taken. -/
def reporting (l : List Report) : Chip := hub.updLink .p0 fun x => { x with reports := l }

theorem witness_LinkUpMakesPortLinked :
    let c := stand (reporting [.linkUp]) .p0 .down
    c.rst = false ∧ (c.link .p0).reports = [.linkUp] ∧ (c.pc .p0).state = .down ∧ (c.pc .p0).leave = .no := by
  decide +kernel

theorem witness_AttachByItsClaims :
    ((ask (stand hub .p0 .linked) .p0 (pkt 0x19 0 [])).ready .p0 (pkt 0x19 0 []) .attach ∧
      (ask hub .p0 (pkt 0x19 0 [])).ready .p0 (pkt 0x19 0 []) .attach) ∧
      (((ask (stand hub .p0 .linked) .p0 (pkt 0x19 0 [])).pc .p0).state = .linked ∧ ((ask hub .p0 (pkt 0x19 0 [])).pc .p0).state = .attached ∧
        (wired hub fun w => { w with toRqc := .same [.attach], toLtu := .same [.attach] }).wires.toRqc.get .p0 = [.attach] ∧
        (wired hub fun w => { w with toRqc := .same [.attach], toLtu := .same [.attach] }).wires.toLtu.get .p0 = [.attach] ∧
        .attach ∉ hub.wires.toRqc.get .p0 ∧ .attach ∉ hub.wires.toLtu.get .p0) ∧
      (keeping (stand hub .p0 .linked) .p0 5 .attach .attaching).waiting .p0 5 .attach .attaching :=
  ⟨⟨ready_of (by decide +kernel), ready_of (by decide +kernel)⟩, by decide +kernel, by unfold Chip.waiting; decide +kernel⟩

theorem witness_DetachByItsClaims :
    ((ask hub .p0 (pkt 0x1A 0 [])).ready .p0 (pkt 0x1A 0 []) .detach ∧
      (ask (stand hub .p0 .linked) .p0 (pkt 0x1A 0 [])).ready .p0 (pkt 0x1A 0 []) .detach) ∧
      (let c := keeping (wired hub fun w => { w with toLtu := .same [.holdCheck] }) .p0 5 .detach .holdWait;
        c.waiting .p0 5 .detach .holdWait ∧ (c.pc .p0).leave = .no ∧ c.wires.toLtu.get .p0 = [.holdCheck] ∧
          c.ltu.held.get .p0 = 0 ∧ 0 < ({ c with ltu := { c.ltu with held := .same 1 } } : Chip).ltu.held.get .p0) ∧
      (let c := (keeping hub .p0 5 .detach .leaving).updPc .p0 fun x => { x with leave := .detach };
        c.waiting .p0 5 .detach .leaving ∧ (c.pc .p0).leave = .detach ∧ (∀ loss, .leave loss ∉ c.wires.toRqc.get .p0) ∧
          (∀ m ∈ c.wires.takes, m.port ≠ .p0) ∧ .leave true ∈ (wired c fun w => { w with toRqc := .same [.leave true] }).wires.toRqc.get .p0 ∧
          ∃ m ∈ (wired c fun w => { w with takes := [⟨1, .p0, 5, .own⟩] }).wires.takes, m.port = .p0) :=
  ⟨⟨ready_of (by decide +kernel), ready_of (by decide +kernel)⟩, by unfold Chip.waiting; decide +kernel,
    by unfold Chip.waiting; decide +kernel⟩

theorem witness_PortLeaveTransfersStack :
    let c := wired hub fun w => { w with toRqc := ⟨[.leave false], [.leave true], [], []⟩ }
    c.rst = false ∧ c.wires.toRqc.get .p0 = [.leave false] ∧ c.wires.toRqc.get .p1 = [.leave true] ∧ c.queueHeld = false := by
  decide +kernel

theorem witness_PortLossBegins :
    let c := reporting [.linkDown]
    c.rst = false ∧ (c.link .p0).reports = [.linkDown] ∧ (c.pc .p0).state = .attached ∧ (c.pc .p0).leave = .no ∧
      ((c.updPc .p0 fun x => { x with leave := .detach }).pc .p0).leave = .detach := by
  decide +kernel

/-- `hub` whose port P0 stands at `l` in leaving. -/
def leaving (l : Leave) : Chip := hub.updPc .p0 fun x => { x with leave := l }

/-- Each wait of a leave come about, and each not. -/
theorem witness_LeaveEndsDown :
    (∀ l ∈ [Leave.loss, .lossNoticed, .attachAborted, .attachUndone, .linkDown, .linkDownNoticed],
      ((leaving l).pc .p0).leave = l ∧ (leaving l).rst = false) ∧
      ((hub.pc .p0).current = none ∧ (hub.pc .p0).atBlock = .same none ∧ (hub.pc .p0).gathers = [] ∧ hub.wires.answers.get .p0 = [] ∧
        hub.wires.toRqc.get .p0 = [] ∧ hub.wires.takes = [] ∧ hub.wires.toLtu.get .p0 = [] ∧ hub.wires.toFrt.get .p0 = false) ∧
      (((keeping hub .p0 5 (.pop 0) .given).pc .p0).current ≠ none ∧ (owing hub (some .frt) .p0 [5]).wires.answers.get .p0 ≠ [] ∧
        ((doing hub .frt .p0 5 (.openFrame ⟨none, none, [], []⟩) .hubRead).pc .p0).atBlock.frt ≠ none ∧
        LtuNotice.loss ∈ (wired hub fun w => { w with toLtu := .same [.loss] }).wires.toLtu.get .p0 ∧
        RqcNotice.attach ∈ (wired hub fun w => { w with toRqc := .same [.attach] }).wires.toRqc.get .p0 ∧
        (wired hub fun w => { w with toFrt := .same true }).wires.toFrt.get .p0 ≠ false) ∧
      (let c := stand (reporting [.linkDown]) .p0 .linked;
        (c.pc .p0).leave = .no ∧ (c.link .p0).reports = [.linkDown] ∧ (c.pc .p0).state = .linked ∧ (c.pc .p0).current = none ∧
          ((keeping c .p0 5 .attach .attaching).pc .p0).current = some ⟨5, .attach, .attaching⟩) := by
  decide +kernel

theorem witness_EventsRecordedAndFetched :
    (EventKind.protocol ∈ (wired hub fun w => { w with events := .same [.workReady, .protocol] }).wires.events.get .p0) ∧
      (ask hub .p0 (pkt 0x11 0 [])).ready .p0 (pkt 0x11 0 []) .fetchEvents :=
  ⟨by decide +kernel, ready_of (by decide +kernel)⟩

theorem witness_StartMakesHubRunning :
    (ask hub .p0 (pkt 0x1B 0 [])).ready .p0 (pkt 0x1B 0 []) .start ∧
      (ask (stand hub .p0 .linked) .p0 (pkt 0x1B 0 [])).ready .p0 (pkt 0x1B 0 []) .start ∧
      ((ask hub .p0 (pkt 0x1B 0 [])).attached .p0 = true ∧ (ask (stand hub .p0 .linked) .p0 (pkt 0x1B 0 [])).attached .p0 = false) :=
  ⟨ready_of (by decide +kernel), ready_of (by decide +kernel), by decide +kernel⟩

theorem witness_QuiesceAndItsCompletion :
    ((ask hub .p0 (pkt 0x1C 0 [])).ready .p0 (pkt 0x1C 0 []) .quiesce ∧
      (ask (stand hub .p0 .linked) .p0 (pkt 0x1C 0 [])).ready .p0 (pkt 0x1C 0 []) .quiesce) ∧
      (hub.attached .p0 = true ∧ (stand hub .p0 .linked).attached .p0 = false ∧ hub.hcu.state = .running ∧
        (inState hub .quiescing).hcu.state = .quiescing ∧ (inState hub .setup).hcu.state = .setup ∧
        0 < ({ hub with hcu := { hub.hcu with checks := 1 } } : Chip).hcu.checks ∧
        ({ hub with hcu := { hub.hcu with completionDue := true } } : Chip).hcu.completionDue = true ∧
        0 < (wired hub fun w => { w with setup := 1 }).wires.setup ∧
        (∀ p ∈ Port.all, ((wired hub fun w => { w with setup := 1 }).pc p).atBlock.get .rqc = none) ∧
        ((doing hub .rqc .p1 6 (.pop 1) .hubRead).pc .p1).atBlock.get .rqc = some ⟨6, .pop 1, .hubRead⟩) :=
  ⟨⟨ready_of (by decide +kernel), ready_of (by decide +kernel)⟩, by decide +kernel⟩

/-- CONFIGUREs at the ends of the ranges: REQUEUE_LIMIT 7 and 8 of the globals; DEPTH_LIMIT 1 and 0 of P0. -/
theorem witness_ConfigureChecksThenWrites :
    ((ask (inState hub .setup) .p0 (pkt 0x18 0 [0, 0x70006])).ready .p0 (pkt 0x18 0 [0, 0x70006]) (.configureGlobal [(.requeueLimit, 7)]) ∧
      (ask (inState hub .setup) .p0 (pkt 0x18 0 [0, 0x80006])).ready .p0 (pkt 0x18 0 [0, 0x80006]) (.configureGlobal [(.requeueLimit, 8)]) ∧
      (ask hub .p0 (pkt 0x18 0 [1, 0x10010])).ready .p0 (pkt 0x18 0 [1, 0x10010]) (.configurePort .p0 [(.depthLimit, 1)]) ∧
      (ask hub .p0 (pkt 0x18 0 [1, 0x10])).ready .p0 (pkt 0x18 0 [1, 0x10]) (.configurePort .p0 [(.depthLimit, 0)]) ∧
      (ask hub .p0 (pkt 0x18 0 [3, 0x10010])).ready .p0 (pkt 0x18 0 [3, 0x10010]) (.configurePort .p1 [(.depthLimit, 1)])) ∧
      (hub.attached .p0 = true ∧ (stand hub .p0 .linked).attached .p0 = false ∧ hub.hcu.state ≠ .setup ∧
        (inState hub .setup).hcu.state = .setup) :=
  ⟨⟨ready_of (by decide +kernel), ready_of (by decide +kernel), ready_of (by decide +kernel), ready_of (by decide +kernel),
    ready_of (by decide +kernel)⟩, by decide +kernel⟩

/-- A RUNNING ticket in slot 1: its entry there; its entry gone, the RETIRE of its COMPLETE on its way; neither. -/
def runningOne (entry : List RunEntry) (retire : List RetireMsg) : Chip :=
  wired { put hub 1 { task with state := .running } with ltu := { hub.ltu with running := entry } } fun w => { w with retireLtu := retire }

theorem witness_QueriesReportState :
    ((ask hub .p0 (pkt 0x10 0 [0])).ready .p0 (pkt 0x10 0 [0]) .queryHub ∧
      (ask hub .p0 (pkt 0x10 0 [0x31])).ready .p0 (pkt 0x10 0 [0x31]) (.queryPort .p3) ∧
      (ask hub .p0 (pkt 0x10 0 [2])).ready .p0 (pkt 0x10 0 [2]) (.queryFrame ref0) ∧
      (ask hub .p0 (pkt 0x10 0 [0x3FF3])).ready .p0 (pkt 0x10 0 [0x3FF3]) (.queryTicket 1023)) ∧
      ((hub.pc .p0).gathers = [] ∧ (framed hub .opened 1).refState ref0 ≠ .free ∧ hub.refState ref0 = .free) ∧
      (hub.ticket 1023 = none ∧ (put hub 1 task).ticket 1 = some task ∧ task.state ≠ .running) ∧
      ((runningOne [⟨1, .p2, none, .own, 0⟩] []).runEntry 1 = some ⟨1, .p2, none, .own, 0⟩ ∧
        (runningOne [] [⟨1, .ok, some .p2⟩]).runEntry 1 = none ∧
        ((runningOne [] [⟨1, .ok, some .p2⟩]).wires.retireLtu.find? fun m => m.slot == 1) = some ⟨1, .ok, some .p2⟩ ∧
        (runningOne [] []).ticket 1 = some { task with state := .running } ∧ (runningOne [] []).wires.retireLtu = []) :=
  ⟨⟨ready_of (by decide +kernel), ready_of (by decide +kernel), ready_of (by decide +kernel), ready_of (by decide +kernel)⟩,
    by decide +kernel⟩

/-- A QUERY HUB with the FRT's part to read, a QUERY PORT with the HCU's, one with all to read, each behind one that has read that part; a QUERY PORT with its
Port Controller's part to read behind one for another port; and the later QUERYs that wait for them. -/
theorem witness_QueriesReportState_parts :
    let hubNext : Gather := ⟨5, .hub ⟨some 1, some 2, some (3, 4), none⟩⟩
    let portNext : Gather := ⟨5, .port .p1 ⟨some ⟨3, 1, true, true, true, 0, 0⟩, some (0, 0), some 0, none⟩⟩
    let gathering := fun (l : List Gather) => hub.updPc .p0 fun x => { x with gathers := l }
    ((gathering [portNext, hubNext]).pc .p0).gathers = [portNext] ++ hubNext :: [] ∧ portNext.lacks .frt = false ∧
      ((gathering [portNext]).pc .p0).gathers = [] ++ portNext :: [] ∧ hubNext.lacks .hcu = false ∧
      ((gathering [hubNext, ⟨6, .hub .unread⟩]).pc .p0).gathers = [hubNext] ++ Gather.mk 6 (.hub ⟨none, none, none, none⟩) :: [] ∧
      (((gathering [⟨4, .port .p1 .unread⟩, ⟨6, .port .p2 .unread⟩]).pc .p0).gathers =
          [⟨4, .port .p1 .unread⟩] ++ Gather.mk 6 (.port .p2 ⟨none, none, none, none⟩) :: [] ∧
        Gathered.port .p1 .unread ≠ .port .p2 .unread) ∧
      (let c := keeping (gathering [⟨6, .hub .unread⟩]) .p0 7 (.queryFrame ref0) .given;
        (∃ g ∈ (c.pc .p0).gathers, g.lacks .frt = true) ∧ (c.pc .p0).current = some ⟨7, .queryFrame ref0, .given⟩ ∧
          (c.pc .p0).atBlock.frt = none) ∧
      (let c := keeping (gathering [⟨6, .hub .unread⟩]) .p0 7 (.queryTicket 3) .given;
        (∃ g ∈ (c.pc .p0).gathers, g.lacks .tks = true) ∧ (c.pc .p0).current = some ⟨7, .queryTicket 3, .given⟩ ∧
          (c.pc .p0).atBlock.tks = none) := by
  decide +kernel

/-! ### The task link -/

/-- `hub` with P0's Link Engine changed by `f`. -/
def linked (f : Link → Link) : Chip := hub.updLink .p0 f

theorem witness_TrainingBringsLinkUp :
    let training (run sent : Nat) : Link := (linked fun l => { l with state := .training, trainRun := run, trainSent := sent }).link .p0
    (let l (n : Nat) : Link := (linked fun l => { l with state := .holdOff, holdOffLeft := n }).link .p0;
      (l 0).state = .holdOff ∧ (l 0).holdOffLeft = 0 ∧ 0 < (l 1).holdOffLeft) ∧
      ((linked fun l => { l with state := .disabled }).link .p0).state = .disabled ∧ (training 0 0).state = .training ∧
      (training 15 0).trainRun < 16 ∧ 16 ≤ (training 16 0).trainRun ∧ (training 16 14).trainSent < 15 ∧ 15 ≤ (training 16 15).trainSent := by
  decide +kernel

theorem witness_TransmitterOrder :
    ((linked id).rst = false ∧ ((linked id).link .p0).state = .up) ∧
      ((linked fun l => { l with owed := some (.ack 15) }).link .p0).owed = some (.ack 15) ∧
      ((linked fun l => { l with owed := some (.nak 0) }).link .p0).owed = some (.nak 0) ∧
      (let l (n : Nat) : Link := (linked fun l => { l with credits := n }).link .p0;
        (l 1).owed = none ∧ 0 < (l 1).credits ∧ (l 15).credits ≤ 15 ∧ 15 < (l 16).credits) ∧
      (let l := (linked fun l => { l with replay := [⟨0, [7], true⟩, ⟨1, [], false⟩], sendPtr := 1 }).link .p0;
        l.owed = none ∧ l.credits = 0 ∧ l.replay[l.sendPtr]? = some ⟨1, [], false⟩) ∧
      (let l := (linked fun l => { l with replay := [⟨0, [7], true⟩], sendPtr := 1 }).link .p0;
        l.owed = none ∧ l.credits = 0 ∧ l.replay.length ≤ l.sendPtr) := by
  decide +kernel

/-- P0's Link Engine in UP with a packet open that holds these words. -/
def receiving (words : List Word) : Link := (linked fun l => { l with rx := some ⟨0, words, false⟩ }).link .p0

theorem witness_UnitsReceivedInUp :
    (((linked id).link .p0).state = .up ∧ ((linked id).link .p0).rx = none) ∧
      ((receiving (List.replicate 16 0)).rx = some ⟨0, List.replicate 16 0, false⟩ ∧ (List.replicate 16 (0 : Word)).length < 17) ∧
      sortUnit .undecodable = .damaged ∧
      (let good : List Word := [0x00000420, crcOf 0 [0x00000420]];
        2 ≤ good.length ∧ good.length ≤ 17 ∧ good.getLast? = some (crcOf 0 good.dropLast) ∧
          (0 : Seq) = ((linked id).link .p0).expected) ∧
      ((⟨0, [], false⟩ : OpenPacket).good = false ∧ (1 : Seq) ≠ ((linked id).link .p0).expected) ∧
      ((receiving []).rx = some ⟨0, [], false⟩ ∧ (receiving []).settled = true) := by
  decide +kernel

theorem witness_LinkGoesDown :
    (((linked id).link .p0).state = .up ∧ ((linked id).link .p0).rx = none) ∧
      ((receiving (List.replicate 17 0)).rx = some ⟨0, List.replicate 17 0, false⟩ ∧ 17 ≤ (List.replicate 17 (0 : Word)).length) ∧
      sortUnit (.control 0) = .damaged ∧
      (let l (n : Nat) : Link := (linked fun l => { l with replayTimer := some 800, replayCount := n }).link .p0;
        (l 3).replayTimer = some 800 ∧ (l 3).replayCount < 4 ∧ 4 ≤ (l 4).replayCount) ∧
      (let l (n : Nat) : Link := (linked fun l => { l with replayTimer := some n, silence := some n }).link .p0;
        (l 1600).silence = some 1600 ∧ (l 1599).silence = some 1599 ∧ (l 799).replayTimer = some 799) ∧
      ((linked id).link .p0).replayTimer = none := by
  decide +kernel

theorem witness_TrainInUp :
    ((linked id).rst = false ∧ ((linked id).link .p0).state = .up ∧ ((linked id).link .p0).settled = true) ∧
      ((linked fun l => { l with settled := false }).link .p0).settled = false ∧
      ∃ t, exec (.idleReceived .p0) (on (linked id)) = .next t :=
  ⟨by decide +kernel, by decide +kernel, _, rfl⟩

/-- Two packets sent, and a third appended and not yet sent: the send pointer after, or rewound before, the second; a replay count of 3 and of 4. -/
theorem witness_AcknowledgementsEmptyReplayBuffer :
    let buffer : List ReplayEntry := [⟨0, [], true⟩, ⟨1, [], true⟩, ⟨2, [], false⟩]
    let l (ptr count : Nat) : Link := (linked fun l => { l with replay := buffer, sendPtr := ptr, replayCount := count, nextSeq := 3 }).link .p0
    ((l 2 0).state = .up ∧ (l 2 0).rx = none ∧ buffer = [⟨0, [], true⟩] ++ ⟨1, [], true⟩ :: [⟨2, [], false⟩] ∧
      ∀ x ∈ [(⟨0, [], true⟩ : ReplayEntry)], x.seq ≠ 1 ∨ x.sent = false) ∧
      (l 1 0).sendPtr ≤ 1 ∧ 1 < (l 2 0).sendPtr ∧
      (buffer = [] ++ ⟨0, [], true⟩ :: [⟨1, [], true⟩, ⟨2, [], false⟩] ∧ 0 < (l 2 3).sendPtr ∧ (l 2 3).replayCount < 4 ∧
        4 ≤ (l 2 4).replayCount) ∧
      (∀ x ∈ buffer, x.seq ≠ 2 ∨ x.sent = false) ∧ (∀ x ∈ buffer, x.seq ≠ 3 ∨ x.sent = false) ∧ 3 = (l 2 0).nextSeq ∧
      2 ≠ (l 2 0).nextSeq := by
  decide +kernel

/-! ### Invariants -/

/-- A hub with P0's WAKE line asserted, its Link Engine at the ends of its ranges, and its tables full. -/
def brimming : Chip :=
  let c := parking ((linked fun l => { l with
    holdOffLeft := 6400, trainRun := 16, trainSent := 16, replay := List.replicate 8 ⟨0, [], true⟩, sendPtr := 8, replayCount := 4
    replayTimer := some 800, silence := some 1600, rx := some ⟨0, List.replicate 17 0, false⟩ }).updPc .p0 fun x =>
      { x with
        events := EventSet.none.insert .protocol, params := { x.params with eventMask := .ofCode 31 }, wake := true, credit := 255, errors := 255 })
    (Port.all.flatMap fun p => List.replicate 4 (parkedOne p))
  { c with frt := { c.frt with walks := List.replicate 8 ⟨ref0, .p0, 5, 0, true, [.shared]⟩ } }

theorem witness_StepKeepsWakeLines : brimming.wakesRight ∧ ∃ t, step ⟨[.tick], brimming⟩ = .next t :=
  ⟨fun p => by cases p <;> rfl, _, rfl⟩

theorem witness_StepKeepsTables : brimming.stealPtrsRight ∧ brimming.tablesInRange ∧ ∃ t, step ⟨[.tick], brimming⟩ = .next t :=
  ⟨fun p => by cases p <;> decide, by
    refine ⟨by decide +kernel, fun p => ?_, by decide +kernel, fun p => ?_⟩
    · cases p <;> decide +kernel
    · cases p <;> decide +kernel, _, rfl⟩

theorem witness_StepKeepsLinksInRange : brimming.linksInRange ∧ ∃ t, step ⟨[.tick], brimming⟩ = .next t := by
  refine ⟨fun p => ?_, _, rfl⟩
  cases p <;> refine ⟨by decide +kernel, by decide +kernel, by decide +kernel, by decide +kernel, by decide +kernel, by decide +kernel, ?_, ?_, ?_⟩ <;>
    (intro x h; first | (cases h; decide +kernel) | cases h)

/-- All 8 credits to advertise and none used; a packet that uses an advertised one; a link up with none left over. -/
theorem witness_StepKeepsLinksInRange_credits :
    let c (n : Nat) : Chip := linked fun l => { l with credits := n }
    (c 8).creditsBalance .p0 ∧ (c 7).creditsBalance .p0 ∧ ((c 7).link .p0).credits < ((c 7).pc .p0).granted ∧
      ((c 0).link .p0).credits = 0 ∧ (∃ t, step ⟨[.tick], c 8⟩ = .next t) ∧ (∃ t, step ⟨[.requestArrival .p0], c 7⟩ = .next t) ∧
      ∃ t, step ⟨[.linkUpReport .p0], c 0⟩ = .next t :=
  ⟨⟨by decide +kernel, by decide +kernel⟩, ⟨by decide +kernel, by decide +kernel⟩, by decide +kernel, by decide +kernel, ⟨_, rfl⟩, ⟨_, rfl⟩, ⟨_, rfl⟩⟩

end Sys2Proof.Tests
end

section
/-! Power-on, the slots of the Ticket Store, and the requeue decision (O5, O26, O29, O30). -/

namespace Sys2Proof.Machine

/-! ## Power-on -/

@[simp] theorem vector_get_replicate {α : Type} {n : Nat} (x : α) (i : Fin n) : (Vector.replicate n x).get i = x := by
  simp [Vector.get_eq_getElem]

@[simp] theorem Chip.powerOn_slot (straps : PerPort Bool) (i : SlotNo) : (Chip.powerOn straps).slot i = ⟨0, none⟩ :=
  vector_get_replicate Slot.powerOn i

@[simp] theorem Chip.powerOn_frame (straps : PerPort Bool) (n : FrameNo) : (Chip.powerOn straps).frame n = Frame.powerOn :=
  vector_get_replicate Frame.powerOn n

@[simp] theorem Chip.powerOn_pc (straps : PerPort Bool) (p : Port) : (Chip.powerOn straps).pc p = Pc.powerOn (straps.get p) :=
  PerPort.get_tab _ p

@[simp] theorem Chip.powerOn_link (straps : PerPort Bool) (p : Port) :
    (Chip.powerOn straps).link p = Link.powerOn (straps.get p) :=
  PerPort.get_tab _ p

/-- A deassertion that ends an assertion begins from the power-on values with the straps it samples (R157). -/
theorem exec_rstNDeassert {s : State} (hr : s.chip.rst = true) (straps : PerPort Bool) :
    exec (.rstNDeassert straps) s = .next ⟨s.pending, .powerOn straps⟩ := by
  simp [exec, execRstNDeassert, hr]

/-- The free list at power-on: every slot, in ascending order (R8). -/
theorem Chip.powerOn_free (straps : PerPort Bool) : (Chip.powerOn straps).tks.free = List.finRange 1024 := by
  simp only [Chip.powerOn, Tks.powerOn]

/-- The Run Queue Controller at power-on, port by port (R26, R56, R126). -/
theorem Chip.powerOn_rqc (straps : PerPort Bool) (p : Port) :
    (Chip.powerOn straps).stack p = [] ∧ (Chip.powerOn straps).rqc.stealPtr.get p = p.next ∧
      (Chip.powerOn straps).rqc.left.get p = true :=
  ⟨PerPort.get_same [] p, PerPort.get_tab Port.next p, PerPort.get_same true p⟩

/-- No message is in flight at power-on. -/
theorem Chip.powerOn_wires (straps : PerPort Bool) (p : Port) :
    (Chip.powerOn straps).wires.toRqc.get p = [] ∧ (Chip.powerOn straps).wires.toLtu.get p = [] ∧
      (Chip.powerOn straps).wires.toFrt.get p = false ∧ (Chip.powerOn straps).wires.events.get p = [] ∧
      (Chip.powerOn straps).wires.answers.get p = [] :=
  ⟨PerPort.get_same _ p, PerPort.get_same _ p, PerPort.get_same _ p, PerPort.get_same _ p, PerPort.get_same _ p⟩

/-- Settles O5: each field of each block is read off its power-on record. -/
theorem deassertGivesPowerOnValues : Obligations.DeassertGivesPowerOnValues := by
  intro s straps hr
  refine ⟨fun hp => ?_, exec_rstNDeassert hr straps, rfl, rfl, ⟨rfl, rfl, rfl, rfl, rfl, rfl, rfl, rfl, rfl⟩,
    ⟨Chip.powerOn_slot straps, Chip.powerOn_free straps, rfl⟩, ⟨rfl, rfl, Chip.powerOn_rqc straps⟩, ⟨fun n => ?frames, rfl, rfl⟩,
    ⟨rfl, fun p => ⟨PerPort.get_same 0 p, PerPort.get_same (some Departed.lost) p⟩⟩,
    ⟨rfl, rfl, rfl, rfl, rfl, rfl, rfl, rfl, rfl, Chip.powerOn_wires straps⟩, fun p => ?ports⟩
  · rw [exec_rstNDeassert hr, hp]; rfl
  case frames => rw [Chip.powerOn_frame]; exact ⟨rfl, rfl, rfl⟩
  case ports =>
    rw [Chip.powerOn_pc, Chip.powerOn_link]
    exact ⟨⟨rfl, rfl, rfl, rfl, rfl, rfl, rfl, rfl, rfl, rfl⟩, ⟨rfl, rfl, PerBlock.get_same none, rfl, rfl⟩,
      ⟨rfl, fun h => if_pos h, rfl, rfl, rfl, rfl, rfl, rfl, rfl, rfl, rfl⟩⟩

/-! ## One slot written, and written again -/

@[simp] theorem Chip.setSlot_setSlot (c : Chip) (i : SlotNo) (x y : Slot) : (c.setSlot i x).setSlot i y = c.setSlot i y := by
  simp [Chip.setSlot]

/-- A slot written with what it holds. -/
theorem Chip.setSlot_self (c : Chip) (i : SlotNo) : c.setSlot i (c.slot i) = c := by
  have h : c.tks.slots.set i.val (c.slot i) i.isLt = c.tks.slots := Vector.set_getElem_self i.isLt
  simp only [Chip.setSlot, h]

/-- A FREE slot has no record to change. -/
theorem Chip.updTicket_none {c : Chip} {i : SlotNo} (h : c.ticket i = none) (f : Ticket → Ticket) : c.updTicket i f = c := by
  have h' : (c.slot i).ticket = none := h
  have hs : ({ c.slot i with ticket := (c.slot i).ticket.map f } : Slot) = c.slot i := by
    cases hc : c.slot i; simp_all
  rw [Chip.updTicket, hs, Chip.setSlot_self]

/-- A change that keeps the record keeps the hub. -/
theorem Chip.updTicket_fixed {c : Chip} {i : SlotNo} {t : Ticket} {f : Ticket → Ticket} (h : c.ticket i = some t) (hf : f t = t) :
    c.updTicket i f = c := by
  rw [Chip.updTicket_eq h, hf, ← Chip.slot_of_ticket h, Chip.setSlot_self]

/-- The generation of a slot that is not FREE advances, its record staying (R3). -/
theorem Chip.advanceGen_eq {c : Chip} {i : SlotNo} {t : Ticket} (h : c.ticket i = some t) :
    c.advanceGen i = c.setSlot i ⟨(c.slot i).gen + 1, some t⟩ := by
  have h' : (c.slot i).ticket = some t := h
  simp only [Chip.advanceGen, h']

/-- A requeue: the next generation, one more requeue, no pin, and REQUEUE sent (R20, R114). -/
theorem Chip.requeueTicket_eq {c : Chip} {i : SlotNo} {t : Ticket} (h : c.ticket i = some t) :
    c.requeueTicket i =
      (c.setSlot i ⟨(c.slot i).gen + 1, some { t with requeues := t.requeues + 1, pin := none }⟩).sendRequeue i := by
  rw [Chip.requeueTicket, Chip.advanceGen_eq h, Chip.updTicket_eq (Chip.ticket_setSlot_self _ _ _), Chip.slot_setSlot_self,
    Chip.setSlot_setSlot]

/-- Settles O26, by the three branches of the decision. -/
theorem requeueDecisionInOrder : Obligations.RequeueDecisionInOrder := by
  intro c i t n ht
  refine ⟨fun hc => ?cancelled, fun hc hn => ?failed, fun hc hn => ?requeued⟩
  case cancelled => simp only [Chip.requeueDecision, hc, if_true]; rfl
  case failed => simp only [Chip.requeueDecision, hc, hn, Bool.false_eq_true, if_false, if_true]; rfl
  case requeued => simp only [Chip.requeueDecision, hc, hn, Bool.false_eq_true, if_false, Chip.requeueTicket_eq ht]; rfl

/-! ## RETIRE -/

@[simp] theorem Chip.dropRetire_tks (c : Chip) (src : RetireSender) : (c.dropRetire src).tks = c.tks := by cases src <;> rfl
@[simp] theorem Chip.dropRetire_hcu (c : Chip) (src : RetireSender) : (c.dropRetire src).hcu = c.hcu := by cases src <;> rfl

/-- The oldest RETIRE leaves its channel, and nothing else changes with that. -/
theorem Chip.dropRetire_eq (c : Chip) (src : RetireSender) : c.dropRetire src = { c with wires := (c.dropRetire src).wires } := by
  cases src <;> rfl

theorem Chip.dropRetire_childEnds (c : Chip) (src : RetireSender) : (c.dropRetire src).wires.childEnds = c.wires.childEnds := by
  cases src <;> rfl

/-- Settles O29: the oldest RETIRE is taken off its channel, and `Chip.retireTicket_eq` and `Chip.freeSlot_eq` say the rest. -/
theorem retireFreesSlot : Obligations.RetireFreesSlot := by
  intro s src m rest t hr hw ht
  have hd : (s.chip.dropRetire src).ticket m.slot = some t := by rw [Chip.dropRetire_eq]; exact ht
  have htake : takeRetire src s.chip = (s.chip.dropRetire src).retireTicket m := by simp only [takeRetire, hw]
  rw [exec_effect hr (by simp) (by simp)]
  show Host.Outcome.next (⟨s.pending, takeRetire src s.chip⟩ : State) = _
  rw [htake, Chip.retireTicket_eq hd, Chip.freeSlot_eq hd, Chip.dropRetire_childEnds]
  cases src <;> rfl

/-! ## STORED_WORD_DISTURBANCE -/

/-- A word whose parity bit is not its own fails its check (R22). -/
theorem StoredWord.not_good_of_flipped (w : Word) : StoredWord.good ⟨w, !parityOf w⟩ = false := by
  cases h : parityOf w <;> simp [StoredWord.good, h]

/-- One bad word among a list of words fails the check of them all. -/
theorem all_good_set_flipped {l : List StoredWord} {n : Nat} (h : n < l.length) (w : Word) :
    (l.set n ⟨w, !parityOf w⟩).all StoredWord.good = false :=
  List.all_eq_false.mpr ⟨⟨w, !parityOf w⟩, List.mem_set h _, by simp [StoredWord.not_good_of_flipped]⟩

/-- Settles O30: a word of the ticket is replaced by one of wrong parity; a place beyond its counts is none of its words. -/
theorem disturbedWordFailsParity : Obligations.DisturbedWordFailsParity := by
  intro s i w hr
  have hx : ∀ place, exec (.storedWordDisturbance i place w) s =
      .next ⟨s.pending, s.chip.updTicket i fun t => t.disturb place w⟩ := fun place =>
    exec_effect hr (by simp) (by simp)
  refine ⟨fun hf place => ?_, fun t ht => ⟨fun n => ⟨fun hn => ?_, fun hn => ?_⟩, fun n => ⟨fun hn => ?_, fun hn => ?_⟩⟩⟩
  · rw [hx, Chip.updTicket_none hf]
  · refine ⟨?_, ?_⟩
    · rw [hx, Chip.updTicket_eq ht]; rfl
    · simp only [Ticket.wordsGood, all_good_set_flipped hn, Bool.false_and]
  · rw [hx, Chip.updTicket_fixed ht (by simp [Ticket.disturb, List.set_eq_of_length_le hn])]
  · refine ⟨?_, ?_⟩
    · rw [hx, Chip.updTicket_eq ht]; rfl
    · simp only [Ticket.wordsGood, all_good_set_flipped hn, Bool.and_false]
  · rw [hx, Chip.updTicket_fixed ht (by simp [Ticket.disturb, List.set_eq_of_length_le hn])]

end Sys2Proof.Machine
end

section
/-! TAKE, the requests of a ticket's holder, and the release cascade (O22, O24, O33). -/

namespace Sys2Proof.Machine

/-! ## TAKE -/

/-- An entry made for a slot that had none and removed at once leaves the LTU as it was (R63). -/
theorem Chip.removeEntry_addEntry {c : Chip} {e : RunEntry} (h : c.runEntry e.slot = none) : (c.addEntry e).removeEntry e = c := by
  have hf : ((insertEntry e c.ltu.running).filter fun x => x.slot != e.slot) = c.ltu.running := filter_insertEntry e _ h
  simp [Chip.removeEntry, Chip.addEntry, hf]

/-- The hub with the oldest hand-over taken off its channel. -/
def Chip.dropTake (c : Chip) : Chip := { c with wires := { c.wires with takes := c.wires.takes.tail } }

/-- TAKE of the ticket `t`, by the LTU's mark of its port: an entry (R62), returned unrun (R132), or the requeue decision (R64). -/
def Chip.takeByMark (c : Chip) (m : TakeMsg) (t : Ticket) : Option Departed → Chip
  | none => c.enterTake m t
  | some .detaching => (c.sendPlace .ltu ⟨m.slot, .shared⟩).sendAnswer none m.port ⟨m.tag, .empty, [], none⟩
  | some .lost => c.requeueDecision m.slot t.requeues

/-- The oldest hand-over, of a slot that is not FREE. -/
theorem takeHandOver_eq {c : Chip} {m : TakeMsg} {rest : List TakeMsg} {t : Ticket} (hw : c.wires.takes = m :: rest)
    (ht : c.ticket m.slot = some t) : takeHandOver c = c.dropTake.takeByMark m t (c.ltu.departed.get m.port) := by
  have ht' : c.dropTake.ticket m.slot = some t := ht
  simp only [Chip.dropTake, hw, List.tail_cons] at ht' ⊢
  simp only [takeHandOver, hw, ht']
  cases hd : c.ltu.departed.get m.port with
  | none => rfl
  | some d => cases d <;> rfl

/-- Settles O22, by the mark of the hand-over's port and, where it has none, by the parity of the stored words. -/
theorem takeByMarkAndParity : Obligations.TakeByMarkAndParity := by
  intro s m rest t hr hw ht
  have hx : exec .take s = .next ⟨s.pending, takeHandOver s.chip⟩ := exec_effect hr (by simp) (by simp)
  have hrest : s.chip.dropTake = { s.chip with wires := { s.chip.wires with takes := rest } } := by
    simp only [Chip.dropTake, hw, List.tail_cons]
  have hu : ∀ f, s.chip.dropTake.updTicket m.slot f =
      s.chip.dropTake.setSlot m.slot ⟨(s.chip.slot m.slot).gen, some (f t)⟩ := Chip.updTicket_eq (c := s.chip.dropTake) ht
  refine ⟨fun hd hg => ?entered, fun hd hg he => ?poisoned, fun hd => ?detaching, fun hd => ?lost⟩
  case entered =>
    rw [hx, takeHandOver_eq hw ht, hd]
    simp only [Chip.takeByMark, Chip.enterTake, hu, hg, if_true]
    rw [hrest]; rfl
  case poisoned =>
    rw [hx, takeHandOver_eq hw ht, hd]
    simp only [Chip.takeByMark, Chip.enterTake, hu, hg, Bool.false_eq_true, if_false]
    rw [Chip.removeEntry_addEntry (by exact he), hrest]; rfl
  case detaching => rw [hx, takeHandOver_eq hw ht, hd, hrest]; rfl
  case lost => rw [hx, takeHandOver_eq hw ht, hd, hrest]; rfl

/-! ## The holder's requests -/

/-- A gated request of a ready port whose two first checks pass comes to its own act (R86, R95, R105). -/
theorem exec_gated {s : State} {p : Port} {m : Packet} {r : Req} {b : Block} (h : s.chip.ready p m r) (hb : r.block = some b)
    {i : Instr} {f : Hand → Current → Chip → Chip} {act : Current → Chip → Chip}
    (hi : requestRun i = some (r.row, b, p, .whole, 2, f))
    (hf : ∀ d st, f .now ⟨m.tag, r, st⟩ d = gatedStage b p .now ⟨m.tag, r, st⟩ (act ⟨m.tag, r, st⟩) d)
    (hg : s.chip.gateRefusal p = none) :
    exec i s = .next ⟨s.pending, act ⟨m.tag, r, .senderRead⟩ (s.chip.within b p ⟨m.tag, r, .senderRead⟩)⟩ := by
  rw [exec_ready h hb hi, gated_whole h hb hf, hg]

/-- The holder test passes for a ready port's request past its sender check, if it passes in the hub the request was dispatched in. -/
theorem Chip.within_asHolder {c : Chip} {b : Block} {p : Port} {m : Packet} {r : Req} {h : Handle} {act : RunEntry → Chip} {e : RunEntry}
    {t : Ticket} (h1 : c.entryHeld h.slot = false) (h2 : (c.slot h.slot).gen = h.gen) (h3 : c.ticket h.slot = some t)
    (h4 : t.state = .running) (h5 : c.runEntry h.slot = some e) (h6 : e.holder = p) :
    (c.within b p ⟨m.tag, r, .senderRead⟩).asHolder .now p ⟨m.tag, r, .senderRead⟩ h act = act e :=
  Chip.asHolder_pass (Chip.within_entryHeld (by simp) h1) h2 h3 h4 h5 h6

/-- Settles O24: past the gate and the holder test, each request acts on the holder's entry and is answered. -/
theorem holderRequestsByTheHolder : Obligations.HolderRequestsByTheHolder := by
  refine ⟨fun s p k h t e hg hh hgen ht hrun he hp => ⟨fun result hready => ?complete, fun hready => ?yield⟩,
    fun s p k h t e hready hg hh hgen ht hrun he hp => ?renew⟩
  case complete =>
    have hs := Chip.runEntry_slot he
    rw [exec_gated (act := fun x c => c.complete .now p x h result) hready rfl rfl (fun _ _ => rfl) hg]
    rw [Chip.complete, Chip.within_asHolder hh hgen ht hrun he hp, Chip.reply_of_ready hready rfl (.inr (by rfl)) (by rfl)]
    subst hp
    rw [Chip.removeEntry, hs]; rfl
  case yield =>
    have hs := Chip.runEntry_slot he
    rw [exec_gated (act := fun x c => c.yield .now p x h) hready rfl rfl (fun _ _ => rfl) hg]
    rw [Chip.yield, Chip.within_asHolder hh hgen ht hrun he hp, Chip.advanceGen_eq (by exact ht),
      Chip.reply_of_ready hready rfl (.inr (by rfl)) (by rfl)]
    subst hp
    rw [Chip.removeEntry, hs, ← hgen]; rfl
  case renew =>
    rw [exec_gated (act := fun x c => c.renew .now p x h) hready rfl rfl (fun _ _ => rfl) hg]
    have hl : (s.chip.within .ltu p ⟨k.tag, .renew h, .senderRead⟩).leaseTicks p = s.chip.leaseTicks p := by
      simp [Chip.leaseTicks, Chip.within, Pc.passed]
    rw [Chip.renew, Chip.within_asHolder hh hgen ht hrun he hp, hl, Chip.reply_of_ready hready rfl (.inr (by rfl)) (by rfl)]
    rfl

/-! ## The release cascade -/

/-- The hub a release leaves before it goes on outward: its frame and its continuation's slot freed, the end counted in the parent (R88, R90). -/
theorem Chip.releaseInner_eq {c : Chip} {n : FrameNo} {h : Handle} {t : Ticket} {g : FrameNo}
    (h1 : (c.frame n).continuation = some h) (h2 : c.ticket h.slot = some t) (hg : g ≠ n) :
    ((c.freeFrame n).freeSlot h.slot).countEnd g .cancelled = { c with
      hcu := { c.hcu with checks := if c.tks.free.length + 1 = 1024 then c.hcu.checks + 1 else c.hcu.checks }
      tks := ⟨c.tks.slots.set h.slot.val ⟨(c.slot h.slot).gen + 1, none⟩ h.slot.isLt, c.tks.free ++ [h.slot],
        c.tks.alloc.set t.allocator (c.tks.alloc.get t.allocator - 1)⟩
      frt := { c.frt with
        frames := (c.frt.frames.set n.val (c.frame n).released n.isLt).set g.val ((c.frame g).countEnd .cancelled) g.isLt
        inUse := c.frt.inUse - 1 } } := by
  have hframe : ((c.freeFrame n).freeSlot h.slot).frame g = c.frame g := by
    rw [Chip.freeSlot_frame, Chip.freeFrame_frame_ne c hg]
  have hgen : ((c.freeFrame n).slot h.slot).gen = (c.slot h.slot).gen := by
    rw [Chip.freeFrame_eq h1 h2]
    exact (congrArg Slot.gen (vector_get_set_self c.tks.slots h.slot _)).trans rfl
  rw [Chip.countEnd, hframe, Chip.freeSlot_eq (Chip.freeFrame_ticket h1 h2), hgen, Chip.freeFrame_eq h1 h2]
  simp [Chip.setFrame]

/-- Settles O33: `Chip.release_outward` at a parent with other children, and at one with none. -/
theorem releaseCascadesOutward : Obligations.ReleaseCascadesOutward := by
  intro c n rel h t g hc ht hp hne hcan f o c1
  have hcan' : (c.freeFrame n).refState g = .cancelling := by rw [Chip.freeFrame_refState_ne c hne, hcan]
  have h1 : ((c.freeFrame n).freeSlot h.slot).countEnd g.index .cancelled = c1 := Chip.releaseInner_eq hc ht hne
  have hpend : (c1.frame g.index).pending = o.pending - 1 := by
    rw [← h1, Chip.countEnd, Chip.frame_setFrame_self, Chip.freeSlot_frame, Chip.freeFrame_frame_ne c hne]; rfl
  rw [Chip.release_outward rel hc ht hp hcan', h1, hpend]
  exact ⟨fun ho => if_neg (by omega), fun ho => if_pos (by omega)⟩

end Sys2Proof.Machine
end

section
/-! What one claim of a request can do, said once for every request that a block takes; a request taken whole is its claims one after another (O3). -/

namespace Sys2Proof.Machine

/-! ## The claims a request has still to make -/

/-- How far a stage stands among the claims of a request (R40 to R45, R52, R77, R105). -/
def Stage.order : Stage → Nat
  | .given => 0
  | .hubRead => 1
  | .senderRead => 2
  | .targetRead => 3
  | .frameRead => 4
  | .roomRead _ => 5
  | .allocated _ _ => 6
  | .registered _ _ => 7
  | .currentRead => 3
  | .pinRead => 4
  | .attaching => 0
  | .holdWait => 0
  | .leaving => 0

/-- The claims a request of a row can make. -/
def ReqRow.claims : ReqRow → Nat
  | .push => 8
  | .openFrame => 5
  | .complete => 3
  | .renew => 3
  | .yield => 3
  | .closeFrame => 3
  | .cancelFrame => 3
  | .pop => 2
  | _ => 1

/-- The claims a request can still make; a request its block has not ended has one at least. -/
def Current.toGo (k : Current) : Nat := max 1 (k.req.row.claims - k.stage.order)

theorem Current.toGo_pos (k : Current) : 0 < k.toGo := by unfold Current.toGo; omega

/-- A later stage, short of the last claim, leaves fewer claims to make. -/
theorem Current.toGo_lt {k : Current} {st : Stage} (h : k.stage.order < st.order ∧ st.order < k.req.row.claims) :
    ({ k with stage := st } : Current).toGo < k.toGo := by
  simp only [Current.toGo]; omega

theorem Current.toGo_le (k : Current) : k.toGo ≤ k.req.row.claims := by
  have : 1 ≤ k.req.row.claims := by unfold ReqRow.claims; split <;> omega
  unfold Current.toGo; omega

/-! ## What one claim can do -/

/-- What a claim does besides its request leaves RST_N, the Port Controllers and the answers on their way as they were. -/
structure Chip.besides (c d : Chip) : Prop where
  rst     : d.rst = c.rst
  pcs     : d.pcs = c.pcs
  answers : d.wires.answers = c.wires.answers

theorem Chip.besides.refl (c : Chip) : c.besides c := ⟨rfl, rfl, rfl⟩

theorem Chip.besides.trans {c d e : Chip} (h1 : c.besides d) (h2 : d.besides e) : c.besides e :=
  ⟨h2.rst.trans h1.rst, h2.pcs.trans h1.pcs, h2.answers.trans h1.answers⟩

theorem Chip.rqcStep.besides {c d : Chip} (h : c.rqcStep d) : c.besides d := ⟨h.rst, h.pcs, h.answers⟩

/-- What a claim of block `b` on `p`'s request `k` comes to, by whose hand takes an answer: it waits, or, with `d` the hub after what it does besides, goes on to
a later stage, ends without an answer, or ends with one, counted in the creation count or not. -/
inductive Claimed (b : Block) (p : Port) (k : Current) (c : Chip) (f : Hand → Chip) : Prop
  | waits (hf : ∀ h, f h = c)
  | goesOn (d : Chip) (st : Stage) (hd : c.besides d) (hs : k.stage.order < st.order ∧ st.order < k.req.row.claims)
      (hf : ∀ h, f h = d.advance b p k st)
  | ends (d : Chip) (hd : c.besides d) (hf : ∀ h, f h = d.endAt b p k)
  | answers (d : Chip) (st : Status) (body : List Word) (i : Option Handle) (hd : c.besides d)
      (hf : ∀ h, f h = d.reply h b p k st body i)
  | answersCounted (d : Chip) (st : Status) (body : List Word) (i : Option Handle) (hd : c.besides d)
      (hf : ∀ h, f h = d.replyCounted h b p k st body i)

/-- A check that takes a counted request on to the next stage, or refuses it. -/
theorem Claimed.check {b : Block} {p : Port} {k : Current} {c : Chip} (ok : Bool) (st : Stage) (status : Status)
    (hs : k.stage.order < st.order ∧ st.order < k.req.row.claims) :
    Claimed b p k c fun h => if ok then c.advance b p k st else c.replyCounted h b p k status [] := by
  cases ok with
  | true => exact .goesOn c st (.refl c) hs fun h => rfl
  | false => exact .answersCounted c status [] none (.refl c) fun h => rfl

/-! ### The requests of the RQC -/

theorem pushClaimed {p : Port} {k : Current} (c : Chip) (hr : k.req.row = .push) : Claimed .rqc p k c fun h => pushClaim p h k c := by
  obtain ⟨tag, req, stage⟩ := k
  cases req with
  | push r =>
    cases stage with
    | given =>
      cases hs : c.hcu.state with
      | setup => exact .answers c .notRunning [] none (.refl c) fun h => by simp only [pushClaim, pushStage, hs]
      | quiescing => exact .answers c .quiescing [] none (.refl c) fun h => by simp only [pushClaim, pushStage, hs]
      | running =>
        exact .goesOn c.raiseCreation .hubRead ⟨rfl, rfl, rfl⟩ (by simp [Stage.order, Req.row, ReqRow.claims]) fun h => by simp only [pushClaim, pushStage, hs]
    | hubRead => exact .check (c.rqcAttached p) .senderRead .notAttached (by simp [Stage.order, Req.row, ReqRow.claims])
    | senderRead => exact .check (c.rqcAttached (r.target.getD p)) .targetRead .notAttached (by simp [Stage.order, Req.row, ReqRow.claims])
    | targetRead =>
      cases hf : c.pushFrameRefusal r.frame with
      | some s => exact .answersCounted c s [] none (.refl c) fun h => by simp only [pushClaim, pushStage, hf]
      | none => exact .goesOn c .frameRead (.refl c) (by simp [Stage.order, Req.row, ReqRow.claims]) fun h => by simp only [pushClaim, pushStage, hf]
    | frameRead =>
      cases hq : c.queueHeld with
      | true => exact .waits fun h => by simp only [pushClaim, pushStage, hq, if_true]
      | false =>
        cases hm : c.room (r.target.getD p) r.pin with
        | none =>
          exact .answersCounted c .full [] none (.refl c) fun h => by
            simp only [pushClaim, pushStage, hq, hm, Bool.false_eq_true, if_false]
        | some dest =>
          exact .goesOn c (.roomRead dest) (.refl c) (by simp [Stage.order, Req.row, ReqRow.claims]) fun h => by
            simp only [pushClaim, pushStage, hq, hm, Bool.false_eq_true, if_false]
    | roomRead dest =>
      cases ha : c.allocCheck p with
      | error s => exact .answersCounted c s [] none (.refl c) fun h => by simp only [pushClaim, pushStage, ha]
      | ok i =>
        exact .goesOn (c.allocate p i (pushTicket p r)) (.allocated (c.handle i) dest) ⟨rfl, rfl, rfl⟩ (by simp [Stage.order, Req.row, ReqRow.claims]) fun h => by
          simp only [pushClaim, pushStage, ha]
    | allocated i dest =>
      cases hf : r.frame with
      | none => exact .goesOn c (.registered i dest) (.refl c) (by simp [Stage.order, Req.row, ReqRow.claims]) fun h => by simp only [pushClaim, pushStage, hf]
      | some f =>
        cases hs : frameRefusal (c.refState f) with
        | some s =>
          exact .answersCounted (c.undoPush i.slot) s [] none ⟨rfl, rfl, rfl⟩ fun h => by simp only [pushClaim, pushStage, hf, hs]
        | none =>
          exact .goesOn (c.registerChild f) (.registered i dest) ⟨rfl, rfl, rfl⟩ (by simp [Stage.order, Req.row, ReqRow.claims]) fun h => by
            simp only [pushClaim, pushStage, hf, hs]
    | registered i dest =>
      exact .answersCounted (c.placeAt dest i.slot) .ok _ (some i) (c.placeAt_step dest i.slot).besides fun h => rfl
    | currentRead | pinRead | attaching | holdWait | leaving => exact .waits fun h => rfl
  | _ => cases hr

/-- The park decision parks the POP or answers it (R66). -/
theorem parkClaimed {p : Port} {k : Current} {c d : Chip} (hd : c.besides d) (n : Nat) : Claimed .rqc p k c fun h => d.park h p k n := by
  unfold Chip.park
  by_cases hn : n = 0
  · exact .answers d .empty [] none hd fun h => if_pos hn
  · by_cases hc : (d.parkedOf p).length < Config.parkedPerPort ∧ d.rqc.parked.length < Config.parkedCapacity
    · refine .ends (d.setParked (d.rqc.parked ++ [⟨p, k.tag, if n = Config.parkForever then none else some n⟩]))
        (hd.trans ⟨rfl, rfl, rfl⟩) fun h => ?_
      rw [if_neg hn, if_pos hc]
    · exact .answers d .parkFull [] none hd fun h => by rw [if_neg hn, if_neg hc]

/-- The search of a POP ends with its take handed over, or with the park decision (R53). -/
theorem popSearchClaimed {p : Port} {k : Current} (c : Chip) (n : Nat) : Claimed .rqc p k c fun h => c.popSearch h p k n := by
  have own := (searchList_step (c.stack p).length (.stack p) (·.headOf (.stack p)) p c).besides
  unfold Chip.popSearch
  cases h1 : searchList (c.stack p).length (.stack p) (·.headOf (.stack p)) p c with
  | mk c1 found =>
    rw [h1] at own
    cases found with
    | some i => exact .ends (c1.sendTake ⟨i, p, k.tag, .own⟩) (own.trans ⟨rfl, rfl, rfl⟩) fun h => rfl
    | none =>
      have shared := own.trans (searchList_step c1.rqc.shared.length .shared (·.headOf .shared) p c1).besides
      dsimp only
      cases h2 : searchList c1.rqc.shared.length .shared (·.headOf .shared) p c1 with
      | mk c2 found =>
        rw [h2] at shared
        cases found with
        | some i => exact .ends (c2.sendTake ⟨i, p, k.tag, .shared⟩) (shared.trans ⟨rfl, rfl, rfl⟩) fun h => rfl
        | none =>
          dsimp only
          cases he : (c2.pc p).params.stealEnable with
          | false => simp only [Bool.false_eq_true, if_false]; exact parkClaimed shared n
          | true =>
            have stolen := shared.trans (c2.stealSearch_step p).besides
            simp only [if_true]
            cases h3 : c2.stealSearch p with
            | mk c3 found =>
              rw [h3] at stolen
              cases found with
              | some x => exact .ends (c3.sendTake ⟨x.1, p, k.tag, .stolen x.2⟩) (stolen.trans ⟨rfl, rfl, rfl⟩) fun h => rfl
              | none => exact parkClaimed stolen n

theorem popClaimed {p : Port} {k : Current} (c : Chip) (hr : k.req.row = .pop) : Claimed .rqc p k c fun h => popClaim p h k c := by
  obtain ⟨tag, req, stage⟩ := k
  cases req with
  | pop n =>
    cases stage with
    | given =>
      cases hs : c.hcu.state with
      | setup => exact .answers c .notRunning [] none (.refl c) fun h => by simp only [popClaim, popStage, hs]
      | running | quiescing => exact .goesOn c .hubRead (.refl c) (by simp [Stage.order, Req.row, ReqRow.claims]) fun h => by simp only [popClaim, popStage, hs]
    | hubRead =>
      cases hq : c.queueHeld with
      | true => exact .waits fun h => by simp only [popClaim, popStage, hq, if_true]
      | false =>
        cases ha : c.rqcAttached p with
        | true => simp only [popClaim, popStage, hq, ha, Bool.false_eq_true, if_false, if_true]; exact popSearchClaimed c n
        | false =>
          exact .answers c .notAttached [] none (.refl c) fun h => by
            simp only [popClaim, popStage, hq, ha, Bool.false_eq_true, if_false]
    | _ => exact .waits fun h => rfl
  | _ => cases hr

/-! ### The gated requests of the LTU and the FRT -/

/-- A gated request is read, checked, and then does what its act does (R86, R95, R105). -/
theorem gatedClaimed {b : Block} {p : Port} {k : Current} {act : Hand → Chip → Chip} (c : Chip) (hr : k.req.row.claims = 3)
    (hact : Claimed b p k c fun h => act h c) : Claimed b p k c fun h => gatedStage b p h k (act h) c := by
  obtain ⟨tag, req, stage⟩ := k
  cases stage with
  | given =>
    cases hs : c.hcu.state with
    | setup => exact .answers c .notRunning [] none (.refl c) fun h => by simp only [gatedStage, hs]
    | running | quiescing =>
      exact .goesOn c .hubRead (.refl c) (by simp [Stage.order, hr]) fun h => by simp only [gatedStage, hs]
  | hubRead =>
    cases ha : c.attached p with
    | true =>
      exact .goesOn c .senderRead (.refl c) (by simp [Stage.order, hr]) fun h => by
        simp only [gatedStage, ha, if_true]
    | false =>
      exact .answers c .notAttached [] none (.refl c) fun h => by simp only [gatedStage, ha, Bool.false_eq_true, if_false]
  | senderRead => exact hact
  | _ => exact .waits fun h => rfl

/-- The holder test waits for an OPEN_FRAME, refuses, or lets the request act on its entry (R81, R105). -/
theorem asHolderClaimed {p : Port} {k : Current} {c : Chip} {i : Handle} {act : Hand → RunEntry → Chip}
    (hact : ∀ e, Claimed .ltu p k c fun h => act h e) : Claimed .ltu p k c fun h => c.asHolder h p k i (act h) := by
  unfold Chip.asHolder
  cases hh : c.entryHeld i.slot with
  | true => exact .waits fun h => rfl
  | false =>
    simp only [Bool.false_eq_true, if_false]
    cases ht : c.holds p i with
    | false => exact .answers c .stale [] none (.refl c) fun h => rfl
    | true =>
      simp only [if_true]
      cases he : c.runEntry i.slot with
      | none => exact .answers c .stale [] none (.refl c) fun h => rfl
      | some e => exact hact e

theorem completeClaimed {p : Port} {k : Current} (c : Chip) (hr : k.req.row = .complete) :
    Claimed .ltu p k c fun h => completeClaim p h k c := by
  obtain ⟨tag, req, stage⟩ := k
  cases req with
  | complete i result =>
    refine gatedClaimed (act := fun h c => c.complete h p _ i result) c rfl (asHolderClaimed fun e => ?_)
    exact .answers ((c.removeEntry e).sendRetire .ltu ⟨i.slot, result, some p⟩) .ok [] none ⟨rfl, rfl, rfl⟩ fun h => rfl
  | _ => cases hr

theorem renewClaimed {p : Port} {k : Current} (c : Chip) (hr : k.req.row = .renew) :
    Claimed .ltu p k c fun h => renewClaim p h k c := by
  obtain ⟨tag, req, stage⟩ := k
  cases req with
  | renew i =>
    refine gatedClaimed (act := fun h c => c.renew h p _ i) c rfl (asHolderClaimed fun e => ?_)
    exact .answers (c.setLease i.slot (c.leaseTicks p)) .ok (renewBody (c.leaseTicks p)) none ⟨rfl, rfl, rfl⟩ fun h => rfl
  | _ => cases hr

theorem yieldClaimed {p : Port} {k : Current} (c : Chip) (hr : k.req.row = .yield) :
    Claimed .ltu p k c fun h => yieldClaim p h k c := by
  obtain ⟨tag, req, stage⟩ := k
  cases req with
  | yield i =>
    refine gatedClaimed (act := fun h c => c.yield h p _ i) c rfl (asHolderClaimed fun e => ?_)
    exact .answers (((c.removeEntry e).advanceGen i.slot).sendPlace .ltu ⟨i.slot, .stack p⟩) .ok [] none ⟨rfl, rfl, rfl⟩ fun h => rfl
  | _ => cases hr

/-! ### The requests of the FRT -/

/-- A release sends no answer. -/
theorem release_answers : ∀ (n : Nat) (i : FrameNo) (rel : Option Port) (c : Chip), (release n i rel c).wires.answers = c.wires.answers
  | 0, _, _, _ => rfl
  | n + 1, i, rel, c => by
    have hf : (c.freeFrame i).wires = c.wires := by unfold Chip.freeFrame; dsimp only; split <;> rfl
    have hp : ∀ (d : Chip) j pin, (d.placeContinuation j pin rel).wires.answers = d.wires.answers := fun d j pin => by
      unfold Chip.placeContinuation; dsimp only; split
      · split <;> rfl
      · rfl
    unfold release
    dsimp only
    split
    · rw [hf]
    · split
      · rw [hp, hf]
      · split
        · rename_i h _ _ g _ _
          have hc : (((c.freeFrame i).freeSlot h.slot).countEnd g.index .cancelled).wires = c.wires := by
            rw [Chip.countEnd, Chip.setFrame_wires, Chip.freeSlot_wires, hf]
          split
          · rw [release_answers n, hc]
          · rw [hc]
        · rw [hp, hf]

theorem Chip.release_besides (c : Chip) (i : FrameNo) (rel : Option Port) : c.besides (c.release i rel) :=
  have h : c.frtStep (c.release i rel) := Machine.release_step 257 i rel c
  ⟨h.rst, h.pcs, release_answers 257 i rel c⟩

theorem openClaimed {p : Port} {k : Current} (c : Chip) (hr : k.req.row = .openFrame) :
    Claimed .frt p k c fun h => openClaim p h k c := by
  obtain ⟨tag, req, stage⟩ := k
  cases req with
  | openFrame r =>
    cases stage with
    | given =>
      cases hs : c.hcu.state with
      | setup => exact .answers c .notRunning [] none (.refl c) fun h => by simp only [openClaim, openStage, hs]
      | quiescing => exact .answers c .quiescing [] none (.refl c) fun h => by simp only [openClaim, openStage, hs]
      | running =>
        exact .goesOn c.raiseCreation .hubRead ⟨rfl, rfl, rfl⟩ (by simp [Stage.order, Req.row, ReqRow.claims]) fun h => by simp only [openClaim, openStage, hs]
    | hubRead => exact .check (c.attached p) .senderRead .notAttached (by simp [Stage.order, Req.row, ReqRow.claims])
    | senderRead =>
      cases hc : r.current with
      | none => exact .goesOn c .currentRead (.refl c) (by simp [Stage.order, Req.row, ReqRow.claims]) fun h => by simp only [openClaim, openStage, hc]
      | some i => simp only [openClaim, openStage, hc]; exact .check (c.holds p i) .currentRead .stale (by simp [Stage.order, Req.row, ReqRow.claims])
    | currentRead =>
      cases hc : r.pin with
      | none => exact .goesOn c .pinRead (.refl c) (by simp [Stage.order, Req.row, ReqRow.claims]) fun h => by simp only [openClaim, openStage, hc]
      | some q => simp only [openClaim, openStage, hc]; exact .check (c.attached q) .pinRead .notAttached (by simp [Stage.order, Req.row, ReqRow.claims])
    | pinRead =>
      cases hn : c.freeFrameNo with
      | none => exact .answersCounted c .framesFull [] none (.refl c) fun h => by simp only [openClaim, openStage, hn]
      | some n =>
        cases ha : c.allocCheck p with
        | error s => exact .answersCounted c s [] none (.refl c) fun h => by simp only [openClaim, openStage, hn, ha]
        | ok i =>
          have hd : c.besides (c.openWith p r n i) := by
            unfold Chip.openWith Chip.clearParent; cases r.current <;> exact ⟨rfl, rfl, rfl⟩
          exact .answersCounted (c.openWith p r n i) .ok (openBody (c.handle i) ⟨n, (c.frame n).gen⟩) (some (c.handle i)) hd fun h => by
            simp only [openClaim, openStage, hn, ha]
    | _ => exact .waits fun h => rfl
  | _ => cases hr

theorem closeClaimed {p : Port} {k : Current} (c : Chip) (hr : k.req.row = .closeFrame) :
    Claimed .frt p k c fun h => closeClaim p h k c := by
  obtain ⟨tag, req, stage⟩ := k
  cases req with
  | closeFrame f =>
    refine gatedClaimed (act := fun h c => c.closeFrame h p _ f) c rfl ?_
    cases hs : c.refState f with
    | opened =>
      have hd : c.besides
          (if (c.frame f.index).pending = 0 then (c.setFrameState f.index .closed).release f.index (some p)
            else c.setFrameState f.index .closed) := by
        split
        · exact Chip.besides.trans (d := c.setFrameState f.index .closed) ⟨rfl, rfl, rfl⟩ (Chip.release_besides _ _ _)
        · exact ⟨rfl, rfl, rfl⟩
      exact .answers _ .ok (countBody (c.frame f.index).pending) none hd fun h => by simp only [Chip.closeFrame, hs]
    | closed => exact .answers c .frameState [] none (.refl c) fun h => by simp only [Chip.closeFrame, hs]
    | cancelling => exact .answers c .cancelled [] none (.refl c) fun h => by simp only [Chip.closeFrame, hs]
    | free => exact .answers c .badFrame [] none (.refl c) fun h => by simp only [Chip.closeFrame, hs]
  | _ => cases hr

/-- A CANCEL_FRAME of an OPEN or CLOSED frame releases it, finds the walk queue busy, or queues its walk (R95, R96). -/
theorem cancelActClaimed {p : Port} {k : Current} {c : Chip} {f : FrameRef} (h1 : c.refState f ≠ .free) (h2 : c.refState f ≠ .cancelling) :
    Claimed .frt p k c fun h => c.cancelFrame h p k f := by
  have go : ∀ h, c.cancelFrame h p k f =
      if (c.frame f.index).pending = 0 ∧ c.refState f = .opened then
        ((c.setFrameState f.index .cancelling).release f.index (some p)).reply h .frt p k .ok (countBody 0)
      else if Config.walkCapacity ≤ c.frt.walks.length ∨ (c.frt.walks.any fun w => w.frame == f) = true then
        c.reply h .frt p k .busy []
      else
        ((c.setFrame f.index { c.frame f.index with state := .cancelling, walkPending := true }).queueWalk p k.tag f).endAt .frt p k :=
    fun h => by
      cases hs : c.refState f with
      | free => exact absurd hs h1
      | cancelling => exact absurd hs h2
      | opened | closed => simp only [Chip.cancelFrame, hs]
  by_cases ho : (c.frame f.index).pending = 0 ∧ c.refState f = .opened
  · refine .answers ((c.setFrameState f.index .cancelling).release f.index (some p)) .ok _ none ?_ fun h => by rw [go, if_pos ho]
    exact Chip.besides.trans (d := c.setFrameState f.index .cancelling) ⟨rfl, rfl, rfl⟩ (Chip.release_besides _ _ _)
  · by_cases hb : Config.walkCapacity ≤ c.frt.walks.length ∨ (c.frt.walks.any fun w => w.frame == f) = true
    · exact .answers c .busy [] none (.refl c) fun h => by rw [go, if_neg ho, if_pos hb]
    · refine .ends _ ?_ fun h => by rw [go, if_neg ho, if_neg hb]
      exact ⟨rfl, rfl, rfl⟩

theorem cancelClaimed {p : Port} {k : Current} (c : Chip) (hr : k.req.row = .cancelFrame) :
    Claimed .frt p k c fun h => cancelClaim p h k c := by
  obtain ⟨tag, req, stage⟩ := k
  cases req with
  | cancelFrame f =>
    refine gatedClaimed (act := fun h c => c.cancelFrame h p _ f) c rfl ?_
    by_cases h1 : c.refState f = .free
    · exact .answers c .badFrame [] none (.refl c) fun h => by simp only [Chip.cancelFrame, h1]
    · by_cases h2 : c.refState f = .cancelling
      · exact .answers c .ok (countBody 0) none (.refl c) fun h => by simp only [Chip.cancelFrame, h2]
      · exact cancelActClaimed h1 h2
  | _ => cases hr

theorem queryFrameClaimed {p : Port} {k : Current} (c : Chip) (hr : k.req.row = .queryFrame) :
    Claimed .frt p k c fun h => queryFrameClaim p h k c := by
  obtain ⟨tag, req, stage⟩ := k
  cases req with
  | queryFrame f =>
    cases hs : c.refState f with
    | free => exact .answers c .badFrame [] none (.refl c) fun h => by simp only [queryFrameClaim, Chip.queryFrame, hs]
    | opened | closed | cancelling =>
      exact .answers c .ok (frameBody (c.frame f.index)) none (.refl c) fun h => by simp only [queryFrameClaim, Chip.queryFrame, hs]
  | _ => cases hr

/-! ### The requests of the TKS and the HCU -/

theorem queryTicketClaimed {p : Port} {k : Current} (c : Chip) (hr : k.req.row = .queryTicket) :
    Claimed .tks p k c fun h => queryTicketClaim p h k c := by
  obtain ⟨tag, req, stage⟩ := k
  cases req with
  | queryTicket i => exact .answers c .ok _ none (.refl c) fun h => rfl
  | _ => cases hr

theorem configureGlobalClaimed {p : Port} {k : Current} (c : Chip) (hr : k.req.row = .configureGlobal) :
    Claimed .hcu p k c fun h => configureGlobalClaim p h k c := by
  obtain ⟨tag, req, stage⟩ := k
  cases req with
  | configureGlobal items =>
    by_cases h1 : c.attached p = false
    · exact .answers c .notAttached [] none (.refl c) fun h => by simp only [configureGlobalClaim, if_pos h1]
    · by_cases h2 : c.hcu.state ≠ .setup
      · exact .answers c .denied [] none (.refl c) fun h => by simp only [configureGlobalClaim, if_neg h1, if_pos h2]
      · by_cases h3 : items.all globalInRange = true
        · exact .answers { c with hcu := items.foldl Hcu.write c.hcu } .ok [] none ⟨rfl, rfl, rfl⟩ fun h => by
            simp only [configureGlobalClaim, if_neg h1, if_neg h2, if_pos h3]
        · exact .answers c .badRequest [] none (.refl c) fun h => by
            simp only [configureGlobalClaim, if_neg h1, if_neg h2, if_neg h3]
  | _ => cases hr

theorem startClaimed {p : Port} {k : Current} (c : Chip) (hr : k.req.row = .start) :
    Claimed .hcu p k c fun h => startClaim p h k c := by
  obtain ⟨tag, req, stage⟩ := k
  cases req with
  | start =>
    by_cases ha : c.attached p = true
    · exact .answers { c with hcu := { c.hcu with state := .running, completionDue := false } } .ok (hubStateBody .running) none
        ⟨rfl, rfl, rfl⟩ fun h => by simp only [startClaim, if_pos ha]
    · exact .answers c .notAttached [] none (.refl c) fun h => by simp only [startClaim, if_neg ha]
  | _ => cases hr

theorem quiesceClaimed {p : Port} {k : Current} (c : Chip) (hr : k.req.row = .quiesce) :
    Claimed .hcu p k c fun h => quiesceClaim p h k c := by
  obtain ⟨tag, req, stage⟩ := k
  cases req with
  | quiesce =>
    by_cases ha : c.attached p = true
    · cases hs : c.hcu.state with
      | running =>
        have hd : c.besides c.beginQuiesce := by unfold Chip.beginQuiesce; dsimp only; split <;> exact ⟨rfl, rfl, rfl⟩
        exact .answers c.beginQuiesce .ok (hubStateBody .quiescing) none hd fun h => by simp only [quiesceClaim, if_pos ha, hs]
      | quiescing =>
        exact .answers c .ok (hubStateBody .quiescing) none (.refl c) fun h => by simp only [quiesceClaim, if_pos ha, hs]
      | setup => exact .answers c .denied [] none (.refl c) fun h => by simp only [quiesceClaim, if_pos ha, hs]
    · exact .answers c .notAttached [] none (.refl c) fun h => by simp only [quiesceClaim, if_neg ha]
  | _ => cases hr

end Sys2Proof.Machine
end

section
/-! What follows from what one claim can do: a claim brings its request nearer its end, and its answer may be taken by the next step (O3, O10). -/

namespace Sys2Proof.Machine

/-! ## The rows of the requests that blocks take -/

/-- The requests that a block takes, each as the command of its extent. -/
def blockRequests (p : Port) : List (Block × (Extent → Instr)) :=
  [(.rqc, .push p), (.rqc, .pop p), (.ltu, .complete p), (.ltu, .renew p), (.ltu, .yield p), (.frt, .openFrame p), (.frt, .closeFrame p),
    (.frt, .cancelFrame p), (.frt, .queryFrame p), (.tks, .queryTicket p), (.hcu, .configureGlobal p), (.hcu, .start p),
    (.hcu, .quiesce p)]

/-- A block's request row, with every claim of it as `Claimed` says. -/
structure RowOf (b : Block) (p : Port) (i : Extent → Instr) (row : ReqRow) (n : Nat) (f : Hand → Current → Chip → Chip) : Prop where
  run     : ∀ e, requestRun (i e) = some (row, b, p, e, n, f)
  claims  : row.claims = n + 1
  claimed : ∀ (k : Current) (c : Chip), k.req.row = row → Claimed b p k c fun h => f h k c

theorem rowOf_blockRequests {b : Block} {p : Port} {i : Extent → Instr} (h : (b, i) ∈ blockRequests p) :
    ∃ row n f, RowOf b p i row n f := by
  simp only [blockRequests, List.mem_cons, Prod.mk.injEq, List.not_mem_nil, or_false] at h
  obtain ⟨rfl, rfl⟩ | ⟨rfl, rfl⟩ | ⟨rfl, rfl⟩ | ⟨rfl, rfl⟩ | ⟨rfl, rfl⟩ | ⟨rfl, rfl⟩ | ⟨rfl, rfl⟩ | ⟨rfl, rfl⟩ | ⟨rfl, rfl⟩ | ⟨rfl, rfl⟩ |
    ⟨rfl, rfl⟩ | ⟨rfl, rfl⟩ | ⟨rfl, rfl⟩ := h
  · exact ⟨.push, 7, pushClaim p, fun _ => rfl, rfl, fun _ c => pushClaimed c⟩
  · exact ⟨.pop, 1, popClaim p, fun _ => rfl, rfl, fun _ c => popClaimed c⟩
  · exact ⟨.complete, 2, completeClaim p, fun _ => rfl, rfl, fun _ c => completeClaimed c⟩
  · exact ⟨.renew, 2, renewClaim p, fun _ => rfl, rfl, fun _ c => renewClaimed c⟩
  · exact ⟨.yield, 2, yieldClaim p, fun _ => rfl, rfl, fun _ c => yieldClaimed c⟩
  · exact ⟨.openFrame, 4, openClaim p, fun _ => rfl, rfl, fun _ c => openClaimed c⟩
  · exact ⟨.closeFrame, 2, closeClaim p, fun _ => rfl, rfl, fun _ c => closeClaimed c⟩
  · exact ⟨.cancelFrame, 2, cancelClaim p, fun _ => rfl, rfl, fun _ c => cancelClaimed c⟩
  · exact ⟨.queryFrame, 0, queryFrameClaim p, fun _ => rfl, rfl, fun _ c => queryFrameClaimed c⟩
  · exact ⟨.queryTicket, 0, queryTicketClaim p, fun _ => rfl, rfl, fun _ c => queryTicketClaimed c⟩
  · exact ⟨.configureGlobal, 0, configureGlobalClaim p, fun _ => rfl, rfl, fun _ c => configureGlobalClaimed c⟩
  · exact ⟨.start, 0, startClaim p, fun _ => rfl, rfl, fun _ c => startClaimed c⟩
  · exact ⟨.quiesce, 0, quiesceClaim p, fun _ => rfl, rfl, fun _ c => quiesceClaimed c⟩

/-- The command of a request that a block takes. -/
theorem RowOf.exec {b : Block} {p : Port} {i : Extent → Instr} {row : ReqRow} {n : Nat} {f : Hand → Current → Chip → Chip}
    (h : RowOf b p i row n f) (e : Extent) (s : State) : exec (i e) s = s.run fun c => c.runRequest row b p e n f := by
  obtain ⟨h1, h2⟩ := requestRun_ne_rst (h.run e)
  rw [exec_eq_run _ s h1 h2, effect_of_requestRun (h.run e)]

/-! ## What a dispatch and an answer leave within the blocks -/

theorem Pc.protocolError_atBlock (x : Pc) : x.protocolError.atBlock = x.atBlock := by
  unfold Pc.protocolError Pc.record
  split <;> rfl

theorem Pc.dispatch_atBlock (x : Pc) (k : Packet) : (x.dispatch k).atBlock = x.atBlock := by
  unfold Pc.dispatch
  dsimp only
  split
  · rename_i r _
    cases r <;> rfl
  · rfl
  · exact Pc.protocolError_atBlock _

theorem Chip.dispatchHead_atBlock (c : Chip) (row : ReqRow) (p : Port) :
    ((c.dispatchHead row p).pc p).atBlock = (c.pc p).atBlock := by
  unfold Chip.dispatchHead
  split
  · rfl
  · rename_i k _ _
    split
    · show ((c.updPc p fun x => x.dispatch k).pc p).atBlock = _
      rw [Chip.pc_updPc_self, Pc.dispatch_atBlock]
    · rfl

/-- Nothing is dispatched while a request is dispatched that no block has taken (R167). -/
theorem Chip.dispatchHead_of_current {c : Chip} {p : Port} (h : (c.pc p).current ≠ none) (row : ReqRow) : c.dispatchHead row p = c := by
  refine Chip.dispatchHead_waits (.inl ?_)
  simp [Pc.mayDispatch, Option.isNone_eq_false_iff.mpr (Option.isSome_iff_ne_none.mpr h)]

theorem Pc.foldl_enqueue_atBlock (l : List Answer) : ∀ x : Pc, (l.foldl (fun x a => x.enqueue a.resp) x).atBlock = x.atBlock := by
  induction l with
  | nil => intro x; rfl
  | cons a l ih => intro x; exact ih _

/-- An answer leaves the requests within the blocks as they were. -/
theorem Chip.answer_atBlock (c : Chip) (h : Hand) (o : Option Block) (p : Port) (r : Response) :
    ((c.answer h o p r).pc p).atBlock = (c.pc p).atBlock := by
  cases h with
  | later => rfl
  | now =>
    show (((c.deliver o p).updPc p fun x => x.enqueue r).pc p).atBlock = _
    rw [Chip.pc_updPc_self]
    show ((c.deliver o p).pcs.get p).atBlock = _
    rw [Chip.deliver_pcs, PerPort.get_set_self, Pc.foldl_enqueue_atBlock]

/-- A request that its block answers is within it no more. -/
theorem Chip.reply_atBlock (c : Chip) (h : Hand) (b : Block) (p : Port) (k : Current) (st : Status) (body : List Word) (i : Option Handle) :
    ((c.reply h b p k st body i).pc p).atBlock.get b = none := by
  rw [Chip.reply, Chip.answer_atBlock]
  simp [Chip.endAt, Pc.move]

theorem Chip.replyCounted_atBlock (c : Chip) (h : Hand) (b : Block) (p : Port) (k : Current) (st : Status) (body : List Word)
    (i : Option Handle) : ((c.replyCounted h b p k st body i).pc p).atBlock.get b = none := by
  rw [Chip.replyCounted, Chip.pc, Chip.lowerCreation_pcs]
  exact Chip.reply_atBlock c h b p k st body i

/-! ## A claim brings its request nearer its end -/

/-- The claims that `p`'s request within block `b` can still make. -/
def Chip.claimsLeft (c : Chip) (b : Block) (p : Port) : Nat :=
  match (c.pc p).atBlock.get b with
  | some k => k.toGo
  | none => 0

theorem Chip.claimsLeft_some {c : Chip} {b : Block} {p : Port} {k : Current} (h : (c.pc p).atBlock.get b = some k) :
    c.claimsLeft b p = k.toGo := by
  simp only [Chip.claimsLeft, h]

theorem Chip.claimsLeft_none {c : Chip} {b : Block} {p : Port} (h : (c.pc p).atBlock.get b = none) : c.claimsLeft b p = 0 := by
  simp only [Chip.claimsLeft, h]

section claimed
variable {b : Block} {p : Port} {k : Current} {c : Chip} {f : Hand → Chip}

/-- A claim waits, or leaves its request with fewer claims to make. -/
theorem Claimed.claimsLeft_lt (H : Claimed b p k c f) (h : Hand) : f h = c ∨ (f h).claimsLeft b p < k.toGo := by
  have ended : ∀ {d : Chip}, (d.pc p).atBlock.get b = none → d.claimsLeft b p < k.toGo := fun hd => by
    rw [Chip.claimsLeft_none hd]; exact k.toGo_pos
  cases H with
  | waits hf => exact .inl (hf h)
  | goesOn d st hd hs hf =>
    have hk : ((d.advance b p k st).pc p).atBlock.get b = some { k with stage := st } := by simp [Chip.advance, Pc.move]
    rw [hf h, Chip.claimsLeft_some hk]
    exact .inr (Current.toGo_lt hs)
  | ends d hd hf => rw [hf h]; exact .inr (ended (by simp [Chip.endAt, Pc.move]))
  | answers d st body i hd hf => rw [hf h]; exact .inr (ended (Chip.reply_atBlock ..))
  | answersCounted d st body i hd hf => rw [hf h]; exact .inr (ended (Chip.replyCounted_atBlock ..))

end claimed

/-- A claim leaves RST_N as it is. -/
theorem Claimed.rst {b : Block} {p : Port} {k : Current} {c : Chip} {f : Hand → Chip} (H : Claimed b p k c f) (h : Hand) :
    (f h).rst = c.rst := by
  cases H with
  | waits hf => rw [hf]
  | goesOn d st hd hs hf => rw [hf, Chip.advance_rst, hd.rst]
  | ends d hd hf => rw [hf, Chip.endAt_rst, hd.rst]
  | answers d st body i hd hf => rw [hf, Chip.reply_rst, hd.rst]
  | answersCounted d st body i hd hf => rw [hf, Chip.replyCounted_rst, hd.rst]

theorem Chip.dispatchHead_rst (c : Chip) (row : ReqRow) (p : Port) : (c.dispatchHead row p).rst = c.rst := by
  unfold Chip.dispatchHead
  split
  · rfl
  · split <;> rfl

section row
variable {b : Block} {p : Port} {i : Extent → Instr} {row : ReqRow} {n : Nat} {f : Hand → Current → Chip → Chip}

/-- Going on with a request changes nothing, or leaves it with fewer claims to make. -/
theorem RowOf.goOn_lt (H : RowOf b p i row n f) (h : Hand) (c : Chip) :
    c.goOn row b p (f h) = c ∨ (c.goOn row b p (f h)).claimsLeft b p < c.claimsLeft b p := by
  cases hb : (c.pc p).atBlock.get b with
  | none => exact .inl (Chip.goOn_none hb)
  | some k =>
    by_cases hr : k.req.row = row
    · rw [Chip.goOn_some hb hr, Chip.claimsLeft_some hb]
      exact (H.claimed k c hr).claimsLeft_lt h
    · exact .inl (Chip.goOn_other hb hr)

/-- The next claim of a row is a claim on the request its block has taken, or on the one it takes up, or there is none to make. -/
theorem Chip.nextClaim_cases (c : Chip) (row : ReqRow) (b : Block) (p : Port) (f : Hand → Current → Chip → Chip) :
    (∀ h, c.nextClaim row b p (f h) = c) ∨
      ∃ k, k.req.row = row ∧ ((c.pc p).atBlock.get b = some k ∨ (c.pc p).atBlock.get b = none ∧ (c.pc p).current = some k) ∧
        ∀ h, c.nextClaim row b p (f h) = f h k c := by
  unfold Chip.nextClaim
  cases hb : (c.pc p).atBlock.get b with
  | some k =>
    simp only [Option.isSome_some, if_true]
    by_cases hr : k.req.row = row
    · exact .inr ⟨k, hr, .inl rfl, fun h => Chip.goOn_some hb hr⟩
    · exact .inl fun h => Chip.goOn_other hb hr
  | none =>
    simp only [Option.isSome_none, Bool.false_eq_true, if_false, Chip.takeUp, hb]
    cases hc : (c.pc p).current with
    | none => exact .inl fun h => rfl
    | some k =>
      dsimp only
      split
      · rename_i hg
        obtain ⟨_, hrow, _⟩ := hg
        exact .inr ⟨k, hrow, .inr ⟨trivial, rfl⟩, fun h => rfl⟩
      · exact .inl fun h => rfl

theorem RowOf.nextClaim_rst (H : RowOf b p i row n f) (c : Chip) (h : Hand) : (c.nextClaim row b p (f h)).rst = c.rst := by
  rcases c.nextClaim_cases row b p f with hf | ⟨k, hr, _, hf⟩
  · rw [hf]
  · rw [hf]; exact (H.claimed k c hr).rst h

/-- A request taken whole, in a hub where its block has none: the dispatch first, and then the rest whole. -/
theorem Chip.runRequest_dispatch_first {c : Chip} (h : (c.pc p).atBlock.get b = none)
    (hc : ((c.dispatchHead row p).pc p).current ≠ none) :
    c.runRequest row b p .whole n f = (c.dispatchHead row p).runRequest row b p .whole n f := by
  have hd : ((c.dispatchHead row p).pc p).atBlock.get b = none := by rw [Chip.dispatchHead_atBlock, h]
  simp only [Chip.runRequest, h, hd, Option.isSome_none, Bool.false_eq_true, if_false, Chip.dispatchHead_of_current hc]

/-- A request still within its block after a claim waits there, or has at most the claims after a first one to make. -/
theorem RowOf.nextClaim_few (H : RowOf b p i row n f) {h : Hand} {c : Chip} (ht : ((c.nextClaim row b p (f h)).pc p).atBlock.get b ≠ none) :
    (c.nextClaim row b p (f h)).goOn row b p (f h) = c.nextClaim row b p (f h) ∨ (c.nextClaim row b p (f h)).claimsLeft b p ≤ n := by
  have waits : c.nextClaim row b p (f h) = c →
      (c.nextClaim row b p (f h)).goOn row b p (f h) = c.nextClaim row b p (f h) := fun hf => by
    rw [hf] at ht ⊢
    rw [Chip.nextClaim, if_pos (Option.isSome_iff_ne_none.mpr ht)] at hf
    exact hf
  rcases c.nextClaim_cases row b p f with hf | ⟨k, hr, _, hf⟩
  · exact .inl (waits (hf h))
  · rcases (H.claimed k c hr).claimsLeft_lt h with hw | hlt
    · exact .inl (waits ((hf h).trans hw))
    · have hle := k.toGo_le
      rw [hr, H.claims] at hle
      rw [hf h]
      exact .inr (by omega)

/-- A claim that leaves a request within its block was not a dispatch's: nothing is dispatched before it. -/
theorem Chip.nextClaim_not_dispatched {h : Hand} {c : Chip} (ht : ((c.nextClaim row b p (f h)).pc p).atBlock.get b ≠ none) :
    (if ((c.pc p).atBlock.get b).isSome then c else c.dispatchHead row p) = c := by
  rcases c.nextClaim_cases row b p f with hf | ⟨k, _, hk | ⟨_, hk⟩, _⟩
  · rw [hf] at ht
    exact if_pos (Option.isSome_iff_ne_none.mpr ht)
  · rw [hk]; rfl
  · split
    · rfl
    · exact Chip.dispatchHead_of_current (by rw [hk]; simp) row

/-- A request taken whole: one claim first, and then the rest whole, as long as the request is still within its block. -/
theorem RowOf.claim_first (H : RowOf b p i row n f) {c : Chip} (ht : ((c.nextClaim row b p (f .now)).pc p).atBlock.get b ≠ none) :
    c.runRequest row b p .whole n f = (c.nextClaim row b p (f .now)).runRequest row b p .whole n f := by
  have few := H.nextClaim_few ht
  have hsome := Option.isSome_iff_ne_none.mpr ht
  simp only [Chip.runRequest, Chip.nextClaim_not_dispatched ht]
  generalize c.nextClaim row b p (f .now) = t at few hsome
  have hnext : t.nextClaim row b p (f .now) = t.goOn row b p (f .now) := by simp only [Chip.nextClaim, hsome, if_true]
  simp only [hsome, if_true, hnext]
  rcases few with hfix | hle
  · rw [hfix]
  · rw [repeatClaim_back]
    exact (repeatClaim_done (·.claimsLeft b p) (H.goOn_lt .now) n t hle).symm

end row

/-- Settles O3: of the dispatch by `Chip.runRequest_dispatch_first`, of a claim by `RowOf.claim_first`. -/
theorem wholeRequestIsItsClaims : Obligations.WholeRequestIsItsClaims := by
  intro s t p b i hi
  obtain ⟨row, n, f, H⟩ := rowOf_blockRequests hi
  cases hr : s.chip.rst with
  | true =>
    have held : ∀ e, exec (i e) s = .next s := fun e => by rw [H.exec, State.run_of_rst hr]
    simp only [held, Host.Outcome.next.injEq]
    exact ⟨by rintro _ rfl _; rw [held], by rintro rfl _; rw [held]⟩
  | false =>
    have run : ∀ e, exec (i e) s = .next ⟨s.pending, s.chip.runRequest row b p e n f⟩ := fun e => by
      rw [H.exec, State.run_of_not_rst hr]
    refine ⟨fun hb ht hc => ?dispatched, fun ht hb => ?claimed⟩
    case dispatched =>
      rw [run, Host.Outcome.next.injEq] at ht
      subst ht
      have hd : (s.chip.runRequest row b p .dispatch n f).rst = false := (Chip.dispatchHead_rst ..).trans hr
      rw [run, H.exec, State.run_of_not_rst hd]
      exact congrArg (fun c => Host.Outcome.next (State.mk s.pending c)) (Chip.runRequest_dispatch_first hb hc)
    case claimed =>
      rw [run, Host.Outcome.next.injEq] at ht
      subst ht
      have hd : (s.chip.runRequest row b p (.claim .now) n f).rst = false := (H.nextClaim_rst ..).trans hr
      rw [run, H.exec, State.run_of_not_rst hd]
      exact congrArg (fun c => Host.Outcome.next (State.mk s.pending c)) (H.claim_first hb)

end Sys2Proof.Machine
end

section
/-! Responses: handed over for a credit, and taken as answers on their way (O10). -/

namespace Sys2Proof.Machine

/-! ## SEND_RESPONSE of the head, and RECEIVED_CREDIT -/

/-- A response waits for the RETIRE of the ticket whose current handle it reports (R1, R63). -/
theorem Chip.awaitsRetire_iff (c : Chip) (r : Response) :
    c.awaitsRetire r = true ↔ ∃ h, r.handle = some h ∧ (c.slot h.slot).gen = h.gen ∧
      ∃ m ∈ c.wires.retireRqc ++ c.wires.retireLtu ++ c.wires.retireWalk, m.slot = h.slot := by
  unfold Chip.awaitsRetire Chip.retiring
  cases r.handle with
  | none => simp
  | some h => simp only [Bool.and_eq_true, beq_iff_eq, List.any_eq_true, Option.some.injEq, exists_eq_left']

/-- A link whose reports of its session are taken is up. -/
theorem Link.sameSession_up {l : Link} (h : l.sameSession = true) : l.state = .up := by
  simp only [Link.sameSession, Bool.and_eq_true, beq_iff_eq] at h
  exact h.1.1

/-- Whether the Link Engine of a session has room: fewer than 8 packets await acknowledgement (R185). -/
theorem Link.hasRoom_iff {l : Link} (h : l.sameSession = true) : l.hasRoom = true ↔ l.replay.length < 8 := by
  have h8 : Config.replayCapacity = 8 := rfl
  simp [Link.hasRoom, Link.sameSession_up h, h8]

section head
variable {c : Chip} {p : Port} {r : Response} {rest : List Response}

/-- The head response with a credit, room and nothing to wait for goes to the Link Engine (R171, R185). -/
theorem takeSend_sends (hr : (c.pc p).responses = r :: rest) (ho : (c.pc p).online = true) (hs : (c.link p).sameSession = true)
    (hc : 1 ≤ (c.pc p).credit) (hl : (c.link p).replay.length < 8) (ha : c.awaitsRetire r = false) :
    takeSend p c = { c with
      pcs := c.pcs.set p { c.pc p with responses := rest, credit := (c.pc p).credit - 1 }
      links := c.links.set p ((c.link p).enqueue r.words) } := by
  have hroom := (Link.hasRoom_iff hs).mpr hl
  simp only [takeSend, hr, ho, hs, hroom, ha, hc, decide_true, Bool.not_false, Bool.and_self, if_true]
  rfl

/-- Without a credit, without room, or before the RETIRE it waits for, the head response stays. -/
theorem takeSend_stays (hr : (c.pc p).responses = r :: rest) (hs : (c.link p).sameSession = true)
    (h : (c.pc p).credit = 0 ∨ 8 ≤ (c.link p).replay.length ∨ c.awaitsRetire r = true) : takeSend p c = c := by
  have hroom : 8 ≤ (c.link p).replay.length → (c.link p).hasRoom = false := fun h8 =>
    Bool.eq_false_iff.mpr fun ht => Nat.not_lt.mpr h8 ((Link.hasRoom_iff hs).mp ht)
  simp only [takeSend, hr]
  rw [if_neg]
  rcases h with h | h | h
  · simp [h]
  · simp [hroom h]
  · simp [h]

end head

/-- A credit report at the head of the stream raises the response credit (R171, R190). -/
theorem takeCredit_eq {c : Chip} {p : Port} {n : Nat} {rest : List Report} (hr : (c.link p).reports = .credit n :: rest)
    (ho : (c.pc p).online = true) :
    takeCredit p c = { c with
      pcs := c.pcs.set p { c.pc p with credit := min ((c.pc p).credit + n) 255 }
      links := c.links.set p { c.link p with reports := rest } } := by
  have hrep : c.report p = some (.credit n) := by rw [Chip.report, hr]; rfl
  have htail : (c.link p).reports.tail = rest := by rw [hr]; rfl
  simp only [takeCredit, hrep, ho, if_true, ← htail]
  rfl

/-! ## The response claim of a block's answer -/

/-- The creation count falls by one; its fall to 0 while QUIESCING calls for a completion check (R150, R151). -/
theorem Chip.lowerCreation_eq (c : Chip) : c.lowerCreation = { c with
    hcu := { c.hcu with
      creation := c.hcu.creation - 1
      checks := if c.hcu.state = .quiescing ∧ c.hcu.creation - 1 = 0 then c.hcu.checks + 1 else c.hcu.checks } } := by
  unfold Chip.lowerCreation
  dsimp only
  split <;> rfl

theorem takeAnswer_lowerCreation (p : Port) (tag : Tag) (c : Chip) :
    takeAnswer p tag c.lowerCreation = (takeAnswer p tag c).lowerCreation := by
  rw [Chip.lowerCreation_eq, Chip.lowerCreation_eq (takeAnswer p tag c)]
  unfold takeAnswer
  dsimp only
  split <;> rfl

/-- A claim whose answer is sent on its way, and that answer taken, come to the claim whose answer is taken at once. -/
theorem Claimed.takeAnswer_later {b : Block} {p : Port} {k : Current} {c : Chip} {f : Hand → Chip} (H : Claimed b p k c f)
    (ho : ∀ a ∈ c.wires.answers.get p, a.precedes (k.req.order b) = false) (ht : ∀ a ∈ c.wires.answers.get p, a.resp.tag ≠ k.tag) :
    takeAnswer p k.tag (f .later) = f .now := by
  cases H with
  | waits hf => rw [hf, hf, takeAnswer_none ht]
  | goesOn d st hd hs hf => rw [hf, hf, takeAnswer_none (by rw [Chip.advance_wires, hd.answers]; exact ht)]
  | ends d hd hf => rw [hf, hf, takeAnswer_none (by rw [Chip.endAt_wires, hd.answers]; exact ht)]
  | answers d st body i hd hf =>
    rw [← hd.answers] at ho ht
    rw [hf, hf, takeAnswer_reply ho ht]
  | answersCounted d st body i hd hf =>
    rw [← hd.answers] at ho ht
    rw [hf, hf, Chip.replyCounted, takeAnswer_lowerCreation, takeAnswer_reply ho ht, Chip.replyCounted]

/-- Whatever a request's next claim comes to, its answer may be taken by the next step. -/
theorem RowOf.takeAnswer_later {b : Block} {p : Port} {i : Extent → Instr} {row : ReqRow} {n : Nat} {f : Hand → Current → Chip → Chip}
    (H : RowOf b p i row n f) {c : Chip} {k : Current}
    (hk : (c.pc p).atBlock.get b = some k ∨ (c.pc p).atBlock.get b = none ∧ (c.pc p).current = some k)
    (ho : k.req.row = row → ∀ a ∈ c.wires.answers.get p, a.precedes (k.req.order b) = false)
    (ht : ∀ a ∈ c.wires.answers.get p, a.resp.tag ≠ k.tag) :
    takeAnswer p k.tag (c.nextClaim row b p (f .later)) = c.nextClaim row b p (f .now) := by
  rcases c.nextClaim_cases row b p f with hf | ⟨k', hr, hk', hf⟩
  · rw [hf, hf, takeAnswer_none ht]
  · have heq : k' = k := by
      rcases hk with h | ⟨h, hc⟩
      · rcases hk' with h' | ⟨h', _⟩ <;> rw [h] at h' <;> cases h'; rfl
      · rcases hk' with h' | ⟨_, hc'⟩
        · rw [h] at h'; cases h'
        · rw [hc] at hc'; cases hc'; rfl
    subst heq
    rw [hf, hf]
    exact (H.claimed k' c hr).takeAnswer_later (ho hr) ht

/-- The answer of a POP keeps no order (R65, note 2). -/
theorem Req.order_of_pop {r : Req} (h : r.row = .pop) (b : Block) : r.order b = none := by
  cases r with
  | pop n => rfl
  | _ => cases h

/-- No answer on its way comes before that of a POP, or before that of a block the port is quiet for. -/
theorem RowOf.precedes {b : Block} {p : Port} {i : Extent → Instr} {row : ReqRow} {n : Nat} {f : Hand → Current → Chip → Chip}
    (H : RowOf b p i row n f) {c : Chip} {k : Current} (hquiet : i = Instr.pop p ∨ c.quiet b p) (hrow : k.req.row = row) :
    ∀ a ∈ c.wires.answers.get p, a.precedes (k.req.order b) = false := by
  rcases hquiet with rfl | hquiet
  · have hpop := H.run .whole
    simp only [requestRun, Option.some.injEq, Prod.mk.injEq] at hpop
    obtain ⟨rfl, _⟩ := hpop
    simp [Answer.precedes, Req.order_of_pop hrow b]
  · exact hquiet.precedes k.req

/-- Settles O10: the head of the response queue and the credits, the response claim by the split of the answers on their way, and the two hands of a claim. -/
theorem responsesCostCredit : Obligations.ResponsesCostCredit := by
  refine ⟨fun s p hr ho => ⟨fun r rest hq hs => ⟨fun hc hl ha => ?sends, fun h => ?stays⟩, fun n rest hrep => ?credit⟩,
    fun s p tag hr => ⟨fun before a after hw ht hb => ⟨fun ho => ?taken, fun hn hy => ?waits⟩, fun h => ?absent⟩,
    fun s t p b i k hi hk ht hquiet hx => ?later⟩
  case sends =>
    have ha' : s.chip.awaitsRetire r = false := Bool.eq_false_iff.mpr fun h => ha ((Chip.awaitsRetire_iff _ r).mp h)
    rw [exec_effect hr (by simp) (by simp), effect, takeSend_sends hq ho hs hc hl ha']
    rfl
  case stays =>
    rw [exec_effect hr (by simp) (by simp), effect,
      takeSend_stays hq hs (h.imp_right fun h => h.imp_right (Chip.awaitsRetire_iff _ r).mpr)]
  case credit => rw [exec_effect hr (by simp) (by simp), effect, takeCredit_eq hrep ho]
  case taken =>
    subst ht
    have hp : ∀ y ∈ before, y.precedes a.order = false := fun y hy => by
      rcases ho with ho | ho
      · simp [Answer.precedes, ho]
      · simp [Answer.precedes, ho y hy]
    rw [exec_effect hr (by simp) (by simp), effect, takeAnswer_next hw hb hp]
    rfl
  case waits =>
    subst ht
    obtain ⟨y, hy, ho⟩ := hy
    have hp : y.precedes a.order = true := by simp [Answer.precedes, ho, Option.isSome_iff_ne_none, hn]
    rw [exec_effect hr (by simp) (by simp), effect, takeAnswer_waits hw hb hy hp]
  case absent => rw [exec_effect hr (by simp) (by simp), effect, takeAnswer_none h]
  case later =>
    obtain ⟨row, n, f, H⟩ := rowOf_blockRequests hi
    cases hr : s.chip.rst with
    | true =>
      rw [H.exec, State.run_of_rst hr] at hx
      cases hx
      rw [H.exec, State.run_of_rst hr, exec_eq_run _ _ (by simp) (by simp), State.run_of_rst hr]
    | false =>
      rw [H.exec, State.run_of_not_rst hr, Host.Outcome.next.injEq] at hx
      subst hx
      have hrt : (s.chip.nextClaim row b p (f .later)).rst = false := (H.nextClaim_rst s.chip .later).trans hr
      rw [H.exec, State.run_of_not_rst hr, exec_effect (by exact hrt) (by simp) (by simp)]
      exact congrArg (fun c => Host.Outcome.next (State.mk s.pending c)) (H.takeAnswer_later hk (H.precedes hquiet) ht)

end Sys2Proof.Machine
end

section
/-! The creation requests: OPEN_FRAME and PUSH, refused by their first failing check or carried out (O12, O13, O14, O34, O35). -/

namespace Sys2Proof.Machine

/-! ## Allocation -/

/-- The checks of an allocation that pass: the quota is not used up and the free list has a head (R10). -/
theorem Chip.allocCheck_ok {c : Chip} {p : Port} {i : SlotNo} {free : List SlotNo} (hq : c.tks.alloc.get p < c.hcu.quota.get p)
    (hf : c.tks.free = i :: free) : c.allocCheck p = .ok i := by
  simp only [Chip.allocCheck, Nat.not_le.mpr hq, if_false, hf]

/-- QUOTA comes first (R11). -/
theorem Chip.allocCheck_quota {c : Chip} {p : Port} (hq : c.hcu.quota.get p ≤ c.tks.alloc.get p) : c.allocCheck p = .error .quota := by
  simp only [Chip.allocCheck, hq, if_true]

theorem Chip.allocCheck_storeFull {c : Chip} {p : Port} (hq : c.tks.alloc.get p < c.hcu.quota.get p) (hf : c.tks.free = []) :
    c.allocCheck p = .error .storeFull := by
  simp only [Chip.allocCheck, Nat.not_le.mpr hq, if_false, hf]

/-- The allocation of a slot: it leaves the head of the free list, its allocator's count rises, its record is filled (R10). -/
theorem Chip.allocate_eq (c : Chip) (p : Port) (i : SlotNo) (t : Ticket) : c.allocate p i t = { c with
    tks := ⟨c.tks.slots.set i.val ⟨(c.slot i).gen, some t⟩ i.isLt, c.tks.free.tail, c.tks.alloc.set p (c.tks.alloc.get p + 1)⟩ } := rfl

/-! ## The checks of a counted request -/

section counted
variable {c : Chip} {p : Port} {m : Packet} {r : Req} {b : Block} {f : Current → Chip → Chip}

/-- A counted request within its block: its next claim, and then the rest. -/
theorem counted_next (n : Nat) (st : Stage) :
    repeatClaim (n + 1) (fun c => c.goOn r.row b p f) (c.counted b p ⟨m.tag, r, st⟩) =
      repeatClaim n (fun c => c.goOn r.row b p f) (f ⟨m.tag, r, st⟩ (c.counted b p ⟨m.tag, r, st⟩)) := by
  rw [repeatClaim_succ, Chip.goOn_some (Chip.counted_atBlock ..) rfl]

/-- A request that has been answered has no claim left to make. -/
theorem answered_rest (h : c.ready p m r) (hb : r.block = some b) (n : Nat) (status : Status) (body : List Word) (i : Option Handle) :
    repeatClaim n (fun c => c.goOn r.row b p f) (c.answered p m.tag status body i) = c.answered p m.tag status body i :=
  repeat_goOn_none (Chip.answered_atBlock h hb _ _ _ _) n

/-- A check of a counted request in a RUNNING hub, and what follows: its next claims, or the answer that refuses it. -/
theorem counted_check (h : c.ready p m r) (hb : r.block = some b) (hs : c.hcu.state = .running) {st st' : Stage} {ok : Bool}
    {status : Status}
    (hf : f ⟨m.tag, r, st⟩ (c.counted b p ⟨m.tag, r, st⟩) =
      if ok then (c.counted b p ⟨m.tag, r, st⟩).advance b p ⟨m.tag, r, st⟩ st'
      else (c.counted b p ⟨m.tag, r, st⟩).replyCounted .now b p ⟨m.tag, r, st⟩ status []) (n : Nat) :
    repeatClaim (n + 1) (fun c => c.goOn r.row b p f) (c.counted b p ⟨m.tag, r, st⟩) =
      if ok then repeatClaim n (fun c => c.goOn r.row b p f) (c.counted b p ⟨m.tag, r, st'⟩)
      else c.answered p m.tag status [] := by
  rw [counted_next, hf]
  cases ok with
  | true => simp only [if_true, Chip.counted_advance h]
  | false => simp only [Bool.false_eq_true, if_false, Chip.counted_reply h hb hs, answered_rest h hb]

end counted

/-! ## OPEN_FRAME -/

section openFrame
variable {c : Chip} {p : Port} {m : Packet} {r : OpenReq}

/-- An OPEN_FRAME taken whole, of a ready head. -/
def Chip.openWhole (c : Chip) (p : Port) (m : Packet) (r : OpenReq) : Chip :=
  repeatClaim 4 (fun c => c.goOn .openFrame .frt p (openClaim p .now))
    (openClaim p .now ⟨m.tag, .openFrame r, .given⟩ (c.dispatched p ⟨m.tag, .openFrame r, .given⟩))

theorem exec_openFrame {s : State} (h : s.chip.ready p m (.openFrame r)) :
    exec (.openFrame p .whole) s = .next ⟨s.pending, s.chip.openWhole p m r⟩ := exec_ready h rfl rfl

/-- Outside RUNNING an OPEN_FRAME is refused at its first claim (R77). -/
theorem openWhole_not_running (h : c.ready p m (.openFrame r)) (hs : c.hcu.state ≠ .running) :
    c.openWhole p m r = c.answered p m.tag (if c.hcu.state = .setup then .notRunning else .quiescing) [] := by
  have idle := fun st => answered_rest (f := openClaim p .now) h rfl 4 st [] none
  unfold Chip.openWhole
  cases hst : c.hcu.state with
  | running => exact absurd hst hs
  | setup | quiescing => simp only [openClaim, openStage, Chip.dispatched_hcu, hst, Chip.dispatched_reply h rfl]; exact idle _

/-- In a RUNNING hub the first claim counts the OPEN_FRAME (R150). -/
theorem openWhole_running (h : c.ready p m (.openFrame r)) (hs : c.hcu.state = .running) :
    c.openWhole p m r =
      repeatClaim 4 (fun c => c.goOn .openFrame .frt p (openClaim p .now)) (c.counted .frt p ⟨m.tag, .openFrame r, .hubRead⟩) := by
  simp only [Chip.openWhole, openClaim, openStage, Chip.dispatched_hcu, hs, Chip.dispatched_counted h]

/-- The claims of an OPEN_FRAME in a RUNNING hub, check by check, up to its allocation (R77). -/
theorem openWhole_checks (h : c.ready p m (.openFrame r)) (hs : c.hcu.state = .running) :
    c.openWhole p m r =
      if c.attached p then
        if !r.current.any (fun i => !c.holds p i) then
          if !r.pin.any (fun q => !c.attached q) then
            openStage p .now ⟨m.tag, .openFrame r, .pinRead⟩ r (c.counted .frt p ⟨m.tag, .openFrame r, .pinRead⟩)
          else c.answered p m.tag .notAttached []
        else c.answered p m.tag .stale []
      else c.answered p m.tag .notAttached [] := by
  have hsender := counted_check (f := openClaim p .now) (st := .hubRead) (st' := .senderRead) (ok := c.attached p)
    (status := .notAttached) h rfl hs (by simp only [openClaim, openStage, Chip.counted_attached]) 3
  have hcurrent := counted_check (f := openClaim p .now) (st := .senderRead) (st' := .currentRead)
    (ok := !r.current.any (fun i => !c.holds p i)) (status := .stale) h rfl hs
    (by
      have hh : ∀ i, (c.counted .frt p ⟨m.tag, .openFrame r, .senderRead⟩).holds p i = c.holds p i := fun _ => rfl
      cases hc : r.current <;> simp [openClaim, openStage, hc, hh]) 2
  have hpin := counted_check (f := openClaim p .now) (st := .currentRead) (st' := .pinRead)
    (ok := !r.pin.any (fun q => !c.attached q)) (status := .notAttached) h rfl hs
    (by cases hc : r.pin <;> simp [openClaim, openStage, hc]) 1
  have hlast := counted_next (c := c) (p := p) (m := m) (r := .openFrame r) (b := .frt) (f := openClaim p .now) 0 .pinRead
  rw [openWhole_running h hs]
  exact hsender.trans (by rw [hcurrent, hpin, hlast]; rfl)

/-- The last claim of an OPEN_FRAME that finds no frame or no slot (R78). -/
theorem openRoom_refused (h : c.ready p m (.openFrame r)) (hs : c.hcu.state = .running) {status : Status}
    (hr : (if c.freeFrameNo = none then some .framesFull
      else if c.hcu.quota.get p ≤ c.tks.alloc.get p then some .quota
      else if c.tks.free = [] then some .storeFull else none) = some status) :
    openStage p .now ⟨m.tag, .openFrame r, .pinRead⟩ r (c.counted .frt p ⟨m.tag, .openFrame r, .pinRead⟩) = c.answered p m.tag status [] := by
  have hn : (c.counted .frt p ⟨m.tag, .openFrame r, .pinRead⟩).freeFrameNo = c.freeFrameNo := rfl
  have ha : (c.counted .frt p ⟨m.tag, .openFrame r, .pinRead⟩).allocCheck p = c.allocCheck p := rfl
  simp only [openStage, hn, ha]
  cases hf : c.freeFrameNo with
  | none =>
    rw [if_pos hf] at hr
    cases hr
    exact Chip.counted_reply h rfl hs ..
  | some n =>
    rw [if_neg (by simp [hf])] at hr
    have herr : c.allocCheck p = .error status := by
      split at hr
      · rename_i hq; cases hr; exact Chip.allocCheck_quota hq
      · rename_i hq
        split at hr
        · rename_i hfree; cases hr; exact Chip.allocCheck_storeFull (Nat.not_le.mp hq) hfree
        · cases hr
    simp only [herr]
    exact Chip.counted_reply h rfl hs ..

end openFrame

/-- Settles O34: the checks in the order of `openWhole_checks` and `openRoom_refused` are those of the table. -/
theorem openFrameRefusedByFirstCheck : Obligations.OpenFrameRefusedByFirstCheck := by
  intro s p k r st h hr
  rw [exec_openFrame h]
  suffices hw : s.chip.openWhole p k r = s.chip.answered p k.tag st [] by rw [hw]
  unfold Chip.openRefusal at hr
  by_cases hrun : s.chip.hcu.state = .running
  · rw [openWhole_checks h hrun]
    simp only [hrun, reduceCtorEq, if_false] at hr
    cases ha : s.chip.attached p with
    | false => simp only [ha, if_true] at hr; cases hr; rfl
    | true =>
      cases hc : r.current.any (fun i => !s.chip.holds p i) with
      | true => simp only [ha, hc, Bool.true_eq_false, if_false, if_true] at hr; cases hr; rfl
      | false =>
        cases hp : r.pin.any (fun q => !s.chip.attached q) with
        | true => simp only [ha, hc, hp, Bool.true_eq_false, Bool.false_eq_true, if_false, if_true] at hr; cases hr; rfl
        | false =>
          simp only [ha, hc, hp, Bool.true_eq_false, Bool.false_eq_true, if_false] at hr
          exact openRoom_refused h hrun hr
  · rw [openWhole_not_running h hrun]
    cases hst : s.chip.hcu.state with
    | running => exact absurd hst hrun
    | setup | quiescing => simp only [hst, reduceCtorEq, if_true, if_false, Option.some.injEq] at hr; rw [← hr]; rfl

end Sys2Proof.Machine
end

section
/-! OPEN_FRAME carried out: the lowest FREE frame, the head slot, the handoff (O35). -/

namespace Sys2Proof.Machine

/-- A check before others that none of them fails. -/
theorem ite_some_eq_none {α : Type} {P : Prop} [Decidable P] {a : α} {x : Option α} :
    (if P then some a else x) = none ↔ ¬ P ∧ x = none := by
  split <;> simp [*]

theorem HubState.running_of {h : HubState} (h1 : h ≠ .setup) (h2 : h ≠ .quiescing) : h = .running := by
  cases h with
  | running => rfl
  | setup => exact absurd rfl h1
  | quiescing => exact absurd rfl h2

section openFrame
variable {c : Chip} {p : Port} {m : Packet} {r : OpenReq}

/-- The record of the current ticket changes at the handoff, its slot's generation does not (R80). -/
theorem Chip.clearParent_gen (c : Chip) (cur : Option Handle) (i : SlotNo) : ((c.clearParent cur).slot i).gen = (c.slot i).gen := by
  cases cur with
  | none => rfl
  | some h =>
    by_cases hi : i = h.slot
    · rw [hi, Chip.clearParent, Chip.updTicket, Chip.slot_setSlot_self]
    · rw [Chip.clearParent, Chip.updTicket, Chip.slot_setSlot_ne _ _ hi]

/-- A frame is opened, its continuation allocated, and the current ticket's parent handed over (R79, R80). -/
theorem Chip.openWith_eq (c : Chip) (p : Port) (r : OpenReq) (n : FrameNo) (i : SlotNo) :
    c.openWith p r n i = { c with
      tks := ⟨(c.clearParent r.current).tks.slots.set i.val
          ⟨(c.slot i).gen, some (continuationTicket p r (c.handoffParent r.current) ⟨n, (c.frame n).gen⟩)⟩ i.isLt,
        c.tks.free.tail, c.tks.alloc.set p (c.tks.alloc.get p + 1)⟩
      frt := { c.frt with
        frames := c.frt.frames.set n.val (openedFrame (c.frame n).gen p (c.handle i) r.pin) n.isLt
        inUse := c.frt.inUse + 1 } } := by
  unfold Chip.openWith
  dsimp only
  rw [Chip.allocate_eq, Chip.clearParent_gen]
  cases r.current <;> rfl

/-- What the checks of an OPEN_FRAME that none fails have found (R77, R78). -/
theorem Chip.openRefusal_none (h : c.openRefusal p r = none) :
    c.hcu.state = .running ∧ c.attached p = true ∧ r.current.any (fun i => !c.holds p i) = false ∧
      r.pin.any (fun q => !c.attached q) = false ∧ c.tks.alloc.get p < c.hcu.quota.get p := by
  simp only [Chip.openRefusal, ite_some_eq_none, Bool.not_eq_false, Bool.not_eq_true, Nat.not_le] at h
  obtain ⟨h1, h2, ha, hc, hp, _, hq, _⟩ := h
  exact ⟨HubState.running_of h1 h2, ha, hc, hp, hq⟩

/-- The last claim of an OPEN_FRAME that finds its frame and its slot (R78 to R80). -/
theorem openRoom_opens (h : c.ready p m (.openFrame r)) (hs : c.hcu.state = .running) {n : FrameNo} {i : SlotNo}
    (hn : c.freeFrameNo = some n) (ha : c.allocCheck p = .ok i) :
    openStage p .now ⟨m.tag, .openFrame r, .pinRead⟩ r (c.counted .frt p ⟨m.tag, .openFrame r, .pinRead⟩) =
      (c.openWith p r n i).withPortsOf
        (c.answered p m.tag .ok (openBody (c.handle i) ⟨n, (c.frame n).gen⟩) (some (c.handle i))) := by
  have hn' : (c.counted .frt p ⟨m.tag, .openFrame r, .pinRead⟩).freeFrameNo = some n := hn
  have ha' : (c.counted .frt p ⟨m.tag, .openFrame r, .pinRead⟩).allocCheck p = .ok i := ha
  simp only [openStage, hn', ha']
  rw [Chip.openWith_eq, Chip.replyCounted_of_ready h rfl hs (by rfl) (by rfl) (by rfl) _ _ (some _), Chip.openWith_eq]
  cases r.current <;> rfl

end openFrame

/-- Settles O35: past its checks the last claim opens the lowest FREE frame with the head slot. -/
theorem openFrameOpensLowestFree : Obligations.OpenFrameOpensLowestFree := by
  intro s p k r n i free h hr hfree hn hlow
  obtain ⟨hrun, ha, hc, hp, hq⟩ := Chip.openRefusal_none hr
  rw [exec_openFrame h, openWhole_checks h hrun]
  simp only [ha, hc, hp, Bool.not_false, if_true]
  rw [openRoom_opens h hrun (Chip.freeFrameNo_eq hn hlow) (Chip.allocCheck_ok hq hfree), Chip.openWith_eq, hfree]
  cases hcur : r.current <;> simp only [continuationTicket, Chip.handoffParent, Option.bind_none, Option.bind_some] <;> rfl

end Sys2Proof.Machine
end

section
/-! PUSH: refused by its first failing check, placed, or past its room check when others have come between its claims (O12, O13, O14). -/

namespace Sys2Proof.Machine

/-! ## The room check -/

/-- Room for a PUSH aimed at `q` (R42): below DEPTH_LIMIT on its stack, else in the shared queue unless it is pinned, may not spill, or the queue is at its
limit. -/
theorem Chip.room_eq (c : Chip) (q : Port) (pin : Bool) :
    c.room q pin =
      if (c.pc q).params.depthLimit ≤ (c.stack q).length ∧
          (pin = true ∨ (c.pc q).params.spill = false ∨ c.hcu.sqLimit ≤ c.rqc.shared.length) then none
      else some (c.pushDest q) := by
  unfold Chip.room Chip.pushDest
  by_cases hd : (c.stack q).length < (c.pc q).params.depthLimit
  · rw [if_pos hd, if_pos hd, if_neg (fun h => absurd h.1 (Nat.not_le.mpr hd))]
  · rw [if_neg hd, if_neg hd]
    by_cases hs : pin = false ∧ (c.pc q).params.spill = true ∧ c.rqc.shared.length < c.hcu.sqLimit
    · obtain ⟨h1, h2, h3⟩ := hs
      simp [h1, h2, h3, Nat.not_le.mpr h3]
    · have hfull : pin = true ∨ (c.pc q).params.spill = false ∨ c.hcu.sqLimit ≤ c.rqc.shared.length := by
        by_contra hn
        simp only [not_or, Bool.not_eq_true, Bool.not_eq_false, Nat.not_le] at hn
        exact hs hn
      rw [if_neg hs, if_pos ⟨Nat.not_lt.mp hd, hfull⟩]

/-- The status of the first of a PUSH's last three checks that fails (R42, R43). -/
def Chip.pushRoomRefusal (c : Chip) (p : Port) (r : PushReq) : Option Status :=
  let q := r.target.getD p
  if (c.pc q).params.depthLimit ≤ (c.stack q).length ∧
      (r.pin = true ∨ (c.pc q).params.spill = false ∨ c.hcu.sqLimit ≤ c.rqc.shared.length) then some .full
  else if c.hcu.quota.get p ≤ c.tks.alloc.get p then some .quota
  else if c.tks.free = [] then some .storeFull
  else none

/-- The table of a PUSH's statuses in a RUNNING hub: sender, target, frame, and the last three (R40 to R43). -/
theorem Chip.pushRefusal_running {c : Chip} (hs : c.hcu.state = .running) (p : Port) (r : PushReq) :
    c.pushRefusal p r =
      if c.rqcAttached p = false then some .notAttached
      else if c.rqcAttached (r.target.getD p) = false then some .notAttached
      else (c.pushFrameRefusal r.frame).or (c.pushRoomRefusal p r) := by
  simp only [Chip.pushRefusal, hs, reduceCtorEq, if_false]
  cases hf : r.frame with
  | none => rfl
  | some f =>
    cases hst : c.refState f <;> simp only [Option.map_some, hst, Chip.pushFrameRefusal, frameRefusal] <;> rfl

/-! ## The claims of a PUSH taken whole -/

section push
variable {c : Chip} {p : Port} {m : Packet} {r : PushReq}

/-- A PUSH taken whole, of a ready head. -/
def Chip.pushWhole (c : Chip) (p : Port) (m : Packet) (r : PushReq) : Chip :=
  repeatClaim 7 (fun c => c.goOn .push .rqc p (pushClaim p .now))
    (pushClaim p .now ⟨m.tag, .push r, .given⟩ (c.dispatched p ⟨m.tag, .push r, .given⟩))

theorem exec_push {s : State} (h : s.chip.ready p m (.push r)) :
    exec (.push p .whole) s = .next ⟨s.pending, s.chip.pushWhole p m r⟩ := exec_ready h rfl rfl

/-- The last `n` claims of a PUSH that stands counted at stage `st`. -/
def Chip.pushRest (c : Chip) (p : Port) (m : Packet) (r : PushReq) (n : Nat) (st : Stage) : Chip :=
  repeatClaim n (fun c => c.goOn .push .rqc p (pushClaim p .now)) (c.counted .rqc p ⟨m.tag, .push r, st⟩)

theorem Chip.counted_pushFrameRefusal (c : Chip) (p : Port) (k : Current) (f : Option FrameRef) :
    (c.counted .rqc p k).pushFrameRefusal f = c.pushFrameRefusal f := by cases f <;> rfl

/-- Outside RUNNING a PUSH is refused at its first claim (R40). -/
theorem pushWhole_not_running (h : c.ready p m (.push r)) (hs : c.hcu.state ≠ .running) :
    c.pushWhole p m r = c.answered p m.tag (if c.hcu.state = .setup then .notRunning else .quiescing) [] := by
  have idle := fun st => answered_rest (f := pushClaim p .now) h rfl 7 st [] none
  unfold Chip.pushWhole
  cases hst : c.hcu.state with
  | running => exact absurd hst hs
  | setup | quiescing => simp only [pushClaim, pushStage, Chip.dispatched_hcu, hst, Chip.dispatched_reply h rfl]; exact idle _

/-- The claims of a PUSH in a RUNNING hub, check by check, up to its room check (R40, R41). -/
theorem pushWhole_checks (h : c.ready p m (.push r)) (hs : c.hcu.state = .running) :
    c.pushWhole p m r =
      if c.rqcAttached p then
        if c.rqcAttached (r.target.getD p) then
          if (c.pushFrameRefusal r.frame).isNone then c.pushRest p m r 4 .frameRead
          else c.answered p m.tag ((c.pushFrameRefusal r.frame).getD .ok) []
        else c.answered p m.tag .notAttached []
      else c.answered p m.tag .notAttached [] := by
  have hfirst : c.pushWhole p m r = c.pushRest p m r 7 .hubRead := by
    simp only [Chip.pushWhole, Chip.pushRest, pushClaim, pushStage, Chip.dispatched_hcu, hs, Chip.dispatched_counted h]
  have hsender := counted_check (f := pushClaim p .now) (st := .hubRead) (st' := .senderRead) (ok := c.rqcAttached p)
    (status := .notAttached) h rfl hs (by simp only [pushClaim, pushStage, Chip.counted_rqcAttached]) 6
  have htarget := counted_check (f := pushClaim p .now) (st := .senderRead) (st' := .targetRead)
    (ok := c.rqcAttached (r.target.getD p)) (status := .notAttached) h rfl hs
    (by simp only [pushClaim, pushStage, Chip.counted_rqcAttached]) 5
  have hframe := counted_check (f := pushClaim p .now) (st := .targetRead) (st' := .frameRead)
    (ok := (c.pushFrameRefusal r.frame).isNone) (status := (c.pushFrameRefusal r.frame).getD .ok) h rfl hs
    (by
      simp only [pushClaim, pushStage, Chip.counted_pushFrameRefusal]
      cases c.pushFrameRefusal r.frame <;> rfl) 4
  rw [hfirst]
  exact hsender.trans (by rw [htarget, hframe]; rfl)

/-- A PUSH without room is FULL (R42). -/
theorem pushRest_full (h : c.ready p m (.push r)) (hs : c.hcu.state = .running) (hq : c.queueHeld = false)
    (hr : c.room (r.target.getD p) r.pin = none) : c.pushRest p m r 4 .frameRead = c.answered p m.tag .full [] := by
  have hq' := Chip.counted_queueHeld (b := .rqc) (p := p) (k := ⟨m.tag, .push r, .frameRead⟩) (by simp) hq
  refine (counted_check (f := pushClaim p .now) (ok := false) (st' := .frameRead) (status := .full) h rfl hs ?_ 3).trans rfl
  simp only [pushClaim, pushStage, hq', Bool.false_eq_true, if_false, Chip.counted_room, hr]

/-- A PUSH with room goes on with the destination found (R42). -/
theorem pushRest_room (h : c.ready p m (.push r)) (hs : c.hcu.state = .running) (hq : c.queueHeld = false) {dest : RunList}
    (hr : c.room (r.target.getD p) r.pin = some dest) : c.pushRest p m r 4 .frameRead = c.pushRest p m r 3 (.roomRead dest) := by
  have hq' := Chip.counted_queueHeld (b := .rqc) (p := p) (k := ⟨m.tag, .push r, .frameRead⟩) (by simp) hq
  refine (counted_check (f := pushClaim p .now) (ok := true) (st' := .roomRead dest) (status := .full) h rfl hs ?_ 3).trans rfl
  simp only [pushClaim, pushStage, hq', Bool.false_eq_true, if_false, if_true, Chip.counted_room, hr]

/-- A PUSH whose allocation is refused (R43). -/
theorem pushRest_noSlot (h : c.ready p m (.push r)) (hs : c.hcu.state = .running) {dest : RunList} {status : Status}
    (ha : c.allocCheck p = .error status) : c.pushRest p m r 3 (.roomRead dest) = c.answered p m.tag status [] := by
  have ha' : (c.counted .rqc p ⟨m.tag, .push r, .roomRead dest⟩).allocCheck p = .error status := ha
  refine (counted_check (f := pushClaim p .now) (ok := false) (st' := .frameRead) (status := status) h rfl hs ?_ 2).trans rfl
  simp only [pushClaim, pushStage, ha', Bool.false_eq_true, if_false]

/-- A PUSH whose last three checks do not all pass (R42, R43). -/
theorem pushRest_refused (h : c.ready p m (.push r)) (hs : c.hcu.state = .running) (hq : c.queueHeld = false) {status : Status}
    (hr : c.pushRoomRefusal p r = some status) : c.pushRest p m r 4 .frameRead = c.answered p m.tag status [] := by
  have hroom := c.room_eq (r.target.getD p) r.pin
  unfold Chip.pushRoomRefusal at hr
  dsimp only at hr
  split at hr
  · rename_i hfull
    cases hr
    exact pushRest_full h hs hq (hroom.trans (if_pos hfull))
  · rename_i hfull
    rw [pushRest_room h hs hq (hroom.trans (if_neg hfull))]
    split at hr
    · rename_i hquota
      cases hr
      exact pushRest_noSlot h hs (Chip.allocCheck_quota hquota)
    · rename_i hquota
      split at hr
      · rename_i hfree
        cases hr
        exact pushRest_noSlot h hs (Chip.allocCheck_storeFull (Nat.not_le.mp hquota) hfree)
      · cases hr

end push

/-- Settles O12: the checks of `pushWhole_checks` and `pushRest_refused` are those of the table, in its order. -/
theorem pushRefusedByFirstCheck : Obligations.PushRefusedByFirstCheck := by
  intro s p k r st h hq hr
  rw [exec_push h]
  suffices hw : s.chip.pushWhole p k r = s.chip.answered p k.tag st [] by rw [hw]
  by_cases hrun : s.chip.hcu.state = .running
  · rw [pushWhole_checks h hrun]
    rw [Chip.pushRefusal_running hrun] at hr
    cases ha : s.chip.rqcAttached p with
    | false => simp only [ha, if_true] at hr; cases hr; rfl
    | true =>
      cases hb : s.chip.rqcAttached (r.target.getD p) with
      | false => simp only [ha, hb, Bool.true_eq_false, if_false, if_true] at hr; cases hr; rfl
      | true =>
        simp only [ha, hb, Bool.true_eq_false, if_false] at hr
        cases hf : s.chip.pushFrameRefusal r.frame with
        | some st' => rw [hf] at hr; cases hr; rfl
        | none => rw [hf] at hr; exact pushRest_refused h hrun hq hr
  · rw [pushWhole_not_running h hrun]
    unfold Chip.pushRefusal at hr
    cases hst : s.chip.hcu.state with
    | running => exact absurd hst hrun
    | setup | quiescing => simp only [hst, reduceCtorEq, if_true, if_false, Option.some.injEq] at hr; rw [← hr]; rfl

/-! ## A PUSH that passes -/

section push
variable {c : Chip} {p : Port} {m : Packet} {r : PushReq}

/-- The new ticket's child registration, with a parent or without (R44). -/
def Chip.registerParent (c : Chip) : Option FrameRef → Chip
  | none => c
  | some f => c.registerChild f

/-- The allocation of a PUSH: its slot and its record, in the hub that it goes on with (R43). -/
theorem pushRest_slot (h : c.ready p m (.push r)) {dest : RunList} {i : SlotNo} (ha : c.allocCheck p = .ok i) :
    c.pushRest p m r 3 (.roomRead dest) = (c.allocate p i (pushTicket p r)).pushRest p m r 2 (.allocated (c.handle i) dest) := by
  have ha' : (c.counted .rqc p ⟨m.tag, .push r, .roomRead dest⟩).allocCheck p = .ok i := ha
  have hr' : (c.allocate p i (pushTicket p r)).ready p m (.push r) := h
  refine (counted_next 2 (.roomRead dest)).trans ?_
  simp only [pushClaim, pushStage, ha']
  exact congrArg _ (Chip.counted_advance hr' (.roomRead dest) (.allocated (c.handle i) dest))

/-- The registration of a PUSH whose frame is still OPEN, or that has none (R44). -/
theorem pushRest_register (h : c.ready p m (.push r)) {dest : RunList} {i : Handle} (hf : c.pushFrameRefusal r.frame = none) :
    c.pushRest p m r 2 (.allocated i dest) = (c.registerParent r.frame).pushRest p m r 1 (.registered i dest) := by
  refine (counted_next 1 (.allocated i dest)).trans ?_
  simp only [pushClaim, pushStage]
  cases hfr : r.frame with
  | none => exact congrArg _ (Chip.counted_advance h (.allocated i dest) (.registered i dest))
  | some f =>
    have hr' : (c.registerChild f).ready p m (.push r) := h
    have hf' : frameRefusal ((c.counted .rqc p ⟨m.tag, .push r, .allocated i dest⟩).refState f) = none := by
      rw [hfr] at hf; exact hf
    simp only [hf']
    exact congrArg _ (Chip.counted_advance hr' (.allocated i dest) (.registered i dest))

/-- The placement of a PUSH and its answer (R45). -/
theorem pushRest_place (h : c.ready p m (.push r)) (hs : c.hcu.state = .running) {dest : RunList} {i : Handle}
    (hl : c.landing dest = dest) :
    c.pushRest p m r 1 (.registered i dest) =
      (c.placeAt dest i.slot).withPortsOf (c.answered p m.tag .ok (pushBody i (dest == .shared)) (some i)) := by
  let d := c.counted .rqc p ⟨m.tag, .push r, .registered i dest⟩
  have hports : d.samePorts c := fun q =>
    have ha := Chip.asked_pc (c := c) (p := p)
      (x := { (c.pc p).passed with atBlock := (c.pc p).atBlock.set .rqc (some ⟨m.tag, .push r, .registered i dest⟩) }) ⟨rfl, rfl, rfl⟩ q
    ⟨ha.1, ha.2.1⟩
  have hstep := c.placeAt_step dest i.slot
  have hplace : d.placeAt dest i.slot = (c.placeAt dest i.slot).over d := Chip.over_placeAt hports dest i.slot
  have hland : d.landing dest = dest := (Chip.over_landing hports dest).trans hl
  refine (counted_next 0 (.registered i dest)).trans ?_
  show (d.placeAt dest i.slot).replyCounted .now .rqc p ⟨m.tag, .push r, .registered i dest⟩ .ok
    (pushBody i (d.landing dest == .shared)) (some i) = _
  rw [hplace, hland, Chip.replyCounted_of_ready (d := (c.placeAt dest i.slot).over d) h rfl hs (by rfl) (by rfl) hstep.answers _ _ (some i)]
  exact Chip.ext_fields hstep.rst.symm hstep.straps.symm hstep.hcu.symm rfl rfl rfl hstep.ltu.symm rfl rfl rfl

/-- What the checks of a PUSH that none fails have found (R40 to R43). -/
theorem Chip.pushRefusal_none (h : c.pushRefusal p r = none) :
    c.hcu.state = .running ∧ c.rqcAttached p = true ∧ c.rqcAttached (r.target.getD p) = true ∧ c.pushFrameRefusal r.frame = none ∧
      c.room (r.target.getD p) r.pin = some (c.pushDest (r.target.getD p)) ∧ c.tks.alloc.get p < c.hcu.quota.get p := by
  have hrun : c.hcu.state = .running := by
    unfold Chip.pushRefusal at h
    simp only [ite_some_eq_none] at h
    exact HubState.running_of h.1 h.2.1
  rw [Chip.pushRefusal_running hrun] at h
  simp only [ite_some_eq_none, Option.or_eq_none_iff, Chip.pushRoomRefusal, Bool.not_eq_false, Nat.not_le] at h
  obtain ⟨ha, hb, hf, hfull, hq, _⟩ := h
  exact ⟨hrun, ha, hb, hf, (c.room_eq _ _).trans (if_neg hfull), hq⟩

/-- A placement for an ATTACHED port lands where the room check found room (R33). -/
theorem Chip.landing_pushDest {q : Port} (h : c.rqcAttached q = true) : c.landing (c.pushDest q) = c.pushDest q := by
  unfold Chip.pushDest
  split
  · simp only [Chip.landing, h, if_true]
  · rfl

end push

/-- Settles O13: the head slot, the registration, the placement, claim after claim. -/
theorem pushPlacesNewTicket : Obligations.PushPlacesNewTicket := by
  intro s p k r i free h hq hr hfree
  obtain ⟨hrun, ha, hb, hf, hroom, hquota⟩ := Chip.pushRefusal_none hr
  let c1 := s.chip.allocate p i (pushTicket p r)
  have h1 : c1.ready p k (.push r) := h
  have hf1 : c1.pushFrameRefusal r.frame = none := by rw [← hf]; cases r.frame <;> rfl
  have h2 : (c1.registerParent r.frame).ready p k (.push r) := by cases r.frame <;> exact h
  have hs2 : (c1.registerParent r.frame).hcu.state = .running := by cases r.frame <;> exact hrun
  have hb2 : (c1.registerParent r.frame).rqcAttached (r.target.getD p) = true := by cases r.frame <;> exact hb
  have hdest : (c1.registerParent r.frame).pushDest (r.target.getD p) = s.chip.pushDest (r.target.getD p) := by
    cases r.frame <;> rfl
  have hl := Chip.landing_pushDest hb2
  rw [hdest] at hl
  have htail : s.chip.tks.free.tail = free := by rw [hfree]; rfl
  rw [exec_push h, pushWhole_checks h hrun]
  simp only [ha, hb, hf, Option.isNone_none, if_true]
  rw [pushRest_room h hrun hq hroom, pushRest_slot h (Chip.allocCheck_ok hquota hfree), pushRest_register h1 hf1,
    pushRest_place h2 hs2 hl]
  subst htail
  obtain ⟨frame, target, pin, payload⟩ := r
  cases frame <;> rfl

end Sys2Proof.Machine
end

section
/-! A PUSH past its room check, with other claims between its own (O14). -/

namespace Sys2Proof.Machine

/-! ## A request that stands within its block -/

/-- A block ends and answers a counted request it has taken before, whatever the hub's state (R150, R170). -/
theorem Chip.replyCounted_within {c : Chip} {b : Block} {p : Port} {k : Current} (hk : k.stage ≠ .given) (hq : c.quiet b p)
    (st : Status) (body : List Word) (i : Option Handle) :
    c.replyCounted .now b p k st body i = { c with
      hcu := { c.hcu with
        creation := c.hcu.creation - 1
        checks := if c.hcu.state = .quiescing ∧ c.hcu.creation - 1 = 0 then c.hcu.checks + 1 else c.hcu.checks }
      pcs := c.pcs.set p ({ c.pc p with atBlock := (c.pc p).atBlock.set b none }.respond k.tag st body i) } := by
  rw [Chip.replyCounted, Chip.reply_now (hq.precedes k.req), Chip.lowerCreation_eq]
  simp only [Pc.move, hk, if_false, Pc.respond]

/-- A block takes a request it has taken before on to a later stage. -/
theorem Chip.advance_within {c : Chip} {b : Block} {p : Port} {k : Current} (hk : k.stage ≠ .given) (st : Stage) :
    c.advance b p k st =
      { c with pcs := c.pcs.set p { c.pc p with atBlock := (c.pc p).atBlock.set b (some { k with stage := st }) } } := by
  simp only [Chip.advance, Chip.updPc, PerPort.upd_eq, Pc.move, hk, if_false, Chip.pc]

section underWay
variable {s : State} {b : Block} {p : Port} {tag : Tag} {r : Req} {st : Stage} {i : Instr} {n : Nat} {f : Hand → Current → Chip → Chip}

/-- One claim on a request within its block. -/
theorem exec_underWay_claim (h : s.chip.underWay b p tag r st) {hd : Hand} (hi : requestRun i = some (r.row, b, p, .claim hd, n, f)) :
    exec i s = .next ⟨s.pending, f hd ⟨tag, r, st⟩ s.chip⟩ := by
  rw [exec_underWay h (by simp) hi]
  exact congrArg (fun c => Host.Outcome.next (State.mk s.pending c)) (Chip.goOn_some h.2 rfl)

/-- A request within its block that ends with its next claim, taken by that claim or whole. -/
theorem exec_underWay_ends (h : s.chip.underWay b p tag r st) {e : Extent} (he : e = .claim .now ∨ e = .whole)
    (hi : requestRun i = some (r.row, b, p, e, n, f)) {d : Chip} (hf : f .now ⟨tag, r, st⟩ s.chip = d)
    (hd : (d.pc p).atBlock.get b = none) : exec i s = .next ⟨s.pending, d⟩ := by
  rcases he with rfl | rfl
  · rw [exec_underWay_claim h hi, hf]
  · rw [exec_underWay h (by simp) hi]
    simp only [claimsTaken, handOf]
    rw [repeatClaim_succ, Chip.goOn_some h.2 rfl, hf, repeat_goOn_none hd]

end underWay

/-! ## The allocation and the registration -/

section push
variable {s : State} {p : Port} {tag : Tag} {r : PushReq}

/-- The allocation of a PUSH that is refused: the PUSH is answered and nothing else changes (R43). -/
theorem exec_push_noSlot {dest : RunList} {e : Extent} {status : Status} (h : s.chip.underWay .rqc p tag (.push r) (.roomRead dest))
    (he : e = .claim .now ∨ e = .whole) (ha : s.chip.allocCheck p = .error status) :
    exec (.push p e) s =
      .next ⟨s.pending, s.chip.replyCounted .now .rqc p ⟨tag, .push r, .roomRead dest⟩ status [] none⟩ :=
  exec_underWay_ends h he rfl (by simp only [pushClaim, pushStage, ha]) (Chip.replyCounted_atBlock ..)

/-- An undone PUSH: the ticket loses its parent, and its RETIRE is sent (R44). -/
theorem Chip.undoPush_eq {c : Chip} {i : SlotNo} {t : Ticket} (h : c.ticket i = some t) :
    c.undoPush i = (c.setSlot i ⟨(c.slot i).gen, some { t with parent := none }⟩).sendRetire .rqc ⟨i, .cancelled, none⟩ := by
  rw [Chip.undoPush, Chip.updTicket_eq h]

/-- A PUSH whose frame is no longer OPEN at its registration is undone and answered (R44). -/
theorem exec_push_undone {i : Handle} {dest : RunList} {e : Extent} {f : FrameRef} {status : Status}
    (h : s.chip.underWay .rqc p tag (.push r) (.allocated i dest)) (he : e = .claim .now ∨ e = .whole) (hf : r.frame = some f)
    (hs : frameRefusal (s.chip.refState f) = some status) :
    exec (.push p e) s =
      .next ⟨s.pending, (s.chip.undoPush i.slot).replyCounted .now .rqc p ⟨tag, .push r, .allocated i dest⟩ status [] none⟩ :=
  exec_underWay_ends h he rfl (by simp only [pushClaim, pushStage, hf, hs]) (Chip.replyCounted_atBlock ..)

end push

/-- Settles O14: the allocation refused and made, and the registration that finds its frame changed. -/
theorem pushAfterItsRoomCheck : Obligations.PushAfterItsRoomCheck := by
  intro s p tag r dest
  refine ⟨fun h => ⟨fun e hq he => ⟨fun hquota => ?quota, fun hquota hfree => ?storeFull⟩, fun i free hd hquota hfree => ?allocated⟩,
    fun i t f e h hq he hf ht hs => ?undone⟩
  case quota =>
    rw [exec_push_noSlot h he (Chip.allocCheck_quota hquota), Chip.replyCounted_within (by simp) hq]
  case storeFull =>
    rw [exec_push_noSlot h he (Chip.allocCheck_storeFull hquota hfree), Chip.replyCounted_within (by simp) hq]
  case allocated =>
    have htail : s.chip.tks.free.tail = free := by rw [hfree]; rfl
    rw [exec_underWay_claim h rfl]
    simp only [pushClaim, pushStage, Chip.allocCheck_ok hquota hfree]
    rw [Chip.advance_within (by simp), Chip.allocate_eq, htail]
    rfl
  case undone =>
    intro st
    have hst : frameRefusal (s.chip.refState f) = some st := by
      simp only [st]
      cases hx : s.chip.refState f with
      | opened => exact absurd hx hs
      | closed | cancelling | free => rfl
    rw [exec_push_undone h he hf hst, Chip.replyCounted_within (by simp) (by exact hq), Chip.undoPush_eq ht]
    rfl

end Sys2Proof.Machine
end

section
/-! The four forms of QUERY (O50). -/

namespace Sys2Proof.Machine

/-! ## QUERY FRAME and QUERY TICKET taken whole -/

section ready
variable {s : State} {p : Port} {m : Packet}

/-- A QUERY FRAME taken whole reports the frame, or BAD_FRAME for one that is FREE or stale (R102). -/
theorem exec_queryFrame {f : FrameRef} (h : s.chip.ready p m (.queryFrame f)) :
    exec (.queryFrame p .whole) s = .next ⟨s.pending,
      if s.chip.refState f = .free then s.chip.answered p m.tag .badFrame []
      else s.chip.answered p m.tag .ok (frameBody (s.chip.frame f.index))⟩ := by
  have hst : (s.chip.dispatched p ⟨m.tag, .queryFrame f, .given⟩).refState f = s.chip.refState f := rfl
  rw [exec_ready h rfl rfl]
  simp only [repeatClaim, queryFrameClaim, Chip.queryFrame, hst]
  cases hf : s.chip.refState f <;> simp only [Chip.dispatched_reply h rfl, reduceCtorEq, if_true, if_false] <;> rfl

/-- A QUERY TICKET taken whole reports the slot and its holder (R19, R161). -/
theorem exec_queryTicket {i : SlotNo} (h : s.chip.ready p m (.queryTicket i)) :
    exec (.queryTicket p .whole) s =
      .next ⟨s.pending, s.chip.answered p m.tag .ok (ticketBody (s.chip.slot i) (s.chip.holderOf i))⟩ := by
  rw [exec_ready h rfl rfl]
  exact congrArg (fun c => Host.Outcome.next (State.mk s.pending c)) (Chip.dispatched_reply h rfl ..)

end ready

section holder
variable {c : Chip} {i : SlotNo} {t : Ticket}

/-- A slot that is not RUNNING has no holder (R19). -/
theorem Chip.holderOf_not_running (h : ∀ t, c.ticket i = some t → t.state ≠ .running) : c.holderOf i = none := by
  unfold Chip.holderOf
  cases ht : c.ticket i with
  | none => rfl
  | some t => exact if_neg (h t ht)

/-- The holder of a RUNNING slot: its entry's, or else the port of the LTU's RETIRE on its way (R19, R107). -/
theorem Chip.holderOf_running (ht : c.ticket i = some t) (hs : t.state = .running) :
    c.holderOf i = ((c.runEntry i).map RunEntry.holder).or (c.retiringHolder i) := by
  simp only [Chip.holderOf, ht, hs, if_true]

end holder

/-! ## One part of a gather -/

section part
variable {c : Chip} {p : Port} {b : QueryPart} {g : Gather} {before after : List Gather}

/-- A part is read for the oldest gather that lacks it (R159). -/
theorem gatherPart_oldest (hg : (c.pc p).gathers = before ++ g :: after) (hb : ∀ y ∈ before, y.lacks b = false)
    (hl : g.lacks b = true) : gatherPart p g.isHub b c = c.putGather p (c.readPart g b) := by
  have hf : (before ++ g :: after).find? (fun y => y.lacks b) = some g := by
    rw [List.find?_append, List.find?_eq_none.mpr (fun y hy => by simp [hb y hy]), List.find?_cons, hl]
    rfl
  simp only [gatherPart, hg, hf, if_true]

/-- A step of QUERY HUB or QUERY PORT, out of reset. -/
theorem exec_gather {s : State} {i : Instr} {row : ReqRow} {hub : Bool} {parts : List QueryPart} {x : Gathering} (hr : s.chip.rst = false)
    (hi : gatherRun i = some (row, p, hub, parts, x)) : exec i s = .next ⟨s.pending, s.chip.runGather row p hub parts x⟩ := by
  have h1 : i ≠ .rstNAssert := by rintro rfl; simp [gatherRun] at hi
  have h2 : ∀ st, i ≠ .rstNDeassert st := by rintro st rfl; simp [gatherRun] at hi
  rw [exec_effect hr h1 h2, effect_of_gatherRun hi]

/-- A step that reads one part, for the oldest gather that lacks it. -/
theorem exec_part {s : State} {i : Instr} {row : ReqRow} {parts : List QueryPart} (hr : s.chip.rst = false)
    (hi : gatherRun i = some (row, p, g.isHub, parts, .part b)) (hg : (s.chip.pc p).gathers = before ++ g :: after)
    (hb : ∀ y ∈ before, y.lacks b = false) (hl : g.lacks b = true) :
    exec i s = .next ⟨s.pending, s.chip.putGather p (s.chip.readPart g b)⟩ := by
  rw [exec_gather hr hi, Chip.runGather, gatherPart_oldest hg hb hl]

/-- A gather whose last part has been read is answered, and is no more. -/
theorem Chip.putGather_whole {body : List Word} (h : g.body = some body) :
    c.putGather p g = { c with
      pcs := c.pcs.set p ({ c.pc p with gathers := (c.pc p).gathers.filter fun y => y.tag != g.tag }.respond g.tag .ok body) } := by
  simp only [Chip.putGather, h, Chip.respond, Chip.updPc, PerPort.upd_eq, PerPort.get_set_self, PerPort.set_set, Chip.pc]

/-- A gather with parts still to read stands in its place. -/
theorem Chip.putGather_more (h : g.body = none) :
    c.putGather p g = { c with
      pcs := c.pcs.set p { c.pc p with gathers := (c.pc p).gathers.map fun y => if y.tag = g.tag then g else y } } := by
  simp only [Chip.putGather, h, Chip.updPc, PerPort.upd_eq, Chip.pc]

/-- A gather for port `q` that has its own Port Controller's part does not lack it. -/
theorem Gather.lacks_pc_eq_false {q : Port} (h : ∀ r, g.parts = .port q r → r.pc ≠ none) : g.lacks (.pc q) = false := by
  unfold Gather.lacks
  cases hp : g.parts with
  | hub r => rfl
  | port q' r =>
    by_cases hq : q = q'
    · subst hq
      simp [Option.isSome_iff_ne_none, h r hp]
    · simp [hq]

end part

/-! ## A QUERY that waits for an older gather -/

/-- A request that an earlier one of its port keeps waiting is not taken, whatever the extent (R118, R159). -/
theorem Chip.runRequest_kept {c : Chip} {row : ReqRow} {b : Block} {p : Port} {k : Current} (hc : (c.pc p).current = some k)
    (hb : (c.pc p).atBlock.get b = none) (hk : (c.pc p).keepsWaiting k.req = true) (e : Extent) (n : Nat)
    (f : Hand → Current → Chip → Chip) : c.runRequest row b p e n f = c := by
  have hd : c.dispatchHead row p = c := Chip.dispatchHead_of_current (by rw [hc]; simp) row
  have hnext : ∀ h, c.nextClaim row b p (f h) = c := fun h => by
    simp only [Chip.nextClaim, Chip.takeUp, hb, hc, hk, Option.isSome_none, Bool.false_eq_true, Bool.true_eq_false, and_false, if_false]
  cases e with
  | dispatch => exact hd
  | claim h => exact hnext h
  | whole =>
    simp only [Chip.runRequest, hb, Option.isSome_none, Bool.false_eq_true, if_false, hd, hnext]
    exact repeat_goOn_none hb n

theorem exec_kept {s : State} {i : Instr} {row : ReqRow} {b : Block} {p : Port} {k : Current} {e : Extent} {n : Nat}
    {f : Hand → Current → Chip → Chip} (hr : s.chip.rst = false) (hi : requestRun i = some (row, b, p, e, n, f))
    (hc : (s.chip.pc p).current = some k) (hb : (s.chip.pc p).atBlock.get b = none) (hk : (s.chip.pc p).keepsWaiting k.req = true) :
    exec i s = .next s := by
  rw [exec_eq_run i s (requestRun_ne_rst hi).1 (requestRun_ne_rst hi).2, effect_of_requestRun hi, State.run_of_not_rst hr]
  exact congrArg (fun c => Host.Outcome.next (State.mk s.pending c)) (Chip.runRequest_kept hc hb hk e n f)

/-- Settles O50: the forms taken whole, the parts of a gather one by one, and the QUERYs that wait for a gather. -/
theorem queriesReportState : Obligations.QueriesReportState := by
  refine ⟨fun s p k => ⟨fun hg => ⟨fun h => ?hub, fun q h => ?port⟩, fun f h => ⟨fun hf => ?frame, fun hf => ?badFrame⟩, fun i h => ?ticket⟩,
    fun s p tag before after hr => ⟨fun h t r n g hg hx hb => ?hubLast, fun q m n u a g hg hx hb => ?portLast,
      fun g hg hx hb => ?hubFirst, fun q d a g hg hx hb => ?portOwn, fun hl f e hc hb => ?frameWaits, fun hl i e hc hb => ?ticketWaits⟩⟩
  case hub => rw [exec_gather h.1 rfl, queryHub_whole h hg]
  case port => rw [exec_gather h.1 rfl, queryPort_whole h hg]; rfl
  case frame => rw [exec_queryFrame h, if_neg hf]
  case badFrame => rw [exec_queryFrame h, if_pos hf]
  case ticket =>
    refine ⟨fun hn => ?_, fun t ht hs => ⟨fun e he => ?_, fun he => ⟨fun m hm => ?_, fun hn => ?_⟩⟩⟩
    · rw [exec_queryTicket h, Chip.holderOf_not_running hn]
    · rw [exec_queryTicket h, Chip.holderOf_running ht hs, he]; rfl
    · rw [exec_queryTicket h, Chip.holderOf_running ht hs, he, Chip.retiringHolder, hm]; rfl
    · rw [exec_queryTicket h, Chip.holderOf_running ht hs, he, Chip.retiringHolder,
        List.find?_eq_none.mpr fun m hm => by simpa using hn m hm]
      rfl
  case hubLast =>
    subst hg
    rw [exec_part hr rfl hx hb rfl, Chip.putGather_whole rfl]; rfl
  case portLast =>
    subst hg
    rw [exec_part hr rfl hx hb rfl, Chip.putGather_whole rfl]; rfl
  case hubFirst =>
    subst hg
    rw [exec_part hr rfl hx hb rfl, Chip.putGather_more rfl]; rfl
  case portOwn =>
    subst hg
    have hbody : (s.chip.readPart ⟨tag, .port q ⟨none, d, a, none⟩⟩ (.pc q)).body = none := by cases d <;> cases a <;> rfl
    rw [exec_part hr rfl hx (fun y hy => Gather.lacks_pc_eq_false (hb y hy)) (by simp [Gather.lacks]), Chip.putGather_more hbody]; rfl
  case frameWaits =>
    have hk : (s.chip.pc p).keepsWaiting (.queryFrame f) = true := by
      simpa [Pc.keepsWaiting, Req.handle] using hl
    exact exec_kept hr rfl hc hb hk
  case ticketWaits =>
    have hk : (s.chip.pc p).keepsWaiting (.queryTicket i) = true := by
      simpa [Pc.keepsWaiting, Req.handle] using hl
    exact exec_kept hr rfl hc hb hk

end Sys2Proof.Machine
end

section
/-! The lists a PUSH holds from its room check to its placement, and the claims that wait for them (O15). -/

namespace Sys2Proof.Machine

/-! ## Who holds a list -/

/-- A PUSH between its room check and its placement. -/
def Stage.holdsLists : Stage → Prop
  | .roomRead _ => True
  | .allocated _ _ => True
  | .registered _ _ => True
  | _ => False

/-- The PUSH `r` of port `p` is between its room check and its placement (R46). -/
def Chip.holdsFor (c : Chip) (p : Port) (r : PushReq) : Prop :=
  ∃ tag st, (c.pc p).atBlock.get .rqc = some ⟨tag, .push r, st⟩ ∧ st.holdsLists

/-- The three stages of a PUSH that holds its lists. -/
theorem Chip.holdsFor_iff {c : Chip} {p : Port} {r : PushReq} :
    c.holdsFor p r ↔ ∃ tag h d, (c.pc p).atBlock.get .rqc = some ⟨tag, .push r, .roomRead d⟩ ∨
      (c.pc p).atBlock.get .rqc = some ⟨tag, .push r, .allocated h d⟩ ∨
      (c.pc p).atBlock.get .rqc = some ⟨tag, .push r, .registered h d⟩ := by
  constructor
  · rintro ⟨tag, st, hp, hst⟩
    cases st with
    | roomRead d => exact ⟨tag, ⟨0, 0⟩, d, .inl hp⟩
    | allocated h d => exact ⟨tag, h, d, .inr (.inl hp)⟩
    | registered h d => exact ⟨tag, h, d, .inr (.inr hp)⟩
    | _ => exact hst.elim
  · rintro ⟨tag, h, d, hp | hp | hp⟩ <;> exact ⟨tag, _, hp, trivial⟩

/-- The stack that a port's PUSH holds is its target's. -/
theorem Chip.pushHold_eq_some {c : Chip} {p q : Port} : c.pushHold p = some q ↔ ∃ r, c.holdsFor p r ∧ r.target.getD p = q := by
  constructor
  · intro h
    unfold Chip.pushHold at h
    split at h
    case h_1 hp => exact ⟨_, ⟨_, _, hp, trivial⟩, Option.some.inj h⟩
    case h_2 hp => exact ⟨_, ⟨_, _, hp, trivial⟩, Option.some.inj h⟩
    case h_3 hp => exact ⟨_, ⟨_, _, hp, trivial⟩, Option.some.inj h⟩
    case h_4 => cases h
  · rintro ⟨r, ⟨tag, st, hp, hst⟩, rfl⟩
    have hp' : (c.pc p).atBlock.rqc = some ⟨tag, .push r, st⟩ := hp
    cases st with
    | roomRead _ | allocated _ _ | registered _ _ => simp only [Chip.pushHold, hp']
    | _ => exact hst.elim

theorem Chip.stackHeld_iff {c : Chip} {q : Port} : c.stackHeld q = true ↔ ∃ p r, c.holdsFor p r ∧ r.target.getD p = q := by
  simp only [Chip.stackHeld, Port.any_all_eq_true, beq_iff_eq, Chip.pushHold_eq_some]

theorem Chip.queueHeld_iff {c : Chip} : c.queueHeld = true ↔ ∃ p r, c.holdsFor p r := by
  simp only [Chip.queueHeld, Port.any_all_eq_true, Option.isSome_iff_exists, Chip.pushHold_eq_some]
  constructor
  · rintro ⟨p, q, r, h, _⟩
    exact ⟨p, r, h⟩
  · rintro ⟨p, r, h⟩
    exact ⟨p, _, r, h, rfl⟩

/-! ## Commands that wait -/

/-- A command whose meaning leaves the hub as it is changes nothing, in reset or out of it. -/
theorem State.run_of_fixed {s : State} {f : Chip → Chip} (h : f s.chip = s.chip) : s.run f = .next s := by
  simp only [State.run, h, ite_self]

section waits
variable {c : Chip}

theorem takePlace_waits {src : PlaceSender} {m : PlaceMsg} {rest : List PlaceMsg} (hm : c.wires.places src = m :: rest)
    (hh : c.listHeld (c.landing m.dest) = true) : takePlace src c = c := by
  simp only [takePlace, hm, hh, if_true]

theorem takeRequeue_waits (hh : c.queueHeld = true) : takeRequeue c = c := by
  unfold takeRequeue
  split
  · rfl
  · exact if_pos hh

theorem takeStealableOn_waits {p : Port} (hh : c.stackHeld p = true) : takeStealableOn p c = c := by
  unfold takeStealableOn
  split
  · exact if_pos hh
  · rfl

theorem takeStealEnableOn_waits {p q : Port} (hq : q ≠ p) (hh : c.stackHeld q = true) : takeStealEnableOn p c = c := by
  unfold takeStealEnableOn
  split
  · exact if_pos (Port.any_all_eq_true.mpr ⟨q, by simp [hq, hh]⟩)
  · rfl

theorem takeWalkStep_waits {w : Walk} {ws : List Walk} {r : RunList} {todo : List RunList} (hw : c.frt.walks = w :: ws)
    (ht : w.todo = r :: todo) (hh : c.listHeld r = true) : takeWalkStep c = c := by
  simp only [takeWalkStep, hw, ht, hh, if_true]

theorem takePortLeave_waits {p : Port} (hh : c.queueHeld = true) : takePortLeave p c = c := by
  unfold takePortLeave
  split
  · exact if_pos hh
  · rfl

end waits

/-- A request within its block whose next claim changes nothing waits, whatever the extent. -/
theorem exec_underWay_waits {s : State} {b : Block} {p : Port} {tag : Tag} {r : Req} {st : Stage} {i : Instr} {e : Extent} {n : Nat}
    {f : Hand → Current → Chip → Chip} (h : s.chip.underWay b p tag r st) (he : e ≠ .dispatch)
    (hi : requestRun i = some (r.row, b, p, e, n, f)) (hf : ∀ hd, f hd ⟨tag, r, st⟩ s.chip = s.chip) : exec i s = .next s := by
  rw [exec_underWay h he hi, repeatClaim_fixed ((Chip.goOn_some h.2 rfl).trans (hf _))]

/-- Settles O15: a list is held exactly by a PUSH at one of three stages, and each claim on a held list changes nothing. -/
theorem pushHoldsItsLists : Obligations.PushHoldsItsLists := by
  intro s
  refine ⟨⟨?queue, fun q => ?stack⟩, fun src m rest hm hh => State.run_of_fixed (takePlace_waits hm hh),
    fun p hh => State.run_of_fixed (takeStealableOn_waits hh), fun p q hq hh => State.run_of_fixed (takeStealEnableOn_waits hq hh),
    fun w ws r todo hw ht hh => State.run_of_fixed (takeWalkStep_waits hw ht hh), fun hh => ⟨State.run_of_fixed (takeRequeue_waits hh),
      fun p => State.run_of_fixed (takePortLeave_waits hh), fun p tag timeout e he h => ?pop, fun p tag r e he h => ?push⟩⟩
  case queue => simpa only [Chip.holdsFor_iff] using Chip.queueHeld_iff (c := s.chip)
  case stack => simpa only [Chip.holdsFor_iff] using Chip.stackHeld_iff (c := s.chip) (q := q)
  case pop => exact exec_underWay_waits h he rfl fun hd => if_pos hh
  case push => exact exec_underWay_waits h he rfl fun hd => if_pos hh

end Sys2Proof.Machine
end

section
/-! What parked service offers and how one offer is carried out, and the placements on a stack and at the shared queue tail (O16, O17). -/

namespace Sys2Proof.Machine

/-! ## A ticket's record rewritten -/

/-- The record of one slot changed, that of another as it was. -/
theorem Chip.ticket_updTicket (c : Chip) (i j : SlotNo) (f : Ticket → Ticket) :
    (c.updTicket i f).ticket j = if j = i then (c.ticket j).map f else c.ticket j := by
  unfold Chip.ticket Chip.updTicket
  by_cases h : j = i
  · subst h; simp
  · simp [h]

/-- A change that leaves a field of the record leaves it in every slot. -/
theorem Chip.bind_ticket_updTicket {α : Type} (c : Chip) (i j : SlotNo) {f : Ticket → Ticket} {g : Ticket → Option α} (h : ∀ t, g (f t) = g t) :
    ((c.updTicket i f).ticket j).bind g = (c.ticket j).bind g := by
  rw [Chip.ticket_updTicket]
  split
  · cases c.ticket j <;> simp [h]
  · rfl

theorem Chip.pinned_updTicket (c : Chip) (i j : SlotNo) {f : Ticket → Ticket} (h : ∀ t, (f t).pin = t.pin) :
    (c.updTicket i f).pinned j = c.pinned j := by
  simp only [Chip.pinned, Chip.bind_ticket_updTicket c i j h]

theorem Chip.parentCancelling_updTicket (c : Chip) (i j : SlotNo) {f : Ticket → Ticket} (h : ∀ t, (f t).parent = t.parent) :
    (c.updTicket i f).parentCancelling j = c.parentCancelling j := by
  simp only [Chip.parentCancelling, Chip.bind_ticket_updTicket c i j h]
  rfl

theorem Chip.pinned_of_ticket {c : Chip} {i : SlotNo} {t : Ticket} (h : c.ticket i = some t) : c.pinned i = t.pin.isSome := by
  simp only [Chip.pinned, h, Option.bind_some]

/-! ## Lists as they stand -/

theorem Chip.setStack_self {c : Chip} {q : Port} {l : List SlotNo} (h : c.stack q = l) : c.setStack q l = c := by
  subst h
  simp only [Chip.setStack, Chip.stack, PerPort.set_get_self]

theorem Chip.setShared_self {c : Chip} {l : List SlotNo} (h : c.rqc.shared = l) : c.setShared l = c := by
  subst h; rfl

/-! ## Events of one port -/

/-- Some events are raised for port `q`, in order. -/
def Chip.raiseEach (c : Chip) (q : Port) (ks : List EventKind) : Chip :=
  { c with wires := { c.wires with events := c.wires.events.set q (c.wires.events.get q ++ ks) } }

theorem Chip.raise_eq_raiseEach (c : Chip) (q : Port) (k : EventKind) : c.raise q k = c.raiseEach q [k] := rfl

theorem Chip.raiseEach_nil (c : Chip) (q : Port) : c.raiseEach q [] = c := by
  simp only [Chip.raiseEach, List.append_nil, PerPort.set_get_self]

theorem Chip.raiseEach_ite (c : Chip) (q : Port) (b : Bool) (ks : List EventKind) :
    c.raiseEach q (if b then ks else []) = if b then c.raiseEach q ks else c := by
  cases b
  · exact c.raiseEach_nil q
  · rfl

theorem Chip.raiseEach_raiseEach (c : Chip) (q : Port) (ks ls : List EventKind) :
    (c.raiseEach q ks).raiseEach q ls = c.raiseEach q (ks ++ ls) := by
  simp only [Chip.raiseEach, PerPort.get_set_self, PerPort.set_set, List.append_assoc]

/-- The event of a continuation that the FRT sent and the RQC placed on a stack (R93). -/
def releasedBy (src : PlaceSender) : List EventKind := if src = .frt then [.released] else []

theorem Chip.raiseReleased_stack (c : Chip) (src : PlaceSender) (q : Port) :
    c.raiseReleased src (.stack q) = c.raiseEach q (releasedBy src) := by
  cases src with
  | frt => exact c.raise_eq_raiseEach q .released
  | ltu => exact (c.raiseEach_nil q).symm

/-! ## What is offered (R67, R68) -/

section offers
variable {c : Chip} {q : Port} {i : SlotNo} {rest above : List SlotNo} {e : ParkedPop} {es : List ParkedPop}

/-- The owner's oldest parked pop is offered the top ticket. -/
theorem Chip.offer_own (hp : (c.parkedOf q).head? = some e) (hs : c.stack q = i :: rest) :
    c.offer (.stack q) = some ⟨i, rest, e, .own⟩ := by
  simp only [Chip.offer, Chip.stackOffer, hp, hs]

/-- Without a pop of the owner's, the oldest thief is offered an unpinned bottom ticket of a STEALABLE stack. -/
theorem Chip.offer_stolen (hp : c.parkedOf q = []) (ha : (c.pc q).params.stealable = true) (hs : c.stack q = above ++ [i])
    (hi : c.pinned i = false) (he : c.oldestThief q = some e) : c.offer (.stack q) = some ⟨i, above, e, .stolen q⟩ := by
  simp [Chip.offer, Chip.stackOffer, hp, ha, hs, hi, he]

/-- Without a pop of the owner's, nobody is offered a ticket of a stack that is not STEALABLE, has no thief, is empty, or is pinned at the bottom. -/
theorem Chip.offer_none (hp : c.parkedOf q = []) (h : (c.pc q).params.stealable = false ∨ c.oldestThief q = none ∨ c.stack q = [] ∨
    ∃ l j, c.stack q = l ++ [j] ∧ c.pinned j = true) : c.offer (.stack q) = none := by
  simp only [Chip.offer, Chip.stackOffer, hp, List.head?_nil]
  rcases h with h | h | h | ⟨l, j, hs, hj⟩
  · simp only [h, Bool.false_eq_true, if_false]
  · simp [h]
  · simp [h]
  · cases ht : c.oldestThief q <;> simp [hs, hj]

/-- The oldest parked pop is offered the head of the shared queue. -/
theorem Chip.offer_shared (hs : c.rqc.shared = i :: rest) (hp : c.rqc.parked = e :: es) :
    c.offer .shared = some ⟨i, rest, e, .shared⟩ := by
  simp only [Chip.offer, Chip.sharedOffer, hs, hp]

/-! ## One offer carried out -/

/-- The parked entry is served: it leaves the table and the take is handed over (R62, R67). -/
theorem Chip.carryOut_served {r : RunList} {o : Offer} (h : c.parentCancelling o.slot = false) :
    c.carryOut r o = (((c.setRunList r o.rest).dropParked o.entry).noteSource o.entry.port o.source).sendTake
      ⟨o.slot, o.entry.port, o.entry.tag, o.source⟩ := by
  simp only [Chip.carryOut, h, Bool.false_eq_true, if_false]

/-- The candidate is retired, and the entry stays parked (R60, R92). -/
theorem Chip.carryOut_retired {r : RunList} {o : Offer} (h : c.parentCancelling o.slot = true) :
    c.carryOut r o = (c.setRunList r o.rest).sendRetire .rqc ⟨o.slot, .cancelled, some o.entry.port⟩ := by
  simp only [Chip.carryOut, h, if_true]

/-- An offer of a stack's ticket carried out, whatever the rest of that stack was before. -/
theorem Chip.carryOut_setStack (l : List SlotNo) (o : Offer) : (c.setStack q l).carryOut (.stack q) o = c.carryOut (.stack q) o := by
  have h : (c.setStack q l).setStack q o.rest = c.setStack q o.rest := by simp [Chip.setStack]
  unfold Chip.carryOut
  simp only [Chip.setRunList, h]
  rfl

/-- An offer of the shared queue's ticket carried out, whatever the rest of the queue was before. -/
theorem Chip.carryOut_setShared (l : List SlotNo) (o : Offer) : (c.setShared l).carryOut .shared o = c.carryOut .shared o := rfl

/-- An offer of a stack's ticket that leaves `l` on the stack is one that leaves any other rest, with `l` put there. -/
theorem Chip.carryOut_rest (o : Offer) (l : List SlotNo) :
    c.carryOut (.stack q) { o with rest := l } = (c.carryOut (.stack q) o).setStack q l := by
  have h : (c.setStack q o.rest).setStack q l = c.setStack q l := by simp [Chip.setStack]
  unfold Chip.carryOut
  simp only [Chip.setRunList, ← h]
  split
  · rfl
  · cases o.source <;> rfl

/-- A change of a record that keeps its parent, before an offer is carried out or after it. -/
theorem Chip.carryOut_updTicket (i : SlotNo) {f : Ticket → Ticket} (hf : ∀ t, (f t).parent = t.parent) (r : RunList) (o : Offer) :
    (c.updTicket i f).carryOut r o = (c.carryOut r o).updTicket i f := by
  unfold Chip.carryOut
  simp only [c.parentCancelling_updTicket i _ hf]
  split
  · cases r <;> rfl
  · cases r <;> cases o.source <;> rfl

end offers

/-! ## A placement on a stack -/

/-- The record of a ticket placed on a stack. -/
def Ticket.queued (t : Ticket) : Ticket := { t with state := .queued }

/-- Ticket `i` put on top of `q`'s stack, QUEUED, before any parked service (R31). -/
def Chip.stacked (c : Chip) (q : Port) (i : SlotNo) : Chip := (c.updTicket i Ticket.queued).setStack q (i :: c.stack q)

section stacked
variable {c : Chip} {q : Port} {i : SlotNo}

@[simp] theorem Chip.stacked_stack (c : Chip) (q : Port) (i : SlotNo) : (c.stacked q i).stack q = i :: c.stack q :=
  Chip.stack_setStack_self _ _ _

@[simp] theorem Chip.stacked_pinned (c : Chip) (q : Port) (i j : SlotNo) : (c.stacked q i).pinned j = c.pinned j :=
  c.pinned_updTicket i j (f := Ticket.queued) fun _ => rfl

/-- A placement on a stack with its RELEASED: the ticket put, the parked service, and the events of the stack's owner: WORK_READY when the stack was empty and
is no longer (R36), RELEASED for a continuation (R93). -/
theorem Chip.placeOnStack_eq (c : Chip) (src : PlaceSender) (q : Port) (i : SlotNo) :
    (c.placeOnStack q i).raiseReleased src (.stack q) = ((c.stacked q i).parkedService (.stack q)).raiseEach q
      ((if (c.stack q).isEmpty && !(((c.stacked q i).parkedService (.stack q)).stack q).isEmpty then [.workReady] else []) ++
        releasedBy src) := by
  rw [Chip.raiseReleased_stack, ← Chip.raiseEach_raiseEach, Chip.raiseEach_ite]
  rfl

/-- A placement with nothing to offer. -/
theorem Chip.placeOnStack_alone (src : PlaceSender) (ho : (c.stacked q i).offer (.stack q) = none) :
    (c.placeOnStack q i).raiseReleased src (.stack q) =
      (c.stacked q i).raiseEach q ((if (c.stack q).isEmpty then [.workReady] else []) ++ releasedBy src) := by
  rw [Chip.placeOnStack_eq, Chip.parkedService_none ho]
  simp

/-- A placement on an empty stack whose ticket is offered at once: nothing is left on the stack, and there is no WORK_READY. -/
theorem Chip.placeOnStack_offered (src : PlaceSender) (hs : c.stack q = []) {o : Offer} (ho : (c.stacked q i).offer (.stack q) = some o)
    (hr : o.rest = []) :
    (c.placeOnStack q i).raiseReleased src (.stack q) = ((c.updTicket i Ticket.queued).carryOut (.stack q) o).raiseEach q (releasedBy src) := by
  have hl : (c.stacked q i).runList (.stack q) = [i] := by
    show (c.stacked q i).stack q = [i]
    rw [Chip.stacked_stack, hs]
  have hleft : ((c.stacked q i).carryOut (.stack q) o).stack q = [] := (Chip.carryOut_runList _ (.stack q) o).trans hr
  rw [Chip.placeOnStack_eq, Chip.parkedService_one hl ho, hleft]
  simp only [List.isEmpty_nil, Bool.not_true, Bool.and_false, Bool.false_eq_true, if_false, List.nil_append]
  exact congrArg (fun d : Chip => d.raiseEach q _) (Chip.carryOut_setStack _ o)

/-- The offer of a ticket further down the stack, carried out before the placement or after it. -/
theorem Chip.carryOut_stacked {above : List SlotNo} {j : SlotNo} {e : ParkedPop} {so : Source} :
    (c.stacked q i).carryOut (.stack q) ⟨j, i :: above, e, so⟩ = (c.carryOut (.stack q) ⟨j, above, e, so⟩).stacked q i := by
  have hleft : (c.carryOut (.stack q) ⟨j, above, e, so⟩).stack q = above := Chip.carryOut_runList _ (.stack q) _
  have hrest : c.carryOut (.stack q) ⟨j, i :: above, e, so⟩ = (c.carryOut (.stack q) ⟨j, above, e, so⟩).setStack q (i :: above) :=
    Chip.carryOut_rest ⟨j, above, e, so⟩ (i :: above)
  calc (c.stacked q i).carryOut (.stack q) ⟨j, i :: above, e, so⟩
    _ = (c.updTicket i Ticket.queued).carryOut (.stack q) ⟨j, i :: above, e, so⟩ := Chip.carryOut_setStack _ _
    _ = (c.carryOut (.stack q) ⟨j, i :: above, e, so⟩).updTicket i Ticket.queued := Chip.carryOut_updTicket i (f := Ticket.queued) (fun _ => rfl) _ _
    _ = ((c.carryOut (.stack q) ⟨j, above, e, so⟩).updTicket i Ticket.queued).setStack q (i :: above) :=
      by rw [hrest]; rfl
    _ = (c.carryOut (.stack q) ⟨j, above, e, so⟩).stacked q i := by rw [Chip.stacked, hleft]

/-- The hub with the ticket put on the stack. -/
theorem Chip.stacked_eq {t : Ticket} (ht : c.ticket i = some t) : c.stacked q i = { c with
    tks := { c.tks with slots := c.tks.slots.set i.val ⟨(c.slot i).gen, some t.queued⟩ i.isLt }
    rqc := { c.rqc with runStacks := c.rqc.runStacks.set q (i :: c.stack q) } } := by
  rw [Chip.stacked, Chip.updTicket_eq ht]; rfl

section offers
variable {e : ParkedPop} {t : Ticket}

/-- The owner's oldest parked pop is offered the ticket just put. -/
theorem Chip.stacked_offer_own (hp : (c.parkedOf q).head? = some e) :
    (c.stacked q i).offer (.stack q) = some ⟨i, c.stack q, e, .own⟩ :=
  Chip.offer_own hp (c.stacked_stack q i)

/-- The oldest thief is offered the ticket just put on an empty stack. -/
theorem Chip.stacked_offer_first (hs : c.stack q = []) (hp : c.parkedOf q = []) (ha : (c.pc q).params.stealable = true)
    (ht : c.ticket i = some t) (hpin : t.pin = none) (he : c.oldestThief q = some e) :
    (c.stacked q i).offer (.stack q) = some ⟨i, [], e, .stolen q⟩ := by
  refine Chip.offer_stolen hp ha ?_ ?_ he
  · rw [Chip.stacked_stack, hs]; rfl
  · rw [Chip.stacked_pinned, Chip.pinned_of_ticket ht, hpin]; rfl

/-- The oldest thief is offered the ticket at the bottom, below the one just put. -/
theorem Chip.stacked_offer_bottom {above : List SlotNo} {j : SlotNo} (hs : c.stack q = above ++ [j]) (hp : c.parkedOf q = [])
    (ha : (c.pc q).params.stealable = true) (hj : c.pinned j = false) (he : c.oldestThief q = some e) :
    (c.stacked q i).offer (.stack q) = some ⟨j, i :: above, e, .stolen q⟩ := by
  refine Chip.offer_stolen hp ha ?_ ?_ he
  · rw [Chip.stacked_stack, hs]; rfl
  · rw [Chip.stacked_pinned, hj]

/-- Nobody may take the bottom ticket, whether it is the one just put or one below it. -/
theorem Chip.stacked_offer_none (hp : c.parkedOf q = []) (ht : c.ticket i = some t)
    (h : (c.pc q).params.stealable = false ∨ c.oldestThief q = none ∨ (c.stack q = [] ∧ t.pin ≠ none) ∨
      ∃ l j, c.stack q = l ++ [j] ∧ c.pinned j = true) : (c.stacked q i).offer (.stack q) = none := by
  refine Chip.offer_none hp ?_
  rcases h with h | h | ⟨hs, hpin⟩ | ⟨l, j, hs, hj⟩
  · exact .inl h
  · exact .inr (.inl h)
  · refine .inr (.inr (.inr ⟨[], i, by rw [Chip.stacked_stack, hs]; rfl, ?_⟩))
    rw [Chip.stacked_pinned, Chip.pinned_of_ticket ht, Option.isSome_iff_ne_none]
    exact hpin
  · exact .inr (.inr (.inr ⟨i :: l, j, by rw [Chip.stacked_stack, hs]; rfl, by rw [Chip.stacked_pinned, hj]⟩))

end offers

end stacked

/-! ## PLACE on the stack of an ATTACHED port -/

@[simp] theorem Chip.dropPlace_stack (c : Chip) (src : PlaceSender) (q : Port) : (c.dropPlace src).stack q = c.stack q := by
  cases src <;> rfl

@[simp] theorem Chip.dropPlace_events (c : Chip) (src : PlaceSender) : (c.dropPlace src).wires.events = c.wires.events := by
  cases src <;> rfl

@[simp] theorem Chip.dropPlace_landing (c : Chip) (src : PlaceSender) (r : RunList) : (c.dropPlace src).landing r = c.landing r := by
  cases src <;> rfl

@[simp] theorem Chip.dropPlace_stacked_offer (c : Chip) (src : PlaceSender) (q : Port) (i : SlotNo) (r : RunList) :
    ((c.dropPlace src).stacked q i).offer r = (c.stacked q i).offer r := by
  cases src <;> rfl

/-- A PLACE is taken off its channel before an offer is carried out or after it. -/
theorem Chip.dropPlace_carryOut (c : Chip) (src : PlaceSender) (r : RunList) (o : Offer) :
    (c.dropPlace src).carryOut r o = (c.carryOut r o).dropPlace src := by
  have hc : (c.dropPlace src).parentCancelling o.slot = c.parentCancelling o.slot := by cases src <;> rfl
  cases h : c.parentCancelling o.slot
  · rw [Chip.carryOut_served h, Chip.carryOut_served (hc.trans h)]
    cases src <;> cases r <;> cases o.source <;> rfl
  · rw [Chip.carryOut_retired h, Chip.carryOut_retired (hc.trans h)]
    cases src <;> cases r <;> rfl

theorem Chip.carryOut_left (c : Chip) (r : RunList) (o : Offer) : (c.carryOut r o).rqc.left = c.rqc.left := by
  unfold Chip.carryOut
  dsimp only
  split
  · cases r <;> rfl
  · cases r <;> cases o.source <;> rfl

theorem Chip.carryOut_rqcAttached (c : Chip) (r : RunList) (o : Offer) (q : Port) :
    (c.carryOut r o).rqcAttached q = c.rqcAttached q := by
  simp only [Chip.rqcAttached, Chip.attached, Chip.pc, (c.carryOut_step r o).pcs, Chip.carryOut_left]

theorem Chip.carryOut_stackHeld (c : Chip) (r : RunList) (o : Offer) (q : Port) : (c.carryOut r o).stackHeld q = c.stackHeld q := by
  simp only [Chip.stackHeld, Chip.pushHold, Chip.pc, (c.carryOut_step r o).pcs]

theorem Chip.carryOut_places (c : Chip) (r : RunList) (o : Offer) (src : PlaceSender) :
    (c.carryOut r o).wires.places src = c.wires.places src := by
  rw [c.carryOut_step r o]
  cases src <;> rfl

section place
variable {s : State} {src : PlaceSender} {i : SlotNo} {q : Port} {rest : List PlaceMsg}

/-- A PLACE that lands on a stack which no PUSH holds (R31). -/
theorem exec_place_stack (hr : s.chip.rst = false) (hm : s.chip.wires.places src = ⟨i, .stack q⟩ :: rest)
    (ha : s.chip.rqcAttached q = true) (hh : s.chip.stackHeld q = false) :
    exec (.place src) s =
      .next ⟨s.pending, ((s.chip.dropPlace src).placeOnStack q i).raiseReleased src (.stack q)⟩ := by
  have hl : s.chip.landing (.stack q) = .stack q := if_pos ha
  have hf : takePlace src s.chip = ((s.chip.dropPlace src).placeOnStack q i).raiseReleased src (.stack q) := by
    simp only [takePlace, hm, hl, Chip.listHeld, hh, Bool.false_eq_true, if_false, Chip.placeAt, Chip.dropPlace_landing]
  show s.run (takePlace src) = _
  rw [State.run_of_not_rst hr, hf]

/-- A PLACE on a stack with nothing to offer: the ticket stays there. -/
theorem exec_place_alone (hr : s.chip.rst = false) (hm : s.chip.wires.places src = ⟨i, .stack q⟩ :: rest)
    (ha : s.chip.rqcAttached q = true) (hh : s.chip.stackHeld q = false) (ho : (s.chip.stacked q i).offer (.stack q) = none)
    {t : Ticket} (ht : s.chip.ticket i = some t) :
    exec (.place src) s = .next { s with chip := { s.chip with
      tks := { s.chip.tks with slots := s.chip.tks.slots.set i.val ⟨(s.chip.slot i).gen, some t.queued⟩ i.isLt }
      rqc := { s.chip.rqc with runStacks := s.chip.rqc.runStacks.set q (i :: s.chip.stack q) }
      wires := { (s.chip.dropPlace src).wires with
        events := s.chip.wires.events.set q (s.chip.wires.events.get q ++
          ((if (s.chip.stack q).isEmpty then [.workReady] else []) ++ releasedBy src)) } } } := by
  have ht' : (s.chip.dropPlace src).ticket i = some t := by cases src <;> exact ht
  rw [exec_place_stack hr hm ha hh, Chip.placeOnStack_alone src ((Chip.dropPlace_stacked_offer ..).trans ho), Chip.stacked_eq ht']
  cases src <;> rfl

/-- A PLACE on an empty stack whose ticket is offered at once. -/
theorem exec_place_offered (hr : s.chip.rst = false) (hm : s.chip.wires.places src = ⟨i, .stack q⟩ :: rest)
    (ha : s.chip.rqcAttached q = true) (hh : s.chip.stackHeld q = false) (hs : s.chip.stack q = []) {o : Offer}
    (ho : (s.chip.stacked q i).offer (.stack q) = some o) (hrest : o.rest = []) :
    exec (.place src) s = .next ⟨s.pending,
      ((((s.chip.carryOut (.stack q) o)).updTicket i Ticket.queued).dropPlace src).raiseEach q (releasedBy src)⟩ := by
  rw [exec_place_stack hr hm ha hh,
    Chip.placeOnStack_offered src ((Chip.dropPlace_stack ..).trans hs) ((Chip.dropPlace_stacked_offer ..).trans ho) hrest,
    Chip.carryOut_updTicket i (f := Ticket.queued) (fun _ => rfl), Chip.dropPlace_carryOut]
  cases src <;> rfl

/-- A PLACE on an empty stack whose ticket is taken at once by a parked pop. -/
theorem exec_place_served (hr : s.chip.rst = false) (hm : s.chip.wires.places src = ⟨i, .stack q⟩ :: rest)
    (ha : s.chip.rqcAttached q = true) (hh : s.chip.stackHeld q = false) (hs : s.chip.stack q = []) {e : ParkedPop} {so : Source}
    (ho : (s.chip.stacked q i).offer (.stack q) = some ⟨i, [], e, so⟩) {t : Ticket} (ht : s.chip.ticket i = some t)
    (hc : s.chip.parentCancelling i = false) :
    exec (.place src) s = .next { s with chip := { s.chip with
      tks := { s.chip.tks with slots := s.chip.tks.slots.set i.val ⟨(s.chip.slot i).gen, some t.queued⟩ i.isLt }
      rqc := ((s.chip.dropParked e).noteSource e.port so).rqc
      wires := { (s.chip.dropPlace src).wires with
        takes := s.chip.wires.takes ++ [⟨i, e.port, e.tag, so⟩]
        events := s.chip.wires.events.set q (s.chip.wires.events.get q ++ releasedBy src) } } } := by
  let c1 : Chip := ((s.chip.dropParked e).noteSource e.port so).sendTake ⟨i, e.port, e.tag, so⟩
  have hc1 : s.chip.carryOut (.stack q) ⟨i, [], e, so⟩ = c1 := by
    rw [Chip.carryOut_served hc, Chip.setRunList, Chip.setStack_self hs]
  have ht1 : c1.ticket i = some t := by cases so <;> exact ht
  rw [exec_place_offered hr hm ha hh hs ho rfl, hc1, Chip.updTicket_eq ht1]
  cases src <;> cases so <;> rfl

/-- A PLACE on an empty stack whose ticket is retired at the take (R60). -/
theorem exec_place_retired (hr : s.chip.rst = false) (hm : s.chip.wires.places src = ⟨i, .stack q⟩ :: rest)
    (ha : s.chip.rqcAttached q = true) (hh : s.chip.stackHeld q = false) (hs : s.chip.stack q = []) {e : ParkedPop} {so : Source}
    (ho : (s.chip.stacked q i).offer (.stack q) = some ⟨i, [], e, so⟩) {t : Ticket} (ht : s.chip.ticket i = some t)
    (hc : s.chip.parentCancelling i = true) :
    exec (.place src) s = .next { s with chip := { s.chip with
      tks := { s.chip.tks with slots := s.chip.tks.slots.set i.val ⟨(s.chip.slot i).gen, some t.queued⟩ i.isLt }
      wires := { (s.chip.dropPlace src).wires with
        retireRqc := s.chip.wires.retireRqc ++ [⟨i, .cancelled, some e.port⟩]
        events := s.chip.wires.events.set q (s.chip.wires.events.get q ++ releasedBy src) } } } := by
  have hc1 : s.chip.carryOut (.stack q) ⟨i, [], e, so⟩ = s.chip.sendRetire .rqc ⟨i, .cancelled, some e.port⟩ := by
    rw [Chip.carryOut_retired hc, Chip.setRunList, Chip.setStack_self hs]
  have ht1 : (s.chip.sendRetire .rqc ⟨i, .cancelled, some e.port⟩).ticket i = some t := ht
  rw [exec_place_offered hr hm ha hh hs ho rfl, hc1, Chip.updTicket_eq ht1]
  cases src <;> rfl

/-- A PLACE on a stack with an offer further down: it comes to what it comes to once that offer has been carried out, without WORK_READY. -/
theorem exec_place_further (hr : s.chip.rst = false) (hm : s.chip.wires.places src = ⟨i, .stack q⟩ :: rest)
    (ha : s.chip.rqcAttached q = true) (hh : s.chip.stackHeld q = false) {above : List SlotNo} {j : SlotNo} {e : ParkedPop} {so : Source}
    (hs : s.chip.stack q = above ++ [j]) (ho : (s.chip.stacked q i).offer (.stack q) = some ⟨j, i :: above, e, so⟩) {u : State}
    (hu : exec (.place src) { s with chip := s.chip.carryOut (.stack q) ⟨j, above, e, so⟩ } = .next u) :
    exec (.place src) s = .next { u with chip := { u.chip with wires := { u.chip.wires with
      events := s.chip.wires.events.set q (s.chip.wires.events.get q ++ releasedBy src) } } } := by
  let c1 := s.chip.carryOut (.stack q) ⟨j, above, e, so⟩
  let v := ((c1.dropPlace src).stacked q i).parkedService (.stack q)
  have hservice : ((s.chip.dropPlace src).stacked q i).parkedService (.stack q) = v := by
    rw [Chip.parkedService_next ((Chip.dropPlace_stacked_offer ..).trans ho) (by simp [Chip.runList, hs]), Chip.carryOut_stacked,
      Chip.dropPlace_carryOut]
  have hevents : v.wires.events = s.chip.wires.events := by
    rw [Chip.parkedService_events]
    exact (Chip.dropPlace_events c1 src).trans (Chip.carryOut_events ..)
  rw [exec_place_stack (s := { s with chip := c1 }) ((s.chip.carryOut_step _ _).rst.trans hr) ((Chip.carryOut_places ..).trans hm)
    ((Chip.carryOut_rqcAttached ..).trans ha) ((Chip.carryOut_stackHeld ..).trans hh), Chip.placeOnStack_eq] at hu
  obtain rfl := Host.Outcome.next.inj hu
  have hne : (s.chip.stack q).isEmpty = false := by simp [hs]
  rw [exec_place_stack hr hm ha hh, Chip.placeOnStack_eq, hservice, Chip.dropPlace_stack, hne, ← hevents]
  rfl

end place

/-! ## A placement at the shared queue tail -/

/-- The record of a ticket placed in the shared queue. -/
def Ticket.unpinned (t : Ticket) : Ticket := { t with state := .queued, pin := none }

/-- Ticket `i` put at the shared queue tail, QUEUED and without its pin, before any parked service (R32). -/
def Chip.enqueued (c : Chip) (i : SlotNo) : Chip := (c.updTicket i Ticket.unpinned).setShared (c.rqc.shared ++ [i])

section enqueued
variable {c : Chip} {i : SlotNo} {t : Ticket}

/-- The hub with the ticket put in the shared queue. -/
theorem Chip.enqueued_eq (ht : c.ticket i = some t) : c.enqueued i = { c with
    tks := { c.tks with slots := c.tks.slots.set i.val ⟨(c.slot i).gen, some t.unpinned⟩ i.isLt }
    rqc := { c.rqc with shared := c.rqc.shared ++ [i] } } := by
  rw [Chip.enqueued, Chip.updTicket_eq ht]; rfl

/-- A placement in the shared queue: the ticket put, the parked service that leads to `d`, and WORK_READY when the queue was empty and is no longer (R32, R37). -/
theorem Chip.placeShared_of_service {d : Chip} (h : (c.enqueued i).parkedService .shared = d) :
    c.placeShared i = if c.rqc.shared.isEmpty && !d.rqc.shared.isEmpty then d.raiseAll d.idlePorts .workReady else d := by
  subst h; rfl

theorem Chip.idlePorts_nodup (c : Chip) : c.idlePorts.Nodup := Port.all_nodup.filter _

/-- With no pop parked, the ports that receive WORK_READY for the shared queue are the ATTACHED ones. -/
theorem Chip.mem_idlePorts (hp : c.rqc.parked = []) (q : Port) : q ∈ c.idlePorts ↔ c.rqcAttached q = true := by
  simp [Chip.idlePorts, Chip.parkedOf, hp, Port.mem_all]

/-- A placement in the shared queue with no pop parked: WORK_READY for every ATTACHED port when the queue was empty. -/
theorem Chip.placeShared_alone (ht : c.ticket i = some t) (hp : c.rqc.parked = []) : c.placeShared i = { c with
    tks := { c.tks with slots := c.tks.slots.set i.val ⟨(c.slot i).gen, some t.unpinned⟩ i.isLt }
    rqc := { c.rqc with shared := c.rqc.shared ++ [i] }
    wires := { c.wires with
      events := .tab fun q =>
        if c.rqc.shared.isEmpty && c.rqcAttached q then c.wires.events.get q ++ [.workReady] else c.wires.events.get q } } := by
  have hp' : (c.enqueued i).rqc.parked = [] := hp
  have hleft : (c.enqueued i).rqc.shared.isEmpty = false := by simp [Chip.enqueued]
  rw [Chip.placeShared_of_service (Chip.parkedService_none (Chip.offer_of_no_parked hp' .shared)), hleft]
  cases c.rqc.shared.isEmpty with
  | true =>
    refine (Chip.raiseAll_eq _ _ _ (Chip.idlePorts_nodup _)).trans ?_
    simp only [Chip.mem_idlePorts hp']
    rw [Chip.enqueued_eq ht]
    rfl
  | false => exact Chip.enqueued_eq ht

/-- A placement in an empty shared queue with a pop parked: the oldest pop takes the ticket at once, or it is retired at the take, and there is no
WORK_READY (R60, R68). -/
theorem Chip.placeShared_offered (ht : c.ticket i = some t) (hs : c.rqc.shared = []) {e : ParkedPop} {es : List ParkedPop}
    (hp : c.rqc.parked = e :: es) : c.placeShared i = { c with
      tks := { c.tks with slots := c.tks.slots.set i.val ⟨(c.slot i).gen, some t.unpinned⟩ i.isLt }
      rqc := if c.parentCancelling i then c.rqc else { c.rqc with parked := es }
      wires := if c.parentCancelling i then { c.wires with retireRqc := c.wires.retireRqc ++ [⟨i, .cancelled, some e.port⟩] }
        else { c.wires with takes := c.wires.takes ++ [⟨i, e.port, e.tag, .shared⟩] } } := by
  let o : Offer := ⟨i, [], e, .shared⟩
  have hl : (c.enqueued i).rqc.shared = [i] := by simp [Chip.enqueued, hs]
  have hservice : (c.enqueued i).parkedService .shared = (c.carryOut .shared o).updTicket i Ticket.unpinned :=
    calc (c.enqueued i).parkedService .shared
      _ = (c.enqueued i).carryOut .shared o := Chip.parkedService_one (r := .shared) hl (Chip.offer_shared hl hp)
      _ = (c.updTicket i Ticket.unpinned).carryOut .shared o := Chip.carryOut_setShared _ _
      _ = (c.carryOut .shared o).updTicket i Ticket.unpinned := Chip.carryOut_updTicket i (f := Ticket.unpinned) (fun _ => rfl) _ _
  have hleft : ((c.carryOut .shared o).updTicket i Ticket.unpinned).rqc.shared = [] := Chip.carryOut_runList _ .shared _
  have hdrop : c.rqc.parked.eraseP (fun x => x.port == e.port && x.tag == e.tag) = es := by simp [hp]
  rw [Chip.placeShared_of_service hservice, hleft, if_neg (by simp)]
  cases hc : c.parentCancelling i with
  | false =>
    have ht1 : ((c.dropParked e).sendTake ⟨i, e.port, e.tag, .shared⟩).ticket i = some t := ht
    rw [Chip.carryOut_served hc, Chip.setRunList, Chip.setShared_self hs]
    refine (Chip.updTicket_eq ht1 _).trans ?_
    simp only [Chip.dropParked, hdrop]
    rfl
  | true =>
    have ht1 : (c.sendRetire .rqc ⟨i, .cancelled, some e.port⟩).ticket i = some t := ht
    rw [Chip.carryOut_retired hc, Chip.setRunList, Chip.setShared_self hs]
    exact Chip.updTicket_eq ht1 _

end enqueued

section placeShared
variable {s : State} {i : SlotNo}

/-- A REQUEUE, when no PUSH holds the shared queue (R114). -/
theorem exec_requeue (hr : s.chip.rst = false) {rest : List SlotNo} (hm : s.chip.wires.requeues = i :: rest) (hh : s.chip.queueHeld = false) :
    exec .requeue s = .next ⟨s.pending,
      ({ s.chip with wires := { s.chip.wires with requeues := rest } } : Chip).placeShared i⟩ := by
  show s.run takeRequeue = _
  rw [State.run_of_not_rst hr]
  simp only [takeRequeue, hm, hh, Bool.false_eq_true, if_false]

/-- A PLACE for the shared queue, or for the stack of a port that is not ATTACHED, when no PUSH holds the shared queue (R32, R33). -/
theorem exec_place_shared (hr : s.chip.rst = false) {src : PlaceSender} {dest : RunList} {rest : List PlaceMsg}
    (hm : s.chip.wires.places src = ⟨i, dest⟩ :: rest) (hd : dest = .shared ∨ ∃ q, dest = .stack q ∧ s.chip.rqcAttached q = false)
    (hh : s.chip.queueHeld = false) : exec (.place src) s = .next ⟨s.pending, (s.chip.dropPlace src).placeShared i⟩ := by
  have hl : s.chip.landing dest = .shared := by
    rcases hd with rfl | ⟨q, rfl, hq⟩
    · rfl
    · exact if_neg (by simp [hq])
  have hf : takePlace src s.chip = (s.chip.dropPlace src).placeShared i := by
    simp only [takePlace, hm, hl, Chip.listHeld, hh, Bool.false_eq_true, if_false, Chip.placeAt, Chip.dropPlace_landing, Chip.raiseReleased]
  show s.run (takePlace src) = _
  rw [State.run_of_not_rst hr, hf]

end placeShared

/-- Settles O16: nothing is offered, so the ticket stays where it is put. -/
theorem placementWithNoPopParked : Obligations.PlacementWithNoPopParked := by
  refine ⟨fun s src i q rest t hr hm ht ha hh hp => ?stack, fun s i t hr ht hh hp => ⟨fun rest hm => ?requeue, fun src dest rest hm hd => ?place⟩⟩
  case stack =>
    have ho : (s.chip.stacked q i).offer (.stack q) = none := Chip.offer_of_no_parked (c := s.chip.stacked q i) hp _
    rw [exec_place_alone hr hm ha hh ho ht, ← List.append_assoc]
    rfl
  case requeue =>
    let c : Chip := { s.chip with wires := { s.chip.wires with requeues := rest } }
    exact (exec_requeue hr hm hh).trans (congrArg (fun d => Host.Outcome.next (State.mk s.pending d)) (Chip.placeShared_alone (c := c) ht hp))
  case place =>
    have ht' : (s.chip.dropPlace src).ticket i = some t := by cases src <;> exact ht
    have hp' : (s.chip.dropPlace src).rqc.parked = [] := by cases src <;> exact hp
    rw [exec_place_shared hr hm hd hh, Chip.placeShared_alone ht' hp']
    cases src <;> rfl

/-- Settles O17: which offer there is, and then that offer carried out. -/
theorem parkedServiceOfAPlacement : Obligations.ParkedServiceOfAPlacement := by
  refine ⟨fun s src i q rest t hr hm ht ha hh =>
      ⟨fun e hs he => ?own, fun e hs hp hable hpin he => ?stolen, fun above j e hs hp hable hj he => ?further, fun hp h => ?alone⟩,
    fun s i t e es hr ht hh hs hp => ⟨fun rest hm => ?requeue, fun src dest rest hm hd => ?place⟩⟩
  case own =>
    have ho := Chip.stacked_offer_own (i := i) he
    rw [hs] at ho
    exact ⟨exec_place_served hr hm ha hh hs ho ht, exec_place_retired hr hm ha hh hs ho ht⟩
  case stolen =>
    have ho := Chip.stacked_offer_first hs hp hable ht hpin he
    exact ⟨exec_place_served hr hm ha hh hs ho ht, exec_place_retired hr hm ha hh hs ho ht⟩
  case further =>
    have ho := Chip.stacked_offer_bottom (i := i) hs hp hable hj he
    refine ⟨fun hc u hu => exec_place_further hr hm ha hh hs ho ?_, fun hc u hu => exec_place_further hr hm ha hh hs ho ?_⟩
    · rw [Chip.carryOut_served hc]; exact hu
    · rw [Chip.carryOut_retired hc]; exact hu
  case alone =>
    exact exec_place_alone hr hm ha hh (Chip.stacked_offer_none hp ht h) ht
  case requeue =>
    let c : Chip := { s.chip with wires := { s.chip.wires with requeues := rest } }
    exact (exec_requeue hr hm hh).trans
      (congrArg (fun d => Host.Outcome.next (State.mk s.pending d)) (Chip.placeShared_offered (c := c) ht hs hp))
  case place =>
    have ht' : (s.chip.dropPlace src).ticket i = some t := by cases src <;> exact ht
    have hs' : (s.chip.dropPlace src).rqc.shared = [] := by cases src <;> exact hs
    have hp' : (s.chip.dropPlace src).rqc.parked = e :: es := by cases src <;> exact hp
    rw [exec_place_shared hr hm hd hh, Chip.placeShared_offered ht' hs' hp']
    cases src <;> rfl

end Sys2Proof.Machine
end

section
/-! The steal settings turned ON: parked service of a stack, and steal searches for the parked pops of a port (O18). -/

namespace Sys2Proof.Machine

/-! ## A notice to the RQC -/

/-- The oldest notice of a port is taken: the others stand. -/
theorem Chip.dropRqcNotice_eq {c : Chip} {p : Port} {n : RqcNotice} {rest : List RqcNotice} (h : c.wires.toRqc.get p = n :: rest) :
    c.dropRqcNotice p = { c with wires := { c.wires with toRqc := c.wires.toRqc.set p rest } } := by
  simp only [Chip.dropRqcNotice, PerPort.upd_eq, h, List.tail_cons]

/-- A notice is taken off its channel before an offer is carried out or after it. -/
theorem Chip.dropRqcNotice_carryOut (c : Chip) (p : Port) (r : RunList) (o : Offer) :
    (c.dropRqcNotice p).carryOut r o = (c.carryOut r o).dropRqcNotice p := by
  have hc : (c.dropRqcNotice p).parentCancelling o.slot = c.parentCancelling o.slot := rfl
  cases h : c.parentCancelling o.slot
  · rw [Chip.carryOut_served h, Chip.carryOut_served (hc.trans h)]
    cases r <;> cases o.source <;> rfl
  · rw [Chip.carryOut_retired h, Chip.carryOut_retired (hc.trans h)]
    cases r <;> rfl

theorem Chip.carryOut_toRqc (c : Chip) (r : RunList) (o : Offer) : (c.carryOut r o).wires.toRqc = c.wires.toRqc := by
  rw [c.carryOut_step r o]

/-! ## STEALABLE_ON (R50) -/

section stealable
variable {s : State} {p : Port} {rest : List RqcNotice}

/-- STEALABLE_ON of a port whose stack no PUSH holds: parked service of that stack. -/
theorem exec_stealableOn (hr : s.chip.rst = false) (hm : s.chip.wires.toRqc.get p = .stealableOn :: rest) (hh : s.chip.stackHeld p = false) :
    exec (.stealableOn p) s = .next ⟨s.pending, (s.chip.dropRqcNotice p).parkedService (.stack p)⟩ := by
  show s.run (takeStealableOn p) = _
  rw [State.run_of_not_rst hr]
  simp only [takeStealableOn, hm, hh, Bool.false_eq_true, if_false]

/-- STEALABLE_ON with nothing to offer takes the notice alone. -/
theorem exec_stealableOn_alone (hr : s.chip.rst = false) (hm : s.chip.wires.toRqc.get p = .stealableOn :: rest)
    (hh : s.chip.stackHeld p = false) (ho : s.chip.offer (.stack p) = none) :
    exec (.stealableOn p) s = .next ⟨s.pending, s.chip.dropRqcNotice p⟩ := by
  rw [exec_stealableOn hr hm hh, Chip.parkedService_none (c := s.chip.dropRqcNotice p) (r := .stack p) ho]

/-- STEALABLE_ON with an offer comes to what it comes to once that offer has been carried out. -/
theorem exec_stealableOn_next (hr : s.chip.rst = false) (hm : s.chip.wires.toRqc.get p = .stealableOn :: rest)
    (hh : s.chip.stackHeld p = false) {o : Offer} (ho : s.chip.offer (.stack p) = some o)
    (hl : (s.chip.stack p).length = o.rest.length + 1) :
    exec (.stealableOn p) s = exec (.stealableOn p) { s with chip := s.chip.carryOut (.stack p) o } := by
  rw [exec_stealableOn hr hm hh, Chip.parkedService_next (c := s.chip.dropRqcNotice p) (r := .stack p) ho hl, Chip.dropRqcNotice_carryOut]
  refine (exec_stealableOn (s := { s with chip := s.chip.carryOut (.stack p) o }) (rest := rest) ?_ ?_ ?_).symm
  · exact (s.chip.carryOut_step _ _).rst.trans hr
  · exact (congrArg (PerPort.get · p) (s.chip.carryOut_toRqc _ _)).trans hm
  · exact (Chip.carryOut_stackHeld ..).trans hh

end stealable

/-! ## Steal searches (R57, R58, R69) -/

theorem Chip.port_of_parkedOf {c : Chip} {p : Port} {e : ParkedPop} {es : List ParkedPop} (h : c.parkedOf p = e :: es) : e.port = p := by
  have he : e ∈ c.parkedOf p := by simp [h]
  simpa [Chip.parkedOf] using (List.mem_filter.mp he).2

/-- The parked pops of a port without its oldest. -/
theorem Chip.parkedOf_dropParked {c : Chip} {e : ParkedPop} {es : List ParkedPop} (h : c.parkedOf e.port = e :: es) :
    (c.dropParked e).parkedOf e.port = es := by
  have hand : (fun x : ParkedPop => x.port == e.port && x.tag == e.tag) = fun x => x.tag == e.tag && x.port == e.port := by
    funext x; exact Bool.and_comm _ _
  calc (c.dropParked e).parkedOf e.port
    _ = (c.rqc.parked.eraseP fun x => x.tag == e.tag && x.port == e.port).filter fun x => x.port == e.port := by rw [← hand]; rfl
    _ = (c.parkedOf e.port).eraseP fun x => x.tag == e.tag := List.eraseP_filter.symm
    _ = es := by simp [h]

/-- The two readings of a victim that is passed over. -/
theorem Chip.passedOver_iff {c : Chip} {v : Port} : c.passedOver v ↔ c.rqcAttached v = false ∨ c.stack v = [] ∨
    (c.pc v).params.stealable = false ∨ ∃ l j, c.stack v = l ++ [j] ∧ c.pinned j = true := by
  rw [Chip.passedOver, exists_comm]

section search
variable {c : Chip} {p v : Port} {i : SlotNo} {above : List SlotNo} {before after : List Port}
  (hv : c.victims p = before ++ v :: after) (hb : ∀ u ∈ before, c.passedOver u) (ha : c.rqcAttached v = true)
  (hable : (c.pc v).params.stealable = true) (hs : c.stack v = above ++ [i]) (hi : c.pinned i = false)
include hv hb ha hable hs hi

/-- A steal search takes the bottom ticket of the first victim it does not pass over. -/
theorem Chip.stealSearch_hit (hc : c.parentCancelling i = false) :
    c.stealSearch p = ((c.setStack v above).moveStealPtr p v, some (i, v)) := by
  rw [Chip.stealSearch, hv, stealFrom_past _ _ hb, stealFrom_first ha hable hs hi hc]

/-- A steal search whose first candidate is under a CANCELLING parent retires it and is then the steal search of the hub as it stands. -/
theorem Chip.stealSearch_retired (hc : c.parentCancelling i = true) :
    c.stealSearch p = ((c.setStack v above).sendRetire .rqc ⟨i, .cancelled, some p⟩).stealSearch p := by
  let d := (c.setStack v above).sendRetire .rqc ⟨i, .cancelled, some p⟩
  have hcand : c.stealCandidate v = some (i, above) := by simp [Chip.stealCandidate, ha, hable, hs, hi]
  have hbd : ∀ u ∈ before, d.passedOver u := by
    intro u hu
    have hne : u ≠ v := by
      rintro rfl
      simp [Chip.stealCandidate_none (hb u hu)] at hcand
    have hst : d.stack u = c.stack u := c.stack_setStack_ne above hne
    have hpass := hb u hu
    unfold Chip.passedOver at hpass ⊢
    rw [hst]
    exact hpass
  have hsearch : searchList (c.stack v).length (.stack v) (·.stealCandidate v) p c =
      searchList (d.stack v).length (.stack v) (·.stealCandidate v) p d := by
    have hd : d.stack v = above := c.stack_setStack_self v above
    rw [hd, hs, List.length_append, List.length_singleton, searchList_retire hcand hc]
    rfl
  have hvd : d.victims p = before ++ v :: after := hv
  show _ = d.stealSearch p
  rw [Chip.stealSearch, Chip.stealSearch, hv, hvd, stealFrom_past _ _ hb, stealFrom_past _ _ hbd]
  simp only [stealFrom, hsearch]

/-- Steal searches for a port's parked pops: the first candidate taken, or retired, and then the searches of the hub as it stands. -/
theorem offerSteals_next {e : ParkedPop} {es : List ParkedPop} (hp : c.parkedOf p = e :: es) :
    offerSteals (c.parkedOf p).length p c =
      offerSteals ((c.carryOut (.stack v) ⟨i, above, e, .stolen v⟩).parkedOf p).length p (c.carryOut (.stack v) ⟨i, above, e, .stolen v⟩) := by
  obtain rfl := Chip.port_of_parkedOf hp
  cases hc : c.parentCancelling i with
  | false =>
    have hleft : (c.carryOut (.stack v) ⟨i, above, e, .stolen v⟩).parkedOf e.port = es := by
      rw [Chip.carryOut_served hc]
      exact Chip.parkedOf_dropParked hp
    rw [hleft, hp, List.length_cons, Chip.carryOut_served hc]
    simp only [offerSteals, hp, List.head?_cons, Chip.stealSearch_hit hv hb ha hable hs hi hc]
    rfl
  | true =>
    have hleft : (c.carryOut (.stack v) ⟨i, above, e, .stolen v⟩).parkedOf e.port = e :: es := by
      rw [Chip.carryOut_retired hc]
      exact hp
    have hsearch : c.stealSearch e.port = (c.carryOut (.stack v) ⟨i, above, e, .stolen v⟩).stealSearch e.port := by
      rw [Chip.stealSearch_retired hv hb ha hable hs hi hc, Chip.carryOut_retired hc]
      rfl
    rw [hleft, hp, List.length_cons]
    simp only [offerSteals, hp, hleft, List.head?_cons, hsearch]

end search

/-- Steal searches offered when every victim is passed over. -/
theorem offerSteals_none {c : Chip} {p : Port} (hb : ∀ u ∈ c.victims p, c.passedOver u) : ∀ n, offerSteals n p c = c
  | 0 => rfl
  | n + 1 => by
    unfold offerSteals
    split
    · rfl
    · rw [Chip.stealSearch, stealFrom_none hb]

/-! ## STEAL_ENABLE_ON (R69) -/

section stealEnable
variable {s : State} {p : Port} {rest : List RqcNotice}

/-- STEAL_ENABLE_ON of a port, when no PUSH holds another port's stack: a search for each parked pop, with the setting still ON (log 16). -/
theorem exec_stealEnableOn (hr : s.chip.rst = false) (hm : s.chip.wires.toRqc.get p = .stealEnableOn :: rest)
    (hh : ∀ q, q ≠ p → s.chip.stackHeld q = false) :
    exec (.stealEnableOn p) s = .next ⟨s.pending,
      if (s.chip.pc p).params.stealEnable then offerSteals (s.chip.parkedOf p).length p (s.chip.dropRqcNotice p)
      else s.chip.dropRqcNotice p⟩ := by
  have hfree : (Port.all.any fun q => q != p && s.chip.stackHeld q) = false := by
    refine Port.any_all_eq_false.mpr fun q => ?_
    by_cases hq : q = p
    · simp [hq]
    · simp [hh q hq]
  show s.run (takeStealEnableOn p) = _
  rw [State.run_of_not_rst hr]
  simp only [takeStealEnableOn, hm, hfree, Bool.false_eq_true, if_false]
  rfl

/-- STEAL_ENABLE_ON that finds a candidate comes to what it comes to once that offer has been carried out. -/
theorem exec_stealEnableOn_next (hr : s.chip.rst = false) (hm : s.chip.wires.toRqc.get p = .stealEnableOn :: rest)
    (hh : ∀ q, q ≠ p → s.chip.stackHeld q = false) (hon : (s.chip.pc p).params.stealEnable = true) {o : Offer} {v : Port}
    (hnext : offerSteals (s.chip.parkedOf p).length p (s.chip.dropRqcNotice p) =
      offerSteals (((s.chip.dropRqcNotice p).carryOut (.stack v) o).parkedOf p).length p ((s.chip.dropRqcNotice p).carryOut (.stack v) o)) :
    exec (.stealEnableOn p) s = exec (.stealEnableOn p) { s with chip := s.chip.carryOut (.stack v) o } := by
  let s1 : State := { s with chip := s.chip.carryOut (.stack v) o }
  have hr1 : s1.chip.rst = false := (s.chip.carryOut_step _ _).rst.trans hr
  have hm1 : s1.chip.wires.toRqc.get p = .stealEnableOn :: rest := (congrArg (PerPort.get · p) (s.chip.carryOut_toRqc _ _)).trans hm
  have hh1 : ∀ q, q ≠ p → s1.chip.stackHeld q = false := fun q hq => (Chip.carryOut_stackHeld ..).trans (hh q hq)
  have hon1 : (s1.chip.pc p).params.stealEnable = true := by
    rw [← hon, Chip.pc, Chip.pc, (s.chip.carryOut_step (.stack v) o).pcs]
  rw [exec_stealEnableOn hr hm hh, exec_stealEnableOn (s := s1) hr1 hm1 hh1, if_pos hon, if_pos hon1, hnext, Chip.dropRqcNotice_carryOut]
  rfl

end stealEnable

/-- Settles O18: an offer carried out, and the notice taken on the hub as it then stands; or the notice alone. -/
theorem stealSettingsTurnedOn : Obligations.StealSettingsTurnedOn := by
  refine ⟨fun s p rest hr hm hh hp => ⟨fun i above e hs hable hi he => ?offered, fun h => ?alone⟩,
    fun s p rest hr hm hh => ⟨fun e es before v after i above hp hon hv hb ha hable hs hi => ?found, fun _ hon hb => ?passed, fun h => ?off⟩⟩
  case offered =>
    have ho := Chip.offer_stolen hp hable hs hi he
    have hnext := exec_stealableOn_next hr hm hh ho (by simp [hs])
    refine ⟨fun hc => ?_, fun hc => ?_⟩
    · rw [hnext, Chip.carryOut_served hc]; rfl
    · rw [hnext, Chip.carryOut_retired hc]; rfl
  case alone =>
    rw [exec_stealableOn_alone hr hm hh (Chip.offer_none hp h), Chip.dropRqcNotice_eq hm]
  case found =>
    have hb' : ∀ u ∈ before, s.chip.passedOver u := fun u hu => Chip.passedOver_iff.mpr (hb u hu)
    have hnext := exec_stealEnableOn_next hr hm hh hon (offerSteals_next (c := s.chip.dropRqcNotice p) hv hb' ha hable hs hi hp)
    obtain rfl := Chip.port_of_parkedOf hp
    refine ⟨fun hc => ?_, fun hc => ?_⟩
    · rw [hnext, Chip.carryOut_served hc]; rfl
    · rw [hnext, Chip.carryOut_retired hc]; rfl
  case passed =>
    have hb' : ∀ u ∈ (s.chip.dropRqcNotice p).victims p, (s.chip.dropRqcNotice p).passedOver u :=
      fun u hu => Chip.passedOver_iff.mpr (hb u hu)
    rw [exec_stealEnableOn hr hm hh, if_pos hon, offerSteals_none hb', Chip.dropRqcNotice_eq hm]
  case off =>
    have hnone : (if (s.chip.pc p).params.stealEnable then offerSteals (s.chip.parkedOf p).length p (s.chip.dropRqcNotice p)
        else s.chip.dropRqcNotice p) = s.chip.dropRqcNotice p := by
      rcases h with h | h
      · simp only [h, Bool.false_eq_true, if_false]
      · rw [h]; exact ite_self _
    rw [exec_stealEnableOn hr hm hh, hnone, Chip.dropRqcNotice_eq hm]

end Sys2Proof.Machine
end

section
/-! The RQC's part of a port's leave: its parked pops removed, its stack transferred (O43). -/

namespace Sys2Proof.Machine

/-- The hub of a port-leave claim before the transfer: `p` is not ATTACHED to the RQC any more, its parked pops and its stack are gone (R35, R71, R126). -/
def Chip.leaveTaken (c : Chip) (p : Port) : Chip :=
  { c.dropRqcNotice p with
    rqc := { c.rqc with
      runStacks := c.rqc.runStacks.set p []
      parked := c.rqc.parked.filter fun e => e.port != p
      left := c.rqc.left.set p true } }

/-- The answers of one port's parked pops are on their way to it, in the order of the entries, and nothing else changes. -/
theorem Chip.answerParked_parkedOf (c d : Chip) (p : Port) (st : Status) : c.answerParked (d.parkedOf p) st = { c with
    wires := { c.wires with
      answers := c.wires.answers.set p (c.wires.answers.get p ++ (d.parkedOf p).map fun e => ⟨none, ⟨e.tag, st, [], none⟩⟩) } } := by
  have hother : ∀ q, q ≠ p → ((d.parkedOf p).filter fun e => e.port == q) = [] := by
    intro q hq
    refine List.filter_eq_nil_iff.mpr fun e he => ?_
    have hep : e.port = p := by simpa [Chip.parkedOf] using (List.mem_filter.mp he).2
    simpa [hep] using hq.symm
  have hown : ((d.parkedOf p).filter fun e => e.port == p) = d.parkedOf p := by
    simp only [Chip.parkedOf, List.filter_filter, Bool.and_self]
  have htab := PerPort.tab_one c.wires.answers p
    (fun q l => l ++ ((d.parkedOf p).filter fun e => e.port == q).map fun e => ⟨none, ⟨e.tag, st, [], none⟩⟩)
    (fun q hq => by simp only [hother q hq, List.map_nil, List.append_nil])
  rw [Chip.answerParked_eq, htab, hown]

section leave
variable {c : Chip} {p : Port} {loss : Bool} {rest : List RqcNotice}

/-- The port-leave claim of a loss: the parked pops are dropped (R71, R134). -/
theorem takePortLeave_loss (hm : c.wires.toRqc.get p = .leave true :: rest) (hh : c.queueHeld = false) :
    takePortLeave p c = (c.leaveTaken p).transfer (c.stack p).reverse := by
  simp only [takePortLeave, hm, hh, Bool.false_eq_true, if_false, if_true]
  rfl

/-- The port-leave claim of a DETACH: the parked pops are answered EMPTY (R71, R131). -/
theorem takePortLeave_detach (hm : c.wires.toRqc.get p = .leave false :: rest) (hh : c.queueHeld = false) :
    takePortLeave p c = ((c.leaveTaken p).answerParked (c.parkedOf p) .empty).transfer (c.stack p).reverse := by
  simp only [takePortLeave, hm, hh, Bool.false_eq_true, if_false, Chip.answerParked_eq]
  rfl

end leave

/-- Settles O43: the claim of a loss, and that of a DETACH with its answers. -/
theorem portLeaveTransfersStack : Obligations.PortLeaveTransfersStack := by
  intro s p loss rest hr hm hh
  have hexec : exec (.portLeaveClaim p) s = .next ⟨s.pending, takePortLeave p s.chip⟩ := State.run_of_not_rst hr
  refine ⟨fun hl => ?loss, fun hl => ?detach⟩
  case loss =>
    subst hl
    rw [hexec, takePortLeave_loss hm hh, Chip.leaveTaken, Chip.dropRqcNotice_eq hm]
    rfl
  case detach =>
    subst hl
    rw [hexec, takePortLeave_detach hm hh, Chip.answerParked_parkedOf, Chip.leaveTaken, Chip.dropRqcNotice_eq hm]
    rfl

end Sys2Proof.Machine
end

section
/-! What a command keeps of the tables: the steal pointers, the parked-pop table, the cancel walk queue, the counts of the Port Controllers (O57, O59). -/

namespace Sys2Proof.Machine

/-! ## The tables in range, block by block -/

/-- The parked-pop table within its capacities (R66). -/
def Rqc.parkedFit (r : Rqc) : Prop := r.parked.length ≤ 16 ∧ ∀ p, (r.parked.filter fun e => e.port == p).length ≤ 4

/-- No steal pointer names its own port (R56). -/
def Rqc.ptrsRight (r : Rqc) : Prop := ∀ p, r.stealPtr.get p ≠ p

/-- The response credit and the protocol error count at most 255 (R146, R171). -/
def Pc.countsFit (x : Pc) : Prop := x.credit ≤ 255 ∧ x.errors ≤ 255

theorem Chip.tablesInRange_iff (c : Chip) :
    c.tablesInRange ↔ c.rqc.parkedFit ∧ c.frt.walks.length ≤ 8 ∧ ∀ p, (c.pc p).countsFit :=
  ⟨fun ⟨hall, hport, hwalks, hcounts⟩ => ⟨⟨hall, hport⟩, hwalks, hcounts⟩,
    fun ⟨⟨hall, hport⟩, hwalks, hcounts⟩ => ⟨hall, hport, hwalks, hcounts⟩⟩

/-- A change of the Run Queue Controller that keeps its tables in range. -/
structure Rqc.keeps (r r' : Rqc) : Prop where
  ptrs   : r.ptrsRight → r'.ptrsRight
  parked : r.parkedFit → r'.parkedFit

theorem Rqc.keeps.trans {r r' r'' : Rqc} (h1 : r.keeps r') (h2 : r'.keeps r'') : r.keeps r'' :=
  ⟨h2.ptrs ∘ h1.ptrs, h2.parked ∘ h1.parked⟩

/-- A table with some of its entries gone is within its capacities. -/
theorem Rqc.parkedFit.sublist {r r' : Rqc} (hs : r'.parked.Sublist r.parked) (h : r.parkedFit) : r'.parkedFit :=
  ⟨hs.length_le.trans h.1, fun p => (hs.filter _).length_le.trans (h.2 p)⟩

/-- Parked entries may leave the table, and the lists may change as they will. -/
theorem Rqc.keeps.of_sublist {r r' : Rqc} (hp : r'.stealPtr = r.stealPtr) (hs : r'.parked.Sublist r.parked) : r.keeps r' :=
  ⟨fun h p => by rw [hp]; exact h p, .sublist hs⟩

theorem Port.next_ne (p : Port) : p.next ≠ p := by cases p <;> decide

/-- The port after a victim, the thief passed over, is not the thief (R56). -/
theorem stealAfter_ne (p v : Port) : stealAfter p v ≠ p := by
  unfold stealAfter
  split
  · rename_i h; rw [h]; exact Port.next_ne p
  · assumption

/-- A steal pointer is set to another port. -/
theorem Rqc.keeps.setPtr {r r' : Rqc} {p q : Port} (hq : q ≠ p) (hp : r'.stealPtr = r.stealPtr.set p q) (hs : r'.parked = r.parked) :
    r.keeps r' := by
  refine ⟨fun h u => ?_, .sublist (hs ▸ .refl _)⟩
  rw [hp, PerPort.get_set]
  split
  · rename_i hu; rw [hu]; exact hq
  · exact h u

/-- A pop is parked where the park decision finds room (R66). -/
theorem Rqc.parkedFit.snoc {r r' : Rqc} {e : ParkedPop} (h : r.parkedFit) (hp : (r.parked.filter fun x => x.port == e.port).length < 4)
    (hall : r.parked.length < 16) (hs : r'.parked = r.parked ++ [e]) : r'.parkedFit := by
  refine ⟨by simpa [hs] using hall, fun q => ?_⟩
  rw [hs, List.filter_append, List.length_append]
  by_cases hq : e.port = q
  · subst hq; simpa using hp
  · simpa [hq] using h.2 q

/-! ## What a claim of a request keeps -/

/-- The input buffer and the two counts of a Port Controller as they were. -/
structure Pc.claimKeeps (x y : Pc) : Prop where
  buffer : y.buffer = x.buffer
  credit : y.credit = x.credit
  errors : y.errors = x.errors

theorem Pc.claimKeeps.refl (x : Pc) : x.claimKeeps x := ⟨rfl, rfl, rfl⟩

theorem Pc.claimKeeps.trans {x y z : Pc} (h1 : x.claimKeeps y) (h2 : y.claimKeeps z) : x.claimKeeps z :=
  ⟨h2.buffer.trans h1.buffer, h2.credit.trans h1.credit, h2.errors.trans h1.errors⟩

theorem Pc.claimKeeps.countsFit {x y : Pc} (h : x.claimKeeps y) (hx : x.countsFit) : y.countsFit := by
  unfold Pc.countsFit; rw [h.credit, h.errors]; exact hx

/-- What the claims of a request keep: the Link Engines, the input buffers and the counts stand as they were, the tables stay in range. -/
structure Chip.claimKeeps (c d : Chip) : Prop where
  links : d.links = c.links
  pc    : ∀ q, (c.pc q).claimKeeps (d.pc q)
  rqc   : c.rqc.keeps d.rqc
  walks : c.frt.walks.length ≤ 8 → d.frt.walks.length ≤ 8

theorem Chip.claimKeeps.trans {c d e : Chip} (h1 : c.claimKeeps d) (h2 : d.claimKeeps e) : c.claimKeeps e :=
  ⟨h2.links.trans h1.links, fun q => (h1.pc q).trans (h2.pc q), h1.rqc.trans h2.rqc, h2.walks ∘ h1.walks⟩

/-- A change of the Run Queue Controller alone, of what a claim keeps. -/
theorem Chip.claimKeeps.of_rqc {c d : Chip} (hr : c.rqc.keeps d.rqc) (hl : d.links = c.links := by rfl) (hp : d.pcs = c.pcs := by rfl)
    (hw : d.frt.walks = c.frt.walks := by rfl) : c.claimKeeps d :=
  ⟨hl, fun q => by rw [Chip.pc, Chip.pc, hp]; exact .refl _, hr, fun h => hw ▸ h⟩

/-- A change of none of what a claim keeps. -/
theorem Chip.claimKeeps.same {c d : Chip} (hl : d.links = c.links := by rfl) (hp : d.pcs = c.pcs := by rfl)
    (hr : d.rqc = c.rqc := by rfl) (hw : d.frt.walks = c.frt.walks := by rfl) : c.claimKeeps d :=
  .of_rqc (hr ▸ ⟨id, id⟩) hl hp hw

theorem Chip.claimKeeps.refl (c : Chip) : c.claimKeeps c := .same

/-- A change of one Port Controller. -/
theorem Chip.claimKeeps.updPc {c d : Chip} (h : c.claimKeeps d) (p : Port) {f : Pc → Pc}
    (hf : ∀ x, Pc.claimKeeps x (f x) := by exact fun _ => ⟨rfl, rfl, rfl⟩) : c.claimKeeps (d.updPc p f) := by
  refine h.trans ⟨rfl, fun q => ?_, ⟨id, id⟩, id⟩
  by_cases hq : q = p
  · subst hq; rw [Chip.pc_updPc_self]; exact hf _
  · rw [Chip.pc_updPc_ne d f hq]; exact .refl _

/-! ### The end of a claim -/

section ends
variable {c d : Chip} (h : c.claimKeeps d)
include h

theorem Chip.claimKeeps.advance (b : Block) (p : Port) (k : Current) (st : Stage) : c.claimKeeps (d.advance b p k st) :=
  h.updPc p

theorem Chip.claimKeeps.endAt (b : Block) (p : Port) (k : Current) : c.claimKeeps (d.endAt b p k) :=
  h.updPc p

theorem Chip.claimKeeps.setStage (p : Port) (st : Stage) : c.claimKeeps (d.setStage p st) := h.updPc p

theorem Chip.claimKeeps.respond (p : Port) (tag : Tag) (st : Status) (body : List Word) : c.claimKeeps (d.respond p tag st body) :=
  h.updPc p

theorem Chip.claimKeeps.finish (p : Port) (tag : Tag) (st : Status) (body : List Word) : c.claimKeeps (d.finish p tag st body) :=
  Chip.claimKeeps.respond (d := d.taken p) (h.updPc p) p tag st body

end ends

theorem Pc.foldl_enqueue_keeps : ∀ (l : List Answer) (x : Pc), x.claimKeeps (l.foldl (fun x a => x.enqueue a.resp) x)
  | [], x => .refl x
  | a :: l, x => Pc.claimKeeps.trans (y := x.enqueue a.resp) ⟨rfl, rfl, rfl⟩ (Pc.foldl_enqueue_keeps l _)

theorem Chip.claimKeeps.answer {c d : Chip} (hd : c.claimKeeps d) (h : Hand) (o : Option Block) (p : Port) (r : Response) :
    c.claimKeeps (d.answer h o p r) := by
  cases h with
  | later => exact hd.trans .same
  | now =>
    have hdel : c.claimKeeps (d.deliver o p) :=
      Chip.claimKeeps.updPc (hd.trans .same) p fun x => Pc.foldl_enqueue_keeps _ x
    exact hdel.updPc p

theorem Chip.claimKeeps.reply {c d : Chip} (hd : c.claimKeeps d) (h : Hand) (b : Block) (p : Port) (k : Current) (st : Status)
    (body : List Word) (i : Option Handle) : c.claimKeeps (d.reply h b p k st body i) :=
  (hd.endAt b p k).answer h _ p _

theorem Chip.lowerCreation_keeps (c : Chip) : c.claimKeeps c.lowerCreation :=
  .same (Chip.lowerCreation_links c) (Chip.lowerCreation_pcs c) (Chip.lowerCreation_rqc c) (by rw [Chip.lowerCreation_frt])

theorem Chip.claimKeeps.replyCounted {c d : Chip} (hd : c.claimKeeps d) (h : Hand) (b : Block) (p : Port) (k : Current) (st : Status)
    (body : List Word) (i : Option Handle) : c.claimKeeps (d.replyCounted h b p k st body i) :=
  (hd.reply h b p k st body i).trans (Chip.lowerCreation_keeps _)

/-! ### The RQC's operations -/

theorem Chip.setRunList_keeps (c : Chip) (r : RunList) (l : List SlotNo) : c.claimKeeps (c.setRunList r l) := by
  cases r <;> exact .of_rqc (.of_sublist rfl (.refl _))

theorem Chip.dropParked_keeps (c : Chip) (e : ParkedPop) : c.claimKeeps (c.dropParked e) :=
  .of_rqc (.of_sublist rfl List.eraseP_sublist)

theorem Chip.moveStealPtr_keeps (c : Chip) (p v : Port) : c.claimKeeps (c.moveStealPtr p v) :=
  .of_rqc (.setPtr (stealAfter_ne p v) rfl rfl)

theorem Chip.noteSource_keeps (c : Chip) (p : Port) (src : Source) : c.claimKeeps (c.noteSource p src) := by
  cases src with
  | stolen v => exact c.moveStealPtr_keeps p v
  | own => exact .refl c
  | shared => exact .refl c

theorem Chip.sendRetire_keeps (c : Chip) (src : RetireSender) (m : RetireMsg) : c.claimKeeps (c.sendRetire src m) := by
  cases src <;> exact .same

theorem Chip.carryOut_keeps (c : Chip) (r : RunList) (o : Offer) : c.claimKeeps (c.carryOut r o) := by
  have hlist := c.setRunList_keeps r o.rest
  unfold Chip.carryOut
  dsimp only
  split
  · exact hlist.trans (Chip.sendRetire_keeps _ _ _)
  · exact ((hlist.trans (Chip.dropParked_keeps _ _)).trans (Chip.noteSource_keeps _ _ _)).trans .same

theorem serve_keeps : ∀ (n : Nat) (r : RunList) (c : Chip), c.claimKeeps (serve n r c)
  | 0, _, c => .refl c
  | n + 1, r, c => by
    unfold serve
    split
    · exact .refl c
    · exact (c.carryOut_keeps r _).trans (serve_keeps n r _)

theorem Chip.parkedService_keeps (c : Chip) (r : RunList) : c.claimKeeps (c.parkedService r) := serve_keeps _ r c

theorem Chip.raiseAll_keeps (k : EventKind) : ∀ (ps : List Port) (c : Chip), c.claimKeeps (c.raiseAll ps k)
  | [], c => .refl c
  | p :: ps, c => Chip.claimKeeps.trans (d := c.raise p k) .same (Chip.raiseAll_keeps k ps _)

theorem Chip.placeOnStack_keeps (c : Chip) (q : Port) (i : SlotNo) : c.claimKeeps (c.placeOnStack q i) := by
  have hput : c.claimKeeps ((c.setStack q (i :: c.stack q)).updTicket i fun t => { t with state := .queued }) :=
    (c.setRunList_keeps (.stack q) _).trans .same
  have hserved := hput.trans (Chip.parkedService_keeps _ (.stack q))
  unfold Chip.placeOnStack
  dsimp only
  split
  · exact hserved.trans .same
  · exact hserved

theorem Chip.placeShared_keeps (c : Chip) (i : SlotNo) : c.claimKeeps (c.placeShared i) := by
  have hput : c.claimKeeps ((c.setShared (c.rqc.shared ++ [i])).updTicket i fun t => { t with state := .queued, pin := none }) :=
    (c.setRunList_keeps .shared _).trans .same
  have hserved := hput.trans (Chip.parkedService_keeps _ .shared)
  unfold Chip.placeShared
  dsimp only
  split
  · exact hserved.trans (Chip.raiseAll_keeps _ _ _)
  · exact hserved

theorem Chip.placeAt_keeps (c : Chip) (dest : RunList) (i : SlotNo) : c.claimKeeps (c.placeAt dest i) := by
  unfold Chip.placeAt
  split
  · exact c.placeOnStack_keeps _ i
  · exact c.placeShared_keeps i

theorem Chip.transfer_keeps : ∀ (is : List SlotNo) (c : Chip), c.claimKeeps (c.transfer is)
  | [], c => .refl c
  | i :: is, c => (c.placeShared_keeps i).trans (Chip.transfer_keeps is _)

theorem searchList_keeps : ∀ (n : Nat) (r : RunList) (cand : Chip → Option (SlotNo × List SlotNo)) (rel : Port) (c : Chip),
    c.claimKeeps (searchList n r cand rel c).1
  | 0, _, _, _, c => .refl c
  | n + 1, r, cand, rel, c => by
    unfold searchList
    split
    · exact .refl c
    · dsimp only
      split
      · exact ((c.setRunList_keeps r _).trans (Chip.sendRetire_keeps _ .rqc _)).trans (searchList_keeps n r cand rel _)
      · exact c.setRunList_keeps r _

theorem stealFrom_keeps (p : Port) : ∀ (vs : List Port) (c : Chip), c.claimKeeps (stealFrom p vs c).1
  | [], c => .refl c
  | v :: vs, c => by
    have hsearch := searchList_keeps (c.stack v).length (.stack v) (·.stealCandidate v) p c
    unfold stealFrom
    split
    · rename_i c1 i hs
      rw [hs] at hsearch
      exact hsearch.trans (Chip.moveStealPtr_keeps _ p v)
    · rename_i c1 hs
      rw [hs] at hsearch
      exact hsearch.trans (stealFrom_keeps p vs c1)

theorem Chip.stealSearch_keeps (c : Chip) (p : Port) : c.claimKeeps (c.stealSearch p).1 := stealFrom_keeps p _ c

theorem Chip.release_keeps (c : Chip) (n : FrameNo) (rel : Option Port) : c.claimKeeps (c.release n rel) :=
  .same (c.release_step n rel).links (c.release_step n rel).pcs (c.release_step n rel).rqc (release_walks _ n rel c)

/-! ### The claims of the RQC's requests -/

theorem pushStage_keeps (p : Port) (h : Hand) (k : Current) (r : PushReq) (c : Chip) : c.claimKeeps (pushStage p h k r c) := by
  have hc := Chip.claimKeeps.refl c
  unfold pushStage
  dsimp only
  split
  · split
    · exact hc.reply ..
    · exact hc.reply ..
    · exact Chip.claimKeeps.advance (d := c.raiseCreation) .same ..
  · split
    · exact hc.advance ..
    · exact hc.replyCounted ..
  · split
    · exact hc.advance ..
    · exact hc.replyCounted ..
  · split
    · exact hc.replyCounted ..
    · exact hc.advance ..
  · split
    · exact hc
    · split
      · exact hc.replyCounted ..
      · exact hc.advance ..
  · split
    · exact hc.replyCounted ..
    · rename_i i _
      exact Chip.claimKeeps.advance (d := c.allocate p i _) .same ..
  · split
    · exact hc.advance ..
    · rename_i f _
      split
      · exact Chip.claimKeeps.replyCounted (d := c.undoPush _) .same ..
      · exact Chip.claimKeeps.advance (d := c.registerChild f) .same ..
  · exact (c.placeAt_keeps _ _).replyCounted ..
  · exact hc

theorem pushClaim_keeps (p : Port) (h : Hand) (k : Current) (c : Chip) : c.claimKeeps (pushClaim p h k c) := by
  unfold pushClaim
  split
  · exact pushStage_keeps ..
  · exact .refl c

/-- The park decision parks a POP only where the table has room for it (R66). -/
theorem Chip.park_keeps (c : Chip) (h : Hand) (p : Port) (k : Current) (n : Nat) : c.claimKeeps (c.park h p k n) := by
  have hc := Chip.claimKeeps.refl c
  unfold Chip.park
  split
  · exact hc.reply ..
  · split
    · rename_i hroom
      have hpark : ∀ e : ParkedPop, e.port = p → c.claimKeeps (c.setParked (c.rqc.parked ++ [e])) := fun e he =>
        .of_rqc ⟨id, fun hfit => hfit.snoc (e := e) (by rw [he]; exact hroom.1) hroom.2 rfl⟩
      exact (hpark _ rfl).endAt ..
    · exact hc.reply ..

theorem Chip.popSearch_keeps (c : Chip) (h : Hand) (p : Port) (k : Current) (n : Nat) : c.claimKeeps (c.popSearch h p k n) := by
  have own := searchList_keeps (c.stack p).length (.stack p) (·.headOf (.stack p)) p c
  unfold Chip.popSearch
  split
  · rename_i c1 i h1
    rw [h1] at own
    exact Chip.claimKeeps.endAt (d := c1.sendTake _) (own.trans .same) ..
  · rename_i c1 h1
    rw [h1] at own
    have shared := own.trans (searchList_keeps c1.rqc.shared.length .shared (·.headOf .shared) p c1)
    split
    · rename_i c2 i h2
      rw [h2] at shared
      exact Chip.claimKeeps.endAt (d := c2.sendTake _) (shared.trans .same) ..
    · rename_i c2 h2
      rw [h2] at shared
      have stolen := shared.trans (c2.stealSearch_keeps p)
      split
      · split
        · rename_i c3 i v h3
          rw [h3] at stolen
          exact Chip.claimKeeps.endAt (d := c3.sendTake _) (stolen.trans .same) ..
        · rename_i c3 h3
          rw [h3] at stolen
          exact stolen.trans (c3.park_keeps h p k n)
      · exact shared.trans (c2.park_keeps h p k n)

theorem popClaim_keeps (p : Port) (h : Hand) (k : Current) (c : Chip) : c.claimKeeps (popClaim p h k c) := by
  have hc := Chip.claimKeeps.refl c
  unfold popClaim
  split
  · unfold popStage
    split
    · split
      · exact hc.reply ..
      · exact hc.advance ..
      · exact hc.advance ..
    · split
      · exact hc
      · split
        · exact c.popSearch_keeps ..
        · exact hc.reply ..
    · exact hc
  · exact hc

/-! ### The claims of the gated requests -/

theorem gatedStage_keeps (b : Block) (p : Port) (h : Hand) (k : Current) {act : Chip → Chip} (c : Chip) (hact : c.claimKeeps (act c)) :
    c.claimKeeps (gatedStage b p h k act c) := by
  have hc := Chip.claimKeeps.refl c
  unfold gatedStage
  split
  · split
    · exact hc.reply ..
    · exact hc.advance ..
    · exact hc.advance ..
  · split
    · exact hc.advance ..
    · exact hc.reply ..
  · exact hact
  · exact hc

theorem Chip.asHolder_keeps (c : Chip) (h : Hand) (p : Port) (k : Current) (i : Handle) {act : RunEntry → Chip}
    (hact : ∀ e, c.claimKeeps (act e)) : c.claimKeeps (c.asHolder h p k i act) := by
  have hc := Chip.claimKeeps.refl c
  unfold Chip.asHolder
  split
  · exact hc
  · split
    · split
      · exact hact _
      · exact hc.reply ..
    · exact hc.reply ..

theorem completeClaim_keeps (p : Port) (h : Hand) (k : Current) (c : Chip) : c.claimKeeps (completeClaim p h k c) := by
  unfold completeClaim
  split
  · rename_i i result _
    exact gatedStage_keeps _ _ _ _ c (c.asHolder_keeps h p k i fun e =>
      Chip.claimKeeps.reply (d := (c.removeEntry e).sendRetire .ltu ⟨i.slot, result, some p⟩) .same ..)
  · exact .refl c

theorem renewClaim_keeps (p : Port) (h : Hand) (k : Current) (c : Chip) : c.claimKeeps (renewClaim p h k c) := by
  unfold renewClaim
  split
  · rename_i i _
    exact gatedStage_keeps _ _ _ _ c (c.asHolder_keeps h p k i fun e =>
      Chip.claimKeeps.reply (d := c.setLease i.slot (c.leaseTicks p)) .same ..)
  · exact .refl c

theorem yieldClaim_keeps (p : Port) (h : Hand) (k : Current) (c : Chip) : c.claimKeeps (yieldClaim p h k c) := by
  unfold yieldClaim
  split
  · rename_i i _
    exact gatedStage_keeps _ _ _ _ c (c.asHolder_keeps h p k i fun e =>
      Chip.claimKeeps.reply (d := ((c.removeEntry e).advanceGen i.slot).sendPlace .ltu ⟨i.slot, .stack p⟩) .same ..)
  · exact .refl c

/-! ### The claims of the FRT's requests -/

theorem Chip.openWith_keeps (c : Chip) (p : Port) (r : OpenReq) (n : FrameNo) (i : SlotNo) : c.claimKeeps (c.openWith p r n i) := by
  unfold Chip.openWith
  cases r.current <;> exact .same

theorem openClaim_keeps (p : Port) (h : Hand) (k : Current) (c : Chip) : c.claimKeeps (openClaim p h k c) := by
  have hc := Chip.claimKeeps.refl c
  unfold openClaim
  split
  · unfold openStage
    split
    · split
      · exact hc.reply ..
      · exact hc.reply ..
      · exact Chip.claimKeeps.advance (d := c.raiseCreation) .same ..
    · split
      · exact hc.advance ..
      · exact hc.replyCounted ..
    · split
      · split
        · exact hc.advance ..
        · exact hc.replyCounted ..
      · exact hc.advance ..
    · split
      · split
        · exact hc.advance ..
        · exact hc.replyCounted ..
      · exact hc.advance ..
    · split
      · exact hc.replyCounted ..
      · split
        · exact hc.replyCounted ..
        · exact (c.openWith_keeps ..).replyCounted ..
    · exact hc
  · exact hc

theorem Chip.setFrame_keeps (c : Chip) (i : FrameNo) (x : Frame) : c.claimKeeps (c.setFrame i x) := .same

theorem closeClaim_keeps (p : Port) (h : Hand) (k : Current) (c : Chip) : c.claimKeeps (closeClaim p h k c) := by
  have hc := Chip.claimKeeps.refl c
  unfold closeClaim
  split
  · rename_i f _
    refine gatedStage_keeps _ _ _ _ c ?_
    unfold Chip.closeFrame
    split
    · have hclosed : c.claimKeeps (c.setFrameState f.index .closed) := c.setFrame_keeps ..
      dsimp only
      split
      · exact (hclosed.trans (Chip.release_keeps ..)).reply ..
      · exact hclosed.reply ..
    · exact hc.reply ..
    · exact hc.reply ..
    · exact hc.reply ..
  · exact hc

/-- A walk is queued only where the queue has room for it (R97). -/
theorem Chip.queueWalk_keeps {c : Chip} (hw : c.frt.walks.length < 8) (p : Port) (tag : Tag) (f : FrameRef) :
    c.claimKeeps (c.queueWalk p tag f) :=
  ⟨rfl, fun q => .refl _, ⟨id, id⟩, fun _ => by simpa [Chip.queueWalk] using hw⟩

theorem cancelClaim_keeps (p : Port) (h : Hand) (k : Current) (c : Chip) : c.claimKeeps (cancelClaim p h k c) := by
  have hc := Chip.claimKeeps.refl c
  unfold cancelClaim
  split
  · rename_i f _
    refine gatedStage_keeps _ _ _ _ c ?_
    unfold Chip.cancelFrame
    split
    · exact hc.reply ..
    · exact hc.reply ..
    · split
      · exact ((c.setFrame_keeps ..).trans (Chip.release_keeps ..)).reply ..
      · split
        · exact hc.reply ..
        · rename_i hroom
          have hw : c.frt.walks.length < 8 := Nat.not_le.mp fun hle => hroom (.inl hle)
          exact ((c.setFrame_keeps ..).trans (Chip.queueWalk_keeps (c := c.setFrame ..) hw ..)).endAt ..
  · exact hc

theorem queryFrameClaim_keeps (p : Port) (h : Hand) (k : Current) (c : Chip) : c.claimKeeps (queryFrameClaim p h k c) := by
  have hc := Chip.claimKeeps.refl c
  unfold queryFrameClaim
  split
  · unfold Chip.queryFrame
    split
    · exact hc.reply ..
    · exact hc.reply ..
  · exact hc

/-! ### The claims of the TKS's and the HCU's requests -/

theorem queryTicketClaim_keeps (p : Port) (h : Hand) (k : Current) (c : Chip) : c.claimKeeps (queryTicketClaim p h k c) := by
  unfold queryTicketClaim
  split
  · exact (Chip.claimKeeps.refl c).reply ..
  · exact .refl c

theorem configureGlobalClaim_keeps (p : Port) (h : Hand) (k : Current) (c : Chip) : c.claimKeeps (configureGlobalClaim p h k c) := by
  have hc := Chip.claimKeeps.refl c
  unfold configureGlobalClaim
  split
  · rename_i items _
    split
    · exact hc.reply ..
    · split
      · exact hc.reply ..
      · split
        · exact Chip.claimKeeps.reply (d := { c with hcu := items.foldl Hcu.write c.hcu }) .same ..
        · exact hc.reply ..
  · exact hc

theorem startClaim_keeps (p : Port) (h : Hand) (k : Current) (c : Chip) : c.claimKeeps (startClaim p h k c) := by
  unfold startClaim
  split
  · split
    · exact Chip.claimKeeps.reply (d := { c with hcu := { c.hcu with state := .running, completionDue := false } }) .same ..
    · exact (Chip.claimKeeps.refl c).reply ..
  · exact .refl c

theorem Chip.beginQuiesce_keeps (c : Chip) : c.claimKeeps c.beginQuiesce := by
  unfold Chip.beginQuiesce
  dsimp only
  split <;> exact .same

theorem quiesceClaim_keeps (p : Port) (h : Hand) (k : Current) (c : Chip) : c.claimKeeps (quiesceClaim p h k c) := by
  have hc := Chip.claimKeeps.refl c
  unfold quiesceClaim
  split
  · split
    · split
      · exact c.beginQuiesce_keeps.reply ..
      · exact hc.reply ..
      · exact hc.reply ..
    · exact hc.reply ..
  · exact hc

/-! ### The claims of a Port Controller -/

theorem fetchClaim_keeps (p : Port) (c : Chip) : c.claimKeeps (fetchClaim p c) := by
  unfold fetchClaim
  split
  · exact ((Chip.claimKeeps.refl c).updPc p).finish ..
  · exact .refl c

theorem Chip.notifyRqc_keeps (c : Chip) (p : Port) (m : RqcNotice) : c.claimKeeps (c.notifyRqc p m) := .same

theorem Chip.notifyLtu_keeps (c : Chip) (p : Port) (m : LtuNotice) : c.claimKeeps (c.notifyLtu p m) := .same

theorem Chip.passOn_keeps (c : Chip) (p : Port) (old new : Params) : c.claimKeeps (c.passOn p old new) := by
  unfold Chip.passOn
  dsimp only
  split <;> split <;> exact .same

theorem configurePortClaim_keeps (p : Port) (c : Chip) : c.claimKeeps (configurePortClaim p c) := by
  have hc := Chip.claimKeeps.refl c
  unfold configurePortClaim
  split
  · split
    · exact hc.finish ..
    · split
      · exact hc.finish ..
      · split
        · exact ((hc.updPc p).trans (Chip.passOn_keeps ..)).finish ..
        · exact hc.finish ..
  · exact hc

theorem Chip.raisePeerChange_keeps (c : Chip) (p : Port) : c.claimKeeps (c.raisePeerChange p) := Chip.raiseAll_keeps _ _ c

theorem attachClaim_keeps (p : Port) (c : Chip) : c.claimKeeps (attachClaim p c) := by
  have hc := Chip.claimKeeps.refl c
  unfold attachClaim
  split
  · split
    · exact hc.finish ..
    · exact ((hc.setStage p .attaching).updPc p).trans (.trans (Chip.notifyRqc_keeps ..) (Chip.notifyLtu_keeps ..))
  · split
    · exact ((hc.updPc p).trans (Chip.raisePeerChange_keeps ..)).finish ..
    · exact hc
  · exact hc

theorem detachClaim_keeps (p : Port) (c : Chip) : c.claimKeeps (detachClaim p c) := by
  have hc := Chip.claimKeeps.refl c
  unfold detachClaim
  split
  · split
    · exact (hc.setStage p .holdWait).trans (Chip.notifyLtu_keeps ..)
    · exact hc.finish ..
  · exact hc

theorem echoClaim_keeps (p : Port) (c : Chip) : c.claimKeeps (echoClaim p c) := by
  unfold echoClaim
  split
  · exact (Chip.claimKeeps.refl c).finish ..
  · exact .refl c

theorem Chip.putGather_keeps (c : Chip) (p : Port) (g : Gather) : c.claimKeeps (c.putGather p g) := by
  have hc := Chip.claimKeeps.refl c
  unfold Chip.putGather
  split
  · exact (hc.updPc p).respond ..
  · exact hc.updPc p

theorem gatherPart_keeps (p : Port) (hub : Bool) (b : QueryPart) (c : Chip) : c.claimKeeps (gatherPart p hub b c) := by
  unfold gatherPart
  split
  · split
    · exact c.putGather_keeps p _
    · exact .refl c
  · exact .refl c

/-! ### The claims of a row, one after another -/

theorem repeatClaim_keeps {f : Chip → Chip} (hf : ∀ c : Chip, c.claimKeeps (f c)) : ∀ (n : Nat) (c : Chip), c.claimKeeps (repeatClaim n f c)
  | 0, c => .refl c
  | n + 1, c => (hf c).trans (repeatClaim_keeps hf n (f c))

theorem Chip.goOn_keeps (c : Chip) (row : ReqRow) (b : Block) (p : Port) {f : Current → Chip → Chip} (hf : ∀ (k : Current) (c : Chip), c.claimKeeps (f k c)) :
    c.claimKeeps (c.goOn row b p f) := by
  unfold Chip.goOn
  split
  · split
    · exact hf _ c
    · exact .refl c
  · exact .refl c

theorem Chip.nextClaim_keeps (c : Chip) (row : ReqRow) (b : Block) (p : Port) {f : Current → Chip → Chip}
    (hf : ∀ (k : Current) (c : Chip), c.claimKeeps (f k c)) : c.claimKeeps (c.nextClaim row b p f) := by
  unfold Chip.nextClaim
  split
  · exact c.goOn_keeps row b p hf
  · unfold Chip.takeUp
    split
    · split
      · exact hf _ c
      · exact .refl c
    · exact .refl c

theorem foldl_gatherPart_keeps (p : Port) (hub : Bool) : ∀ (parts : List QueryPart) (c : Chip),
    c.claimKeeps (parts.foldl (fun c b => gatherPart p hub b c) c)
  | [], c => .refl c
  | b :: parts, c => (gatherPart_keeps p hub b c).trans (foldl_gatherPart_keeps p hub parts _)

theorem requestRun_keeps {i : Instr} {row : ReqRow} {b : Block} {p : Port} {e : Extent} {n : Nat} {f : Hand → Current → Chip → Chip}
    (hi : requestRun i = some (row, b, p, e, n, f)) (h : Hand) (k : Current) (c : Chip) : c.claimKeeps (f h k c) := by
  cases i <;> simp only [requestRun, Option.some.injEq, Prod.mk.injEq, reduceCtorEq] at hi <;> obtain ⟨_, _, _, _, _, rfl⟩ := hi
  case push => exact pushClaim_keeps ..
  case pop => exact popClaim_keeps ..
  case complete => exact completeClaim_keeps ..
  case renew => exact renewClaim_keeps ..
  case yield => exact yieldClaim_keeps ..
  case openFrame => exact openClaim_keeps ..
  case closeFrame => exact closeClaim_keeps ..
  case cancelFrame => exact cancelClaim_keeps ..
  case queryFrame => exact queryFrameClaim_keeps ..
  case queryTicket => exact queryTicketClaim_keeps ..
  case configureGlobal => exact configureGlobalClaim_keeps ..
  case start => exact startClaim_keeps ..
  case quiesce => exact quiesceClaim_keeps ..

theorem ownRun_keeps {i : Instr} {row : ReqRow} {p : Port} {f : Chip → Chip} (hi : ownRun i = some (row, p, f)) (c : Chip) :
    c.claimKeeps (f c) := by
  cases i <;> simp only [ownRun, Option.some.injEq, Prod.mk.injEq, reduceCtorEq] at hi <;> obtain ⟨_, _, rfl⟩ := hi
  case fetchEvents => exact fetchClaim_keeps ..
  case configurePort => exact configurePortClaim_keeps ..
  case attach => exact attachClaim_keeps ..
  case detach => exact detachClaim_keeps ..
  case nopEcho => exact echoClaim_keeps ..

/-- The command of a request row: claims alone, or the dispatch of its row and then claims. -/
theorem effect_requestRow_claimKeeps {i : Instr} {row : ReqRow} {p : Port} (hi : requestRow i = some (row, p)) (c : Chip) :
    c.claimKeeps (effect i c) ∨ (c.dispatchHead row p).claimKeeps (effect i c) := by
  rcases requestRow_cases hi with ⟨b, e, n, f, hrun⟩ | ⟨f, hrun⟩ | ⟨hub, parts, g, hrun⟩
  · have hf := requestRun_keeps hrun
    have hrest : ∀ d : Chip, d.claimKeeps (repeatClaim n (fun c => c.goOn row b p (f .now)) (d.nextClaim row b p (f .now))) := fun d =>
      (d.nextClaim_keeps row b p (hf .now)).trans (repeatClaim_keeps (fun c => c.goOn_keeps row b p (hf .now)) n _)
    rw [effect_of_requestRun hrun]
    cases e with
    | dispatch => exact .inr (.refl _)
    | claim h => exact .inl (c.nextClaim_keeps row b p (hf h))
    | whole =>
      dsimp only [Chip.runRequest]
      split
      · exact .inl (hrest c)
      · exact .inr (hrest _)
  · rw [effect_of_ownRun hrun]
    exact .inr (ownRun_keeps hrun _)
  · rw [effect_of_gatherRun hrun]
    cases g with
    | dispatch => exact .inr (.refl _)
    | part b => exact .inl (gatherPart_keeps p hub b c)
    | whole =>
      dsimp only [Chip.runGather]
      split
      · exact .inl (foldl_gatherPart_keeps p hub parts c)
      · exact .inr (foldl_gatherPart_keeps p hub parts _)

/-! ## What every command keeps of the tables -/

/-- A change that keeps the tables in range. -/
structure Chip.keepsTables (c d : Chip) : Prop where
  rqc    : c.rqc.keeps d.rqc
  walks  : c.frt.walks.length ≤ 8 → d.frt.walks.length ≤ 8
  counts : ∀ q, (c.pc q).countsFit → (d.pc q).countsFit

theorem Chip.keepsTables.trans {c d e : Chip} (h1 : c.keepsTables d) (h2 : d.keepsTables e) : c.keepsTables e :=
  ⟨h1.rqc.trans h2.rqc, h2.walks ∘ h1.walks, fun q => h2.counts q ∘ h1.counts q⟩

theorem Chip.claimKeeps.tables {c d : Chip} (h : c.claimKeeps d) : c.keepsTables d :=
  ⟨h.rqc, h.walks, fun q => (h.pc q).countsFit⟩

theorem Chip.keepsTables.refl (c : Chip) : c.keepsTables c := (Chip.claimKeeps.refl c).tables

/-- A change of nothing but Link Engines and what no capacity bounds. -/
theorem Chip.keepsTables.same {c d : Chip} (hp : d.pcs = c.pcs := by rfl) (hr : d.rqc = c.rqc := by rfl)
    (hw : d.frt.walks = c.frt.walks := by rfl) : c.keepsTables d :=
  ⟨hr ▸ ⟨id, id⟩, fun h => hw ▸ h, fun q h => by rw [Chip.pc, hp]; exact h⟩

theorem Chip.keepsTables.updPc {c d : Chip} (h : c.keepsTables d) (p : Port) {f : Pc → Pc}
    (hf : ∀ x, Pc.countsFit x → (f x).countsFit := by exact fun _ hx => hx) : c.keepsTables (d.updPc p f) := by
  refine h.trans ⟨⟨id, id⟩, id, fun q hq => ?_⟩
  by_cases hqp : q = p
  · subst hqp; rw [Chip.pc_updPc_self]; exact hf _ hq
  · rw [Chip.pc_updPc_ne d f hqp]; exact hq

theorem Chip.keepsTables.updLink {c d : Chip} (h : c.keepsTables d) (p : Port) (f : Link → Link) : c.keepsTables (d.updLink p f) :=
  h.trans .same

/-! ### Requests at the Port Controller -/

theorem Pc.record_keeps (x : Pc) (k : EventKind) : x.claimKeeps (x.record k) := by
  unfold Pc.record
  split <;> exact ⟨rfl, rfl, rfl⟩

/-- The protocol error count saturates at 255 (R146). -/
theorem Pc.protocolError_countsFit (x : Pc) (h : x.countsFit) : x.protocolError.countsFit :=
  (Pc.record_keeps _ .protocol).countsFit ⟨h.1, Nat.min_le_right _ _⟩

theorem Pc.dispatch_countsFit (k : Packet) (x : Pc) (h : x.countsFit) : (x.dispatch k).countsFit := by
  unfold Pc.dispatch
  dsimp only
  split
  · rename_i r _
    cases r <;> exact h
  · exact h
  · exact Pc.protocolError_countsFit _ h

theorem Chip.dispatchHead_keepsTables (c : Chip) (row : ReqRow) (p : Port) : c.keepsTables (c.dispatchHead row p) := by
  have hc := Chip.keepsTables.refl c
  unfold Chip.dispatchHead
  split
  · exact hc
  · rename_i k _ _
    split
    · exact (hc.updPc p (Pc.dispatch_countsFit k)).updLink p _
    · exact hc

theorem effect_requestRow_keepsTables {i : Instr} {row : ReqRow} {p : Port} (hi : requestRow i = some (row, p)) (c : Chip) :
    c.keepsTables (effect i c) := by
  rcases effect_requestRow_claimKeeps hi c with h | h
  · exact h.tables
  · exact (c.dispatchHead_keepsTables row p).trans h.tables

theorem takeArrival_keepsTables (p : Port) (c : Chip) : c.keepsTables (takeArrival p c) := by
  unfold takeArrival
  split
  · split
    · have hc : c.keepsTables (c.dropReport p) := .same
      unfold Chip.arrive
      split
      · exact hc.updPc p Pc.protocolError_countsFit
      · split
        · exact (hc.updPc p Pc.protocolError_countsFit).updLink p _
        · split
          · exact (hc.updPc p Pc.protocolError_countsFit).updLink p _
          · exact hc.updPc p
    · exact .refl c
  · exact .refl c

theorem takeSend_keepsTables (p : Port) (c : Chip) : c.keepsTables (takeSend p c) := by
  have hc := Chip.keepsTables.refl c
  unfold takeSend
  split
  · exact hc
  · split
    · exact (hc.updPc p (by exact fun x hx => ⟨(Nat.sub_le x.credit 1).trans hx.1, hx.2⟩)).updLink p _
    · exact hc

theorem takeAnswer_keepsTables (p : Port) (tag : Tag) (c : Chip) : c.keepsTables (takeAnswer p tag c) := by
  unfold takeAnswer
  split
  · exact Chip.keepsTables.updPc .same p
  · exact .refl c

/-- The response credit saturates at 255 (R171). -/
theorem takeCredit_keepsTables (p : Port) (c : Chip) : c.keepsTables (takeCredit p c) := by
  unfold takeCredit
  split
  · split
    · exact Chip.keepsTables.updPc (d := c.dropReport p) .same p fun x hx => ⟨Nat.min_le_right _ _, hx.2⟩
    · exact .refl c
  · exact .refl c

/-! ### The messages between the blocks -/

theorem takePlace_keeps (src : PlaceSender) (c : Chip) : c.claimKeeps (takePlace src c) := by
  have hdrop : c.claimKeeps (c.dropPlace src) := by cases src <;> exact .same
  have hreleased : ∀ (d : Chip) (r : RunList), d.claimKeeps (d.raiseReleased src r) := fun d r => by
    cases src <;> cases r <;> exact .same
  unfold takePlace
  split
  · exact .refl c
  · split
    · exact .refl c
    · exact (hdrop.trans (Chip.placeAt_keeps ..)).trans (hreleased _ _)

theorem takeRequeue_keeps (c : Chip) : c.claimKeeps (takeRequeue c) := by
  unfold takeRequeue
  split
  · exact .refl c
  · rename_i i rest _
    split
    · exact .refl c
    · exact Chip.claimKeeps.trans (d := { c with wires := { c.wires with requeues := rest } }) .same (Chip.placeShared_keeps ..)

theorem Chip.requeueDecision_keeps (c : Chip) (i : SlotNo) (n : Nat) : c.claimKeeps (c.requeueDecision i n) := by
  unfold Chip.requeueDecision
  split
  · exact .same
  · split <;> exact .same

theorem Chip.enterTake_keeps (c : Chip) (m : TakeMsg) (t : Ticket) : c.claimKeeps (c.enterTake m t) := by
  unfold Chip.enterTake
  dsimp only
  split <;> exact .same

theorem takeHandOver_keeps (c : Chip) : c.claimKeeps (takeHandOver c) := by
  unfold takeHandOver
  split
  · exact .refl c
  · rename_i m rest _
    have hdrop : c.claimKeeps { c with wires := { c.wires with takes := rest } } := .same
    dsimp only
    split
    · exact hdrop
    · split
      · exact hdrop.trans (Chip.enterTake_keeps ..)
      · exact hdrop.trans .same
      · exact hdrop.trans (Chip.requeueDecision_keeps ..)

theorem Chip.freeSlot_keeps (c : Chip) (i : SlotNo) : c.claimKeeps (c.freeSlot i) :=
  .same (c.freeSlot_step i).links (c.freeSlot_step i).pcs (c.freeSlot_step i).rqc (by rw [Chip.freeSlot_frt])

theorem takeRetire_keeps (src : RetireSender) (c : Chip) : c.claimKeeps (takeRetire src c) := by
  have hdrop : c.claimKeeps (c.dropRetire src) := by cases src <;> exact .same
  unfold takeRetire
  split
  · exact .refl c
  · rename_i m _ _
    have hfreed := hdrop.trans ((c.dropRetire src).freeSlot_keeps m.slot)
    unfold Chip.retireTicket
    dsimp only
    split
    · exact hfreed.trans .same
    · exact hfreed

theorem takeChildEnd_keeps (c : Chip) : c.claimKeeps (takeChildEnd c) := by
  unfold takeChildEnd
  split
  · exact .refl c
  · rename_i m rest _
    have hcount : c.claimKeeps (({ c with wires := { c.wires with childEnds := rest } } : Chip).countEnd m.frame.index m.outcome) := .same
    unfold Chip.endChild
    dsimp only
    split
    · exact hcount.trans (Chip.release_keeps ..)
    · exact hcount

theorem takeWalkStep_keepsTables (c : Chip) : c.keepsTables (takeWalkStep c) := by
  unfold takeWalkStep
  split
  · exact .refl c
  · rename_i w ws hw
    split
    · exact .refl c
    · rename_i r todo _
      split
      · exact .refl c
      · have hlist := (c.setRunList_keeps r ((c.runList r).filter fun i => !c.names i w.frame)).tables
        dsimp only
        rw [Chip.retireWalked_eq]
        exact hlist.trans ⟨⟨id, id⟩, fun h => by simpa [hw] using h, fun _ => id⟩

theorem Chip.clearWalkPending_keepsTables (c : Chip) (f : FrameRef) : c.keepsTables (c.clearWalkPending f) := by
  unfold Chip.clearWalkPending
  split <;> exact .same

theorem takeWalkEnd_keepsTables (c : Chip) : c.keepsTables (takeWalkEnd c) := by
  unfold takeWalkEnd
  split
  · exact .refl c
  · rename_i w ws hw
    split
    · have hgone : c.keepsTables { c with frt := { c.frt with walks := ws } } :=
        ⟨⟨id, id⟩, fun h => by rw [hw] at h; exact (Nat.le_succ _).trans h, fun _ => id⟩
      have hanswer : ∀ d : Chip, d.keepsTables
          (if w.answer then d.sendAnswer (some .frt) w.port ⟨w.tag, .ok, countBody w.removed, none⟩ else d) := fun d => by
        split <;> exact .same
      have hended := (hgone.trans (hanswer _)).trans (Chip.clearWalkPending_keepsTables _ w.frame)
      dsimp only
      split
      · exact hended.trans .same
      · exact hended
    · exact .refl c

theorem takeFrtNotice_keepsTables (p : Port) (c : Chip) : c.keepsTables (takeFrtNotice p c) := by
  unfold takeFrtNotice
  split
  · exact ⟨⟨id, id⟩, fun h => by simpa using h, fun _ => id⟩
  · exact .refl c

/-! ### The RQC's notices and its parked pops -/

theorem Chip.dropRqcNotice_keeps (c : Chip) (p : Port) : c.claimKeeps (c.dropRqcNotice p) := .same

theorem takeStealableOn_keeps (p : Port) (c : Chip) : c.claimKeeps (takeStealableOn p c) := by
  unfold takeStealableOn
  split
  · split
    · exact .refl c
    · exact (c.dropRqcNotice_keeps p).trans (Chip.parkedService_keeps ..)
  · exact .refl c

theorem offerSteals_keeps : ∀ (n : Nat) (p : Port) (c : Chip), c.claimKeeps (offerSteals n p c)
  | 0, _, c => .refl c
  | n + 1, p, c => by
    have hsearch := c.stealSearch_keeps p
    unfold offerSteals
    split
    · exact .refl c
    · rename_i e _
      split
      · rename_i c1 i v hs
        rw [hs] at hsearch
        have htaken : c.claimKeeps ((c1.dropParked e).sendTake ⟨i, p, e.tag, .stolen v⟩) :=
          (hsearch.trans (c1.dropParked_keeps e)).trans .same
        exact htaken.trans (offerSteals_keeps n p _)
      · rename_i c1 hs
        rw [hs] at hsearch
        exact hsearch

theorem takeStealEnableOn_keeps (p : Port) (c : Chip) : c.claimKeeps (takeStealEnableOn p c) := by
  unfold takeStealEnableOn
  split
  · split
    · exact .refl c
    · dsimp only
      split
      · exact (c.dropRqcNotice_keeps p).trans (offerSteals_keeps ..)
      · exact c.dropRqcNotice_keeps p
  · exact .refl c

theorem takeParkTimeout_keeps (p : Port) (tag : Tag) (c : Chip) : c.claimKeeps (takeParkTimeout p tag c) := by
  unfold takeParkTimeout
  split
  · split
    · exact (c.dropParked_keeps _).trans .same
    · exact .refl c
  · exact .refl c

/-- The answers of parked pops are messages alone. -/
theorem Chip.answerParked_keeps (c : Chip) (es : List ParkedPop) (st : Status) : c.claimKeeps (c.answerParked es st) := by
  rw [Chip.answerParked_eq]; exact .same

theorem takePortLeave_keeps (p : Port) (c : Chip) : c.claimKeeps (takePortLeave p c) := by
  unfold takePortLeave
  split
  · rename_i loss _ _
    split
    · exact .refl c
    · have hgone : ∀ d : Chip, d.claimKeeps (d.setParked (d.rqc.parked.filter fun e => e.port != p)) := fun d =>
        .of_rqc (.of_sublist rfl List.filter_sublist)
      have hleft : c.claimKeeps { c.dropRqcNotice p with rqc := { (c.dropRqcNotice p).rqc with left := c.rqc.left.set p true } } :=
        .of_rqc (.of_sublist rfl (.refl _))
      have hempty : ∀ d : Chip, d.claimKeeps (d.setStack p []) := fun d => d.setRunList_keeps (.stack p) []
      dsimp only
      split
      · exact ((hleft.trans (hgone _)).trans (hempty _)).trans (Chip.transfer_keeps ..)
      · exact (((hleft.trans (hgone _)).trans (Chip.answerParked_keeps ..)).trans (hempty _)).trans (Chip.transfer_keeps ..)
  · exact .refl c

theorem takeSetupNotice_keeps (c : Chip) : c.claimKeeps (takeSetupNotice c) := by
  unfold takeSetupNotice
  split
  · exact .refl c
  · have hempty : c.claimKeeps (({ c with wires := { c.wires with setup := c.wires.setup - 1 } } : Chip).setParked []) :=
      .of_rqc (.of_sublist rfl (List.nil_sublist _))
    exact hempty.trans (Chip.answerParked_keeps ..)

/-! ### The running table -/

theorem Chip.loseEntry_keeps (c : Chip) (e : RunEntry) : c.claimKeeps (c.loseEntry e) :=
  Chip.claimKeeps.trans (d := c.removeEntry e) .same (Chip.requeueDecision_keeps ..)

theorem Chip.loseEntries_keeps : ∀ (es : List RunEntry) (c : Chip), c.claimKeeps (c.loseEntries es)
  | [], c => .refl c
  | e :: es, c => (c.loseEntry_keeps e).trans (Chip.loseEntries_keeps es _)

theorem takeLeaseExpiry_keeps (i : SlotNo) (c : Chip) : c.claimKeeps (takeLeaseExpiry i c) := by
  unfold takeLeaseExpiry
  split
  · split
    · exact (c.loseEntry_keeps _).trans .same
    · exact .refl c
  · exact .refl c

theorem takeLossClaim_keeps (p : Port) (c : Chip) : c.claimKeeps (takeLossClaim p c) := by
  unfold takeLossClaim
  split
  · split
    · exact .refl c
    · have hmarked : c.claimKeeps ((c.dropLtuNotice p).setDeparted p (some .lost)) := .same
      exact hmarked.trans (Chip.loseEntries_keeps ..)
  · exact .refl c

theorem Chip.beginLeave_keeps (c : Chip) (p : Port) : c.claimKeeps (c.beginLeave p) := by
  have hleft := ((Chip.claimKeeps.refl c).setStage p .leaving).updPc p (f := fun x => { x with leave := .detach, events := .none }.evalWake)
  exact (hleft.trans (e := Chip.dropEvents _ p) .same).trans (Chip.notifyRqc_keeps ..)

theorem takeHoldCheck_keeps (p : Port) (c : Chip) : c.claimKeeps (takeHoldCheck p c) := by
  have hdrop : c.claimKeeps (c.dropLtuNotice p) := .same
  have hmark : c.claimKeeps ((c.dropLtuNotice p).setDeparted p (some .detaching)) := .same
  unfold takeHoldCheck
  split
  · dsimp only
    split
    · split
      · exact hdrop.finish ..
      · exact hdrop
    · split
      · exact hmark.trans (Chip.beginLeave_keeps ..)
      · exact hmark
  · exact .refl c

/-! ### The ports -/

/-- A steal pointer is set to the port after its own by an ATTACH (R56, R127). -/
theorem takeAttachRqc_keeps (p : Port) (c : Chip) : c.claimKeeps (takeAttachRqc p c) := by
  unfold takeAttachRqc
  split
  · exact .of_rqc (.setPtr (Port.next_ne p) rfl rfl)
  · exact .refl c

theorem takeAttachLtu_keeps (p : Port) (c : Chip) : c.claimKeeps (takeAttachLtu p c) := by
  unfold takeAttachLtu
  split
  · exact .same
  · exact .refl c

theorem takeDetachEnd_keeps (p : Port) (c : Chip) : c.claimKeeps (takeDetachEnd p c) := by
  have hanswered : ∀ d : Chip, d.claimKeeps (d.answerDetach p) := fun d => by
    unfold Chip.answerDetach
    split
    · exact (Chip.claimKeeps.refl d).finish ..
    · exact .refl d
  unfold takeDetachEnd
  split
  · exact ((Chip.claimKeeps.updPc (d := c.dropEvents p) .same p).trans (Chip.raisePeerChange_keeps ..)).trans (hanswered _)
  · exact .refl c

theorem takeEvent_keeps (p : Port) (k : EventKind) (c : Chip) : c.claimKeeps (takeEvent p k c) := by
  unfold takeEvent
  split
  · exact Chip.claimKeeps.updPc .same p fun x => x.record_keeps k
  · exact .refl c

/-- A link up sets both counts to 0 (R124). -/
theorem takeLinkUp_keepsTables (p : Port) (c : Chip) : c.keepsTables (takeLinkUp p c) := by
  unfold takeLinkUp
  split
  · exact (Chip.keepsTables.updPc (d := c.dropReport p) .same p fun _ _ => ⟨Nat.zero_le _, Nat.zero_le _⟩).updLink p _
  · exact .refl c

theorem takePortLoss_keepsTables (p : Port) (c : Chip) : c.keepsTables (takePortLoss p c) := by
  have hclaim : ∀ d : Chip, d.keepsTables (d.claimLoss p) := fun d => by
    unfold Chip.claimLoss
    split <;> exact .same
  unfold takePortLoss
  split
  · have hdrop : c.keepsTables (c.dropReport p) := .same
    exact ((hdrop.trans (hclaim _)).trans .same).updPc p
  · exact .refl c

theorem takePortLossEnd_keepsTables (p : Port) (c : Chip) : c.keepsTables (takePortLossEnd p c) := by
  unfold takePortLossEnd
  split
  · split
    · exact Chip.keepsTables.updPc (d := c.sendFrtNotice p) .same p
    · exact .refl c
  · split
    · exact (Chip.keepsTables.updPc (d := c.dropEvents p) .same p).trans (Chip.raisePeerChange_keeps ..).tables
    · exact .refl c
  · exact .refl c

theorem takeLinkDown_keepsTables (p : Port) (c : Chip) : c.keepsTables (takeLinkDown p c) := by
  have hc := Chip.keepsTables.refl c
  unfold takeLinkDown
  split
  · split
    · have hdrop : c.keepsTables (c.dropReport p) := .same
      unfold Chip.beginLinkDown
      split
      · exact (hdrop.updPc p).updPc p
      · exact hdrop.updPc p
    · exact hc
  · split
    · exact Chip.keepsTables.updPc (d := (c.notifyRqc p (.leave true)).notifyLtu p .loss) .same p
    · exact hc
  · split
    · exact hc.updPc p
    · exact hc
  · split
    · exact Chip.keepsTables.updPc (d := c.sendFrtNotice p) .same p
    · exact hc
  · split
    · exact hc.updPc p
    · exact hc
  · exact hc

/-! ### Hub Control and the clock -/

theorem takeCheck_keeps (c : Chip) : c.claimKeeps (takeCheck c) := by
  unfold takeCheck
  split <;> exact .same

theorem takeCompletion_keeps (c : Chip) : c.claimKeeps (takeCompletion c) := by
  unfold takeCompletion
  split
  · dsimp only
    split <;> exact .same
  · exact .refl c

/-- A tick boundary changes no entry's port. -/
theorem Chip.tickBoundary_keeps (c : Chip) : c.claimKeeps c.tickBoundary := by
  refine .of_rqc ⟨id, fun h => ⟨by simpa [Chip.tickBoundary] using h.1, fun p => ?_⟩⟩
  have hport := h.2 p
  simpa [Chip.tickBoundary, List.filter_map, Function.comp_def] using hport

theorem takeTick_keeps (c : Chip) : c.claimKeeps (takeTick c) := by
  unfold takeTick
  split
  · exact c.tickBoundary_keeps
  · exact .refl c

theorem Chip.period_keepsTables (c : Chip) : c.keepsTables c.period := (takeTick_keeps c).tables.trans .same

/-! ### Every command -/

/-- Every command other than those of RST_N keeps the tables in range. -/
theorem effect_keepsTables (i : Instr) (c : Chip) : c.keepsTables (effect i c) := by
  cases hrow : requestRow i with
  | some x => exact effect_requestRow_keepsTables (p := x.2) hrow c
  | none =>
    cases hlink : linkRun i with
    | some x => rw [effect_of_linkRun (p := x.1) hlink]; exact (Chip.keepsTables.refl c).updLink ..
    | none =>
      cases i <;> simp only [requestRow, linkRun, reduceCtorEq] at hrow hlink
      case take => exact (takeHandOver_keeps c).tables
      case attachNoticeRqc p => exact (takeAttachRqc_keeps p c).tables
      case attachNoticeLtu p => exact (takeAttachLtu_keeps p c).tables
      case holdCheck p => exact (takeHoldCheck_keeps p c).tables
      case portLeaveClaim p => exact (takePortLeave_keeps p c).tables
      case detachEnd p => exact (takeDetachEnd_keeps p c).tables
      case requestArrival p => exact takeArrival_keepsTables p c
      case sendResponse x =>
        cases x with
        | claim p tag => exact takeAnswer_keepsTables p tag c
        | head p => exact takeSend_keepsTables p c
      case receivedCredit p => exact takeCredit_keepsTables p c
      case place src => exact (takePlace_keeps src c).tables
      case requeue => exact (takeRequeue_keeps c).tables
      case retire src => exact (takeRetire_keeps src c).tables
      case childEnd => exact (takeChildEnd_keeps c).tables
      case cancelWalkStep => exact takeWalkStep_keepsTables c
      case cancelWalkEnd => exact takeWalkEnd_keepsTables c
      case stealableOn p => exact (takeStealableOn_keeps p c).tables
      case stealEnableOn p => exact (takeStealEnableOn_keeps p c).tables
      case leaseExpiry i => exact (takeLeaseExpiry_keeps i c).tables
      case parkTimeout p tag => exact (takeParkTimeout_keeps p tag c).tables
      case pendingEventRecord p k => exact (takeEvent_keeps p k c).tables
      case linkUpReport p => exact takeLinkUp_keepsTables p c
      case portLoss p => exact takePortLoss_keepsTables p c
      case portLossClaimLtu p => exact (takeLossClaim_keeps p c).tables
      case portLossEnd p => exact takePortLossEnd_keepsTables p c
      case frtPortLossNotice p => exact takeFrtNotice_keepsTables p c
      case linkDownFromLinked p => exact takeLinkDown_keepsTables p c
      case completionCheck => exact (takeCheck_keeps c).tables
      case quiesceCompletion => exact (takeCompletion_keeps c).tables
      case setupNotice => exact (takeSetupNotice_keeps c).tables
      case tick => exact (takeTick_keeps c).tables
      case rstNAssert => exact .refl c
      case rstNDeassert => exact .refl c
      case storedWordDisturbance => exact .same

/-! ## Reset -/

theorem Chip.powerOn_stealPtrsRight (straps : PerPort Bool) : (Chip.powerOn straps).stealPtrsRight := by
  intro p
  obtain ⟨_, hptr, _⟩ := Chip.powerOn_rqc straps p
  rw [hptr]
  exact Port.next_ne p

theorem Chip.powerOn_tablesInRange (straps : PerPort Bool) : (Chip.powerOn straps).tablesInRange := by
  refine ⟨Nat.zero_le 16, fun p => Nat.zero_le 4, Nat.zero_le 8, fun p => ?_⟩
  rw [Chip.powerOn_pc]
  exact ⟨Nat.zero_le 255, Nat.zero_le 255⟩

/-- A Link Engine at power-on is in its ranges: its hold-off is at most 6,400, nothing is counted, no timer runs, no packet is open (R176). -/
theorem Link.powerOn_inRange (strap : Bool) : (Link.powerOn strap).inRange := by
  cases strap <;> simp [Link.inRange, Link.powerOn, Config.holdOffPeriods]

/-- Settles O57, block by block of the power-on values. -/
theorem invariantsHoldAtReset : Obligations.InvariantsHoldAtReset := by
  refine ⟨fun p => ?wakes, Chip.powerOn_stealPtrsRight _, fun p => ?links, Chip.powerOn_tablesInRange _, fun p => ?credits⟩
  case wakes =>
    show ((Chip.powerOn _).pc p).wakeRight
    rw [Chip.powerOn_pc]
    cases p <;> rfl
  case links =>
    show ((Chip.powerOn _).link p).inRange
    rw [Chip.powerOn_link]
    exact Link.powerOn_inRange _
  case credits =>
    show (Chip.powerOn _).creditsBalance p
    rw [Chip.creditsBalance, Chip.powerOn_link, Chip.powerOn_pc]
    exact ⟨Nat.le_refl 0, Nat.zero_le 8⟩

/-! ## The step -/

theorem Chip.keepsTables.inRange {c d : Chip} (h : c.keepsTables d) :
    (c.stealPtrsRight → d.stealPtrsRight) ∧ (c.tablesInRange → d.tablesInRange) := by
  refine ⟨h.rqc.ptrs, fun hc => ?_⟩
  obtain ⟨hparked, hwalks, hcounts⟩ := c.tablesInRange_iff.mp hc
  exact d.tablesInRange_iff.mpr ⟨h.rqc.parked hparked, h.walks hwalks, fun p => h.counts p (hcounts p)⟩

/-- Settles O59: by what the step is, a period or a command that keeps the tables in range, the power-on values, or no change. -/
theorem stepKeepsTables : Obligations.StepKeepsTables := by
  intro s t h
  have hidle : s.chip.keepsTables (idle s).chip := by
    unfold idle
    dsimp only
    split
    · exact .refl _
    · exact s.chip.period_keepsTables
  obtain rfl | ⟨straps, ht | ht⟩ | ht | ⟨i, _, ht⟩ := step_cases h
  · exact hidle.inRange
  · rw [ht]
    exact ⟨fun _ => Chip.powerOn_stealPtrsRight straps, fun _ => Chip.powerOn_tablesInRange straps⟩
  · rw [ht]
    exact ⟨fun _ => Chip.powerOn_stealPtrsRight straps, fun _ => Chip.powerOn_tablesInRange straps⟩
  · rw [ht]
    exact ⟨id, id⟩
  · rw [ht]
    exact (effect_keepsTables i s.chip).inRange

end Sys2Proof.Machine
end

section
/-! The dispatch of a request: what it waits for, and a head that fails the dispatch checks (O9). -/

namespace Sys2Proof.Machine

/-! ## The conditions of dispatch (R167) -/

theorem Pc.popUnderway_iff (x : Pc) : x.popUnderway = true ↔ ∃ tag timeout st, x.atBlock.rqc = some ⟨tag, .pop timeout, st⟩ := by
  unfold Pc.popUnderway
  split
  · rename_i tag timeout st h
    exact ⟨fun _ => ⟨tag, timeout, st, h⟩, fun _ => rfl⟩
  · rename_i h
    exact ⟨fun hf => absurd hf Bool.false_ne_true, fun ⟨tag, timeout, st, hp⟩ => absurd hp (h tag timeout st)⟩

/-- A head waits for a request that its block has not taken, for room, and for a linked port that is not leaving. -/
theorem Pc.mayDispatch_eq_false {x : Pc} (h : x.current ≠ none ∨ x.atBlock.ltu ≠ none ∨
    (∃ tag timeout st, x.atBlock.rqc = some ⟨tag, .pop timeout, st⟩) ∨ x.state = .down ∨ x.state = .disabled ∨ x.leave ≠ .no ∨
      16 ≤ x.responses.length + x.reserved) : x.mayDispatch = false := by
  refine Bool.eq_false_iff.mpr fun hm => ?_
  simp only [Pc.mayDispatch, Bool.and_eq_true, Bool.or_eq_true, beq_iff_eq, Option.isNone_iff_eq_none, Bool.not_eq_true',
    decide_eq_true_eq] at hm
  obtain ⟨⟨⟨⟨⟨hstate, hleave⟩, hcurrent⟩, hltu⟩, hpop⟩, hroom⟩ := hm
  rcases h with h | h | h | h | h | h | h
  · exact h hcurrent
  · exact h hltu
  · exact Bool.eq_false_iff.mp hpop (x.popUnderway_iff.mpr h)
  · rw [h] at hstate; simp at hstate
  · rw [h] at hstate; simp at hstate
  · exact h hleave
  · exact Nat.not_lt.mpr h hroom

theorem Pc.current_of_mayDispatch {x : Pc} (h : x.mayDispatch = true) : x.current = none := by
  by_contra hc
  rw [Pc.mayDispatch_eq_false (.inl hc)] at h
  exact Bool.false_ne_true h

/-! ## Commands of a row with no request of that row to claim on -/

/-- A request of the row is not among those dispatched. -/
def Pc.noneOf (x : Pc) (row : ReqRow) : Prop := ∀ k, x.current = some k → k.req.row ≠ row

theorem Pc.noneOf_of_current {x : Pc} (h : x.current = none) (row : ReqRow) : x.noneOf row := fun k hk => by
  rw [h] at hk; exact absurd hk (Option.some_ne_none k).symm

section nothing
variable {c : Chip} {row : ReqRow} {p : Port} {i : Instr}

/-- A block with no request of the port takes none of another row. -/
theorem Chip.nextClaim_nothing {b : Block} {f : Current → Chip → Chip} (hb : (c.pc p).atBlock.get b = none) (hc : (c.pc p).noneOf row) :
    c.nextClaim row b p f = c := by
  unfold Chip.nextClaim Chip.takeUp
  simp only [hb, Option.isSome_none, Bool.false_eq_true, if_false]
  split
  · rename_i k _ hk
    exact if_neg fun ⟨_, hrow, _⟩ => hc k hk hrow
  · rfl

/-- A Port Controller goes on with no request of another row. -/
theorem ownRun_nothing {f : Chip → Chip} (hi : ownRun i = some (row, p, f)) (hc : (c.pc p).noneOf row) : f c = c := by
  cases i <;> simp only [ownRun, Option.some.injEq, Prod.mk.injEq, reduceCtorEq] at hi <;> obtain ⟨rfl, rfl, rfl⟩ := hi
  case fetchEvents =>
    unfold fetchClaim
    split
    · rename_i hk; exact absurd rfl (hc _ hk)
    · rfl
  case configurePort =>
    unfold configurePortClaim
    split
    · rename_i hk; exact absurd rfl (hc _ hk)
    · rfl
  case attach =>
    unfold attachClaim
    split
    · rename_i hk; exact absurd rfl (hc _ hk)
    · rename_i hk; exact absurd rfl (hc _ hk)
    · rfl
  case detach =>
    unfold detachClaim
    split
    · rename_i hk; exact absurd rfl (hc _ hk)
    · rfl
  case nopEcho =>
    unfold echoClaim
    split
    · rename_i hk; exact absurd rfl (hc _ hk)
    · rfl

theorem gatherPart_nothing (hg : (c.pc p).gathers = []) (hub : Bool) (b : QueryPart) : gatherPart p hub b c = c := by
  simp only [gatherPart, hg, List.find?_nil]

theorem foldl_gatherPart_nothing (hg : (c.pc p).gathers = []) (hub : Bool) : ∀ parts : List QueryPart,
    parts.foldl (fun c b => gatherPart p hub b c) c = c
  | [] => rfl
  | b :: parts => by rw [List.foldl_cons, gatherPart_nothing hg]; exact foldl_gatherPart_nothing hg hub parts

/-! ### The extent a command names -/

theorem requestRun_extent {b : Block} {e : Extent} {n : Nat} {f : Hand → Current → Chip → Chip}
    (hi : requestRun i = some (row, b, p, e, n, f)) : dispatches i = decide (e = .dispatch) ∧ takesWhole i = decide (e = .whole) := by
  cases i <;> simp only [requestRun, Option.some.injEq, Prod.mk.injEq, reduceCtorEq] at hi <;> obtain ⟨_, _, _, rfl, _, _⟩ := hi <;>
    rename Extent => e <;> cases e <;> exact ⟨rfl, rfl⟩

theorem gatherRun_extent {hub : Bool} {parts : List QueryPart} {g : Gathering} (hi : gatherRun i = some (row, p, hub, parts, g)) :
    dispatches i = decide (g = .dispatch) ∧ takesWhole i = decide (g = .whole) := by
  cases i <;> simp only [gatherRun, Option.some.injEq, Prod.mk.injEq, reduceCtorEq] at hi <;> obtain ⟨_, _, _, _, rfl⟩ := hi <;>
    rename Gathering => g <;> cases g <;> exact ⟨rfl, rfl⟩

theorem ownRun_dispatches {f : Chip → Chip} (hi : ownRun i = some (row, p, f)) : dispatches i = true := by
  cases i <;> first | rfl | cases hi

/-! ### What such a command does -/

/-- A command that dispatches does no more than its dispatch, when that leaves no request of its row to claim on. -/
theorem effect_dispatch_alone (hi : requestRow i = some (row, p))
    (h : dispatches i = true ∨ takesWhole i = true ∧ (c.pc p).nothingTaken ∧ ((c.dispatchHead row p).pc p).nothingTaken)
    (hc : ((c.dispatchHead row p).pc p).noneOf row) : effect i c = c.dispatchHead row p := by
  rcases requestRow_cases hi with ⟨b, e, n, f, hrun⟩ | ⟨f, hrun⟩ | ⟨hub, parts, g, hrun⟩
  · obtain ⟨hdis, hwhole⟩ := requestRun_extent hrun
    rw [effect_of_requestRun hrun]
    rw [hdis, hwhole, decide_eq_true_eq, decide_eq_true_eq] at h
    obtain rfl | ⟨rfl, hbefore, hafter⟩ := h
    · rfl
    · simp only [Chip.runRequest, hbefore.1 b, Option.isSome_none, Bool.false_eq_true, if_false]
      rw [Chip.nextClaim_nothing (hafter.1 b) hc, repeat_goOn_none (hafter.1 b)]
  · rw [effect_of_ownRun hrun]
    exact ownRun_nothing hrun hc
  · obtain ⟨hdis, hwhole⟩ := gatherRun_extent hrun
    rw [effect_of_gatherRun hrun]
    rw [hdis, hwhole, decide_eq_true_eq, decide_eq_true_eq] at h
    obtain rfl | ⟨rfl, hbefore, hafter⟩ := h
    · rfl
    · simp only [Chip.runGather, hbefore.2, List.any_nil, Bool.false_eq_true, if_false]
      exact foldl_gatherPart_nothing hafter.2 hub parts

/-- A command of a row that has nothing to dispatch and no request of its row to claim on does nothing. -/
theorem effect_nothing (hi : requestRow i = some (row, p)) (h : dispatches i = true ∨ (c.pc p).nothingTaken)
    (hd : c.dispatchHead row p = c) (hc : (c.pc p).noneOf row) : effect i c = c := by
  have halone : dispatches i = true ∨ takesWhole i = true ∧ (c.pc p).nothingTaken → effect i c = c := fun h =>
    (effect_dispatch_alone hi (by rw [hd]; exact h.imp_right fun ⟨hw, hn⟩ => ⟨hw, hn, hn⟩) (by rw [hd]; exact hc)).trans hd
  rcases h with h | hn
  · exact halone (.inl h)
  rcases requestRow_cases hi with ⟨b, e, n, f, hrun⟩ | ⟨f, hrun⟩ | ⟨hub, parts, g, hrun⟩
  · obtain ⟨hdis, hwhole⟩ := requestRun_extent hrun
    cases e with
    | dispatch => exact halone (.inl hdis)
    | whole => exact halone (.inr ⟨hwhole, hn⟩)
    | claim hand => rw [effect_of_requestRun hrun]; exact Chip.nextClaim_nothing (hn.1 b) hc
  · exact halone (.inl (ownRun_dispatches hrun))
  · obtain ⟨hdis, hwhole⟩ := gatherRun_extent hrun
    cases g with
    | dispatch => exact halone (.inl hdis)
    | whole => exact halone (.inr ⟨hwhole, hn⟩)
    | part b => rw [effect_of_gatherRun hrun]; exact gatherPart_nothing hn.2 hub b

/-- The same of the command as it is run, in reset and out of it. -/
theorem exec_nothing {s : State} (hi : requestRow i = some (row, p)) (h : dispatches i = true ∨ (s.chip.pc p).nothingTaken)
    (hd : s.chip.dispatchHead row p = s.chip) (hc : (s.chip.pc p).noneOf row) : exec i s = .next s := by
  obtain ⟨h1, h2⟩ := requestRow_ne_rst hi
  rw [exec_eq_run i s h1 h2]
  exact State.run_of_fixed (effect_nothing hi h hd hc)

end nothing

/-! ## A head that fails the dispatch checks (R168) -/

section bad
variable {c : Chip} {row : ReqRow} {p : Port} {k : Packet}

/-- The dispatch of a head by a row that takes it. -/
theorem Chip.dispatchHead_head (hm : (c.pc p).mayDispatch = true) (hb : (c.pc p).buffer.head? = some k) (ht : row.takes k = true) :
    c.dispatchHead row p = c.asked p ((c.pc p).dispatch k) := by
  obtain ⟨rest, hbuf⟩ := List.head?_eq_some_iff.mp hb
  simp only [Chip.dispatchHead, hbuf, hm, ht, Bool.and_self, if_true]
  rfl

theorem Pc.dispatch_plain {x : Pc} (h : k.decode = .error .plain) : x.dispatch k = x.served k.tag .badRequest [] := by
  simp only [Pc.dispatch, h]
  rfl

theorem Pc.dispatch_length {x : Pc} (h : k.decode = .error .length) : x.dispatch k = x.protocolError.served k.tag .badRequest [] := by
  simp only [Pc.dispatch, h]
  unfold Pc.protocolError Pc.record Pc.active
  dsimp only
  split <;> rfl

theorem Pc.protocolError_taken (x : Pc) :
    x.protocolError.current = x.current ∧ x.protocolError.atBlock = x.atBlock ∧ x.protocolError.gathers = x.gathers := by
  unfold Pc.protocolError Pc.record
  split <;> exact ⟨rfl, rfl, rfl⟩

/-- A head that is answered with its dispatch leaves nothing to claim on. -/
theorem exec_dispatch_alone {s : State} {i : Instr} {y : Pc} (hr : s.chip.rst = false) (hi : requestRow i = some (row, p))
    (hm : (s.chip.pc p).mayDispatch = true) (hb : (s.chip.pc p).buffer.head? = some k) (ht : row.takes k = true)
    (h : dispatches i = true ∨ takesWhole i = true ∧ (s.chip.pc p).nothingTaken) (hy : (s.chip.pc p).dispatch k = y)
    (hcur : y.current = (s.chip.pc p).current) (hat : y.atBlock = (s.chip.pc p).atBlock) (hg : y.gathers = (s.chip.pc p).gathers) :
    exec i s = .next { s with chip := s.chip.asked p y } := by
  have hd : s.chip.dispatchHead row p = s.chip.asked p y := by rw [Chip.dispatchHead_head hm hb ht, hy]
  have hpc : (s.chip.dispatchHead row p).pc p = y := by rw [hd, Chip.asked_pc_self]
  obtain ⟨h1, h2⟩ := requestRow_ne_rst hi
  rw [exec_effect hr h1 h2, effect_dispatch_alone hi ?taken ?none, hd]
  case taken =>
    refine h.imp_right fun ⟨hw, hn⟩ => ⟨hw, hn, ?_⟩
    rw [hpc, Pc.nothingTaken, hat, hg]
    exact hn
  case none =>
    rw [hpc]
    exact Pc.noneOf_of_current (hcur.trans (Pc.current_of_mayDispatch hm)) row

end bad

/-- Settles O9: a head that waits leaves claims alone to make; one that fails its checks is answered with its dispatch. -/
theorem dispatchWaitsOrAnswersBadRequest : Obligations.DispatchWaitsOrAnswersBadRequest := by
  intro i row p s hi x
  refine ⟨fun hwait => ⟨fun t ht => ?kept, fun hc h => ?other⟩, fun hb hc h => ?empty,
    fun k hr hm hb ht h => ⟨fun hbad => ?plain, fun hbad => ?length⟩⟩
  case kept =>
    have hd : s.chip.dispatchHead row p = s.chip := Chip.dispatchHead_waits (.inl (Pc.mayDispatch_eq_false hwait))
    have hkeeps : s.chip.claimKeeps (effect i s.chip) := by
      rcases effect_requestRow_claimKeeps hi s.chip with h | h
      · exact h
      · rwa [hd] at h
    obtain ⟨h1, h2⟩ := requestRow_ne_rst hi
    rw [exec_eq_run i s h1 h2] at ht
    obtain ⟨_, hchip⟩ := State.run_eq_next ht
    rw [hchip]
    split
    · exact ⟨rfl, rfl⟩
    · exact ⟨(hkeeps.pc p).buffer, by rw [Chip.link, hkeeps.links]; rfl⟩
  case other => exact exec_nothing hi h (Chip.dispatchHead_waits (.inl (Pc.mayDispatch_eq_false hwait))) hc
  case empty => exact exec_nothing hi h (Chip.dispatchHead_waits (.inr hb)) (Pc.noneOf_of_current hc row)
  case plain => exact exec_dispatch_alone hr hi hm hb ht h (Pc.dispatch_plain hbad) rfl rfl rfl
  case length =>
    obtain ⟨hcur, hat, hg⟩ := x.protocolError_taken
    exact exec_dispatch_alone hr hi hm hb ht h (Pc.dispatch_length hbad) hcur hat hg

end Sys2Proof.Machine
end

section
/-! Hub Control: the tick boundary, QUIESCE and its completion; and the parts of an ATTACH (O7, O41, O48). -/

namespace Sys2Proof.Machine

/-! ## TICK -/

/-- Settles O7: the boundary that is due, and a TICK before it. -/
theorem tickAdvances : Obligations.TickAdvances := by
  intro s hr
  have hexec : exec .tick s = .next ⟨s.pending, takeTick s.chip⟩ := State.run_of_not_rst hr
  refine ⟨fun hdue => ?due, fun hearly => ?early⟩
  case due => rw [hexec, takeTick_due hdue]; rfl
  case early => rw [hexec, takeTick_early hearly]

/-! ## QUIESCE and its completion -/

theorem Chip.beginQuiesce_eq (c : Chip) : c.beginQuiesce = { c with
    hcu := { c.hcu with
      state := .quiescing
      checks := if c.hcu.creation = 0 then c.hcu.checks + 1 else c.hcu.checks } } := by
  unfold Chip.beginQuiesce
  by_cases h : c.hcu.creation = 0
  · rw [if_pos h, if_pos h]; rfl
  · rw [if_neg h, if_neg h]; rfl

theorem Chip.quiesceComplete_eq (c : Chip) : c.quiesceComplete = decide (c.hcu.state = .quiescing ∧ c.hcu.creation = 0 ∧
    c.tks.free.length = 1024 ∧ c.frt.walks = []) := by
  rw [Bool.eq_iff_iff]
  simp [Chip.quiesceComplete, and_assoc]

/-- A QUIESCE taken whole is its one claim. -/
theorem exec_quiesce {s : State} {p : Port} {k : Packet} (h : s.chip.ready p k .quiesce) : exec (.quiesce p .whole) s =
    .next ⟨s.pending, quiesceClaim p .now ⟨k.tag, .quiesce, .given⟩ (s.chip.dispatched p ⟨k.tag, .quiesce, .given⟩)⟩ :=
  exec_ready h rfl (show requestRun (.quiesce p .whole) = some (.quiesce, .hcu, p, .whole, 0, quiesceClaim p) from rfl)

section quiesce
variable {c : Chip} {p : Port} {k : Packet} (h : c.ready p k .quiesce)
include h

theorem quiesceClaim_notAttached (ha : c.attached p = false) :
    quiesceClaim p .now ⟨k.tag, .quiesce, .given⟩ (c.dispatched p ⟨k.tag, .quiesce, .given⟩) = c.answered p k.tag .notAttached [] := by
  simp only [quiesceClaim, Chip.dispatched_attached, ha, Bool.false_eq_true, if_false, Chip.dispatched_reply h rfl]

theorem quiesceClaim_running (ha : c.attached p = true) (hs : c.hcu.state = .running) :
    quiesceClaim p .now ⟨k.tag, .quiesce, .given⟩ (c.dispatched p ⟨k.tag, .quiesce, .given⟩) =
      { c.answered p k.tag .ok (hubStateBody .quiescing) with hcu := c.beginQuiesce.hcu } := by
  simp only [quiesceClaim, Chip.dispatched_attached, ha, if_true, Chip.dispatched_hcu, hs, Chip.beginQuiesce_eq]
  rw [Chip.reply_of_ready h rfl (.inl ⟨by rfl, rfl⟩) (by rfl)]
  rfl

theorem quiesceClaim_quiescing (ha : c.attached p = true) (hs : c.hcu.state = .quiescing) :
    quiesceClaim p .now ⟨k.tag, .quiesce, .given⟩ (c.dispatched p ⟨k.tag, .quiesce, .given⟩) =
      c.answered p k.tag .ok (hubStateBody .quiescing) := by
  simp only [quiesceClaim, Chip.dispatched_attached, ha, if_true, Chip.dispatched_hcu, hs, Chip.dispatched_reply h rfl]

theorem quiesceClaim_setup (ha : c.attached p = true) (hs : c.hcu.state = .setup) :
    quiesceClaim p .now ⟨k.tag, .quiesce, .given⟩ (c.dispatched p ⟨k.tag, .quiesce, .given⟩) = c.answered p k.tag .denied [] := by
  simp only [quiesceClaim, Chip.dispatched_attached, ha, if_true, Chip.dispatched_hcu, hs, Chip.dispatched_reply h rfl]

end quiesce

theorem takeCheck_eq {c : Chip} (h : 0 < c.hcu.checks) : takeCheck c = { c with
    hcu := { c.hcu with checks := c.hcu.checks - 1, completionDue := c.hcu.completionDue || c.quiesceComplete } } :=
  if_neg (Nat.ne_of_gt h)

theorem takeCompletion_quiescing {c : Chip} (hd : c.hcu.completionDue = true) (hs : c.hcu.state = .quiescing) : takeCompletion c =
    { c with
      hcu := { c.hcu with state := .setup, completionDue := false }
      wires := { c.wires with setup := c.wires.setup + 1 } } := by
  simp only [takeCompletion, hd, hs, if_true]
  rfl

theorem takeCompletion_other {c : Chip} (hd : c.hcu.completionDue = true) (hs : c.hcu.state ≠ .quiescing) : takeCompletion c =
    { c with hcu := { c.hcu with completionDue := false } } := by
  simp only [takeCompletion, hd, if_neg hs, if_true]

theorem Chip.popUnderway_iff (c : Chip) :
    c.popUnderway = true ↔ ∃ p tag timeout st, (c.pc p).atBlock.get .rqc = some ⟨tag, .pop timeout, st⟩ :=
  Port.any_all_eq_true.trans (exists_congr fun _ => Pc.popUnderway_iff _)

theorem takeSetupNotice_eq {c : Chip} (hs : 0 < c.wires.setup) (hu : c.popUnderway ≠ true) : takeSetupNotice c = { c with
    rqc := { c.rqc with parked := [] }
    wires := { c.wires with
      setup := c.wires.setup - 1
      answers := .tab fun p => c.wires.answers.get p ++ (c.parkedOf p).map fun e => ⟨none, ⟨e.tag, .notRunning, [], none⟩⟩ } } := by
  rw [takeSetupNotice, if_neg fun h => h.elim (Nat.ne_of_gt hs) hu]
  dsimp only
  rw [Chip.answerParked_eq]
  rfl

/-- Settles O48: the sender check and the hub state of a QUIESCE, then each command of the completion. -/
theorem quiesceAndItsCompletion : Obligations.QuiesceAndItsCompletion := by
  refine ⟨fun s p k hready => ⟨fun ha => ?notAttached, fun ha => ⟨fun hs => ?running, fun hs => ?quiescing, fun hs => ?setup⟩⟩,
    fun s hr => ⟨fun hc => ?check, fun hd => ⟨fun hs => ?completes, fun hs => ?lapses⟩, fun hs hu => ?notice, fun hu => ?waits⟩⟩
  case notAttached => rw [exec_quiesce hready, quiesceClaim_notAttached hready ha]
  case running => rw [exec_quiesce hready, quiesceClaim_running hready ha hs, Chip.beginQuiesce_eq]
  case quiescing => rw [exec_quiesce hready, quiesceClaim_quiescing hready ha hs]
  case setup => rw [exec_quiesce hready, quiesceClaim_setup hready ha hs]
  case check =>
    have hexec : exec .completionCheck s = .next ⟨s.pending, takeCheck s.chip⟩ := State.run_of_not_rst hr
    rw [hexec, takeCheck_eq hc, Chip.quiesceComplete_eq]
  case completes =>
    have hexec : exec .quiesceCompletion s = .next ⟨s.pending, takeCompletion s.chip⟩ := State.run_of_not_rst hr
    rw [hexec, takeCompletion_quiescing hd hs]
  case lapses =>
    have hexec : exec .quiesceCompletion s = .next ⟨s.pending, takeCompletion s.chip⟩ := State.run_of_not_rst hr
    rw [hexec, takeCompletion_other hd hs]
  case notice =>
    have hexec : exec .setupNotice s = .next ⟨s.pending, takeSetupNotice s.chip⟩ := State.run_of_not_rst hr
    rw [hexec, takeSetupNotice_eq hs (mt s.chip.popUnderway_iff.mp hu)]
  case waits => exact State.run_of_fixed (if_pos (.inr (s.chip.popUnderway_iff.mpr hu)))

/-! ## ATTACH -/

section attach
variable {c : Chip} {p : Port}

/-- R127 steps 1 to 4 of a port that is not ATTACHED yet: its defaults, an empty pending set, and both notices sent. -/
theorem attachClaim_linked {k : Packet} (hs : (c.pc p).state = .linked) :
    attachClaim p (c.dispatched p ⟨k.tag, .attach, .given⟩) = { c.passed p with
      pcs := c.pcs.set p
        { (c.pc p).passed with
          current := some ⟨k.tag, .attach, .attaching⟩, params := ⟨64, true, true, true, 12500, .none⟩, events := .none
          wake := false }
      wires := { c.wires with
        toRqc := c.wires.toRqc.set p (c.wires.toRqc.get p ++ [.attach])
        toLtu := c.wires.toLtu.set p (c.wires.toLtu.get p ++ [.attach]) } } := by
  have ha : c.attached p = false := by simp [Chip.attached, hs]
  simp only [attachClaim, Chip.dispatched_current, Chip.dispatched_attached, ha, Bool.false_eq_true, if_false, Chip.beginAttach,
    Chip.dispatched_setStage]
  have hwake : ∀ x : Pc, { x with params := Params.default, events := .none }.evalWake =
      { x with params := ⟨64, true, true, true, 12500, .none⟩, events := .none, wake := false } := fun x => by
    simp [Pc.evalWake, Params.default_eq]
  simp only [Chip.dispatched, Chip.asked_updPc, hwake]
  apply Chip.ext_fields <;> rfl

theorem attachClaim_attached {k : Packet} (h : c.ready p k .attach) (hs : (c.pc p).state = .attached) :
    attachClaim p (c.dispatched p ⟨k.tag, .attach, .given⟩) = c.answered p k.tag .denied [] := by
  have ha : c.attached p = true := by simp [Chip.attached, hs]
  simp only [attachClaim, Chip.dispatched_current, Chip.dispatched_attached, ha, if_true, Chip.dispatched_finish h]

theorem takeAttachRqc_eq {rest : List RqcNotice} (hm : c.wires.toRqc.get p = .attach :: rest) : takeAttachRqc p c = { c with
    rqc := { c.rqc with stealPtr := c.rqc.stealPtr.set p p.next, left := c.rqc.left.set p false }
    wires := { c.wires with toRqc := c.wires.toRqc.set p rest } } := by
  simp only [takeAttachRqc, hm, Chip.dropRqcNotice_eq hm]

theorem takeAttachLtu_eq {rest : List LtuNotice} (hm : c.wires.toLtu.get p = .attach :: rest) : takeAttachLtu p c = { c with
    ltu := { c.ltu with departed := c.ltu.departed.set p none }
    wires := { c.wires with toLtu := c.wires.toLtu.set p rest } } := by
  simp only [takeAttachLtu, hm, Chip.dropLtuNotice, PerPort.upd_eq, List.tail_cons]
  rfl

/-- R127 steps 5 to 7: the port ATTACHED, PEER_CHANGE raised for the others, the ATTACH answered OK. -/
theorem Chip.endAttach_eq (c : Chip) (p : Port) (tag : Tag) : c.endAttach p tag = { c with
    pcs := c.pcs.set p
      ({ c.pc p with
        state := .attached, current := none
        wake := (c.pc p).leave == Leave.no && (c.pc p).events.meets (c.pc p).params.eventMask }.respond tag .ok [])
    wires := { c.wires with
      events := .tab fun q =>
        if q ≠ p ∧ (c.pc q).state = .attached ∧ (c.pc q).leave = .no then c.wires.events.get q ++ [.peerChange]
        else c.wires.events.get q } } := by
  let d := c.updPc p fun x => { x with state := .attached }.evalWake
  have hothers : ∀ q, (q ≠ p ∧ (d.pc q).state = .attached ∧ (d.pc q).leave = .no) ↔
      q ≠ p ∧ (c.pc q).state = .attached ∧ (c.pc q).leave = .no := fun q => by
    refine and_congr_right fun hq => ?_
    rw [Chip.pc_updPc_ne c _ hq]
  have hself : d.pc p = { c.pc p with
      state := .attached, wake := (c.pc p).leave == Leave.no && (c.pc p).events.meets (c.pc p).params.eventMask } :=
    (c.pc_updPc_self p _).trans (by simp [Pc.evalWake, Pc.active])
  have hend : c.endAttach p tag = (d.raisePeerChange p).finish p tag .ok [] := rfl
  rw [hend, Chip.finish_eq, Chip.raisePeerChange_eq]
  simp only [hothers]
  apply Chip.ext_fields <;> try rfl
  show (c.pcs.set p _).set p (Pc.respond { d.pc p with current := none } tag .ok []) = _
  rw [PerPort.set_set, hself]

end attach

/-- The command of an ATTACH that waits for its notices dispatches nothing. -/
theorem exec_attach_waiting {s : State} {p : Port} {tag : Tag} (h : s.chip.waiting p tag .attach .attaching) :
    exec (.attach p) s = .next ⟨s.pending, if s.chip.noticesTaken p then s.chip.endAttach p tag else s.chip⟩ := by
  obtain ⟨hr, hk⟩ := h
  have hexec : exec (.attach p) s = .next ⟨s.pending, s.chip.runOwn .attach p (attachClaim p)⟩ :=
    State.run_of_not_rst (f := fun c => c.runOwn .attach p (attachClaim p)) hr
  rw [hexec, Chip.runOwn, Chip.dispatchHead_of_current (by rw [hk]; exact Option.some_ne_none _)]
  simp only [attachClaim, hk]

/-- Settles O41: the ATTACH from LINKED and from ATTACHED, each notice taken, and the ATTACH that waits for them. -/
theorem attachByItsClaims : Obligations.AttachByItsClaims := by
  refine ⟨fun s p hr => ⟨fun k h hs => ?linked, fun k h hs => ?attached, fun rest hm => ?rqc, fun rest hm => ?ltu⟩,
    fun s p tag h => ⟨fun hrqc hltu => ?ends, fun hn => ?waits⟩⟩
  case linked =>
    rw [exec_own h (show ownRun (.attach p) = some (.attach, p, attachClaim p) from rfl), attachClaim_linked hs]
  case attached =>
    rw [exec_own h (show ownRun (.attach p) = some (.attach, p, attachClaim p) from rfl), attachClaim_attached h hs]
  case rqc =>
    have hexec : exec (.attachNoticeRqc p) s = .next ⟨s.pending, takeAttachRqc p s.chip⟩ := State.run_of_not_rst hr
    rw [hexec, takeAttachRqc_eq hm]
  case ltu =>
    have hexec : exec (.attachNoticeLtu p) s = .next ⟨s.pending, takeAttachLtu p s.chip⟩ := State.run_of_not_rst hr
    rw [hexec, takeAttachLtu_eq hm]
  case ends =>
    rw [exec_attach_waiting h, if_pos (s.chip.noticesTaken_iff p |>.mpr ⟨hrqc, hltu⟩), Chip.endAttach_eq]
  case waits =>
    have hnot : ¬ s.chip.noticesTaken p = true := fun ht => by
      obtain ⟨hrqc, hltu⟩ := (s.chip.noticesTaken_iff p).mp ht
      exact hn.elim hrqc hltu
    rw [exec_attach_waiting h, if_neg hnot]

end Sys2Proof.Machine
end

section
/-! POP taken whole: its refusals, its candidate on the own stack, in the shared queue or at a victim, the park decision; and PARK_TIMEOUT (O19, O20, O21, O23). -/

namespace Sys2Proof.Machine

/-! ## PARK_TIMEOUT -/

section timeout
variable {c : Chip} {p : Port} {tag : Tag}

theorem takeParkTimeout_due {e : ParkedPop} (he : (c.rqc.parked.find? fun x => x.port == p && x.tag == tag) = some e)
    (ht : e.ticksLeft = some 0) : takeParkTimeout p tag c = { c with
      rqc := { c.rqc with parked := c.rqc.parked.eraseP fun x => x.port == p && x.tag == tag }
      wires := { c.wires with
        answers := c.wires.answers.set p (c.wires.answers.get p ++ [⟨none, ⟨tag, .timeout, [], none⟩⟩]) } } := by
  obtain ⟨hport, htag⟩ : e.port = p ∧ e.tag = tag := by simpa using List.find?_some he
  simp only [takeParkTimeout, he, if_pos ht]
  rw [Chip.dropParked, hport, htag]
  rfl

theorem takeParkTimeout_not_due (h : ∀ e ∈ c.rqc.parked, e.port = p → e.tag = tag → e.ticksLeft ≠ some 0) :
    takeParkTimeout p tag c = c := by
  unfold takeParkTimeout
  split
  · rename_i e he
    obtain ⟨hport, htag⟩ : e.port = p ∧ e.tag = tag := by simpa using List.find?_some he
    exact if_neg (h e (List.mem_of_find?_eq_some he) hport htag)
  · rfl

end timeout

/-- Settles O23, by whether the entry found is due. -/
theorem parkTimeoutAnswersTimeout : Obligations.ParkTimeoutAnswersTimeout := by
  intro s p tag hr
  have hexec : exec (.parkTimeout p tag) s = .next ⟨s.pending, takeParkTimeout p tag s.chip⟩ := State.run_of_not_rst hr
  refine ⟨fun e he ht => ?due, fun h => ?notDue⟩
  case due => rw [hexec, takeParkTimeout_due he ht]
  case notDue => rw [hexec, takeParkTimeout_not_due h]

/-! ## The search of a POP (R53), source by source -/

/-- What a POP comes to once its own stack and the shared queue have given nothing (R55, R56, R66). -/
def Chip.popSteal (c : Chip) (h : Hand) (p : Port) (k : Current) (n : Nat) : Chip :=
  if (c.pc p).params.stealEnable then
    match c.stealSearch p with
    | (d, some (i, v)) => (d.sendTake ⟨i, p, k.tag, .stolen v⟩).endAt .rqc p k
    | (d, none) => d.park h p k n
  else c.park h p k n

/-- What a POP comes to once its own stack has given nothing (R55). -/
def Chip.popShared (c : Chip) (h : Hand) (p : Port) (k : Current) (n : Nat) : Chip :=
  match searchList c.rqc.shared.length .shared (·.headOf .shared) p c with
  | (d, some i) => (d.sendTake ⟨i, p, k.tag, .shared⟩).endAt .rqc p k
  | (d, none) => d.popSteal h p k n

section search
variable {c : Chip} {h : Hand} {p : Port} {k : Current} {n : Nat} {i : SlotNo} {rest : List SlotNo}

/-- The hub in which a POP of `p` has retired its candidate at take, whose list is then `l` (R60, R92). -/
def Chip.retiredAtTake (c : Chip) (p : Port) (r : RunList) (i : SlotNo) (l : List SlotNo) : Chip :=
  (c.setRunList r l).sendRetire .rqc ⟨i, .cancelled, some p⟩

theorem Chip.headOf_eq {r : RunList} (hl : c.runList r = i :: rest) : c.headOf r = some (i, rest) := by
  simp only [Chip.headOf, hl]

/-- The search of a list whose head is under a CANCELLING parent is that of the list without it. -/
theorem searchList_head_retired {r : RunList} (hl : c.runList r = i :: rest) (hc : c.parentCancelling i = true) :
    searchList (c.runList r).length r (·.headOf r) p c =
      searchList ((c.retiredAtTake p r i rest).runList r).length r (·.headOf r) p (c.retiredAtTake p r i rest) := by
  have hleft : (c.retiredAtTake p r i rest).runList r = rest := c.runList_setRunList_self r rest
  rw [hl, hleft, List.length_cons, searchList_retire (Chip.headOf_eq hl) hc]
  rfl

theorem popSearch_own (hl : c.stack p = i :: rest) (hc : c.parentCancelling i = false) :
    c.popSearch h p k n = ((c.setStack p rest).sendTake ⟨i, p, k.tag, .own⟩).endAt .rqc p k := by
  rw [Chip.popSearch, searchList_hit (by simp [hl]) (Chip.headOf_eq (r := .stack p) hl) hc]
  rfl

theorem popSearch_own_retired (hl : c.stack p = i :: rest) (hc : c.parentCancelling i = true) :
    c.popSearch h p k n = (c.retiredAtTake p (.stack p) i rest).popSearch h p k n := by
  have hsearch := searchList_head_retired (p := p) (r := .stack p) hl hc
  simp only [Chip.runList] at hsearch
  rw [Chip.popSearch, Chip.popSearch, hsearch]

theorem popSearch_own_empty (hl : c.stack p = []) : c.popSearch h p k n = c.popShared h p k n := by
  rw [Chip.popSearch, hl]
  rfl

theorem popSearch_shared (hl : c.stack p = []) (hs : c.rqc.shared = i :: rest) (hc : c.parentCancelling i = false) :
    c.popSearch h p k n = ((c.setShared rest).sendTake ⟨i, p, k.tag, .shared⟩).endAt .rqc p k := by
  rw [popSearch_own_empty hl, Chip.popShared, searchList_hit (by simp [hs]) (Chip.headOf_eq (r := .shared) hs) hc]
  rfl

theorem popSearch_shared_retired (hl : c.stack p = []) (hs : c.rqc.shared = i :: rest) (hc : c.parentCancelling i = true) :
    c.popSearch h p k n = (c.retiredAtTake p .shared i rest).popSearch h p k n := by
  have hsearch := searchList_head_retired (p := p) (r := .shared) hs hc
  have hempty : (c.retiredAtTake p .shared i rest).stack p = [] := hl
  simp only [Chip.runList] at hsearch
  rw [popSearch_own_empty hl, popSearch_own_empty hempty, Chip.popShared, Chip.popShared, hsearch]

theorem popSearch_lists_empty (hl : c.stack p = []) (hs : c.rqc.shared = []) : c.popSearch h p k n = c.popSteal h p k n := by
  rw [popSearch_own_empty hl, Chip.popShared, hs]
  rfl

theorem popSearch_stolen {d : Chip} {v : Port} (hl : c.stack p = []) (hs : c.rqc.shared = [])
    (hon : (c.pc p).params.stealEnable = true) (hfound : c.stealSearch p = (d, some (i, v))) :
    c.popSearch h p k n = (d.sendTake ⟨i, p, k.tag, .stolen v⟩).endAt .rqc p k := by
  rw [popSearch_lists_empty hl hs, Chip.popSteal, if_pos hon, hfound]

theorem popSearch_stolen_retired {v : Port} (hl : c.stack p = []) (hs : c.rqc.shared = []) (hon : (c.pc p).params.stealEnable = true)
    (hv : v ≠ p) (hretired : c.stealSearch p = (c.retiredAtTake p (.stack v) i rest).stealSearch p) :
    c.popSearch h p k n = (c.retiredAtTake p (.stack v) i rest).popSearch h p k n := by
  have hl' : (c.retiredAtTake p (.stack v) i rest).stack p = [] := (c.stack_setStack_ne rest hv.symm).trans hl
  have hon' : ((c.retiredAtTake p (.stack v) i rest).pc p).params.stealEnable = true := hon
  rw [popSearch_lists_empty hl hs, popSearch_lists_empty hl' hs, Chip.popSteal, Chip.popSteal, if_pos hon, if_pos hon', hretired]

/-- A POP that no source serves comes to the park decision. -/
theorem popSearch_parks (hl : c.stack p = []) (hs : c.rqc.shared = [])
    (hv : (c.pc p).params.stealEnable = false ∨ ∀ u, u ≠ p → c.passedOver u) : c.popSearch h p k n = c.park h p k n := by
  rw [popSearch_lists_empty hl hs, Chip.popSteal]
  rcases hv with hoff | hv
  · rw [hoff]; rfl
  · have hnone : c.stealSearch p = (c, none) := stealFrom_none fun u hu => hv u (Chip.victims_ne hu)
    rw [hnone]; exact ite_self _

end search

/-! ## POP taken whole -/

/-- A POP past its hub-state check (R52). -/
abbrev popRead (tag : Tag) (n : Nat) : Current := ⟨tag, .pop n, .hubRead⟩

/-- The hub in which the RQC has taken `p`'s POP and read the hub state. -/
abbrev Chip.popping (c : Chip) (p : Port) (tag : Tag) (n : Nat) : Chip := c.within .rqc p (popRead tag n)

section whole
variable {s : State} {p : Port} {k : Packet} {n : Nat}

@[simp] theorem Chip.within_params (c : Chip) (b : Block) (p : Port) (y : Current) (u : Port) :
    ((c.within b p y).pc u).params = (c.pc u).params := by
  obtain ⟨_, hparams, _⟩ := Chip.asked_pc (c := c) (p := p) (x := { (c.pc p).passed with atBlock := (c.pc p).atBlock.set b (some y) })
    ⟨rfl, rfl, rfl⟩ u
  exact hparams

/-- A victim passed over is so whatever request a block has just taken. -/
theorem Chip.within_passedOver {c : Chip} {b : Block} {p : Port} {y : Current} {u : Port} (h : c.passedOver u) :
    (c.within b p y).passedOver u := by
  unfold Chip.passedOver at h ⊢
  rw [Chip.within_rqcAttached, Chip.within_params]
  exact h

/-- A POP outside SETUP is its search, or NOT_ATTACHED. -/
theorem exec_pop (hready : s.chip.ready p k (.pop n)) (hq : s.chip.queueHeld = false) (hs : s.chip.hcu.state ≠ .setup) :
    exec (.pop p .whole) s = .next ⟨s.pending,
      if s.chip.rqcAttached p then (s.chip.popping p k.tag n).popSearch .now p (popRead k.tag n) n
      else s.chip.answered p k.tag .notAttached []⟩ := by
  rw [exec_ready hready rfl (show requestRun (.pop p .whole) = some (.pop, .rqc, p, .whole, 1, popClaim p) from rfl),
    ← pop_to_search hready hs hq]
  rfl

theorem exec_pop_setup (hready : s.chip.ready p k (.pop n)) (hs : s.chip.hcu.state = .setup) :
    exec (.pop p .whole) s = .next { s with chip := s.chip.answered p k.tag .notRunning [] } := by
  have hfirst : popClaim p .now ⟨k.tag, .pop n, .given⟩ (s.chip.dispatched p ⟨k.tag, .pop n, .given⟩) =
      s.chip.answered p k.tag .notRunning [] := by
    simp only [popClaim, popStage, Chip.dispatched_hcu, hs, Chip.dispatched_reply hready rfl]
  rw [exec_ready hready rfl (show requestRun (.pop p .whole) = some (.pop, .rqc, p, .whole, 1, popClaim p) from rfl), hfirst,
    repeat_goOn_none (Chip.answered_atBlock hready rfl ..)]

variable (hready : s.chip.ready p k (.pop n)) (hq : s.chip.queueHeld = false) (hs : s.chip.hcu.state ≠ .setup)
  (ha : s.chip.rqcAttached p = true)
include hready hq hs ha

theorem exec_pop_search : exec (.pop p .whole) s =
    .next ⟨s.pending, (s.chip.popping p k.tag n).popSearch .now p (popRead k.tag n) n⟩ := by
  rw [exec_pop hready hq hs, if_pos ha]

/-- A POP whose search hands over a take leaves what the search and the hand-over made of the hub. -/
theorem exec_pop_taken {d : Chip} (hd : d.pcs = (s.chip.popping p k.tag n).pcs)
    (hsearch : (s.chip.popping p k.tag n).popSearch .now p (popRead k.tag n) n =
      d.endAt .rqc p (popRead k.tag n)) :
    exec (.pop p .whole) s = .next ⟨s.pending, { d with pcs := s.chip.pcs.set p (s.chip.pc p).passed }⟩ := by
  rw [exec_pop_search hready hq hs ha, hsearch, Chip.endAt_of_ready hready rfl (.inr hd)]

/-- A POP whose candidate is retired at take goes on as on the hub that leaves. -/
theorem exec_pop_retired {d : Chip} (r : RunList) (i : SlotNo) (rest : List SlotNo) (hd : d = s.chip.retiredAtTake p r i rest)
    (hsearch : (s.chip.popping p k.tag n).popSearch .now p (popRead k.tag n) n =
      ((s.chip.popping p k.tag n).retiredAtTake p r i rest).popSearch .now p (popRead k.tag n) n) :
    exec (.pop p .whole) s = exec (.pop p .whole) { s with chip := d } := by
  subst hd
  rw [exec_pop_search hready hq hs ha, hsearch]
  cases r with
  | stack v => exact (exec_pop_search (s := { s with chip := s.chip.retiredAtTake p (.stack v) i rest }) (n := n) hready hq hs ha).symm
  | shared => exact (exec_pop_search (s := { s with chip := s.chip.retiredAtTake p .shared i rest }) (n := n) hready hq hs ha).symm

end whole

/-- Settles O19: each refusal, and the park decision when no source serves the POP. -/
theorem popWithoutATicket : Obligations.PopWithoutATicket := by
  intro s p k timeout hready hq
  refine ⟨fun hs => exec_pop_setup hready hs, fun hs ha => ?notAttached, fun hs ha hl hsh hv => ?parks⟩
  case notAttached => rw [exec_pop hready hq hs, ha]; rfl
  case parks =>
    have hv' : ((s.chip.popping p k.tag timeout).pc p).params.stealEnable = false ∨
        ∀ u, u ≠ p → (s.chip.popping p k.tag timeout).passedOver u := by
      refine hv.imp (fun hoff => ?_) fun hv u hu => Chip.within_passedOver (hv u hu)
      rw [Chip.within_params]
      exact hoff
    rw [exec_pop_search hready hq hs ha, popSearch_parks (c := s.chip.popping p k.tag timeout) hl hsh hv', park_ready hready]
    refine ⟨fun h0 => by rw [if_pos h0], fun h0 hport hall => by rw [if_neg h0, if_pos ⟨hport, hall⟩], fun h0 hfull => ?_⟩
    rw [if_neg h0, if_neg fun ⟨hport, hall⟩ => hfull.elim (Nat.not_le.mpr hport) (Nat.not_le.mpr hall)]

/-- Settles O20: the candidate of the own stack and that of the shared queue, taken, or retired at take. -/
theorem popTakesOrRetiresItsCandidate : Obligations.PopTakesOrRetiresItsCandidate := by
  refine ⟨fun s p k timeout i rest hready hq hs ha hc => ⟨fun hl => ?own, fun hl hsh => ?shared⟩,
    fun s p k timeout i rest hready hq hs ha hc => ⟨fun hl => ?ownRetired, fun hl hsh => ?sharedRetired⟩⟩
  case own => rw [exec_pop_taken hready hq hs ha (by rfl) (popSearch_own (c := s.chip.popping p k.tag timeout) hl hc)]; rfl
  case shared => rw [exec_pop_taken hready hq hs ha (by rfl) (popSearch_shared (c := s.chip.popping p k.tag timeout) hl hsh hc)]; rfl
  case ownRetired =>
    exact exec_pop_retired hready hq hs ha (.stack p) i rest rfl (popSearch_own_retired (c := s.chip.popping p k.tag timeout) hl hc)
  case sharedRetired =>
    exact exec_pop_retired hready hq hs ha .shared i rest rfl (popSearch_shared_retired (c := s.chip.popping p k.tag timeout) hl hsh hc)

/-- Settles O21: the steal search finds the first victim not passed over, and takes its bottom ticket or retires it. -/
theorem popStealsFromFirstVictim : Obligations.PopStealsFromFirstVictim := by
  intro s p v k timeout i above before after hready hq hs ha hl hsh hon hv hb hav hable hst hi
  have hon' : ((s.chip.popping p k.tag timeout).pc p).params.stealEnable = true := by rw [Chip.within_params]; exact hon
  have hable' : ((s.chip.popping p k.tag timeout).pc v).params.stealable = true := by rw [Chip.within_params]; exact hable
  have hb' : ∀ u ∈ before, (s.chip.popping p k.tag timeout).passedOver u := fun u hu => Chip.within_passedOver (hb u hu)
  have hav' : (s.chip.popping p k.tag timeout).rqcAttached v = true := (Chip.within_rqcAttached ..).trans hav
  refine ⟨fun hc => ?taken, fun hc => ?retired⟩
  case taken =>
    have hfound := Chip.stealSearch_hit (c := s.chip.popping p k.tag timeout) hv hb' hav' hable' hst hi hc
    rw [exec_pop_taken hready hq hs ha (by rfl) (popSearch_stolen (c := s.chip.popping p k.tag timeout) hl hsh hon' hfound)]
    rfl
  case retired =>
    have hretired := Chip.stealSearch_retired (c := s.chip.popping p k.tag timeout) hv hb' hav' hable' hst hi hc
    have hne : v ≠ p := by rintro rfl; simp [hst] at hl
    exact exec_pop_retired hready hq hs ha (.stack v) i above rfl
      (popSearch_stolen_retired (c := s.chip.popping p k.tag timeout) hl hsh hon' hne hretired)

end Sys2Proof.Machine
end

section
/-! The running table's entries taken back: an expired lease, the entries of a lost port, and the entry an OPEN_FRAME holds (O27, O28). -/

namespace Sys2Proof.Machine

/-! ## The entry an OPEN_FRAME holds (R81) -/

/-- Port `p`'s OPEN_FRAME has passed its holder test, on a handle of slot `i`, and has not made its handoff. -/
theorem Chip.openHolds_iff {c : Chip} {p : Port} {i : SlotNo} : c.openHolds p i = true ↔
    ∃ tag r h st, (c.pc p).atBlock.get .frt = some ⟨tag, .openFrame r, st⟩ ∧ (st = .currentRead ∨ st = .pinRead) ∧
      r.current = some h ∧ h.slot = i := by
  constructor
  · intro h
    unfold Chip.openHolds at h
    split at h
    case h_1 tag r hp =>
      obtain ⟨j, hj, hi⟩ : ∃ j, r.current = some j ∧ j.slot = i := by simpa using h
      exact ⟨tag, r, j, _, hp, .inl rfl, hj, hi⟩
    case h_2 tag r hp =>
      obtain ⟨j, hj, hi⟩ : ∃ j, r.current = some j ∧ j.slot = i := by simpa using h
      exact ⟨tag, r, j, _, hp, .inr rfl, hj, hi⟩
    case h_3 => cases h
  · rintro ⟨tag, r, h, st, hp, hst, hr, rfl⟩
    have hp' : (c.pc p).atBlock.frt = some ⟨tag, .openFrame r, st⟩ := hp
    rcases hst with rfl | rfl <;> simp [Chip.openHolds, hp', hr]

theorem Chip.entryHeld_iff {c : Chip} {i : SlotNo} : c.entryHeld i = true ↔
    ∃ p tag r h st, (c.pc p).atBlock.get .frt = some ⟨tag, .openFrame r, st⟩ ∧ (st = .currentRead ∨ st = .pinRead) ∧
      r.current = some h ∧ h.slot = i := by
  simp only [Chip.entryHeld, Port.any_all_eq_true, Chip.openHolds_iff]

/-- A request past its sender check waits for the entry it names while an OPEN_FRAME holds it. -/
theorem Chip.asHolder_waits {c : Chip} {hd : Hand} {p : Port} {k : Current} {h : Handle} {act : RunEntry → Chip}
    (hh : c.entryHeld h.slot = true) : c.asHolder hd p k h act = c := if_pos hh

/-! ## LEASE_EXPIRY -/

section expiry
variable {c : Chip} {i : SlotNo}

theorem takeLeaseExpiry_due {e : RunEntry} (he : c.runEntry i = some e) (hd : e.ticksLeft = some 0) (hh : c.entryHeld i = false) :
    takeLeaseExpiry i c = (c.loseEntry e).raise e.holder .leaseLost := by
  simp only [takeLeaseExpiry, he, hd, hh, and_self, if_true]

/-- An expiry of an entry gone, not due or held has no effect. -/
theorem takeLeaseExpiry_left (h : ∀ e, c.runEntry i = some e → e.ticksLeft ≠ some 0 ∨ c.entryHeld i = true) :
    takeLeaseExpiry i c = c := by
  unfold takeLeaseExpiry
  split
  case h_1 e he =>
    refine if_neg fun ⟨hdue, hfree⟩ => ?_
    rcases h e he with hd | hh
    · exact hd hdue
    · exact Bool.false_ne_true (hfree.symm.trans hh)
  case h_2 => rfl

end expiry

/-! ## PORT_LOSS_CLAIM_LTU -/

/-- The hub with `p`'s port-loss claim taken off its channel and `p` marked lost (R119, R126). -/
def Chip.markLost (c : Chip) (p : Port) : Chip := (c.dropLtuNotice p).setDeparted p (some .lost)

section loss
variable {c : Chip} {p : Port} {rest : List LtuNotice} {e : RunEntry} {es : List RunEntry}

theorem takeLossClaim_waits (h : ∃ e ∈ c.entriesOf p, c.entryHeld e.slot = true) : takeLossClaim p c = c := by
  unfold takeLossClaim
  split
  · exact if_pos (List.any_eq_true.mpr h)
  · rfl

theorem takeLossClaim_eq (hw : c.wires.toLtu.get p = .loss :: rest) (hh : ∀ e ∈ c.entriesOf p, c.entryHeld e.slot = false) :
    takeLossClaim p c = (c.markLost p).loseEntries (c.entriesOf p) := by
  have hfree : ((c.entriesOf p).any fun e => c.entryHeld e.slot) = false :=
    List.any_eq_false.mpr fun e he => by simp [hh e he]
  simp only [takeLossClaim, hw, hfree, Bool.false_eq_true, if_false]
  rfl

/-- A requeue decision sends nothing to the LTU. -/
theorem Chip.requeueDecision_toLtu (c : Chip) (i : SlotNo) (n : Nat) : (c.requeueDecision i n).wires.toLtu = c.wires.toLtu := by
  unfold Chip.requeueDecision
  split
  · rfl
  · split <;> rfl

theorem Chip.loseEntry_step (c : Chip) (e : RunEntry) : c.loseEntry e =
    { c.removeEntry e with tks := (c.loseEntry e).tks, wires := (c.loseEntry e).wires } :=
  (c.removeEntry e).requeueDecision_step e.slot e.requeues

theorem Chip.loseEntry_rst (c : Chip) (e : RunEntry) : (c.loseEntry e).rst = c.rst := by rw [Chip.loseEntry_step]; rfl

theorem Chip.loseEntry_entryHeld (c : Chip) (e : RunEntry) (i : SlotNo) : (c.loseEntry e).entryHeld i = c.entryHeld i := by
  rw [Chip.loseEntry_step]; rfl

theorem Chip.loseEntry_toLtu (c : Chip) (e : RunEntry) : (c.loseEntry e).wires.toLtu = c.wires.toLtu :=
  (c.removeEntry e).requeueDecision_toLtu e.slot e.requeues

/-- The port's entries once the first of them is lost: the rest, for entries of different slots. -/
theorem Chip.loseEntry_entriesOf (he : c.entriesOf p = e :: es) (hs : ∀ x ∈ es, x.slot ≠ e.slot) :
    (c.loseEntry e).entriesOf p = es := by
  have hrun : (c.loseEntry e).ltu.running = c.ltu.running.filter fun x => x.slot != e.slot := by
    rw [Chip.loseEntry_step]; rfl
  calc (c.loseEntry e).entriesOf p
      = (c.ltu.running.filter fun x => x.slot != e.slot).filter fun x => x.holder == p := by rw [Chip.entriesOf, hrun]
    _ = (c.entriesOf p).filter fun x => x.slot != e.slot := List.filter_comm ..
    _ = es.filter fun x => x.slot != e.slot := by rw [he]; simp
    _ = es := List.filter_eq_self.mpr fun x hx => by simpa using hs x hx

/-- A requeue decision reads nothing that the mark of a lost port changes, so the mark may be made before it or after it. -/
theorem Chip.loseEntry_markLost (c : Chip) (p : Port) (e : RunEntry) : (c.loseEntry e).markLost p = (c.markLost p).loseEntry e := by
  have hpar : ((c.markLost p).removeEntry e).parentCancelling e.slot = (c.removeEntry e).parentCancelling e.slot := rfl
  unfold Chip.loseEntry Chip.requeueDecision
  rw [hpar]
  split
  · rfl
  · split
    case isTrue hn => rw [if_pos (by exact hn)]; rfl
    case isFalse hn => rw [if_neg (by exact hn)]; rfl

/-- A loss claim on a port with an entry is the loss of the first entry, and the claim on the hub that leaves. -/
theorem takeLossClaim_cons (hw : c.wires.toLtu.get p = .loss :: rest) (hh : ∀ x ∈ c.entriesOf p, c.entryHeld x.slot = false)
    (he : c.entriesOf p = e :: es) (hs : ∀ x ∈ es, x.slot ≠ e.slot) :
    takeLossClaim p c = takeLossClaim p (c.loseEntry e) := by
  have hes := Chip.loseEntry_entriesOf he hs
  have hw' : (c.loseEntry e).wires.toLtu.get p = .loss :: rest := by rw [Chip.loseEntry_toLtu, hw]
  have hh' : ∀ x ∈ (c.loseEntry e).entriesOf p, (c.loseEntry e).entryHeld x.slot = false := fun x hx => by
    rw [hes] at hx
    rw [Chip.loseEntry_entryHeld]
    exact hh x (he ▸ List.mem_cons_of_mem e hx)
  rw [takeLossClaim_eq hw hh, takeLossClaim_eq hw' hh', hes, he, Chip.loseEntry_markLost]
  rfl

end loss

/-- Settles O27: a due entry that no OPEN_FRAME holds is lost to its holder; every claim on a held one leaves the hub as it is. -/
theorem leaseExpiryTakesTicketBack : Obligations.LeaseExpiryTakesTicketBack := by
  refine fun s i => ⟨fun e hr he hd hh => ?due, fun h => State.run_of_fixed (takeLeaseExpiry_left h), Chip.entryHeld_iff,
    fun hh => ⟨?holders, fun p rest hw hx => ?loss⟩⟩
  case due =>
    have hx : exec (.leaseExpiry i) s = .next ⟨s.pending, takeLeaseExpiry i s.chip⟩ := exec_effect hr (by simp) (by simp)
    rw [hx, takeLeaseExpiry_due he hd hh]; rfl
  case holders =>
    rintro p tag h e rfl he
    exact ⟨fun result hu => exec_underWay_waits hu he rfl fun hd => Chip.asHolder_waits hh,
      fun hu => exec_underWay_waits hu he rfl fun hd => Chip.asHolder_waits hh,
      fun hu => exec_underWay_waits hu he rfl fun hd => Chip.asHolder_waits hh⟩
  case loss =>
    obtain ⟨e, he, rfl⟩ := hx
    exact State.run_of_fixed (takeLossClaim_waits ⟨e, he, hh⟩)

/-- Settles O28: with no entry left the port is marked lost, and with one the claim is `takeLossClaim_cons`. -/
theorem lossClaimDecidesEveryEntry : Obligations.LossClaimDecidesEveryEntry := by
  intro s p rest hr hw hh
  have hx : ∀ c : Chip, c.rst = false →
      exec (.portLossClaimLtu p) ⟨s.pending, c⟩ = .next ⟨s.pending, takeLossClaim p c⟩ := fun c hc =>
    exec_effect (s := ⟨s.pending, c⟩) hc (by simp) (by simp)
  refine ⟨fun he => ?none, fun e es he hs => ?some⟩
  case none =>
    refine (hx s.chip hr).trans ?_
    rw [takeLossClaim_eq hw hh, he]
    simp [Chip.loseEntries, Chip.markLost, Chip.dropLtuNotice, Chip.setDeparted, hw]
  case some =>
    have hp : e.holder = p := by
      have hm : e ∈ s.chip.entriesOf p := he ▸ List.mem_cons_self
      simpa using (List.mem_filter.mp hm).2
    refine (hx s.chip hr).trans ?_
    rw [takeLossClaim_cons hw hh he hs, ← hx _ ((Chip.loseEntry_rst ..).trans hr)]
    subst hp
    rfl

end Sys2Proof.Machine
end

section
/-! The end of a child and the release of its frame; CLOSE_FRAME and CANCEL_FRAME (O31, O32, O36, O37). -/

namespace Sys2Proof.Machine

/-! ## CHILD_END -/

section ended
variable {c : Chip} {m : ChildEndMsg}

/-- The frame of a child that has ended. -/
theorem Chip.countEnd_frame (c : Chip) (n : FrameNo) (o : TicketOutcome) :
    (c.countEnd n o).frame n = (c.frame n).countEnd o := Chip.frame_setFrame_self ..

/-- The end of a child lowers pending and leaves the frame's state. -/
theorem Frame.countEnd_pending (f : Frame) (o : TicketOutcome) : (f.countEnd o).pending = f.pending - 1 := by cases o <;> rfl

theorem Frame.countEnd_state (f : Frame) (o : TicketOutcome) : (f.countEnd o).state = f.state := by cases o <;> rfl

theorem Chip.endChild_counts (h : 1 < (c.frame m.frame.index).pending ∨ (c.frame m.frame.index).state = .opened) :
    c.endChild m = c.countEnd m.frame.index m.outcome := by
  refine if_neg fun ⟨hp, hs⟩ => ?_
  rw [Chip.countEnd_frame, Frame.countEnd_pending] at hp
  rw [Chip.countEnd_frame, Frame.countEnd_state] at hs
  rcases h with h | h
  · omega
  · rw [h] at hs; simp at hs

theorem Chip.endChild_releases (hp : (c.frame m.frame.index).pending ≤ 1)
    (hs : (c.frame m.frame.index).state = .closed ∨ (c.frame m.frame.index).state = .cancelling) :
    c.endChild m = (c.countEnd m.frame.index m.outcome).release m.frame.index m.releasing := by
  refine if_pos ⟨?_, ?_⟩
  · rw [Chip.countEnd_frame, Frame.countEnd_pending]; omega
  · rw [Chip.countEnd_frame, Frame.countEnd_state]; exact hs

end ended

/-- Settles O31: the oldest CHILD_END is counted, and releases its frame when the frame takes no more children and has none left. -/
theorem childEndCountsAndReleases : Obligations.ChildEndCountsAndReleases := by
  intro s m rest hr hw f up g c
  let d : Chip := { s.chip with wires := { s.chip.wires with childEnds := rest } }
  have hx : exec .childEnd s = .next ⟨s.pending, d.endChild m⟩ := by
    rw [exec_effect hr (by simp) (by simp)]
    show Host.Outcome.next (⟨s.pending, takeChildEnd s.chip⟩ : State) = _
    simp only [takeChildEnd, hw]; rfl
  have hc : d.countEnd m.frame.index m.outcome = c := by
    have hg : f.countEnd m.outcome = g := by cases ho : m.outcome <;> simp [Frame.countEnd, g, up, ho]
    show d.setFrame m.frame.index (f.countEnd m.outcome) = c
    rw [hg]; rfl
  refine ⟨fun h => ?_, fun hp hs => ?_⟩
  · rw [hx, Chip.endChild_counts (c := d) h, hc]
  · rw [hx, Chip.endChild_releases (c := d) hp hs, hc]

/-! ## Release -/

/-- Settles O32: a continuation without a CANCELLING parent is placed (`release_places`), from the hub with its frame freed. -/
theorem releasePlacesContinuation : Obligations.ReleasePlacesContinuation := by
  intro c n rel h t hc ht hp
  have hpar : ∀ g, t.parent = some g → (c.freeFrame n).refState g ≠ .cancelling := fun g hg => by
    obtain ⟨hne, hstate⟩ := hp g hg
    rwa [Chip.freeFrame_refState_ne c hne]
  have hchoice : ∀ pin, (c.freeFrame n).releaseChoice pin rel = c.releaseChoice pin rel := fun pin => by
    rw [Chip.freeFrame_eq hc ht]; rfl
  have hgen : ((c.freeFrame n).slot h.slot).gen = (c.slot h.slot).gen := by
    rw [Chip.freeFrame_eq hc ht]
    exact (congrArg Slot.gen (vector_get_set_self c.tks.slots h.slot _)).trans rfl
  rw [Chip.release, release_places 256 rel hc ht hpar, Chip.placeContinuation_eq (Chip.freeFrame_ticket hc ht), hchoice, hgen,
    Chip.freeFrame_eq hc ht]
  simp [Frame.released, Frame.toSummary]

/-! ## The gate, and the answer of a request that changes frames -/

/-- A gated request of a ready port that fails one of its two first checks is answered with that status (R86, R95, R105). -/
theorem exec_gate_refused {s : State} {p : Port} {m : Packet} {r : Req} {b : Block} (h : s.chip.ready p m r) (hb : r.block = some b)
    {i : Instr} {f : Hand → Current → Chip → Chip} {act : Current → Chip → Chip}
    (hi : requestRun i = some (r.row, b, p, .whole, 2, f))
    (hf : ∀ d st, f .now ⟨m.tag, r, st⟩ d = gatedStage b p .now ⟨m.tag, r, st⟩ (act ⟨m.tag, r, st⟩) d)
    {st : Status} (hg : s.chip.gateRefusal p = some st) :
    exec i s = .next ⟨s.pending, s.chip.answered p m.tag st []⟩ := by
  rw [exec_ready h hb hi, gated_whole h hb hf, hg]

section frames
variable {c d : Chip} {p : Port} {m : Packet} {r : Req} {b : Block}

/-- A request of a ready port is answered, `d` being the hub with what its last claim did apart from the ports. -/
theorem Chip.withPortsOf_reply (h : c.ready p m r) (hb : r.block = some b) (ha : d.wires.answers = c.wires.answers) (st : Stage)
    (status : Status) (body : List Word) :
    (d.withPortsOf (c.within b p ⟨m.tag, r, st⟩)).reply .now b p ⟨m.tag, r, st⟩ status body =
      d.withPortsOf (c.answered p m.tag status body) := by
  rw [Chip.reply_of_ready h hb (.inr (by rfl)) (by exact ha)]; rfl

/-- The same of a claim that releases frame `n`, whose cascade reads the port states as the request found them. -/
theorem Chip.withPortsOf_release_reply (h : c.ready p m r) (hb : r.block = some b) (hd : c.besides d) (n : FrameNo)
    (rel : Option Port) (st : Stage) (status : Status) (body : List Word) :
    ((d.withPortsOf (c.within b p ⟨m.tag, r, st⟩)).release n rel).reply .now b p ⟨m.tag, r, st⟩ status body =
      (d.release n rel).withPortsOf (c.answered p m.tag status body) := by
  have hstate : ∀ q, ((c.within b p ⟨m.tag, r, st⟩).pc q).state = (d.pc q).state := fun q => by
    obtain ⟨hs, _, _⟩ := Chip.asked_pc (c := c) (p := p)
      (x := { (c.pc p).passed with atBlock := (c.pc p).atBlock.set b (some ⟨m.tag, r, st⟩) }) ⟨rfl, rfl, rfl⟩ q
    refine Eq.trans hs ?_
    simp only [Chip.pc, hd.pcs]
  rw [Chip.release_withPortsOf hstate,
    Chip.withPortsOf_reply h hb ((Chip.release_besides d n rel).answers.trans hd.answers)]

end frames

/-! ## CLOSE_FRAME -/

section close
variable {c : Chip} {hd : Hand} {p : Port} {x : Current} {f : FrameRef}

/-- CLOSE_FRAME of an OPEN frame with children: it takes no more of them. -/
theorem Chip.closeFrame_children (hs : c.refState f = .opened) (hp : 0 < (c.frame f.index).pending) :
    c.closeFrame hd p x f =
      (c.setFrameState f.index .closed).reply hd .frt p x .ok (countBody (c.frame f.index).pending) := by
  simp only [Chip.closeFrame, hs, Nat.ne_of_gt hp, if_false]

/-- CLOSE_FRAME of an OPEN frame without children. -/
theorem Chip.closeFrame_releases (hs : c.refState f = .opened) (hp : (c.frame f.index).pending = 0) :
    c.closeFrame hd p x f =
      ((c.setFrameState f.index .closed).release f.index (some p)).reply hd .frt p x .ok (countBody 0) := by
  simp only [Chip.closeFrame, hs, hp, if_true]

theorem Chip.closeFrame_closed (hs : c.refState f = .closed) : c.closeFrame hd p x f = c.reply hd .frt p x .frameState [] := by
  simp only [Chip.closeFrame, hs]

theorem Chip.closeFrame_cancelling (hs : c.refState f = .cancelling) :
    c.closeFrame hd p x f = c.reply hd .frt p x .cancelled [] := by
  simp only [Chip.closeFrame, hs]

theorem Chip.closeFrame_free (hs : c.refState f = .free) : c.closeFrame hd p x f = c.reply hd .frt p x .badFrame [] := by
  simp only [Chip.closeFrame, hs]

end close

/-- A CLOSE_FRAME past its gate answers what its act on the frame comes to. -/
theorem exec_closeFrame {s : State} {p : Port} {k : Packet} {f : FrameRef} {c : Chip} (h : s.chip.ready p k (.closeFrame f))
    (hg : s.chip.gateRefusal p = none)
    (hc : (s.chip.within .frt p ⟨k.tag, .closeFrame f, .senderRead⟩).closeFrame .now p ⟨k.tag, .closeFrame f, .senderRead⟩ f = c) :
    exec (.closeFrame p .whole) s = .next ⟨s.pending, c⟩ :=
  hc ▸ exec_gated (act := fun x c => c.closeFrame .now p x f) h rfl rfl (fun _ _ => rfl) hg

/-- Settles O36, by the gate and then the state of the frame, and for an OPEN one whether it has children. -/
theorem closeFrameByTable : Obligations.CloseFrameByTable := by
  intro s p k f h g closed answer
  refine ⟨fun st hg => exec_gate_refused (act := fun x c => c.closeFrame .now p x f) h rfl rfl (fun _ _ => rfl) hg,
    fun hg => ⟨fun hs hp => ?children, fun hs hp => ?childless, fun hs => ?closed, fun hs => ?cancelling, fun hs => ?free⟩⟩
  case children =>
    refine exec_closeFrame h hg ?_
    rw [Chip.closeFrame_children (by exact hs) (by exact hp)]
    exact Chip.withPortsOf_reply (d := closed) h rfl rfl ..
  case childless =>
    refine exec_closeFrame h hg ?_
    rw [Chip.closeFrame_releases (by exact hs) (by exact hp)]
    exact Chip.withPortsOf_release_reply (d := closed) h rfl ⟨rfl, rfl, rfl⟩ ..
  case closed => exact exec_closeFrame h hg (by rw [Chip.closeFrame_closed (by exact hs), Chip.within_reply h rfl])
  case cancelling => exact exec_closeFrame h hg (by rw [Chip.closeFrame_cancelling (by exact hs), Chip.within_reply h rfl])
  case free => exact exec_closeFrame h hg (by rw [Chip.closeFrame_free (by exact hs), Chip.within_reply h rfl])

/-! ## CANCEL_FRAME -/

section cancel
variable {c : Chip} {hd : Hand} {p : Port} {x : Current} {f : FrameRef}

/-- CANCEL_FRAME of an OPEN frame without children. -/
theorem Chip.cancelFrame_releases (hs : c.refState f = .opened) (hp : (c.frame f.index).pending = 0) :
    c.cancelFrame hd p x f =
      ((c.setFrameState f.index .cancelling).release f.index (some p)).reply hd .frt p x .ok (countBody 0) := by
  simp only [Chip.cancelFrame, hs, hp, and_self, if_true]

/-- CANCEL_FRAME of a frame with children: BUSY when the walk queue is full or holds the frame's walk, else the walk is queued. -/
theorem Chip.cancelFrame_walks (hs : c.refState f = .opened ∨ c.refState f = .closed) (hp : 0 < (c.frame f.index).pending) :
    c.cancelFrame hd p x f =
      if 8 ≤ c.frt.walks.length ∨ ∃ w ∈ c.frt.walks, w.frame = f then c.reply hd .frt p x .busy []
      else
        ((c.setFrame f.index { c.frame f.index with state := .cancelling, walkPending := true }).queueWalk p x.tag f).endAt .frt p x := by
  have hne : (c.frame f.index).pending ≠ 0 := Nat.ne_of_gt hp
  rcases hs with hs | hs <;> simp [Chip.cancelFrame, hs, hne, Config.walkCapacity]

theorem Chip.cancelFrame_cancelling (hs : c.refState f = .cancelling) :
    c.cancelFrame hd p x f = c.reply hd .frt p x .ok (countBody 0) := by
  simp only [Chip.cancelFrame, hs]

theorem Chip.cancelFrame_free (hs : c.refState f = .free) : c.cancelFrame hd p x f = c.reply hd .frt p x .badFrame [] := by
  simp only [Chip.cancelFrame, hs]

end cancel

/-- A CANCEL_FRAME past its gate answers what its act on the frame comes to. -/
theorem exec_cancelFrame {s : State} {p : Port} {k : Packet} {f : FrameRef} {c : Chip} (h : s.chip.ready p k (.cancelFrame f))
    (hg : s.chip.gateRefusal p = none)
    (hc : (s.chip.within .frt p ⟨k.tag, .cancelFrame f, .senderRead⟩).cancelFrame .now p ⟨k.tag, .cancelFrame f, .senderRead⟩ f = c) :
    exec (.cancelFrame p .whole) s = .next ⟨s.pending, c⟩ :=
  hc ▸ exec_gated (act := fun x c => c.cancelFrame .now p x f) h rfl rfl (fun _ _ => rfl) hg

/-- Settles O37, by the gate and then the state of the frame, its children, and the room in the walk queue. -/
theorem cancelFrameByTable : Obligations.CancelFrameByTable := by
  intro s p k f h g walks answer outcome
  refine ⟨fun st hg => exec_gate_refused (act := fun x c => c.cancelFrame .now p x f) h rfl rfl (fun _ _ => rfl) hg,
    fun hg => ⟨fun hs hp => ?childless, fun hs hp hl hn => ?queued, fun hs hp hb => ?busy, fun hs => ?cancelling, fun hs => ?free⟩⟩
  case childless =>
    refine exec_cancelFrame h hg ?_
    rw [Chip.cancelFrame_releases (by exact hs) (by exact hp)]
    exact Chip.withPortsOf_release_reply (d := s.chip.setFrameState f.index .cancelling) h rfl ⟨rfl, rfl, rfl⟩ ..
  case queued =>
    have hroom : ¬ (8 ≤ walks.length ∨ ∃ w ∈ walks, w.frame = f) := by
      rintro (hfull | ⟨w, hw, hf⟩)
      · omega
      · exact hn w hw hf
    refine exec_cancelFrame h hg ?_
    rw [Chip.cancelFrame_walks (by exact hs) (by exact hp), if_neg (by exact hroom), Chip.endAt_of_ready h rfl (.inr (by rfl))]
    rfl
  case busy =>
    refine exec_cancelFrame h hg ?_
    rw [Chip.cancelFrame_walks (by exact hs) (by exact hp), if_pos (by exact hb), Chip.within_reply h rfl]
  case cancelling => exact exec_cancelFrame h hg (by rw [Chip.cancelFrame_cancelling (by exact hs), Chip.within_reply h rfl])
  case free => exact exec_cancelFrame h hg (by rw [Chip.cancelFrame_free (by exact hs), Chip.within_reply h rfl])

end Sys2Proof.Machine
end

section
/-! The cancel walk: one step, its end, and the answer marks of a lost port's walks (O38, O39). -/

namespace Sys2Proof.Machine

section walk
variable {c : Chip} {w : Walk} {ws : List Walk}

/-- The head walk's next list, with no PUSH holding it: the tickets that name the walk's frame leave it and are retired. -/
theorem takeWalkStep_eq {r : RunList} {todo : List RunList} (hw : c.frt.walks = w :: ws) (ht : w.todo = r :: todo)
    (hh : c.listHeld r = false) :
    takeWalkStep c =
      ({ c.setRunList r ((c.runList r).filter fun i => !c.names i w.frame) with
        frt := { c.frt with
          walks := { w with removed := w.removed + ((c.runList r).filter fun i => c.names i w.frame).length, todo := todo } :: ws } } :
        Chip).retireWalked ((c.runList r).filter fun i => c.names i w.frame) := by
  simp only [takeWalkStep, hw, ht, hh, Bool.false_eq_true, if_false]
  cases r <;> rfl

/-- The frame of a walk that has ended: a frame of the walk's own generation waits for no walk any more (R99). -/
theorem Chip.clearWalkPending_eq (c : Chip) (f : FrameRef) : c.clearWalkPending f = { c with
    frt := { c.frt with
      frames := if (c.frame f.index).gen = f.gen then
          c.frt.frames.set f.index.val { c.frame f.index with walkPending := false } f.index.isLt
        else c.frt.frames } } := by
  unfold Chip.clearWalkPending
  split <;> rfl

/-- What the end of the head walk sends and reports, `c` being the hub with the walk removed (R99). -/
def Chip.endWalk (c : Chip) (w : Walk) (last : Bool) : Chip := { c with
  hcu := { c.hcu with checks := if last then c.hcu.checks + 1 else c.hcu.checks }
  wires := if w.answer then
      { c.wires with
        answers := c.wires.answers.set w.port (c.wires.answers.get w.port ++ [⟨some .frt, ⟨w.tag, .ok, countBody w.removed, none⟩⟩]) }
    else c.wires }

theorem takeWalkEnd_eq (hw : c.frt.walks = w :: ws) (ht : w.todo = []) :
    takeWalkEnd c = (({ c with frt := { c.frt with walks := ws } } : Chip).clearWalkPending w.frame).endWalk w (ws = []) := by
  simp only [takeWalkEnd, hw, ht, if_true, Chip.clearWalkPending_eq, Chip.endWalk]
  cases w.answer <;> by_cases hl : ws = [] <;> simp only [hl, if_true, if_false, Bool.false_eq_true, decide_true, decide_false] <;> rfl

/-- The port-loss notice: the walks of the port lose their answer marks, and the others keep theirs. -/
theorem takeFrtNotice_eq {p : Port} (h : c.wires.toFrt.get p = true) : takeFrtNotice p c = { c with
    frt := { c.frt with walks := c.frt.walks.map fun w => { w with answer := w.answer && w.port != p } }
    wires := { c.wires with toFrt := c.wires.toFrt.set p false } } := by
  have hmark : (fun w : Walk => if w.port = p then { w with answer := false } else w) =
      fun w => { w with answer := w.answer && w.port != p } := by
    funext w
    by_cases hp : w.port = p
    · simp [hp]
    · have hkept : (w.answer && w.port != p) = w.answer := by simp [hp]
      rw [if_neg hp, hkept]
  simp only [takeFrtNotice, h, if_true, hmark]

end walk

/-- Settles O38: `takeWalkStep_eq`, and the messages of `Chip.retireWalked_eq`, for a stack and for the shared queue. -/
theorem walkStepRemovesChildren : Obligations.WalkStepRemovesChildren := by
  intro s w ws r todo hr hw ht hh child gone kept
  have hx : exec .cancelWalkStep s = .next ⟨s.pending, takeWalkStep s.chip⟩ := exec_effect hr (by simp) (by simp)
  rw [hx, takeWalkStep_eq hw ht hh, Chip.retireWalked_eq]
  cases r with
  | stack q => rfl
  | shared => rfl

/-- Settles O39, by `takeWalkEnd_eq` and `takeFrtNotice_eq`. -/
theorem walkEndAnswersRequester : Obligations.WalkEndAnswersRequester := by
  intro s hr
  have hx : exec .cancelWalkEnd s = .next ⟨s.pending, takeWalkEnd s.chip⟩ := exec_effect hr (by simp) (by simp)
  have hn : ∀ p, exec (.frtPortLossNotice p) s = .next ⟨s.pending, takeFrtNotice p s.chip⟩ := fun p =>
    exec_effect hr (by simp) (by simp)
  refine ⟨fun w ws hw ht => ?ended, fun p hp => ?notice⟩
  case ended =>
    rw [hx, takeWalkEnd_eq hw ht, Chip.clearWalkPending_eq]
    simp only [Chip.endWalk, decide_eq_true_eq]
    rfl
  case notice => rw [hn, takeFrtNotice_eq hp]

end Sys2Proof.Machine
end

section
/-! COMPLETE, RENEW and YIELD refused: by the gate, then by the holder test (O25). -/

namespace Sys2Proof.Machine

/-- The holder test of R105 fails for `p` on handle `i`: the handle is stale, the slot not RUNNING, or the entry another port's. -/
def Chip.notHolder (c : Chip) (p : Port) (i : Handle) : Prop :=
  (c.slot i.slot).gen ≠ i.gen ∨ (∀ t, c.ticket i.slot = some t → t.state ≠ .running) ∨
    (∀ e, c.runEntry i.slot = some e → e.holder ≠ p)

/-- What the holder test reads, of the LTU and the TKS, the dispatch and the checks before it leave as it was. -/
theorem Chip.within_notHolder {c : Chip} {b : Block} {p q : Port} {k : Current} {i : Handle} :
    (c.within b p k).notHolder q i ↔ c.notHolder q i := Iff.rfl

/-- A holder's request of a ready port that fails the holder test is answered STALE, whatever it would do with the entry. -/
theorem Chip.within_asHolder_fail {c : Chip} {p : Port} {m : Packet} {r : Req} {i : Handle} {act : RunEntry → Chip}
    (h : c.ready p m r) (hb : r.block = some .ltu) (hh : c.entryHeld i.slot = false) (hn : c.notHolder p i) :
    (c.within .ltu p ⟨m.tag, r, .senderRead⟩).asHolder .now p ⟨m.tag, r, .senderRead⟩ i act = c.answered p m.tag .stale [] := by
  rw [Chip.asHolder_fail (Chip.within_entryHeld (by simp) hh) (Chip.within_notHolder.mpr hn), Chip.within_reply h hb]

/-- A request that is a holder test behind the gate, at a ready port, is answered with the status of its first failing check (R105): the gate's status, or
past the gate STALE. -/
theorem exec_holder_refused {s : State} {p : Port} {m : Packet} {r : Req} {i : Handle} {st : Status}
    (hst : s.chip.gateRefusal p = some st ∨
      (s.chip.gateRefusal p = none ∧ st = .stale ∧ s.chip.entryHeld i.slot = false ∧ s.chip.notHolder p i))
    (h : s.chip.ready p m r) (hb : r.block = some .ltu) {x : Instr} {f : Hand → Current → Chip → Chip}
    {act : Current → Chip → Chip} (hx : requestRun x = some (r.row, .ltu, p, .whole, 2, f))
    (hf : ∀ d st, f .now ⟨m.tag, r, st⟩ d = gatedStage .ltu p .now ⟨m.tag, r, st⟩ (act ⟨m.tag, r, st⟩) d)
    (hact : ∀ k c, ∃ onEntry, act k c = c.asHolder .now p k i onEntry) :
    exec x s = .next ⟨s.pending, s.chip.answered p m.tag st []⟩ := by
  obtain hg | ⟨hg, rfl, hh, hn⟩ := hst
  · exact exec_gate_refused h hb hx hf hg
  · obtain ⟨onEntry, ha⟩ := hact ⟨m.tag, r, .senderRead⟩ (s.chip.within .ltu p ⟨m.tag, r, .senderRead⟩)
    rw [exec_gated h hb hx hf hg, ha, Chip.within_asHolder_fail h hb hh hn]

/-- Settles O25: each of the three requests is one holder test behind the gate, with an act of its own that a refusal never comes to. -/
theorem holderRequestsRefused : Obligations.HolderRequestsRefused := by
  intro s p k h st hst
  refine ⟨fun result hready => ?complete, fun hready => ?renew, fun hready => ?yield⟩
  case complete =>
    exact exec_holder_refused (act := fun x c => c.complete .now p x h result) hst hready rfl rfl (fun _ _ => rfl) fun _ _ => ⟨_, rfl⟩
  case renew =>
    exact exec_holder_refused (act := fun x c => c.renew .now p x h) hst hready rfl rfl (fun _ _ => rfl) fun _ _ => ⟨_, rfl⟩
  case yield =>
    exact exec_holder_refused (act := fun x c => c.yield .now p x h) hst hready rfl rfl (fun _ _ => rfl) fun _ _ => ⟨_, rfl⟩

end Sys2Proof.Machine
end

section
/-! The WAKE lines: the commands that leave every Port Controller as it was, and those that re-evaluate a line or change nothing it depends on (O58). -/

namespace Sys2Proof.Machine

/-! ## One Port Controller -/

theorem Pc.active_eq_false_of_leave {x : Pc} (h : x.leave ≠ .no) : x.active = false :=
  Bool.eq_false_iff.mpr fun ha => h ((Pc.active_iff x).mp ha).2

theorem Pc.active_eq_false_of_linked {x : Pc} (h : x.state = .linked) : x.active = false :=
  Bool.eq_false_iff.mpr fun ha => by rw [((Pc.active_iff x).mp ha).1] at h; cases h

/-- The line of a port that is not ATTACHED, or that is leaving, is right when it is deasserted (R145). -/
theorem Pc.wakeRight_iff_of_inactive {x : Pc} (h : x.active = false) : x.wakeRight ↔ x.wake = false := by
  show (x.wake = (x.active && x.events.meets x.params.eventMask)) ↔ _
  rw [h, Bool.false_and]

/-- A port that is not active before a change nor after it keeps its line. -/
theorem Pc.wakeRight.inactive {x y : Pc} (h : x.wakeRight) (hx : x.active = false) (hy : y.active = false)
    (hw : y.wake = x.wake) : y.wakeRight := by
  rw [Pc.wakeRight_iff_of_inactive hy, hw]
  exact (Pc.wakeRight_iff_of_inactive hx).mp h

theorem Pc.wakeRight.record {x : Pc} (h : x.wakeRight) (k : EventKind) : (x.record k).wakeRight := by
  unfold Pc.record
  split
  · exact Pc.evalWake_right _
  · exact h

theorem Pc.wakeRight.protocolError {x : Pc} (h : x.wakeRight) : x.protocolError.wakeRight :=
  Pc.wakeRight.record (x := { x with errors := min (x.errors + 1) Config.errorMax }) h .protocol

theorem Pc.wakeRight.dispatch {x : Pc} (h : x.wakeRight) (k : Packet) : (x.dispatch k).wakeRight := by
  let y : Pc := { x with buffer := x.buffer.tail, granted := x.granted + 1, reserved := x.reserved + 1 }
  have hy : y.wakeRight := h
  unfold Pc.dispatch
  dsimp only
  split
  · rename_i r _
    cases r <;> exact h
  · exact h
  · exact hy.protocolError

theorem Pc.wakeRight.foldl_enqueue : ∀ (l : List Answer) {x : Pc}, x.wakeRight → (l.foldl (fun x a => x.enqueue a.resp) x).wakeRight
  | [], _, h => h
  | a :: l, x, h => Pc.wakeRight.foldl_enqueue l (x := x.enqueue a.resp) h

/-! ## The hub: changes that keep the lines -/

section keeps
variable {c : Chip} (h : c.wakesRight)
include h

theorem Chip.wakesRight.of_pcs {d : Chip} (hp : d.pcs = c.pcs) : d.wakesRight := fun p => by
  rw [Chip.pc, hp]
  exact h p

/-- A change of one Port Controller. -/
theorem Chip.wakesRight.updPc (p : Port) {f : Pc → Pc} (hf : (c.pc p).wakeRight → (f (c.pc p)).wakeRight) :
    (c.updPc p f).wakesRight := fun q => by
  by_cases hq : q = p
  · subst hq
    rw [Chip.pc_updPc_self]
    exact hf (h q)
  · rw [Chip.pc_updPc_ne c f hq]
    exact h q

theorem Chip.wakesRight.finish (p : Port) (tag : Tag) (st : Status) (body : List Word) : (c.finish p tag st body).wakesRight :=
  Chip.wakesRight.updPc (c := c.taken p) (h.updPc p id) p id

theorem Chip.wakesRight.setLeave {p : Port} {l : Leave} (ha : (c.pc p).active = false) (hl : l ≠ .no) :
    (c.setLeave p l).wakesRight :=
  h.updPc p fun hx => hx.inactive ha (Pc.active_eq_false_of_leave hl) rfl

/-- The first point of R138 for a port that is not ATTACHED, or is leaving already. -/
theorem Chip.wakesRight.drop {p : Port} (ha : (c.pc p).active = false) : (c.updPc p Pc.drop).wakesRight :=
  h.updPc p fun hx => hx.inactive ha (Pc.active_eq_false_of_leave Leave.noConfusion) rfl

theorem Chip.wakesRight.answer (hd : Hand) (o : Option Block) (p : Port) (r : Response) : (c.answer hd o p r).wakesRight := by
  cases hd with
  | later => exact h.of_pcs rfl
  | now =>
    have hdue : (c.deliver o p).wakesRight :=
      Chip.wakesRight.updPc (c := { c with wires := (c.deliver o p).wires }) (h.of_pcs rfl) p (Pc.wakeRight.foldl_enqueue _)
    exact hdue.updPc p id

theorem Chip.wakesRight.reply (hd : Hand) (b : Block) (p : Port) (k : Current) (st : Status) (body : List Word) (i : Option Handle) :
    (c.reply hd b p k st body i).wakesRight :=
  Chip.wakesRight.answer (c := c.endAt b p k) (h.updPc p id) hd _ p _

theorem Chip.wakesRight.dispatchHead (row : ReqRow) (p : Port) : (c.dispatchHead row p).wakesRight := by
  unfold Chip.dispatchHead
  split
  · exact h
  · rename_i k _ _
    split
    · exact (h.updPc p (f := fun x => x.dispatch k) fun hx => hx.dispatch k).of_pcs rfl
    · exact h

end keeps

/-! ## The requests that a block takes -/

/-- Every command of a request that a block takes is of a row whose claims are as `Claimed` says. -/
theorem requestRun_rowOf {i : Instr} {row : ReqRow} {b : Block} {p : Port} {e : Extent} {n : Nat} {f : Hand → Current → Chip → Chip}
    (hi : requestRun i = some (row, b, p, e, n, f)) : ∃ j, RowOf b p j row n f := by
  have hmem : ∃ j : Extent → Instr, (b, j) ∈ blockRequests p ∧ i = j e := by
    cases i <;> simp only [requestRun, Option.some.injEq, Prod.mk.injEq, reduceCtorEq] at hi <;>
      (obtain ⟨_, rfl, rfl, rfl, _⟩ := hi; exact ⟨_, by simp [blockRequests], rfl⟩)
  obtain ⟨j, hj, rfl⟩ := hmem
  obtain ⟨row', n', f', H⟩ := rowOf_blockRequests hj
  cases (H.run e).symm.trans hi
  exact ⟨j, H⟩

section claimed
variable {b : Block} {p : Port} {k : Current} {c : Chip} (h : c.wakesRight)
include h

/-- A claim changes its port's Port Controller in nothing a WAKE line depends on. -/
theorem Claimed.wakesRight {f : Hand → Chip} (H : Claimed b p k c f) (hd : Hand) : (f hd).wakesRight := by
  cases H with
  | waits hf => rw [hf]; exact h
  | goesOn d st hb _ hf => rw [hf]; exact (h.of_pcs hb.pcs).updPc p id
  | ends d hb hf => rw [hf]; exact (h.of_pcs hb.pcs).updPc p id
  | answers d st body i hb hf => rw [hf]; exact (h.of_pcs hb.pcs).reply hd b p k st body i
  | answersCounted d st body i hb hf =>
    rw [hf]
    exact ((h.of_pcs hb.pcs).reply hd b p k st body i).of_pcs (Chip.lowerCreation_pcs _)

section row
variable {i : Extent → Instr} {row : ReqRow} {n : Nat} {f : Hand → Current → Chip → Chip} (H : RowOf b p i row n f)
include H

theorem RowOf.goOn_wakesRight (hd : Hand) : (c.goOn row b p (f hd)).wakesRight := by
  cases hb : (c.pc p).atBlock.get b with
  | none => rw [Chip.goOn_none hb]; exact h
  | some k =>
    by_cases hr : k.req.row = row
    · rw [Chip.goOn_some hb hr]
      exact Claimed.wakesRight h (H.claimed k c hr) hd
    · rw [Chip.goOn_other hb hr]; exact h

theorem RowOf.nextClaim_wakesRight (hd : Hand) : (c.nextClaim row b p (f hd)).wakesRight := by
  rcases c.nextClaim_cases row b p f with hf | ⟨k, hr, _, hf⟩
  · rw [hf]; exact h
  · rw [hf]
    exact Claimed.wakesRight h (H.claimed k c hr) hd

end row

end claimed

/-- What each claim keeps, claims one after another keep. -/
theorem repeatClaim_invariant {P : Chip → Prop} {f : Chip → Chip} (hf : ∀ c, P c → P (f c)) : ∀ n c, P c → P (repeatClaim n f c)
  | 0, _, h => h
  | n + 1, c, h => repeatClaim_invariant hf n (f c) (hf c h)

theorem RowOf.runRequest_wakesRight {b : Block} {p : Port} {i : Extent → Instr} {row : ReqRow} {n : Nat} {f : Hand → Current → Chip → Chip}
    (H : RowOf b p i row n f) {c : Chip} (h : c.wakesRight) (e : Extent) : (c.runRequest row b p e n f).wakesRight := by
  cases e with
  | dispatch => exact h.dispatchHead row p
  | claim hd => exact RowOf.nextClaim_wakesRight h H hd
  | whole =>
    refine repeatClaim_invariant (P := Chip.wakesRight) (fun d hd => RowOf.goOn_wakesRight hd H .now) n _
      (RowOf.nextClaim_wakesRight ?_ H .now)
    split
    · exact h
    · exact h.dispatchHead row p

/-! ## The requests that a Port Controller takes -/

theorem Chip.raisePeerChange_pcs (c : Chip) (p : Port) : (c.raisePeerChange p).pcs = c.pcs := by rw [Chip.raisePeerChange_eq]

section own
variable {c : Chip} (h : c.wakesRight) (p : Port)
include h

theorem fetchClaim_wakesRight : (fetchClaim p c).wakesRight := by
  unfold fetchClaim
  split
  · have hemptied := h.updPc p (f := fun x => { x with events := .none }.evalWake) fun _ => Pc.evalWake_right _
    exact hemptied.finish p _ _ _
  · exact h

theorem configurePortClaim_wakesRight : (configurePortClaim p c).wakesRight := by
  have hpass : ∀ (d : Chip) old new, (d.passOn p old new).pcs = d.pcs := fun d old new => by
    unfold Chip.passOn
    dsimp only
    split <;> split <;> rfl
  unfold configurePortClaim
  split
  · rename_i items _
    split
    · exact h.finish p _ _ _
    · split
      · exact h.finish p _ _ _
      · split
        · have hwritten := h.updPc p (f := fun x => { x with params := items.foldl Params.write (c.pc p).params }.evalWake)
            fun _ => Pc.evalWake_right _
          exact (hwritten.of_pcs (hpass _ _ _)).finish p _ _ _
        · exact h.finish p _ _ _
  · exact h

theorem attachClaim_wakesRight : (attachClaim p c).wakesRight := by
  unfold attachClaim
  split
  · split
    · exact h.finish p _ _ _
    · have hbegun := Chip.wakesRight.updPc (c := c.setStage p .attaching) (h.updPc p id) p
        (f := fun x => { x with params := .default, events := .none }.evalWake) fun _ => Pc.evalWake_right _
      exact hbegun.of_pcs rfl
  · split
    · have hattached := h.updPc p (f := fun x => { x with state := .attached }.evalWake) fun _ => Pc.evalWake_right _
      exact (hattached.of_pcs (Chip.raisePeerChange_pcs _ p)).finish p _ _ _
    · exact h
  · exact h

theorem detachClaim_wakesRight : (detachClaim p c).wakesRight := by
  unfold detachClaim
  split
  · split
    · exact (h.updPc p (f := fun x => { x with current := x.current.map fun k => { k with stage := .holdWait } }) id).of_pcs rfl
    · exact h.finish p _ _ _
  · exact h

theorem echoClaim_wakesRight : (echoClaim p c).wakesRight := by
  unfold echoClaim
  split
  · exact h.finish p _ _ _
  · exact h

theorem Chip.putGather_wakesRight (g : Gather) : (c.putGather p g).wakesRight := by
  unfold Chip.putGather
  split
  · have hgone := h.updPc p (f := fun x => { x with gathers := x.gathers.filter fun y => y.tag != g.tag }) id
    exact hgone.updPc p id
  · exact h.updPc p id

theorem gatherPart_wakesRight (hub : Bool) (b : QueryPart) : (gatherPart p hub b c).wakesRight := by
  unfold gatherPart
  split
  · split
    · exact Chip.putGather_wakesRight h p _
    · exact h
  · exact h

theorem foldl_gatherPart_wakesRight (hub : Bool) (parts : List QueryPart) :
    (parts.foldl (fun c b => gatherPart p hub b c) c).wakesRight := by
  induction parts generalizing c with
  | nil => exact h
  | cons b parts ih => exact ih (gatherPart_wakesRight h p hub b)

end own

theorem ownRun_wakesRight {i : Instr} {row : ReqRow} {p : Port} {f : Chip → Chip} (hi : ownRun i = some (row, p, f)) {c : Chip}
    (h : c.wakesRight) : (f c).wakesRight := by
  cases i <;> simp only [ownRun, Option.some.injEq, Prod.mk.injEq, reduceCtorEq] at hi <;> obtain ⟨_, _, rfl⟩ := hi
  case fetchEvents => exact fetchClaim_wakesRight h _
  case configurePort => exact configurePortClaim_wakesRight h _
  case attach => exact attachClaim_wakesRight h _
  case detach => exact detachClaim_wakesRight h _
  case nopEcho => exact echoClaim_wakesRight h _

theorem effect_requestRow_wakesRight {i : Instr} {row : ReqRow} {p : Port} (hi : requestRow i = some (row, p)) {c : Chip}
    (h : c.wakesRight) : (effect i c).wakesRight := by
  rcases requestRow_cases hi with ⟨b, e, n, f, hrun⟩ | ⟨f, hrun⟩ | ⟨hub, parts, g, hrun⟩
  · obtain ⟨_, H⟩ := requestRun_rowOf hrun
    rw [effect_of_requestRun hrun]
    exact H.runRequest_wakesRight h e
  · rw [effect_of_ownRun hrun]
    exact ownRun_wakesRight hrun (h.dispatchHead row p)
  · rw [effect_of_gatherRun hrun]
    cases g with
    | dispatch => exact h.dispatchHead row p
    | part b => exact gatherPart_wakesRight h p hub b
    | whole =>
      refine foldl_gatherPart_wakesRight ?_ p hub parts
      split
      · exact h
      · exact h.dispatchHead row p

/-! ## The commands that leave every Port Controller as it was -/

theorem Chip.requeueDecision_pcs (c : Chip) (i : SlotNo) (n : Nat) : (c.requeueDecision i n).pcs = c.pcs := by
  unfold Chip.requeueDecision
  split
  · rfl
  · split <;> rfl

theorem takeHandOver_pcs (c : Chip) : (takeHandOver c).pcs = c.pcs := by
  have henter : ∀ (d : Chip) m t, (d.enterTake m t).pcs = d.pcs := fun d m t => by
    unfold Chip.enterTake
    dsimp only
    split <;> rfl
  unfold takeHandOver
  split
  · rfl
  · dsimp only
    split
    · rfl
    · split
      · exact henter _ _ _
      · rfl
      · exact Chip.requeueDecision_pcs _ _ _

theorem takePlace_pcs (src : PlaceSender) (c : Chip) : (takePlace src c).pcs = c.pcs := by
  have hdrop : (c.dropPlace src).pcs = c.pcs := by cases src <;> rfl
  have hreleased : ∀ (d : Chip) r, (d.raiseReleased src r).pcs = d.pcs := fun d r => by cases src <;> cases r <;> rfl
  unfold takePlace
  split
  · rfl
  · split
    · rfl
    · rw [hreleased, (Chip.placeAt_step _ _ _).pcs, hdrop]

theorem takeRequeue_pcs (c : Chip) : (takeRequeue c).pcs = c.pcs := by
  unfold takeRequeue
  split
  · rfl
  · split
    · rfl
    · exact (Chip.placeShared_step _ _).pcs

theorem takeRetire_pcs (src : RetireSender) (c : Chip) : (takeRetire src c).pcs = c.pcs := by
  unfold takeRetire
  split
  · rfl
  · rename_i m _ _
    have hfreed : ((c.dropRetire src).freeSlot m.slot).pcs = c.pcs := by rw [(Chip.freeSlot_step _ _).pcs, Chip.dropRetire_eq]
    unfold Chip.retireTicket
    dsimp only
    split <;> exact hfreed

theorem takeChildEnd_pcs (c : Chip) : (takeChildEnd c).pcs = c.pcs := by
  unfold takeChildEnd
  split
  · rfl
  · unfold Chip.endChild
    dsimp only
    split
    · exact (Chip.release_step _ _ _).pcs
    · rfl

theorem takeWalkStep_pcs (c : Chip) : (takeWalkStep c).pcs = c.pcs := by
  unfold takeWalkStep
  split
  · rfl
  · split
    · rfl
    · split
      · rfl
      · dsimp only
        rw [Chip.retireWalked_eq]
        exact Chip.setRunList_pcs _ _ _

theorem takeWalkEnd_pcs (c : Chip) : (takeWalkEnd c).pcs = c.pcs := by
  unfold takeWalkEnd
  split
  · rfl
  · rename_i w ws _
    split
    · dsimp only
      rw [Chip.clearWalkPending_eq]
      split <;> split <;> rfl
    · rfl

theorem takeFrtNotice_pcs (p : Port) (c : Chip) : (takeFrtNotice p c).pcs = c.pcs := by
  unfold takeFrtNotice
  split <;> rfl

theorem takeStealableOn_pcs (p : Port) (c : Chip) : (takeStealableOn p c).pcs = c.pcs := by
  unfold takeStealableOn
  split
  · split
    · rfl
    · exact (Chip.parkedService_step _ _).pcs
  · rfl

theorem offerSteals_pcs : ∀ (n : Nat) (p : Port) (c : Chip), (offerSteals n p c).pcs = c.pcs
  | 0, _, _ => rfl
  | n + 1, p, c => by
    have hsearch := (c.stealSearch_step p).pcs
    unfold offerSteals
    split
    · rfl
    · split
      · rename_i c1 i v hs
        rw [hs] at hsearch
        exact (offerSteals_pcs n p _).trans hsearch
      · rename_i c1 hs
        rw [hs] at hsearch
        exact hsearch

theorem takeStealEnableOn_pcs (p : Port) (c : Chip) : (takeStealEnableOn p c).pcs = c.pcs := by
  unfold takeStealEnableOn
  split
  · split
    · rfl
    · dsimp only
      split
      · exact offerSteals_pcs _ p _
      · rfl
  · rfl

theorem takeParkTimeout_pcs (p : Port) (tag : Tag) (c : Chip) : (takeParkTimeout p tag c).pcs = c.pcs := by
  unfold takeParkTimeout
  split
  · split <;> rfl
  · rfl

theorem takePortLeave_pcs (p : Port) (c : Chip) : (takePortLeave p c).pcs = c.pcs := by
  unfold takePortLeave
  split
  · split
    · rfl
    · dsimp only
      rw [(Chip.transfer_step _ _).pcs]
      split
      · rfl
      · rw [Chip.answerParked_eq]; rfl
  · rfl

theorem takeSetupNotice_pcs (c : Chip) : (takeSetupNotice c).pcs = c.pcs := by
  unfold takeSetupNotice
  split
  · rfl
  · dsimp only
    rw [Chip.answerParked_eq]; rfl

theorem Chip.loseEntries_pcs : ∀ (es : List RunEntry) (c : Chip), (c.loseEntries es).pcs = c.pcs
  | [], _ => rfl
  | e :: es, c => (Chip.loseEntries_pcs es (c.loseEntry e)).trans (Chip.requeueDecision_pcs (c.removeEntry e) _ _)

theorem takeLeaseExpiry_pcs (i : SlotNo) (c : Chip) : (takeLeaseExpiry i c).pcs = c.pcs := by
  unfold takeLeaseExpiry
  split
  · split
    · exact Chip.loseEntries_pcs [_] c
    · rfl
  · rfl

theorem takeLossClaim_pcs (p : Port) (c : Chip) : (takeLossClaim p c).pcs = c.pcs := by
  unfold takeLossClaim
  split
  · split
    · rfl
    · exact Chip.loseEntries_pcs _ _
  · rfl

theorem takeAttachRqc_pcs (p : Port) (c : Chip) : (takeAttachRqc p c).pcs = c.pcs := by
  unfold takeAttachRqc
  split <;> rfl

theorem takeAttachLtu_pcs (p : Port) (c : Chip) : (takeAttachLtu p c).pcs = c.pcs := by
  unfold takeAttachLtu
  split <;> rfl

theorem takeCheck_pcs (c : Chip) : (takeCheck c).pcs = c.pcs := by
  unfold takeCheck
  split <;> rfl

theorem takeCompletion_pcs (c : Chip) : (takeCompletion c).pcs = c.pcs := by
  unfold takeCompletion
  split
  · dsimp only
    split <;> rfl
  · rfl

theorem takeTick_pcs (c : Chip) : (takeTick c).pcs = c.pcs := by
  unfold takeTick
  split <;> rfl

theorem Chip.period_pcs (c : Chip) : c.period.pcs = c.pcs := takeTick_pcs c

/-! ## The commands of a Port Controller -/

section port
variable {c : Chip} (h : c.wakesRight) (p : Port)
include h

theorem takeArrival_wakesRight : (takeArrival p c).wakesRight := by
  have hdrop : (c.dropReport p).wakesRight := h.of_pcs rfl
  have herror := hdrop.updPc p (f := Pc.protocolError) Pc.wakeRight.protocolError
  unfold takeArrival
  split
  · split
    · unfold Chip.arrive
      split
      · exact herror
      · split
        · exact herror.of_pcs rfl
        · split
          · exact herror.of_pcs rfl
          · exact hdrop.updPc p id
    · exact h
  · exact h

theorem takeSend_wakesRight : (takeSend p c).wakesRight := by
  unfold takeSend
  split
  · exact h
  · rename_i r rest _
    split
    · exact (h.updPc p (f := fun x => { x with responses := rest, credit := x.credit - 1 }) id).of_pcs rfl
    · exact h

theorem takeAnswer_wakesRight (tag : Tag) : (takeAnswer p tag c).wakesRight := by
  unfold takeAnswer
  split
  · exact Chip.wakesRight.updPc (h.of_pcs rfl) p id
  · exact h

theorem takeCredit_wakesRight : (takeCredit p c).wakesRight := by
  unfold takeCredit
  split
  · split
    · exact Chip.wakesRight.updPc (c := c.dropReport p) (h.of_pcs rfl) p id
    · exact h
  · exact h

theorem takeHoldCheck_wakesRight : (takeHoldCheck p c).wakesRight := by
  have hdrop : (c.dropLtuNotice p).wakesRight := h.of_pcs rfl
  have hmark : ((c.dropLtuNotice p).setDeparted p (some .detaching)).wakesRight := h.of_pcs rfl
  unfold takeHoldCheck
  split
  · dsimp only
    split
    · split
      · exact hdrop.finish p _ _ _
      · exact hdrop
    · split
      · have hstage : (((c.dropLtuNotice p).setDeparted p (some .detaching)).setStage p .leaving).wakesRight := hmark.updPc p id
        exact (hstage.updPc p (f := fun x => { x with leave := .detach, events := .none }.evalWake) fun _ =>
          Pc.evalWake_right _).of_pcs rfl
      · exact hmark
  · exact h

theorem takeDetachEnd_wakesRight : (takeDetachEnd p c).wakesRight := by
  have hanswered : ∀ d : Chip, d.wakesRight → (d.answerDetach p).wakesRight := fun d hd => by
    unfold Chip.answerDetach
    split
    · exact hd.finish p _ _ _
    · exact hd
  unfold takeDetachEnd
  split
  · have hlinked := Chip.wakesRight.updPc (c := c.dropEvents p) (h.of_pcs rfl) p
      (f := fun x => { x with state := .linked, leave := .no, params := .default }.evalWake) fun _ => Pc.evalWake_right _
    exact hanswered _ (hlinked.of_pcs (Chip.raisePeerChange_pcs _ p))
  · exact h

theorem takeEvent_wakesRight (k : EventKind) : (takeEvent p k c).wakesRight := by
  unfold takeEvent
  split
  · exact Chip.wakesRight.updPc (h.of_pcs rfl) p fun hx => hx.record k
  · exact h

theorem takeLinkUp_wakesRight : (takeLinkUp p c).wakesRight := by
  unfold takeLinkUp
  split
  · exact (Chip.wakesRight.updPc (c := c.dropReport p) (h.of_pcs rfl) p (f := Pc.linkUp) fun _ => Pc.evalWake_right _).of_pcs rfl
  · exact h

theorem takePortLoss_wakesRight : (takePortLoss p c).wakesRight := by
  have hclaim : ∀ d : Chip, (d.claimLoss p).pcs = d.pcs := fun d => by
    unfold Chip.claimLoss
    split <;> rfl
  unfold takePortLoss
  split
  · have hclaimed : ((c.dropReport p).claimLoss p).wakesRight := h.of_pcs (hclaim _)
    have hdropped : ((((c.dropReport p).claimLoss p).notifyLtu p .loss).dropEvents p).wakesRight := hclaimed.of_pcs rfl
    exact hdropped.updPc p (f := Pc.lose) fun _ => Pc.evalWake_right _
  · exact h

theorem takePortLossEnd_wakesRight : (takePortLossEnd p c).wakesRight := by
  unfold takePortLossEnd
  split
  · rename_i hl
    split
    · exact Chip.wakesRight.setLeave (c := c.sendFrtNotice p) (h.of_pcs rfl) (Pc.active_eq_false_of_leave (hl ▸ Leave.noConfusion))
        Leave.noConfusion
    · exact h
  · split
    · have hdown := Chip.wakesRight.updPc (c := c.dropEvents p) (h.of_pcs rfl) p (f := Pc.goDown) fun _ => Pc.evalWake_right _
      exact hdown.of_pcs (Chip.raisePeerChange_pcs _ p)
    · exact h
  · exact h

theorem Chip.beginLinkDown_wakesRight (hs : (c.pc p).state = .linked) : (c.beginLinkDown p).wakesRight := by
  unfold Chip.beginLinkDown
  split
  · have htaken : (c.taken p).wakesRight := h.updPc p id
    refine htaken.setLeave (Pc.active_eq_false_of_linked ?_) Leave.noConfusion
    rw [Chip.taken, Chip.pc_updPc_self]
    exact hs
  · exact h.drop (Pc.active_eq_false_of_linked hs)

theorem takeLinkDown_wakesRight : (takeLinkDown p c).wakesRight := by
  unfold takeLinkDown
  split
  · split
    · rename_i hd
      obtain ⟨_, hs⟩ := hd
      exact Chip.beginLinkDown_wakesRight (c := c.dropReport p) (h.of_pcs rfl) p hs
    · exact h
  · rename_i hl
    split
    · exact Chip.wakesRight.setLeave (c := (c.notifyRqc p (.leave true)).notifyLtu p .loss) (h.of_pcs rfl)
        (Pc.active_eq_false_of_leave (hl ▸ Leave.noConfusion)) Leave.noConfusion
    · exact h
  · rename_i hl
    split
    · exact h.drop (Pc.active_eq_false_of_leave (hl ▸ Leave.noConfusion))
    · exact h
  · rename_i hl
    split
    · exact Chip.wakesRight.setLeave (c := c.sendFrtNotice p) (h.of_pcs rfl) (Pc.active_eq_false_of_leave (hl ▸ Leave.noConfusion))
        Leave.noConfusion
    · exact h
  · split
    · exact h.updPc p fun _ => Pc.evalWake_right _
    · exact h
  · exact h

end port

/-! ## Every command, and the step -/

/-- Every command other than those of RST_N keeps the WAKE lines right. -/
theorem effect_wakesRight (i : Instr) {c : Chip} (h : c.wakesRight) : (effect i c).wakesRight := by
  cases hrow : requestRow i with
  | some x => exact effect_requestRow_wakesRight (p := x.2) hrow h
  | none =>
    cases hlink : linkRun i with
    | some x => rw [effect_of_linkRun (p := x.1) hlink]; exact h.of_pcs rfl
    | none =>
      cases i <;> simp only [requestRow, linkRun, reduceCtorEq] at hrow hlink
      case take => exact h.of_pcs (takeHandOver_pcs c)
      case attachNoticeRqc p => exact h.of_pcs (takeAttachRqc_pcs p c)
      case attachNoticeLtu p => exact h.of_pcs (takeAttachLtu_pcs p c)
      case holdCheck p => exact takeHoldCheck_wakesRight h p
      case portLeaveClaim p => exact h.of_pcs (takePortLeave_pcs p c)
      case detachEnd p => exact takeDetachEnd_wakesRight h p
      case requestArrival p => exact takeArrival_wakesRight h p
      case sendResponse x =>
        cases x with
        | claim p tag => exact takeAnswer_wakesRight h p tag
        | head p => exact takeSend_wakesRight h p
      case receivedCredit p => exact takeCredit_wakesRight h p
      case place src => exact h.of_pcs (takePlace_pcs src c)
      case requeue => exact h.of_pcs (takeRequeue_pcs c)
      case retire src => exact h.of_pcs (takeRetire_pcs src c)
      case childEnd => exact h.of_pcs (takeChildEnd_pcs c)
      case cancelWalkStep => exact h.of_pcs (takeWalkStep_pcs c)
      case cancelWalkEnd => exact h.of_pcs (takeWalkEnd_pcs c)
      case stealableOn p => exact h.of_pcs (takeStealableOn_pcs p c)
      case stealEnableOn p => exact h.of_pcs (takeStealEnableOn_pcs p c)
      case leaseExpiry i => exact h.of_pcs (takeLeaseExpiry_pcs i c)
      case parkTimeout p tag => exact h.of_pcs (takeParkTimeout_pcs p tag c)
      case pendingEventRecord p k => exact takeEvent_wakesRight h p k
      case linkUpReport p => exact takeLinkUp_wakesRight h p
      case portLoss p => exact takePortLoss_wakesRight h p
      case portLossClaimLtu p => exact h.of_pcs (takeLossClaim_pcs p c)
      case portLossEnd p => exact takePortLossEnd_wakesRight h p
      case frtPortLossNotice p => exact h.of_pcs (takeFrtNotice_pcs p c)
      case linkDownFromLinked p => exact takeLinkDown_wakesRight h p
      case completionCheck => exact h.of_pcs (takeCheck_pcs c)
      case quiesceCompletion => exact h.of_pcs (takeCompletion_pcs c)
      case setupNotice => exact h.of_pcs (takeSetupNotice_pcs c)
      case tick => exact h.of_pcs (takeTick_pcs c)
      case rstNAssert => exact h
      case rstNDeassert => exact h
      case storedWordDisturbance => exact h.of_pcs rfl

theorem Chip.powerOn_wakesRight (straps : PerPort Bool) : (Chip.powerOn straps).wakesRight := fun p => by
  rw [Chip.powerOn_pc]
  cases straps.get p <;> rfl

/-- Settles O58: by what the step is, a period or a command that keeps the lines right, the power-on values, or no change. -/
theorem stepKeepsWakeLines : Obligations.StepKeepsWakeLines := by
  intro s t h hstep
  have hidle : (idle s).chip.wakesRight := by
    unfold idle
    dsimp only
    split
    · exact h
    · exact h.of_pcs s.chip.period_pcs
  obtain rfl | ⟨straps, ht | ht⟩ | ht | ⟨i, _, ht⟩ := step_cases hstep
  · exact hidle
  · rw [ht]; exact (Chip.powerOn_wakesRight straps).of_pcs rfl
  · rw [ht]; exact Chip.powerOn_wakesRight straps
  · rw [ht]; exact h
  · rw [ht]; exact effect_wakesRight i h

end Sys2Proof.Machine
end

section
/-! What a Port Controller does with a report of its Link Engine and with an event: a request that arrives, a link up, a port loss, the pending events set
(O8, O40, O44, O46). -/

namespace Sys2Proof.Machine

/-! ## One port rewritten -/

/-- The hub with `p`'s Port Controller at `x` and its Link Engine at `l`. -/
def Chip.withPort (c : Chip) (p : Port) (x : Pc) (l : Link) : Chip := { c with pcs := c.pcs.set p x, links := c.links.set p l }

section withPort
variable (c : Chip) (p : Port) (x : Pc) (l : Link)

@[simp] theorem Chip.withPort_pc : (c.withPort p x l).pc p = x := c.pcs.get_set_self p x

@[simp] theorem Chip.withPort_updPc (f : Pc → Pc) : (c.withPort p x l).updPc p f = c.withPort p (f x) l := by
  simp [Chip.withPort, Chip.updPc]

@[simp] theorem Chip.withPort_updLink (f : Link → Link) : (c.withPort p x l).updLink p f = c.withPort p x (f l) := by
  simp [Chip.withPort, Chip.updLink]

end withPort

/-- The next report is the head of the stream. -/
theorem Chip.report_eq {c : Chip} {p : Port} {r : Report} {rest : List Report} (h : (c.link p).reports = r :: rest) :
    c.report p = some r := by rw [Chip.report, h]; rfl

/-- The next report is taken: the others stand, and nothing else changes. -/
theorem Chip.dropReport_eq {c : Chip} {p : Port} {r : Report} {rest : List Report} (h : (c.link p).reports = r :: rest) :
    c.dropReport p = c.withPort p (c.pc p) { c.link p with reports := rest } := by
  have htail : (c.link p).reports.tail = rest := by rw [h]; rfl
  apply Chip.ext_fields <;> try rfl
  · exact (c.pcs.set_get_self p).symm
  · rw [← htail]; rfl

/-! ## Events at a Port Controller (R141, R146) -/

theorem Pc.evalWake_of_no_events {x : Pc} (h : x.events = .none) : x.evalWake = { x with wake := false } := by
  simp [Pc.evalWake, h]

/-- R141: an ATTACHED port that is not leaving records every kind, a LINKED one PROTOCOL alone, any other none; the line of a LINKED port stays
deasserted. -/
theorem Pc.record_eq (x : Pc) (k : EventKind) : x.record k =
    if x.leave = .no ∧ (x.state = .attached ∨ x.state = .linked ∧ k = .protocol) then
      { x with events := x.events.insert k, wake := x.state == .attached && (x.events.insert k).meets x.params.eventMask }
    else x := by
  have hcond : (x.active || (x.state == .linked && x.leave == .no && k == .protocol)) = true ↔
      x.leave = .no ∧ (x.state = .attached ∨ x.state = .linked ∧ k = .protocol) := by
    simp only [Pc.active, Bool.or_eq_true, Bool.and_eq_true, beq_iff_eq]
    tauto
  unfold Pc.record
  rw [if_congr hcond rfl rfl]
  split
  · rename_i hk
    simp [Pc.evalWake, Pc.active, hk.1]
  · rfl

/-- R146: the count rises, and PROTOCOL is recorded when the port is ATTACHED or LINKED and not leaving. -/
theorem Pc.protocolError_eq (x : Pc) : x.protocolError =
    if x.leave = .no ∧ (x.state = .attached ∨ x.state = .linked) then
      { x with
        errors := min (x.errors + 1) 255, events := x.events.insert .protocol
        wake := x.state == .attached && (x.events.insert .protocol).meets x.params.eventMask }
    else { x with errors := min (x.errors + 1) 255 } := by
  rw [Pc.protocolError, Pc.record_eq]
  simp only [and_true]

/-! ## REQUEST_ARRIVAL (R164) -/

section arrival
variable {c : Chip} {p : Port} {words : List Word}

section checks
variable {x : Pc} (hx : c.pc p = x)
include hx

/-- Check 1: without a credit the request is discarded, and no credit returns. -/
theorem Chip.arrive_noCredit (hg : x.granted = 0) : c.arrive p words = c.updPc p Pc.protocolError := if_pos (hx ▸ hg)

/-- Check 2: a header that cannot be decoded; the credit returns. -/
theorem Chip.arrive_noHeader (hg : 0 < x.granted) (hd : decodeHeader words = none) :
    c.arrive p words = (c.updPc p Pc.protocolError).updLink p fun l => l.addCredits 1 := by
  rw [Chip.arrive, hx, if_neg (Nat.ne_of_gt hg), hd]

/-- Check 3: a tag that is outstanding; the credit returns. -/
theorem Chip.arrive_tagInUse {k : Packet} (hg : 0 < x.granted) (hd : decodeHeader words = some k) (ht : k.tag ∈ x.outstanding) :
    c.arrive p words = (c.updPc p Pc.protocolError).updLink p fun l => l.addCredits 1 := by
  rw [Chip.arrive, hx, if_neg (Nat.ne_of_gt hg), hd]
  exact if_pos (List.contains_iff_mem.mpr ht)

theorem Chip.arrive_accepted {k : Packet} (hg : 0 < x.granted) (hd : decodeHeader words = some k) (ht : k.tag ∉ x.outstanding) :
    c.arrive p words = c.updPc p fun x => x.accept k := by
  rw [Chip.arrive, hx, if_neg (Nat.ne_of_gt hg), hd]
  exact if_neg fun hc => ht (List.contains_iff_mem.mp hc)

end checks

/-- The accepted-packet report is taken, and its packet meets the checks. -/
theorem takeArrival_eq {rest : List Report} (hr : (c.link p).reports = .packet words :: rest) (ho : (c.pc p).online = true) :
    takeArrival p c = (c.withPort p (c.pc p) { c.link p with reports := rest }).arrive p words := by
  simp only [takeArrival, Chip.report_eq hr, ho, if_true, Chip.dropReport_eq hr]

end arrival

/-- Settles O8: check by check, and what a protocol error does. -/
theorem arrivalChecksInOrder : Obligations.ArrivalChecksInOrder := by
  refine ⟨fun s p words rest hr hw ho => ?_, Pc.protocolError_eq⟩
  intro x l returned after
  have hexec : exec (.requestArrival p) s = .next ⟨s.pending, (s.chip.withPort p x l).arrive p words⟩ := by
    rw [← takeArrival_eq hw ho]
    exact State.run_of_not_rst hr
  have hpc : (s.chip.withPort p x l).pc p = x := s.chip.withPort_pc p x l
  rw [hexec]
  refine ⟨fun hg => ?credit, fun hg hd => ?header, fun k hg hd ht => ?tag, fun k hg hd ht => ?accepted⟩
  case credit => rw [Chip.arrive_noCredit hpc hg, Chip.withPort_updPc]; rfl
  case header => rw [Chip.arrive_noHeader hpc hg hd, Chip.withPort_updPc, Chip.withPort_updLink]; rfl
  case tag => rw [Chip.arrive_tagInUse hpc hg hd ht, Chip.withPort_updPc, Chip.withPort_updLink]; rfl
  case accepted => rw [Chip.arrive_accepted hpc hg hd ht, Chip.withPort_updPc]; rfl

/-! ## LINK_UP_REPORT (R124) -/

/-- A port that is not leaving is LINKED with its tables empty and its line deasserted. -/
theorem Pc.linkUp_eq {x : Pc} (h : x.leave = .no) : x.linkUp = { x with
    state := .linked, outstanding := [], buffer := [], granted := 8, current := none, atBlock := .same none, gathers := []
    reserved := 0, responses := [], credit := 0, discarding := false, events := .none, errors := 0, wake := false } := by
  rw [Pc.linkUp, Pc.evalWake_of_no_events rfl, ← h]

/-- Settles O40. -/
theorem linkUpMakesPortLinked : Obligations.LinkUpMakesPortLinked := by
  intro s p rest hr hw hs hl
  have hexec : exec (.linkUpReport p) s = .next ⟨s.pending, takeLinkUp p s.chip⟩ := State.run_of_not_rst hr
  rw [hexec, takeLinkUp, if_pos ⟨Chip.report_eq hw, hs, hl⟩, Chip.dropReport_eq hw, Chip.withPort_updPc, Chip.withPort_updLink,
    Pc.linkUp_eq hl]
  rfl

/-! ## PORT_LOSS (R134) -/

/-- The line is deasserted, and a DETACH is under way no more. -/
theorem Pc.lose_eq (x : Pc) : x.lose = { x with
    leave := .loss, buffer := [], events := .none, responses := [], discarding := true, current := endedDetach x.current
    wake := false } := by
  rw [Pc.lose, Pc.evalWake_of_no_events rfl]

/-- The port-leave claim of a loss: a DETACH's claim not yet taken becomes it, else it is sent. -/
theorem Chip.claimLoss_eq (c : Chip) (p : Port) : c.claimLoss p = { c with
    wires := { c.wires with
      toRqc := c.wires.toRqc.set p
        (if (c.pc p).leave = .detach then (c.wires.toRqc.get p).map fun n => if n = .leave false then .leave true else n
        else c.wires.toRqc.get p ++ [.leave true]) } } := by
  unfold Chip.claimLoss
  split
  · rename_i hl
    rw [if_pos hl]; rfl
  · rename_i hl
    rw [if_neg hl]; rfl

/-- Settles O44. -/
theorem portLossBegins : Obligations.PortLossBegins := by
  intro s p rest hr hw hs hl
  have hexec : exec (.portLoss p) s = .next ⟨s.pending, takePortLoss p s.chip⟩ := State.run_of_not_rst hr
  have ha : s.chip.attached p = true := beq_iff_eq.mpr hs
  have hpc : (s.chip.dropReport p).pc p = s.chip.pc p := rfl
  rw [hexec, takePortLoss, if_pos ⟨Chip.report_eq hw, ha, hl⟩, Chip.claimLoss_eq, hpc, Chip.dropReport_eq hw]
  congr 2
  apply Chip.ext_fields <;> try rfl
  show (s.chip.pcs.set p (s.chip.pc p)).set p (Pc.lose ((s.chip.pcs.set p (s.chip.pc p)).get p)) = _
  rw [PerPort.set_set, PerPort.get_set_self, Pc.lose_eq]
  rfl

/-! ## PENDING_EVENT_RECORD and FETCH_EVENTS (R141, R143) -/

/-- An event on its way is taken, and recorded as the port's state says. -/
theorem takeEvent_eq {c : Chip} {p : Port} {k : EventKind} (h : k ∈ c.wires.events.get p) : takeEvent p k c = { c with
    pcs := c.pcs.set p ((c.pc p).record k)
    wires := { c.wires with events := c.wires.events.set p ((c.wires.events.get p).erase k) } } := by
  rw [takeEvent, if_pos (List.contains_iff_mem.mpr h)]
  rfl

/-- A Port Controller answers a request that it has dispatched and that leaves it, but for its answer, at `y`. -/
theorem Chip.asked_finish (c : Chip) (p : Port) (k : Current) {y : Pc} (hy : y.current = none) (tag : Tag) (status : Status)
    (body : List Word) :
    (c.asked p { y.passed with current := some k }).finish p tag status body = c.asked p (y.served tag status body) := by
  have hserved : Pc.respond { y.passed with current := none } tag status body = y.served tag status body := by
    rw [← hy]; rfl
  rw [Chip.finish_eq, Chip.asked_pc_self, hserved]
  simp [Chip.asked]

/-- R143: the set as it stood is the answer, and none of it is left. -/
theorem fetchClaim_ready {c : Chip} {p : Port} {m : Packet} (h : c.ready p m .fetchEvents) :
    fetchClaim p (c.dispatched p ⟨m.tag, .fetchEvents, .given⟩) =
      c.asked p { (c.pc p).served m.tag .ok (eventsBody (c.pc p).events) with events := .none, wake := false } := by
  have hy : ({ c.pc p with events := .none, wake := false } : Pc).current = none := h.current
  simp only [fetchClaim, Chip.dispatched_current]
  rw [Chip.dispatched, Chip.asked_updPc, Chip.asked_pc_self, Pc.evalWake_of_no_events rfl]
  exact c.asked_finish p ⟨m.tag, .fetchEvents, .given⟩ hy ..

/-- Settles O46: an event taken, and the set fetched. -/
theorem eventsRecordedAndFetched : Obligations.EventsRecordedAndFetched := by
  refine ⟨fun s p k hr hk => ?recorded, fun s p k hready => ?fetched⟩
  case recorded =>
    intro x
    have hexec : exec (.pendingEventRecord p k) s = .next ⟨s.pending, takeEvent p k s.chip⟩ := State.run_of_not_rst hr
    rw [hexec, takeEvent_eq hk, Pc.record_eq]
  case fetched =>
    rw [exec_own hready (show ownRun (.fetchEvents p) = some (.fetchEvents, p, fetchClaim p) from rfl), fetchClaim_ready hready]
    rfl

end Sys2Proof.Machine
end

section
/-! A port leaves: DETACH by its claims, and the ends of a port loss and of a link down from LINKED (O42, O45). -/

namespace Sys2Proof.Machine

/-! ## What both leaves share -/

/-- The line of a port that is not ATTACHED, or that is leaving, is deasserted when it is re-evaluated. -/
theorem Pc.evalWake_of_inactive {x : Pc} (h : x.active = false) : x.evalWake = { x with wake := false } := by
  rw [Pc.evalWake, h, Bool.false_and]

/-- The oldest notice of a port to the LTU is taken: the others stand. -/
theorem Chip.dropLtuNotice_eq {c : Chip} {p : Port} {n : LtuNotice} {rest : List LtuNotice} (h : c.wires.toLtu.get p = n :: rest) :
    c.dropLtuNotice p = { c with wires := { c.wires with toLtu := c.wires.toLtu.set p rest } } := by
  simp only [Chip.dropLtuNotice, PerPort.upd_eq, h, List.tail_cons]

/-- The end of a leave: the port's Port Controller changes, the events on their way to it are gone, and PEER_CHANGE goes to every other port that is
ATTACHED and not leaving (R131, R135, R142). -/
theorem Chip.leaveEnded_eq (c : Chip) (p : Port) (f : Pc → Pc) : ((c.dropEvents p).updPc p f).raisePeerChange p = { c with
    pcs := c.pcs.set p (f (c.pc p))
    wires := { c.wires with
      events := .tab fun q =>
        if q = p then []
        else if (c.pc q).state = .attached ∧ (c.pc q).leave = .no then c.wires.events.get q ++ [.peerChange]
        else c.wires.events.get q } } := by
  rw [Chip.raisePeerChange_eq]
  apply Chip.ext_fields <;> try rfl
  refine congrArg (fun e => { c.wires with events := e }) (PerPort.ext_get fun q => ?_)
  rw [PerPort.get_tab, PerPort.get_tab]
  by_cases hq : q = p
  · subst hq
    rw [if_neg fun hne => hne.1 rfl, if_pos rfl]
    exact c.wires.events.get_set_self q []
  · have hpc : ((c.dropEvents p).updPc p f).pc q = c.pc q := (c.dropEvents p).pc_updPc_ne f hq
    have hevents : ((c.dropEvents p).updPc p f).wires.events.get q = c.wires.events.get q := c.wires.events.get_set_ne [] hq
    simp only [hpc, hevents, hq, ne_eq, not_false_eq_true, true_and, if_false]

/-! ## DETACH (R130, R131) -/

section detach
variable {c : Chip} {p : Port} {tag : Tag}

/-- From an ATTACHED port the hold check is sent. -/
theorem detachClaim_attached (hs : (c.pc p).state = .attached) :
    detachClaim p (c.dispatched p ⟨tag, .detach, .given⟩) = { c.passed p with
      pcs := c.pcs.set p { (c.pc p).passed with current := some ⟨tag, .detach, .holdWait⟩ }
      wires := { c.wires with toLtu := c.wires.toLtu.set p (c.wires.toLtu.get p ++ [.holdCheck]) } } := by
  have ha : c.attached p = true := beq_iff_eq.mpr hs
  simp only [detachClaim, Chip.dispatched_current, Chip.dispatched_attached, ha, if_true, Chip.dispatched_setStage]
  rfl

theorem detachClaim_linked {k : Packet} (h : c.ready p k .detach) (hs : (c.pc p).state = .linked) :
    detachClaim p (c.dispatched p ⟨k.tag, .detach, .given⟩) = c.answered p k.tag .notAttached [] := by
  have ha : c.attached p = false := by simp [Chip.attached, hs]
  simp only [detachClaim, Chip.dispatched_current, Chip.dispatched_attached, ha, Bool.false_eq_true, if_false, Chip.dispatched_finish h]

theorem Chip.detachWaiting_eq (hk : (c.pc p).current = some ⟨tag, .detach, .holdWait⟩) (hl : (c.pc p).leave = .no) :
    c.detachWaiting p = some tag := by
  simp only [Chip.detachWaiting, hk, hl]

/-- A port that holds an entry keeps it: its DETACH is answered HOLDING. -/
theorem takeHoldCheck_refused {rest : List LtuNotice} (hw : c.wires.toLtu.get p = .holdCheck :: rest) (hd : c.detachWaiting p = some tag)
    (hh : 0 < c.ltu.held.get p) : takeHoldCheck p c = (c.dropLtuNotice p).finish p tag .holding [] := by
  simp only [takeHoldCheck, hw, hd, hh, if_true]

/-- A port without an entry is marked detaching, and its leave begins. -/
theorem takeHoldCheck_passed {rest : List LtuNotice} (hw : c.wires.toLtu.get p = .holdCheck :: rest) (hd : c.detachWaiting p = some tag)
    (hh : c.ltu.held.get p = 0) : takeHoldCheck p c = ((c.dropLtuNotice p).setDeparted p (some .detaching)).beginLeave p := by
  simp only [takeHoldCheck, hw, hd, hh, Nat.lt_irrefl, if_false]

theorem Chip.beginLeave_eq {k : Current} (hk : (c.pc p).current = some k) : c.beginLeave p = { c with
    pcs := c.pcs.set p { c.pc p with
      current := some { k with stage := .leaving }, leave := .detach, events := .none, wake := false }
    wires := { c.wires with
      toRqc := c.wires.toRqc.set p (c.wires.toRqc.get p ++ [.leave false])
      events := c.wires.events.set p [] } } := by
  have hpc : (c.setStage p .leaving).pc p = { c.pc p with current := some { k with stage := .leaving } } := by
    rw [Chip.setStage, Chip.pc_updPc_self, hk]
    rfl
  apply Chip.ext_fields <;> try rfl
  show (c.setStage p .leaving).pcs.set p (Pc.evalWake { (c.setStage p .leaving).pc p with leave := .detach, events := .none }) = _
  rw [hpc, Pc.evalWake_of_no_events rfl, Chip.setStage_pcs, PerPort.upd_eq, PerPort.set_set]

/-- R131 step 3: the port LINKED with default parameters, and its DETACH answered OK. -/
theorem takeDetachEnd_ended (hl : (c.pc p).leave = .detach) (hk : (c.pc p).current = some ⟨tag, .detach, .leaving⟩)
    (he : c.rqcLeaveEnded p = true) : takeDetachEnd p c = { c with
    pcs := c.pcs.set p
      ({ c.pc p with
        state := .linked, leave := .no, params := ⟨64, true, true, true, 12500, .none⟩, current := none
        wake := false }.respond tag .ok [])
    wires := { c.wires with
      events := .tab fun q =>
        if q = p then []
        else if (c.pc q).state = .attached ∧ (c.pc q).leave = .no then c.wires.events.get q ++ [.peerChange]
        else c.wires.events.get q } } := by
  have hlinked : ({ c.pc p with state := .linked, leave := .no, params := .default } : Pc).evalWake =
      { c.pc p with state := .linked, leave := .no, params := ⟨64, true, true, true, 12500, .none⟩, wake := false } :=
    Pc.evalWake_of_inactive (Pc.active_eq_false_of_linked rfl)
  rw [takeDetachEnd, if_pos ⟨hl, he⟩, Chip.leaveEnded_eq, hlinked]
  simp only [Chip.answerDetach, Chip.pc, PerPort.get_set_self] at hk ⊢
  simp only [hk, Chip.finish_eq, Chip.pc, PerPort.get_set_self, PerPort.set_set]

end detach

/-- Settles O42: the DETACH from ATTACHED and from LINKED, the hold check, and the end of the leave. -/
theorem detachByItsClaims : Obligations.DetachByItsClaims := by
  refine ⟨fun s p hr => ⟨fun k h hs => ?attached, fun k h hs => ?linked, fun tag rest hwait hl hw => ?check⟩,
    fun s p tag hwait hl => ⟨fun hrqc htakes => ?ends, fun hn => ?waits⟩⟩
  case attached =>
    rw [exec_own h (show ownRun (.detach p) = some (.detach, p, detachClaim p) from rfl), detachClaim_attached hs]
  case linked =>
    rw [exec_own h (show ownRun (.detach p) = some (.detach, p, detachClaim p) from rfl), detachClaim_linked h hs]
  case check =>
    intro wires
    obtain ⟨_, hk⟩ := hwait
    have hexec : exec (.holdCheck p) s = .next ⟨s.pending, takeHoldCheck p s.chip⟩ := State.run_of_not_rst hr
    have hd := Chip.detachWaiting_eq hk hl
    rw [hexec]
    refine ⟨fun hh => ?holds, fun hh => ?leaves⟩
    case holds => rw [takeHoldCheck_refused hw hd hh, Chip.finish_eq, Chip.dropLtuNotice_eq hw]; rfl
    case leaves =>
      have hk' : (((s.chip.dropLtuNotice p).setDeparted p (some .detaching)).pc p).current = some ⟨tag, .detach, .holdWait⟩ := hk
      rw [takeHoldCheck_passed hw hd hh, Chip.beginLeave_eq hk', Chip.dropLtuNotice_eq hw]
      rfl
  case ends =>
    obtain ⟨hr, hk⟩ := hwait
    have hexec : exec (.detachEnd p) s = .next ⟨s.pending, takeDetachEnd p s.chip⟩ := State.run_of_not_rst hr
    rw [hexec, takeDetachEnd_ended hl hk (s.chip.rqcLeaveEnded_iff p |>.mpr ⟨hrqc, htakes⟩)]
  case waits =>
    refine State.run_of_fixed (if_neg fun he => ?_)
    obtain ⟨hrqc, htakes⟩ := (s.chip.rqcLeaveEnded_iff p).mp he.2
    rcases hn with ⟨loss, hm⟩ | ⟨m, hm, hp⟩
    · exact hrqc loss hm
    · exact htakes m hm hp

/-! ## What the ends of a loss and of a link down wait for (R135, R138; log 26) -/

section ends
variable (c : Chip) (p : Port)

theorem Chip.requestsEnded_iff : c.requestsEnded p = true ↔
    (c.pc p).current = none ∧ (c.pc p).atBlock.rqc = none ∧ (c.pc p).atBlock.ltu = none ∧ (c.pc p).atBlock.frt = none ∧
      (c.pc p).gathers = [] ∧ c.wires.answers.get p = [] := by
  simp [Chip.requestsEnded, Block.waiting, PerBlock.get, and_assoc]

theorem Chip.claimsEnded_iff : c.claimsEnded p = true ↔
    (∀ loss, .leave loss ∉ c.wires.toRqc.get p) ∧ (∀ m ∈ c.wires.takes, m.port ≠ p) ∧ .loss ∉ c.wires.toLtu.get p := by
  rw [Chip.claimsEnded, Bool.and_eq_true, Chip.rqcLeaveEnded_iff, Chip.ltuLossEnded_iff, and_assoc]

theorem Chip.noticeTaken_iff : c.noticeTaken p = true ↔ c.wires.toFrt.get p = false ∧ c.wires.answers.get p = [] := by
  simp [Chip.noticeTaken]

end ends

/-! ## PORT_LOSS_END and LINK_DOWN_FROM_LINKED, by where the port stands in leaving -/

/-- R135 steps 2 to 4: the line is deasserted. -/
theorem Pc.goDown_eq (x : Pc) : x.goDown = { x with
    state := .down, leave := .no, outstanding := [], reserved := 0, events := .none
    params := ⟨64, true, true, true, 12500, .none⟩, wake := false } := by
  rw [Pc.goDown, Pc.evalWake_of_no_events rfl]
  rfl

section leaving
variable {c : Chip} {p : Port}

theorem takePortLossEnd_loss (hl : (c.pc p).leave = .loss) : takePortLossEnd p c =
    if c.claimsEnded p = true ∧ c.requestsEnded p = true then (c.sendFrtNotice p).setLeave p .lossNoticed else c := by
  simp only [takePortLossEnd, hl, Bool.and_eq_true]

theorem takePortLossEnd_noticed (hl : (c.pc p).leave = .lossNoticed) : takePortLossEnd p c =
    if c.noticeTaken p then ((c.dropEvents p).updPc p Pc.goDown).raisePeerChange p else c := by
  simp only [takePortLossEnd, hl]

theorem takeLinkDown_report {rest : List Report} (hl : (c.pc p).leave = .no) (hr : (c.link p).reports = .linkDown :: rest)
    (hs : (c.pc p).state = .linked) : takeLinkDown p c = (c.dropReport p).beginLinkDown p := by
  simp only [takeLinkDown, hl]
  exact if_pos ⟨Chip.report_eq hr, hs⟩

theorem takeLinkDown_aborted (hl : (c.pc p).leave = .attachAborted) : takeLinkDown p c =
    if c.noticesTaken p then ((c.notifyRqc p (.leave true)).notifyLtu p .loss).setLeave p .attachUndone else c := by
  simp only [takeLinkDown, hl]

theorem takeLinkDown_undone (hl : (c.pc p).leave = .attachUndone) : takeLinkDown p c =
    if c.claimsEnded p then c.updPc p Pc.drop else c := by
  simp only [takeLinkDown, hl]

theorem takeLinkDown_waiting (hl : (c.pc p).leave = .linkDown) : takeLinkDown p c =
    if c.requestsEnded p then (c.sendFrtNotice p).setLeave p .linkDownNoticed else c := by
  simp only [takeLinkDown, hl]

theorem takeLinkDown_noticed (hl : (c.pc p).leave = .linkDownNoticed) : takeLinkDown p c =
    if c.noticeTaken p then c.updPc p Pc.goDown else c := by
  simp only [takeLinkDown, hl]

end leaving

theorem Chip.beginLinkDown_of_attaching {c : Chip} {p : Port} {tag : Tag}
    (h : (c.pc p).current = some ⟨tag, .attach, .attaching⟩) : c.beginLinkDown p = { c with
      pcs := c.pcs.set p { c.pc p with current := none, leave := .attachAborted } } := by
  unfold Chip.beginLinkDown
  simp only [h, Chip.setLeave, Chip.taken, Chip.updPc, PerPort.upd_eq, PerPort.get_set_self, PerPort.set_set]
  rfl

theorem Chip.beginLinkDown_of_not_attaching {c : Chip} {p : Port}
    (h : ∀ tag, (c.pc p).current ≠ some ⟨tag, .attach, .attaching⟩) : c.beginLinkDown p = { c with
      pcs := c.pcs.set p { c.pc p with leave := .linkDown, buffer := [], responses := [], discarding := true } } := by
  unfold Chip.beginLinkDown
  split
  · rename_i tag hk
    exact absurd hk (h tag)
  · rfl

/-- The link-down report of a LINKED port: an ATTACH that waits for its notices ends unanswered (R127), else R138 begins. -/
theorem Chip.beginLinkDown_eq (c : Chip) (p : Port) : c.beginLinkDown p = { c with
    pcs := c.pcs.set p (match (c.pc p).current with
      | some ⟨_, .attach, .attaching⟩ => { c.pc p with current := none, leave := .attachAborted }
      | _ => { c.pc p with leave := .linkDown, buffer := [], responses := [], discarding := true }) } := by
  split
  · rename_i hk
    exact Chip.beginLinkDown_of_attaching hk
  · rename_i hk
    exact Chip.beginLinkDown_of_not_attaching hk

/-- Settles O45: wait by wait of the two commands. -/
theorem leaveEndsDown : Obligations.LeaveEndsDown := by
  intro s p hr x w after noticed down dropped requestsEnded claimsEnded noticeTaken notices
  have hloss : exec (.portLossEnd p) s = .next ⟨s.pending, takePortLossEnd p s.chip⟩ := State.run_of_not_rst hr
  have hdown : exec (.linkDownFromLinked p) s = .next ⟨s.pending, takeLinkDown p s.chip⟩ := State.run_of_not_rst hr
  have hrequests : s.chip.requestsEnded p = true ↔ requestsEnded := s.chip.requestsEnded_iff p
  have hclaims : s.chip.claimsEnded p = true ↔ claimsEnded := s.chip.claimsEnded_iff p
  have hnotice : s.chip.noticeTaken p = true ↔ noticeTaken := s.chip.noticeTaken_iff p
  have hnotices : s.chip.noticesTaken p = true ↔ notices := s.chip.noticesTaken_iff p
  refine ⟨fun hl => ⟨fun hc hq => ?loss, fun hn => ?lossWaits⟩, fun hl => ⟨fun hn => ?lost, fun hn => ?lostWaits⟩,
    fun rest hl hw hs => ?report, fun hl => ⟨fun hn => ?undoes, fun hn => ?undoesWaits⟩,
    fun hl => ⟨fun hc => ?undone, fun hc => ?undoneWaits⟩, fun hl => ⟨fun hq => ?down, fun hq => ?downWaits⟩,
    fun hl => ⟨fun hn => ?ended, fun hn => ?endedWaits⟩⟩
  case loss => rw [hloss, takePortLossEnd_loss hl, if_pos ⟨hclaims.mpr hc, hrequests.mpr hq⟩]; rfl
  case lossWaits =>
    rw [hloss, takePortLossEnd_loss hl, if_neg fun h => hn.elim (· (hclaims.mp h.1)) (· (hrequests.mp h.2))]
  case lost => rw [hloss, takePortLossEnd_noticed hl, if_pos (hnotice.mpr hn), Chip.leaveEnded_eq, Pc.goDown_eq]
  case lostWaits => rw [hloss, takePortLossEnd_noticed hl, if_neg (mt hnotice.mp hn)]
  case report =>
    rw [hdown, takeLinkDown_report hl hw hs, Chip.beginLinkDown_eq, Chip.dropReport_eq hw, Chip.withPort_pc]
    simp only [Chip.withPort, PerPort.set_set]
    rfl
  case undoes => rw [hdown, takeLinkDown_aborted hl, if_pos (hnotices.mpr hn)]; rfl
  case undoesWaits => rw [hdown, takeLinkDown_aborted hl, if_neg (mt hnotices.mp hn)]
  case undone => rw [hdown, takeLinkDown_undone hl, if_pos (hclaims.mpr hc)]; rfl
  case undoneWaits => rw [hdown, takeLinkDown_undone hl, if_neg (mt hclaims.mp hc)]
  case down => rw [hdown, takeLinkDown_waiting hl, if_pos (hrequests.mpr hq)]; rfl
  case downWaits => rw [hdown, takeLinkDown_waiting hl, if_neg (mt hrequests.mp hq)]
  case ended =>
    rw [hdown, takeLinkDown_noticed hl, if_pos (hnotice.mpr hn)]
    simp only [Chip.updPc, PerPort.upd_eq, Pc.goDown_eq]
    rfl
  case endedWaits => rw [hdown, takeLinkDown_noticed hl, if_neg (mt hnotice.mp hn)]

end Sys2Proof.Machine
end

section
/-! CONFIGURE_GLOBAL and CONFIGURE_PORT (O49). -/

namespace Sys2Proof.Machine

/-! ## The items: ranges and writes (R154, section 7.3) -/

/-- All items pass the check exactly if no item is bad, for a check and a fault of an item that exclude each other. -/
theorem all_iff_of_iff_not {α : Type} {ok : α → Bool} {bad : α → Prop} (h : ∀ x, ok x = true ↔ ¬ bad x) (items : List α) :
    items.all ok = true ↔ ¬ ∃ x ∈ items, bad x := by
  simp only [List.all_eq_true, h, not_exists, not_and]

theorem globalInRange_iff (x : GlobalParam × Nat) : globalInRange x = true ↔ ¬ match x.1 with
    | .quota _ => 1024 < x.2
    | .sqLimit => 1024 < x.2
    | .requeueLimit => 7 < x.2 := by
  obtain ⟨param, v⟩ := x
  cases param <;> simp [globalInRange]

theorem portInRange_iff (x : PortParam × Nat) : portInRange x = true ↔ ¬ match x.1 with
    | .depthLimit => x.2 = 0 ∨ 1024 < x.2
    | .spill => 1 < x.2
    | .stealable => 1 < x.2
    | .stealEnable => 1 < x.2
    | .leaseTime => 65535 < x.2
    | .eventMask => 31 < x.2 := by
  obtain ⟨param, v⟩ := x
  cases param
  case depthLimit =>
    simp only [portInRange, decide_eq_true_iff]
    omega
  all_goals simp [portInRange]

theorem Hcu.write_eq (h : Hcu) (x : GlobalParam × Nat) : h.write x = match x.1 with
    | .quota q => { h with quota := h.quota.set q x.2 }
    | .sqLimit => { h with sqLimit := x.2 }
    | .requeueLimit => { h with requeueLimit := x.2 } := by
  obtain ⟨param, v⟩ := x
  cases param <;> rfl

theorem Params.write_eq (u : Params) (x : PortParam × Nat) : u.write x = match x.1 with
    | .depthLimit => { u with depthLimit := x.2 }
    | .spill => { u with spill := x.2 == 1 }
    | .stealable => { u with stealable := x.2 == 1 }
    | .stealEnable => { u with stealEnable := x.2 == 1 }
    | .leaseTime => { u with leaseTime := x.2 }
    | .eventMask => { u with eventMask := .ofCode x.2 } := by
  obtain ⟨param, v⟩ := x
  cases param <;> rfl

/-! ## CONFIGURE_GLOBAL (R154, R155) -/

/-- A CONFIGURE_GLOBAL taken whole is its one claim. -/
theorem exec_configureGlobal {s : State} {p : Port} {k : Packet} {items : List (GlobalParam × Nat)}
    (h : s.chip.ready p k (.configureGlobal items)) : exec (.configureGlobal p .whole) s =
      .next ⟨s.pending, configureGlobalClaim p .now ⟨k.tag, .configureGlobal items, .given⟩
        (s.chip.dispatched p ⟨k.tag, .configureGlobal items, .given⟩)⟩ :=
  exec_ready h rfl
    (show requestRun (.configureGlobal p .whole) = some (.configureGlobal, .hcu, p, .whole, 0, configureGlobalClaim p) from rfl)

section configureGlobal
variable {c : Chip} {p : Port} {k : Packet} {items : List (GlobalParam × Nat)} (h : c.ready p k (.configureGlobal items))
include h

theorem configureGlobalClaim_notAttached (ha : c.attached p = false) :
    configureGlobalClaim p .now ⟨k.tag, .configureGlobal items, .given⟩ (c.dispatched p ⟨k.tag, .configureGlobal items, .given⟩) =
      c.answered p k.tag .notAttached [] := by
  simp only [configureGlobalClaim, Chip.dispatched_attached, ha, if_true, Chip.dispatched_reply h rfl]

theorem configureGlobalClaim_denied (ha : c.attached p = true) (hs : c.hcu.state ≠ .setup) :
    configureGlobalClaim p .now ⟨k.tag, .configureGlobal items, .given⟩ (c.dispatched p ⟨k.tag, .configureGlobal items, .given⟩) =
      c.answered p k.tag .denied [] := by
  simp only [configureGlobalClaim, Chip.dispatched_attached, ha, Bool.true_eq_false, if_false, Chip.dispatched_hcu, if_pos hs,
    Chip.dispatched_reply h rfl]

theorem configureGlobalClaim_badRequest (ha : c.attached p = true) (hs : c.hcu.state = .setup)
    (hb : ¬ items.all globalInRange = true) :
    configureGlobalClaim p .now ⟨k.tag, .configureGlobal items, .given⟩ (c.dispatched p ⟨k.tag, .configureGlobal items, .given⟩) =
      c.answered p k.tag .badRequest [] := by
  simp only [configureGlobalClaim, Chip.dispatched_attached, ha, Bool.true_eq_false, if_false, Chip.dispatched_hcu,
    if_neg (not_not_intro hs), if_neg hb, Chip.dispatched_reply h rfl]

theorem configureGlobalClaim_ok (ha : c.attached p = true) (hs : c.hcu.state = .setup) (hb : items.all globalInRange = true) :
    configureGlobalClaim p .now ⟨k.tag, .configureGlobal items, .given⟩ (c.dispatched p ⟨k.tag, .configureGlobal items, .given⟩) =
      { c.answered p k.tag .ok [] with hcu := items.foldl Hcu.write c.hcu } := by
  simp only [configureGlobalClaim, Chip.dispatched_attached, ha, Bool.true_eq_false, if_false, Chip.dispatched_hcu,
    if_neg (not_not_intro hs), if_pos hb]
  rw [Chip.reply_of_ready h rfl (.inl ⟨by rfl, rfl⟩) (by rfl)]
  rfl

end configureGlobal

/-! ## CONFIGURE_PORT (R154, R156) -/

/-- A CONFIGURE_PORT is its one claim. -/
theorem exec_configurePort {s : State} {p q : Port} {k : Packet} {items : List (PortParam × Nat)}
    (h : s.chip.ready p k (.configurePort q items)) : exec (.configurePort p) s =
      .next ⟨s.pending, configurePortClaim p (s.chip.dispatched p ⟨k.tag, .configurePort q items, .given⟩)⟩ :=
  exec_own h (show ownRun (.configurePort p) = some (.configurePort, p, configurePortClaim p) from rfl)

/-- Only the notices to the RQC grow: STEALABLE turned ON, then STEAL_ENABLE turned ON. -/
theorem Chip.passOn_eq (c : Chip) (p : Port) (old new : Params) : c.passOn p old new = { c with
    wires := { c.wires with
      toRqc := c.wires.toRqc.set p (c.wires.toRqc.get p ++
        (if !old.stealable && new.stealable then [.stealableOn] else []) ++
        (if !old.stealEnable && new.stealEnable then [.stealEnableOn] else [])) } } := by
  cases h1 : (!old.stealable && new.stealable) <;> cases h2 : (!old.stealEnable && new.stealEnable)
  all_goals simp [Chip.passOn, h1, h2, Chip.notifyRqc]

/-- The notices sent and the answer queued do not meet. -/
theorem Chip.passOn_finish (c : Chip) (p : Port) (old new : Params) (tag : Tag) (status : Status) (body : List Word) :
    (c.passOn p old new).finish p tag status body = (c.finish p tag status body).passOn p old new := by
  simp only [Chip.passOn_eq, Chip.finish_eq]
  rfl

section configurePort
variable {c : Chip} {p q : Port} {k : Packet} {items : List (PortParam × Nat)}

section checks
variable (h : c.ready p k (.configurePort q items))
include h

theorem configurePortClaim_notAttached (ha : c.attached p = false) :
    configurePortClaim p (c.dispatched p ⟨k.tag, .configurePort q items, .given⟩) = c.answered p k.tag .notAttached [] := by
  simp only [configurePortClaim, Chip.dispatched_current, Chip.dispatched_attached, ha, if_true, Chip.dispatched_finish h]

theorem configurePortClaim_denied (ha : c.attached p = true) (hq : q ≠ p) :
    configurePortClaim p (c.dispatched p ⟨k.tag, .configurePort q items, .given⟩) = c.answered p k.tag .denied [] := by
  simp only [configurePortClaim, Chip.dispatched_current, Chip.dispatched_attached, ha, Bool.true_eq_false, if_false, if_pos hq,
    Chip.dispatched_finish h]

end checks

section own
variable (h : c.ready p k (.configurePort p items))
include h

theorem configurePortClaim_badRequest (ha : c.attached p = true) (hb : ¬ items.all portInRange = true) :
    configurePortClaim p (c.dispatched p ⟨k.tag, .configurePort p items, .given⟩) = c.answered p k.tag .badRequest [] := by
  simp only [configurePortClaim, Chip.dispatched_current, Chip.dispatched_attached, ha, Bool.true_eq_false, if_false,
    ne_eq, not_true_eq_false, if_neg hb, Chip.dispatched_finish h]

/-- An ATTACHED sender's line stands as its new mask says. -/
theorem Chip.dispatched_evalWake (ha : c.attached p = true) (new : Params) :
    (c.dispatched p ⟨k.tag, .configurePort p items, .given⟩).updPc p (fun x => { x with params := new }.evalWake) =
      c.asked p { ({ c.pc p with params := new, wake := (c.pc p).events.meets new.eventMask } : Pc).passed with
        current := some ⟨k.tag, .configurePort p items, .given⟩ } := by
  have hact : (c.pc p).active = true := (Pc.active_iff _).mpr ⟨beq_iff_eq.mp ha, h.leave⟩
  have hwake : ((c.pc p).active && (c.pc p).events.meets new.eventMask) = (c.pc p).events.meets new.eventMask := by
    rw [hact, Bool.true_and]
  rw [Chip.dispatched, Chip.asked_updPc, ← hwake]
  rfl

theorem configurePortClaim_ok (ha : c.attached p = true) (hb : items.all portInRange = true) :
    configurePortClaim p (c.dispatched p ⟨k.tag, .configurePort p items, .given⟩) =
      let old := (c.pc p).params
      let new := items.foldl Params.write old
      (c.asked p { (c.pc p).served k.tag .ok [] with
        params := new, wake := (c.pc p).events.meets new.eventMask }).passOn p old new := by
  have hy : ({ c.pc p with
      params := items.foldl Params.write (c.pc p).params
      wake := (c.pc p).events.meets (items.foldl Params.write (c.pc p).params).eventMask } : Pc).current = none := h.current
  have hparams : ((c.dispatched p ⟨k.tag, .configurePort p items, .given⟩).pc p).params = (c.pc p).params := by
    rw [Chip.dispatched, Chip.asked_pc_self]; rfl
  simp only [configurePortClaim, Chip.dispatched_current, Chip.dispatched_attached, ha, Bool.true_eq_false, if_false,
    ne_eq, not_true_eq_false, if_pos hb, Chip.writeParams, hparams, Chip.dispatched_evalWake h ha]
  have hdone := c.asked_finish p ⟨k.tag, .configurePort p items, .given⟩ hy k.tag .ok []
  rw [Chip.passOn_finish, hdone]
  rfl

end own
end configurePort

/-- Settles O49: check by check of the two forms, then the items written. -/
theorem configureChecksThenWrites : Obligations.ConfigureChecksThenWrites := by
  refine ⟨fun s p k items h => ?global, fun s p q k items h => ?port⟩
  case global =>
    intro bad outcome
    have hrange : items.all globalInRange = true ↔ ¬ bad := all_iff_of_iff_not globalInRange_iff items
    have hexec : outcome = _ := exec_configureGlobal h
    rw [hexec]
    refine ⟨fun ha => ?_, fun ha hs => ?_, fun ha hs hb => ?_, fun ha hs hb => ?_⟩
    · rw [configureGlobalClaim_notAttached h ha]
    · rw [configureGlobalClaim_denied h ha hs]
    · rw [configureGlobalClaim_badRequest h ha hs fun hok => hrange.mp hok hb]
    · have hclaim := configureGlobalClaim_ok h ha hs (hrange.mpr hb)
      rw [funext₂ Hcu.write_eq] at hclaim
      exact congrArg (fun c => Host.Outcome.next (State.mk s.pending c)) hclaim
  case port =>
    intro bad old new outcome
    have hrange : items.all portInRange = true ↔ ¬ bad := all_iff_of_iff_not portInRange_iff items
    have hnew : items.foldl Params.write old = new := congrArg (fun f => items.foldl f old) (funext₂ Params.write_eq)
    have hexec : outcome = _ := exec_configurePort h
    rw [hexec]
    refine ⟨fun ha => ?_, fun ha hq => ?_, fun ha hq hb => ?_, fun ha hq hb => ?_⟩
    · rw [configurePortClaim_notAttached h ha]
    · rw [configurePortClaim_denied h ha hq]
    · subst hq
      rw [configurePortClaim_badRequest h ha fun hok => hrange.mp hok hb]
    · subst hq
      rw [configurePortClaim_ok h ha (hrange.mpr hb), Chip.passOn_eq]
      simp only [← hnew]
      rfl

end Sys2Proof.Machine
end

section
/-! The hub's states and its clock: what every command answers, RST_N held, a period, and START (O2, O4, O6, O47). -/

namespace Sys2Proof.Machine

/-! ## Every command -/

/-- Settles O2: the two commands of RST_N answer by their own meaning, every other one as `State.run` does. -/
theorem everyCommandAnswersNext : Obligations.EveryCommandAnswersNext := by
  intro i s
  by_cases hassert : i = .rstNAssert
  · subst hassert
    exact ⟨.held s.chip.straps, rfl⟩
  by_cases hdeassert : ∃ straps, i = .rstNDeassert straps
  · obtain ⟨straps, rfl⟩ := hdeassert
    exact ⟨if s.chip.rst then .powerOn straps else s.chip, rfl⟩
  · rw [exec_eq_run i s hassert fun straps h => hdeassert ⟨straps, h⟩]
    exact s.run_next (effect i)

/-! ## RST_N held low (R157, R194) -/

/-- No WAKE_N pin is driven low while RST_N is held, whatever its line. -/
theorem Chip.wakePinLow_of_rst {c : Chip} (h : c.rst = true) (p : Port) : c.wakePinLow p = false := by
  simp only [Chip.wakePinLow, h, Bool.not_true, Bool.false_and]

theorem exec_of_rst {s : State} (hr : s.chip.rst = true) {i : Instr} (h1 : i ≠ .rstNAssert) (h2 : ∀ straps, i ≠ .rstNDeassert straps) :
    exec i s = .next s := by
  rw [exec_eq_run i s h1 h2, State.run_of_rst hr]

/-- A step on an empty queue, in reset and out of it. -/
theorem step_empty {s : State} (h : s.pending = []) : step s = .next (idle s) := by
  simp only [step, h]

theorem idle_of_rst {s : State} (h : s.chip.rst = true) : idle s = s := by
  simp only [idle, h, if_true]

/-- Settles O4: the hub an assertion leaves, and then each thing that could happen to a hub held. -/
theorem resetHoldsTheHub : Obligations.ResetHoldsTheHub := by
  intro s
  refine ⟨⟨rfl, Chip.wakePinLow_of_rst rfl⟩, fun hr => ⟨fun i h1 h2 => ?command, fun hp => ?period, Chip.wakePinLow_of_rst hr⟩⟩
  case command => exact exec_of_rst hr h1 h2
  case period => rw [step_empty hp, idle_of_rst hr]

/-! ## One REFCLK period (R196) -/

theorem idle_of_not_rst {s : State} (h : s.chip.rst = false) : idle s = ⟨s.pending, s.chip.period⟩ := by
  simp only [idle, h, Bool.false_eq_true, if_false]

/-- Settles O6: `Chip.period` before the tick boundary, and at one that is due, which a TICK would take. -/
theorem emptyQueueIsOnePeriod : Obligations.EmptyQueueIsOnePeriod := by
  intro c hr period
  have hstep : step ⟨[], c⟩ = .next ⟨[], c.period⟩ := by rw [step_empty rfl, idle_of_not_rst hr]
  refine ⟨fun hearly => ?early, fun hdue t ht => ?due⟩
  case early => rw [hstep, Chip.period_early hearly]; rfl
  case due =>
    have htick : exec .tick ⟨[], c⟩ = .next ⟨[], takeTick c⟩ := State.run_of_not_rst hr
    rw [htick, takeTick_due hdue] at ht
    injection ht with ht
    rw [hstep, Chip.period_due hdue, ← ht]
    rfl

/-! ## START (R148) -/

/-- A START taken whole is its one claim. -/
theorem exec_start {s : State} {p : Port} {k : Packet} (h : s.chip.ready p k .start) : exec (.start p .whole) s =
    .next ⟨s.pending, startClaim p .now ⟨k.tag, .start, .given⟩ (s.chip.dispatched p ⟨k.tag, .start, .given⟩)⟩ :=
  exec_ready h rfl (show requestRun (.start p .whole) = some (.start, .hcu, p, .whole, 0, startClaim p) from rfl)

section start
variable {c : Chip} {p : Port} {k : Packet} (h : c.ready p k .start)
include h

/-- The claim reads no hub state: an ATTACHED sender makes the hub RUNNING from each of the three. -/
theorem startClaim_attached (ha : c.attached p = true) :
    startClaim p .now ⟨k.tag, .start, .given⟩ (c.dispatched p ⟨k.tag, .start, .given⟩) =
      { c.answered p k.tag .ok (hubStateBody .running) with
        hcu := { c.hcu with state := .running, completionDue := false } } := by
  simp only [startClaim, Chip.dispatched_attached, ha, if_true, Chip.dispatched_hcu]
  rw [Chip.reply_of_ready h rfl (.inl ⟨by rfl, rfl⟩) (by rfl)]
  rfl

theorem startClaim_notAttached (ha : c.attached p = false) :
    startClaim p .now ⟨k.tag, .start, .given⟩ (c.dispatched p ⟨k.tag, .start, .given⟩) = c.answered p k.tag .notAttached [] := by
  simp only [startClaim, Chip.dispatched_attached, ha, Bool.false_eq_true, if_false, Chip.dispatched_reply h rfl]

end start

/-- Settles O47: the sender check of a START is all that its one claim depends on. -/
theorem startMakesHubRunning : Obligations.StartMakesHubRunning := by
  intro s p k h
  rw [exec_start h]
  refine ⟨fun ha => ?attached, fun ha => ?notAttached⟩
  case attached => rw [startClaim_attached h ha]
  case notAttached => rw [startClaim_notAttached h ha]

end Sys2Proof.Machine
end

section
/-! What one function of a Link Engine keeps: the ranges of section 9.1, and no more credits to advertise than there were. -/

namespace Sys2Proof.Machine

/-! ## The ranges, part by part -/

/-- The hold-off and the two training counts in their ranges. -/
def Link.trainingFits (l : Link) : Prop := l.holdOffLeft ≤ 6400 ∧ l.trainRun ≤ 16 ∧ l.trainSent ≤ 16

/-- The replay buffer, the send pointer, the replay count and the replay timer in their ranges. -/
def Link.replayFits (l : Link) : Prop :=
  l.replay.length ≤ 8 ∧ l.sendPtr ≤ l.replay.length ∧ l.replayCount ≤ 4 ∧ ∀ t, l.replayTimer = some t → t ≤ 800

/-- The silence timer and the open packet in their ranges. -/
def Link.receiverFits (l : Link) : Prop := (∀ t, l.silence = some t → t ≤ 1600) ∧ ∀ k, l.rx = some k → k.words.length ≤ 17

theorem Link.inRange_iff (l : Link) : l.inRange ↔ l.trainingFits ∧ l.replayFits ∧ l.receiverFits :=
  ⟨fun ⟨hhold, hrun, hsent, hlen, hptr, hcount, htimer, hsilence, hrx⟩ =>
      ⟨⟨hhold, hrun, hsent⟩, ⟨hlen, hptr, hcount, htimer⟩, hsilence, hrx⟩,
    fun ⟨⟨hhold, hrun, hsent⟩, ⟨hlen, hptr, hcount, htimer⟩, hsilence, hrx⟩ =>
      ⟨hhold, hrun, hsent, hlen, hptr, hcount, htimer, hsilence, hrx⟩⟩

/-- A change of a Link Engine that keeps each part in its ranges and gives it no credit to advertise. -/
def Link.keeps (l l' : Link) : Prop :=
  (l.trainingFits → l'.trainingFits) ∧ (l.replayFits → l'.replayFits) ∧ (l.receiverFits → l'.receiverFits) ∧ l'.credits ≤ l.credits

theorem Link.keeps.refl (l : Link) : l.keeps l := ⟨id, id, id, Nat.le_refl _⟩

/-- The fields that no range bounds can change as they will. -/
theorem Link.keeps.unranged (l : Link) (settled : Bool) (expected : Seq) (owed : Option Ack) (nakOut : Bool) (reports : List Report)
    (lane : List LaneUnit) :
    l.keeps { l with settled := settled, expected := expected, owed := owed, nakOut := nakOut, reports := reports, lane := lane } :=
  ⟨id, id, id, Nat.le_refl _⟩

theorem Link.keeps.trans {l m n : Link} (h1 : l.keeps m) (h2 : m.keeps n) : l.keeps n := by
  obtain ⟨htraining, hreplay, hreceiver, hcredits⟩ := h1
  obtain ⟨htraining', hreplay', hreceiver', hcredits'⟩ := h2
  exact ⟨htraining' ∘ htraining, hreplay' ∘ hreplay, hreceiver' ∘ hreceiver, hcredits'.trans hcredits⟩

theorem Link.keeps.inRange {l l' : Link} (h : l.keeps l') (hl : l.inRange) : l'.inRange := by
  obtain ⟨htraining, hreplay, hreceiver, _⟩ := h
  obtain ⟨hltraining, hlreplay, hlreceiver⟩ := l.inRange_iff.mp hl
  exact l'.inRange_iff.mpr ⟨htraining hltraining, hreplay hlreplay, hreceiver hlreceiver⟩

theorem Link.keeps.credits {l l' : Link} (h : l.keeps l') : l'.credits ≤ l.credits := h.2.2.2

/-- A timer that starts is within any limit. -/
theorem timer_started {n t : Nat} (h : some 0 = some t) : t ≤ n := by
  injection h with h
  exact h ▸ Nat.zero_le n

/-- A running timer advances to its limit and no further. -/
theorem timer_advanced {n t : Nat} {o : Option Nat} (h : (o.map fun t => min (t + 1) n) = some t) : t ≤ n := by
  obtain ⟨u, _, rfl⟩ := Option.map_eq_some_iff.mp h
  exact Nat.min_le_right _ _

/-! ## Link up and link down -/

theorem Link.endHoldOff_keeps (l : Link) : l.keeps l.endHoldOff := by
  unfold Link.endHoldOff
  split
  · split
    · exact ⟨fun h => ⟨h.1, Nat.zero_le _, Nat.zero_le _⟩, id, id, Nat.le_refl _⟩
    · exact .refl l
  · exact .refl l

theorem Link.enterUp_keeps (l : Link) : l.keeps l.enterUp :=
  ⟨id, fun _ => ⟨Nat.zero_le _, Nat.le_refl _, Nat.zero_le _, nofun⟩, fun _ => ⟨fun _ => timer_started, nofun⟩, Nat.zero_le _⟩

theorem Link.goDown_keeps (l : Link) : l.keeps l.goDown :=
  ⟨fun ⟨_, hrun, hsent⟩ => ⟨Nat.le_refl _, hrun, hsent⟩,
    fun ⟨_, _, hcount, _⟩ => ⟨Nat.zero_le _, Nat.le_refl _, hcount, nofun⟩, fun _ => ⟨nofun, nofun⟩, Nat.zero_le _⟩

theorem Link.sendTrain_keeps (l : Link) : l.keeps l.sendTrain := by
  unfold Link.sendTrain
  split
  · dsimp only
    split
    · exact .unranged l ..
    · split
      · rename_i hsent
        exact ⟨fun ⟨hhold, hrun, _⟩ => ⟨hhold, hrun, Nat.le_of_lt hsent⟩, id, id, Nat.le_refl _⟩
      · have hcounted : l.keeps { l with lane := [.control (symTrain ())], trainSent := Config.trainLength } :=
          ⟨fun ⟨hhold, hrun, _⟩ => ⟨hhold, hrun, Nat.le_refl _⟩, id, id, Nat.le_refl _⟩
        exact hcounted.trans (Link.enterUp_keeps _)
  · exact .refl l

theorem Link.trainUnit_keeps (l : Link) (u : RxUnit) : l.keeps (l.trainUnit u) := by
  have hrun : ∀ n, n ≤ 16 → l.keeps { l with trainRun := n } := fun n hn =>
    ⟨fun ⟨hhold, _, hsent⟩ => ⟨hhold, hn, hsent⟩, id, id, Nat.le_refl _⟩
  unfold Link.trainUnit
  split
  · split
    · exact hrun _ (by assumption)
    · exact hrun 0 (Nat.zero_le _)
  · exact .refl l

/-! ## Acknowledgement and replay -/

theorem Link.acknowledge_keeps (l : Link) (k : Nat) : l.keeps (l.acknowledge k) := by
  unfold Link.acknowledge
  split
  · exact .refl l
  · refine ⟨id, fun ⟨hlen, hptr, _, _⟩ => ⟨?_, ?_, Nat.zero_le _, fun t => ?timer⟩, id, Nat.le_refl _⟩
    · rw [List.length_drop]; exact (Nat.sub_le _ _).trans hlen
    · rw [List.length_drop]; exact Nat.sub_le_sub_right hptr k
    case timer =>
      dsimp only
      split
      · exact timer_started
      · nofun

/-- A replay is counted up to 4, and one more takes the link down (R188). -/
theorem Link.callReplay_keeps (l : Link) : l.keeps (l.callReplay 0) := by
  unfold Link.callReplay
  split
  · rename_i hcount
    exact ⟨id, fun ⟨hlen, _, _, _⟩ => ⟨hlen, Nat.zero_le _, hcount, fun _ => timer_started⟩, id, Nat.le_refl _⟩
  · exact l.goDown_keeps

theorem Link.takeAck_keeps (l : Link) (n : Seq) : l.keeps (l.takeAck n) := by
  unfold Link.takeAck
  cases l.sentAt n with
  | some i => exact l.acknowledge_keeps (i + 1)
  | none => exact .refl l

theorem Link.takeNak_keeps (l : Link) (n : Seq) : l.keeps (l.takeNak n) := by
  unfold Link.takeNak
  cases l.sentAt n with
  | some i =>
    have hacked := l.acknowledge_keeps i
    dsimp only
    split
    · exact hacked
    · exact hacked.trans (Link.callReplay_keeps _)
  | none =>
    dsimp only
    split
    · exact l.acknowledge_keeps _
    · exact .refl l

theorem Link.expireReplay_keeps (l : Link) : l.keeps l.expireReplay := by
  unfold Link.expireReplay
  cases l.state with
  | up =>
    cases l.replayTimer with
    | some t =>
      dsimp only
      split
      · exact l.callReplay_keeps
      · exact .refl l
    | none => exact .refl l
  | disabled => exact .refl l
  | holdOff => exact .refl l
  | training => exact .refl l

theorem Link.expireSilence_keeps (l : Link) : l.keeps l.expireSilence := by
  unfold Link.expireSilence
  cases l.state with
  | up =>
    cases l.silence with
    | some t =>
      dsimp only
      split
      · exact l.goDown_keeps
      · exact .refl l
    | none => exact .refl l
  | disabled => exact .refl l
  | holdOff => exact .refl l
  | training => exact .refl l

/-! ## Receiving -/

/-- The receiver's packet is closed, opened or goes on with at most 17 words (R181). -/
theorem Link.keeps.setRx (l : Link) {x : Option OpenPacket} (hx : l.receiverFits → ∀ k, x = some k → k.words.length ≤ 17) :
    l.keeps { l with rx := x } :=
  ⟨id, id, fun h => ⟨h.1, hx h⟩, Nat.le_refl _⟩

theorem Link.closeRx_keeps (l : Link) : l.keeps { l with rx := none } := .setRx l fun _ => nofun

theorem Link.oweNak_keeps (l : Link) : l.keeps l.oweNak := by rw [Link.oweNak_eq]; exact .unranged l ..

theorem Link.closeDamaged_keeps (l : Link) : l.keeps l.closeDamaged := l.closeRx_keeps.trans (Link.oweNak_keeps _)

theorem Link.closePacket_keeps (l : Link) (k : OpenPacket) : l.keeps (l.closePacket k) := by
  have hclosed := l.closeRx_keeps
  unfold Link.closePacket
  dsimp only
  split
  · exact hclosed.trans (.unranged ..)
  · exact hclosed.trans (Link.oweNak_keeps _)

theorem Link.unitOutside_keeps (l : Link) (u : RxUnit) : l.keeps (l.unitOutside u) := by
  cases u with
  | start n => exact .setRx l fun _ k hk => by injection hk with hk; rw [← hk]; exact Nat.zero_le _
  | ack n => exact l.takeAck_keeps n
  | nak n => exact l.takeNak_keeps n
  | credit n =>
    show l.keeps (if n = 0 then l else { l with reports := l.reports ++ [.credit n.toNat] })
    split
    · exact .refl l
    · exact .unranged l ..
  | idle => exact .refl l
  | train => exact l.goDown_keeps
  | data w => exact l.goDown_keeps
  | stop => exact l.goDown_keeps
  | damaged => exact l.goDown_keeps

theorem Link.unitInside_keeps {l : Link} {k : OpenPacket} (hk : l.rx = some k) (u : RxUnit) : l.keeps (l.unitInside k u) := by
  have hfault : l.keeps (l.closeDamaged.unitOutside u) := l.closeDamaged_keeps.trans (Link.unitOutside_keeps _ u)
  unfold Link.unitInside
  split
  · rename_i w
    split
    · rename_i hroom
      refine .setRx l fun _ k' hk' => ?_
      injection hk' with hk'
      rw [← hk', List.length_append]
      exact hroom
    · exact hfault
  · exact l.closePacket_keeps k
  · refine .setRx l fun hfits k' hk' => ?_
    injection hk' with hk'
    rw [← hk']
    exact hfits.2 k hk
  all_goals exact hfault

theorem Link.count_keeps (l : Link) (u : RxUnit) : l.keeps (l.count u) := by
  have hheard : l.keeps { l with silence := some 0 } := ⟨id, id, fun h => ⟨fun _ => timer_started, h.2⟩, Nat.le_refl _⟩
  unfold Link.count
  split
  · exact .refl l
  · split
    · exact hheard
    · exact .refl l
  · exact hheard.trans (.unranged ..)

theorem Link.count_rx (l : Link) (u : RxUnit) : (l.count u).rx = l.rx := by
  unfold Link.count
  split
  · rfl
  · split <;> rfl
  · rfl

theorem Link.unitInUp_keeps (l : Link) (u : RxUnit) : l.keeps (l.unitInUp u) := by
  have hcounted := l.count_keeps u
  unfold Link.unitInUp
  split
  · exact .refl l
  · dsimp only
    split
    · exact hcounted.trans (Link.unitOutside_keeps _ u)
    · rename_i k hk
      exact hcounted.trans (Link.unitInside_keeps ((l.count_rx u).trans hk) u)

theorem Link.receive_keeps (l : Link) (u : RxUnit) : l.keeps (l.receive u) := by
  unfold Link.receive
  split
  · exact .refl l
  · exact .refl l
  · exact l.trainUnit_keeps u
  · exact l.unitInUp_keeps u

/-! ## Sending -/

/-- The packet at the send pointer stands before the end, so the pointer past it is at the end at most. -/
theorem Link.sendEntry_keeps {l : Link} {e : ReplayEntry} (he : l.replay[l.sendPtr]? = some e) : l.keeps (l.sendEntry e) := by
  obtain ⟨hlt, _⟩ := List.getElem?_eq_some_iff.mp he
  refine ⟨id, fun ⟨hlen, _, hcount, htimer⟩ => ⟨?_, ?_, hcount, fun t => ?timer⟩, id, Nat.le_refl _⟩
  · exact (List.length_set ..).trans_le hlen
  · exact hlt.trans_eq (List.length_set ..).symm
  case timer =>
    dsimp only [Link.sendEntry]
    split
    · rename_i u hu
      exact fun ht => htimer t (hu.trans ht)
    · exact timer_started

theorem Link.transmit_keeps (l : Link) : l.keeps l.transmit := by
  unfold Link.transmit
  split
  · split
    · exact .unranged l ..
    · split
      · exact ⟨id, id, id, Nat.sub_le _ _⟩
      · split
        · rename_i e he
          exact Link.sendEntry_keeps he
        · exact .unranged l ..
  · exact .refl l

/-- A packet is handed over where the replay buffer has room (R185). -/
theorem Link.enqueue_keeps {l : Link} (h : l.hasRoom = true) (words : List Word) : l.keeps (l.enqueue words) := by
  have hroom : l.replay.length < 8 := of_decide_eq_true (Bool.and_eq_true_iff.mp h).2
  refine ⟨id, fun ⟨_, hptr, hcount, htimer⟩ => ⟨?_, ?_, hcount, htimer⟩, id, Nat.le_refl _⟩
  · exact (List.length_append ..).trans_le hroom
  · exact hptr.trans ((List.prefix_append ..).length_le)

theorem Link.period_keeps (l : Link) : l.keeps l.period :=
  ⟨fun ⟨hhold, hrun, hsent⟩ => ⟨(Nat.sub_le _ _).trans hhold, hrun, hsent⟩,
    fun ⟨hlen, hptr, hcount, _⟩ => ⟨hlen, hptr, hcount, fun _ => timer_advanced⟩,
    fun ⟨_, hrx⟩ => ⟨fun _ => timer_advanced, hrx⟩, Nat.le_refl _⟩

/-- Every command of the task link. -/
theorem linkRun_keeps {i : Instr} {p : Port} {f : Link → Link} (h : linkRun i = some (p, f)) (l : Link) : l.keeps (f l) := by
  cases i <;> simp only [linkRun, Option.some.injEq, Prod.mk.injEq, reduceCtorEq] at h <;> obtain ⟨_, rfl⟩ := h
  case holdOffExpiry => exact l.endHoldOff_keeps
  case trainSent => exact l.sendTrain_keeps
  case transmitUnit => exact l.transmit_keeps
  case replayTimerExpiry => exact l.expireReplay_keeps
  case silenceTimeout => exact l.expireSilence_keeps
  all_goals exact l.receive_keeps _

end Sys2Proof.Machine
end

section
/-! The Link Engines in their ranges and the balance of each port's credits: what every command keeps of them (O60). -/

namespace Sys2Proof.Machine

/-! ## One port -/

/-- The credits of a port that its processor may still use are at least those to advertise, and with its input buffer at most 8 (R165). -/
def Pc.balances (x : Pc) (l : Link) : Prop := l.credits ≤ x.granted ∧ x.granted + x.buffer.length ≤ 8

theorem Chip.creditsBalance_iff (c : Chip) (p : Port) : c.creditsBalance p ↔ (c.pc p).balances (c.link p) := Iff.rfl

/-- A Port Controller with the credits it had granted, and an input buffer no longer than it was. -/
def Pc.creditsStay (x y : Pc) : Prop := y.granted = x.granted ∧ y.buffer.length ≤ x.buffer.length

theorem Pc.creditsStay.of_eq {x y : Pc} (hgranted : y.granted = x.granted) (hbuffer : y.buffer = x.buffer) : x.creditsStay y :=
  ⟨hgranted, Nat.le_of_eq (congrArg List.length hbuffer)⟩

theorem Pc.creditsStay.refl (x : Pc) : x.creditsStay x := .of_eq rfl rfl

theorem Pc.balances.of_stay {x y : Pc} {l m : Link} (h : x.balances l) (hx : x.creditsStay y) (hl : m.credits ≤ l.credits) :
    y.balances m := by
  obtain ⟨hgranted, hbuffer⟩ := hx
  obtain ⟨hcredits, htotal⟩ := h
  exact ⟨hgranted ▸ hl.trans hcredits, hgranted ▸ (Nat.add_le_add_left hbuffer _).trans htotal⟩

/-! ## The hub -/

/-- A change of the hub that keeps every Link Engine in its ranges, and in balance the credits of every port of which `P` holds. -/
def Chip.keepsLinks (P : Port → Prop) (c d : Chip) : Prop :=
  (∀ p, (c.link p).inRange → (d.link p).inRange) ∧ ∀ p, P p → c.creditsBalance p → d.creditsBalance p

section keepsLinks
variable {P : Port → Prop} {c d e : Chip}

theorem Chip.keepsLinks.refl (c : Chip) : c.keepsLinks P c := ⟨fun _ => id, fun _ _ => id⟩

theorem Chip.keepsLinks.trans (h1 : c.keepsLinks P d) (h2 : d.keepsLinks P e) : c.keepsLinks P e := by
  obtain ⟨hrange, hbalance⟩ := h1
  obtain ⟨hrange', hbalance'⟩ := h2
  exact ⟨fun p => hrange' p ∘ hrange p, fun p hp => hbalance' p hp ∘ hbalance p hp⟩

/-- Port by port, each Link Engine kept and each Port Controller's credits as they were. -/
theorem Chip.keepsLinks.of_ports (hl : ∀ p, (c.link p).keeps (d.link p)) (hp : ∀ p, (c.pc p).creditsStay (d.pc p)) :
    c.keepsLinks P d :=
  ⟨fun p => (hl p).inRange, fun p _ h => Pc.balances.of_stay h (hp p) (hl p).credits⟩

/-- A change of what no port holds. -/
theorem Chip.keepsLinks.same (hl : d.links = c.links) (hp : d.pcs = c.pcs) : c.keepsLinks P d :=
  .of_ports (fun p => by rw [Chip.link, Chip.link, hl]; exact .refl _) fun p => by rw [Chip.pc, Chip.pc, hp]; exact .refl _

theorem Chip.link_updLink_ne (c : Chip) {p q : Port} (f : Link → Link) (h : q ≠ p) : (c.updLink p f).link q = c.link q :=
  c.links.get_set_ne _ h

/-- A change of one port. -/
theorem Chip.keepsLinks.of_port (p : Port) (hother : ∀ q, q ≠ p → d.pc q = c.pc q ∧ d.link q = c.link q)
    (hrange : (c.link p).inRange → (d.link p).inRange) (hbalance : P p → (c.pc p).balances (c.link p) → (d.pc p).balances (d.link p)) :
    c.keepsLinks P d := by
  refine ⟨fun q h => ?inRange, fun q hP h => ?balance⟩
  case inRange =>
    by_cases hq : q = p
    · subst hq; exact hrange h
    · rw [(hother q hq).2]; exact h
  case balance =>
    rw [Chip.creditsBalance_iff] at h ⊢
    by_cases hq : q = p
    · subst hq; exact hbalance hP h
    · rw [(hother q hq).1, (hother q hq).2]; exact h

/-- The Port Controller and the Link Engine of one port change together. -/
theorem Chip.keepsLinks.setPort (h : c.keepsLinks P d) {p : Port} {f : Pc → Pc} {g : Link → Link}
    (hg : (d.link p).inRange → (g (d.link p)).inRange)
    (hb : P p → (d.pc p).balances (d.link p) → (f (d.pc p)).balances (g (d.link p))) :
    c.keepsLinks P ((d.updPc p f).updLink p g) := by
  have hpc : ((d.updPc p f).updLink p g).pc p = f (d.pc p) := d.pc_updPc_self p f
  have hlink : ((d.updPc p f).updLink p g).link p = g (d.link p) := (d.updPc p f).link_updLink_self p g
  exact h.trans (.of_port p (fun q hq => ⟨d.pc_updPc_ne f hq, (d.updPc p f).link_updLink_ne g hq⟩) (hlink ▸ hg) (hpc ▸ hlink ▸ hb))

theorem Chip.keepsLinks.setPc (h : c.keepsLinks P d) {p : Port} {f : Pc → Pc}
    (hb : P p → (d.pc p).balances (d.link p) → (f (d.pc p)).balances (d.link p)) : c.keepsLinks P (d.updPc p f) :=
  h.trans (.of_port p (fun _ hq => ⟨d.pc_updPc_ne f hq, rfl⟩) id (d.pc_updPc_self p f ▸ hb))

theorem Chip.keepsLinks.updPc (h : c.keepsLinks P d) (p : Port) {f : Pc → Pc} (hf : ∀ x, Pc.creditsStay x (f x)) :
    c.keepsLinks P (d.updPc p f) :=
  h.setPc fun _ hd => hd.of_stay (hf _) (Nat.le_refl _)

theorem Chip.keepsLinks.updLink (h : c.keepsLinks P d) (p : Port) {f : Link → Link} (hf : (d.link p).keeps (f (d.link p))) :
    c.keepsLinks P (d.updLink p f) := by
  have hlink : (d.updLink p f).link p = f (d.link p) := d.link_updLink_self p f
  exact h.trans (.of_port p (fun _ hq => ⟨rfl, d.link_updLink_ne f hq⟩) (hlink ▸ hf.inRange)
    (hlink ▸ fun _ hd => hd.of_stay (.refl _) hf.credits))

theorem Chip.keepsLinks.dropReport (h : c.keepsLinks P d) (p : Port) : c.keepsLinks P (d.dropReport p) :=
  h.updLink p (.unranged ..)

end keepsLinks

/-! ## The credits granted -/

/-- The request credits granted to each port. -/
def Chip.granted (c : Chip) (p : Port) : Nat := (c.pc p).granted

theorem Chip.granted_of_pcs {c d : Chip} (h : d.pcs = c.pcs) : d.granted = c.granted := by
  funext p
  rw [Chip.granted, Chip.granted, Chip.pc, Chip.pc, h]

theorem Chip.granted_updPc (c : Chip) (p : Port) {f : Pc → Pc} (hf : ∀ x : Pc, (f x).granted = x.granted) :
    (c.updPc p f).granted = c.granted := by
  funext q
  unfold Chip.granted
  by_cases hq : q = p
  · subst hq; rw [Chip.pc_updPc_self, hf]
  · rw [Chip.pc_updPc_ne c f hq]

/-- A claim that grants no credit keeps the Link Engines and the input buffers as they are. -/
theorem Chip.claimKeeps.links_kept {P : Port → Prop} {c d : Chip} (h : c.claimKeeps d) (hg : d.granted = c.granted) : c.keepsLinks P d :=
  .of_ports (fun p => by rw [Chip.link, Chip.link, h.links]; exact .refl _)
    fun p => .of_eq (congrFun hg p) (h.pc p).buffer

theorem Pc.record_granted (x : Pc) (k : EventKind) : (x.record k).granted = x.granted := by
  unfold Pc.record
  split <;> rfl

theorem Pc.protocolError_granted (x : Pc) : x.protocolError.granted = x.granted := Pc.record_granted _ .protocol

theorem Pc.protocolError_buffer (x : Pc) : x.protocolError.buffer = x.buffer :=
  (Pc.record_keeps { x with errors := min (x.errors + 1) Config.errorMax } .protocol).buffer

theorem Pc.protocolError_creditsStay (x : Pc) : x.creditsStay x.protocolError :=
  .of_eq x.protocolError_granted x.protocolError_buffer

theorem Pc.foldl_enqueue_granted : ∀ (l : List Answer) (x : Pc), (l.foldl (fun x a => x.enqueue a.resp) x).granted = x.granted
  | [], _ => rfl
  | a :: l, x => Pc.foldl_enqueue_granted l (x.enqueue a.resp)

section granted
variable (c : Chip) (p : Port)

theorem Chip.granted_taken : (c.taken p).granted = c.granted := c.granted_updPc p fun _ => rfl

theorem Chip.granted_setStage (st : Stage) : (c.setStage p st).granted = c.granted := c.granted_updPc p fun _ => rfl

theorem Chip.granted_endAt (b : Block) (k : Current) : (c.endAt b p k).granted = c.granted := c.granted_updPc p fun _ => rfl

theorem Chip.granted_respond (tag : Tag) (st : Status) (body : List Word) : (c.respond p tag st body).granted = c.granted :=
  c.granted_updPc p fun _ => rfl

theorem Chip.granted_finish (tag : Tag) (st : Status) (body : List Word) : (c.finish p tag st body).granted = c.granted := by
  rw [Chip.finish, Chip.granted_respond, Chip.granted_taken]

theorem Chip.granted_answer (h : Hand) (o : Option Block) (r : Response) : (c.answer h o p r).granted = c.granted := by
  cases h with
  | later => exact Chip.granted_of_pcs rfl
  | now =>
    have hdue : (c.deliver o p).granted = c.granted :=
      (Chip.granted_updPc _ p (Pc.foldl_enqueue_granted _)).trans
        (Chip.granted_of_pcs (d := { c with wires := (c.deliver o p).wires }) rfl)
    rw [← hdue]
    exact (c.deliver o p).granted_updPc p fun _ => rfl

theorem Chip.granted_reply (h : Hand) (b : Block) (k : Current) (st : Status) (body : List Word) (i : Option Handle) :
    (c.reply h b p k st body i).granted = c.granted :=
  (Chip.granted_answer ..).trans (c.granted_endAt p b k)

theorem Chip.granted_raisePeerChange : (c.raisePeerChange p).granted = c.granted := Chip.granted_of_pcs (c.raisePeerChange_pcs p)

end granted

/-! ## The requests that a block takes -/

/-- What the dispatch of a row and each claim on a request of it keep, a step of the row keeps. -/
theorem Chip.runRequest_invariant {Q : Chip → Prop} {row : ReqRow} {b : Block} {p : Port} {f : Hand → Current → Chip → Chip}
    (hdispatch : ∀ c, Q c → Q (c.dispatchHead row p)) (hclaim : ∀ h k c, k.req.row = row → Q c → Q (f h k c)) (e : Extent) (n : Nat)
    {c : Chip} (hc : Q c) : Q (c.runRequest row b p e n f) := by
  have hnext : ∀ h c, Q c → Q (c.nextClaim row b p (f h)) := fun h c hc => by
    rcases c.nextClaim_cases row b p f with hf | ⟨k, hr, _, hf⟩
    · rw [hf]; exact hc
    · rw [hf]; exact hclaim h k c hr hc
  have hgoOn : ∀ h c, Q c → Q (c.goOn row b p (f h)) := fun h c hc => by
    unfold Chip.goOn
    split
    · split
      · exact hclaim h _ c (by assumption) hc
      · exact hc
    · exact hc
  cases e with
  | dispatch => exact hdispatch c hc
  | claim h => exact hnext h c hc
  | whole =>
    refine repeatClaim_invariant (hgoOn .now) n _ (hnext .now _ ?_)
    split
    · exact hc
    · exact hdispatch c hc

theorem Claimed.granted {b : Block} {p : Port} {k : Current} {c : Chip} {f : Hand → Chip} (H : Claimed b p k c f) (h : Hand) :
    (f h).granted = c.granted := by
  have hbesides : ∀ d, c.besides d → d.granted = c.granted := fun d hd => Chip.granted_of_pcs hd.pcs
  cases H with
  | waits hf => rw [hf]
  | goesOn d st hd _ hf => rw [hf, ← hbesides d hd]; exact d.granted_updPc p fun _ => rfl
  | ends d hd hf => rw [hf, ← hbesides d hd]; exact d.granted_updPc p fun _ => rfl
  | answers d st body i hd hf => rw [hf, ← hbesides d hd]; exact d.granted_reply p ..
  | answersCounted d st body i hd hf =>
    rw [hf, ← hbesides d hd]
    exact (Chip.granted_of_pcs (Chip.lowerCreation_pcs _)).trans (d.granted_reply p ..)

/-! ## The requests that a Port Controller takes -/

section own
variable (p : Port) (c : Chip)

theorem fetchClaim_granted : (fetchClaim p c).granted = c.granted := by
  unfold fetchClaim
  split
  · exact (Chip.granted_finish ..).trans (c.granted_updPc p fun _ => rfl)
  · rfl

theorem configurePortClaim_granted : (configurePortClaim p c).granted = c.granted := by
  have hpassOn : ∀ (d : Chip) old new, (d.passOn p old new).granted = d.granted := fun d old new => by
    unfold Chip.passOn
    dsimp only
    split <;> split <;> rfl
  unfold configurePortClaim
  split
  · split
    · exact c.granted_finish p ..
    · split
      · exact c.granted_finish p ..
      · split
        · exact (Chip.granted_finish ..).trans ((hpassOn ..).trans (c.granted_updPc p fun _ => rfl))
        · exact c.granted_finish p ..
  · rfl

theorem Chip.beginAttach_granted (c : Chip) (p : Port) : (c.beginAttach p).granted = c.granted := by
  rw [← c.granted_setStage p .attaching]
  exact (c.setStage p .attaching).granted_updPc p fun _ => rfl

theorem attachClaim_granted : (attachClaim p c).granted = c.granted := by
  unfold attachClaim
  split
  · split
    · exact c.granted_finish p ..
    · exact c.beginAttach_granted p
  · split
    · exact (Chip.granted_finish ..).trans ((Chip.granted_raisePeerChange ..).trans (c.granted_updPc p fun _ => rfl))
    · rfl
  · rfl

theorem detachClaim_granted : (detachClaim p c).granted = c.granted := by
  unfold detachClaim
  split
  · split
    · exact c.granted_updPc p fun _ => rfl
    · exact c.granted_finish p ..
  · rfl

theorem echoClaim_granted : (echoClaim p c).granted = c.granted := by
  unfold echoClaim
  split
  · exact c.granted_finish p ..
  · rfl

theorem Chip.putGather_granted (g : Gather) : (c.putGather p g).granted = c.granted := by
  unfold Chip.putGather
  split
  · rw [Chip.granted_respond]; exact c.granted_updPc p fun _ => rfl
  · exact c.granted_updPc p fun _ => rfl

theorem gatherPart_granted (hub : Bool) (b : QueryPart) : (gatherPart p hub b c).granted = c.granted := by
  unfold gatherPart
  split
  · split
    · exact c.putGather_granted p _
    · rfl
  · rfl

end own

theorem ownRun_granted {i : Instr} {row : ReqRow} {p : Port} {f : Chip → Chip} (hi : ownRun i = some (row, p, f)) (c : Chip) :
    (f c).granted = c.granted := by
  cases i <;> simp only [ownRun, Option.some.injEq, Prod.mk.injEq, reduceCtorEq] at hi <;> obtain ⟨_, _, rfl⟩ := hi
  case fetchEvents => exact fetchClaim_granted ..
  case configurePort => exact configurePortClaim_granted ..
  case attach => exact attachClaim_granted ..
  case detach => exact detachClaim_granted ..
  case nopEcho => exact echoClaim_granted ..

/-! ## The request rows -/

theorem Pc.dispatch_credits (x : Pc) (k : Packet) :
    (x.dispatch k).granted = x.granted + 1 ∧ (x.dispatch k).buffer = x.buffer.tail := by
  unfold Pc.dispatch
  dsimp only
  split
  · rename_i r _
    cases r <;> exact ⟨rfl, rfl⟩
  · exact ⟨rfl, rfl⟩
  · exact ⟨Pc.protocolError_granted _, Pc.protocolError_buffer _⟩

section rows
variable {P : Port → Prop}

/-- A dispatch takes a packet from the buffer, and the credit it returns is one to advertise (R165). -/
theorem Chip.dispatchHead_keepsLinks (c : Chip) (row : ReqRow) (p : Port) : c.keepsLinks P (c.dispatchHead row p) := by
  unfold Chip.dispatchHead
  split
  · exact .refl c
  · rename_i k rest hbuffer
    split
    · refine Chip.keepsLinks.setPort (.refl c) id fun _ ⟨hcredits, htotal⟩ => ?_
      obtain ⟨hgranted, htail⟩ := (c.pc p).dispatch_credits k
      rw [hbuffer, List.length_cons] at htotal
      unfold Pc.balances Link.addCredits
      rw [hgranted, htail, hbuffer, List.tail_cons]
      exact ⟨Nat.add_le_add_right hcredits 1, by omega⟩
    · exact .refl c

theorem effect_requestRow_keepsLinks {i : Instr} {row : ReqRow} {p : Port} (hi : requestRow i = some (row, p)) (c : Chip) :
    c.keepsLinks P (effect i c) := by
  have hdispatch : ∀ d, c.keepsLinks P d → c.keepsLinks P (d.dispatchHead row p) := fun d hd => hd.trans (d.dispatchHead_keepsLinks row p)
  have hc := Chip.keepsLinks.refl (P := P) c
  rcases requestRow_cases hi with ⟨b, e, n, f, hrun⟩ | ⟨f, hrun⟩ | ⟨hub, parts, g, hrun⟩
  · obtain ⟨_, H⟩ := requestRun_rowOf hrun
    rw [effect_of_requestRun hrun]
    exact Chip.runRequest_invariant hdispatch
      (fun h k d hr hd => hd.trans ((requestRun_keeps hrun h k d).links_kept ((H.claimed k d hr).granted h))) e n hc
  · rw [effect_of_ownRun hrun]
    exact (hdispatch c hc).trans ((ownRun_keeps hrun _).links_kept (ownRun_granted hrun _))
  · have hpart : ∀ b (d : Chip), d.keepsLinks P (gatherPart p hub b d) := fun b d =>
      (gatherPart_keeps p hub b d).links_kept (gatherPart_granted p d hub b)
    rw [effect_of_gatherRun hrun]
    cases g with
    | dispatch => exact hdispatch c hc
    | part b => exact hpart b c
    | whole =>
      refine List.foldlRecOn (motive := c.keepsLinks P) parts _ ?_ fun d hd b _ => hd.trans (hpart b d)
      split
      · exact hc
      · exact hdispatch c hc

end rows

/-! ## Requests and responses at the Port Controller (R164, R165, R170) -/

section port
variable {P : Port → Prop}

/-- An accepted packet uses a credit and takes an entry of the buffer; one refused for its header or its tag gives its credit back to be advertised. The
credits granted are then more than those to advertise: the packet did not arrive ahead of its CREDIT. -/
theorem Chip.arrive_keepsLinks {c : Chip} {p : Port} (h : P p → (c.link p).credits < (c.pc p).granted) (words : List Word) :
    c.keepsLinks P (c.arrive p words) := by
  have hc := Chip.keepsLinks.refl (P := P) c
  have hreturned : c.keepsLinks P ((c.updPc p Pc.protocolError).updLink p fun l => l.addCredits 1) :=
    hc.setPort id fun hP ⟨_, htotal⟩ => by
      unfold Pc.balances Link.addCredits
      rw [Pc.protocolError_granted, Pc.protocolError_buffer]
      exact ⟨h hP, htotal⟩
  have haccepted : ∀ k, c.keepsLinks P (c.updPc p fun x => x.accept k) := fun k =>
    hc.setPc fun hP ⟨_, htotal⟩ => by
      have hused := h hP
      refine ⟨Nat.le_sub_one_of_lt hused, ?_⟩
      show (c.pc p).granted - 1 + ((c.pc p).buffer ++ [k]).length ≤ 8
      rw [List.length_append, List.length_singleton]
      omega
  unfold Chip.arrive
  split
  · exact hc.updPc p Pc.protocolError_creditsStay
  · split
    · exact hreturned
    · split
      · exact hreturned
      · exact haccepted _

theorem takeArrival_keepsLinks {c : Chip} {p : Port} (h : P p → (c.link p).credits < (c.pc p).granted) :
    c.keepsLinks P (takeArrival p c) := by
  have hc := Chip.keepsLinks.refl (P := P) c
  unfold takeArrival
  split
  · split
    · refine (hc.dropReport p).trans (Chip.arrive_keepsLinks (fun hP => ?_) _)
      rw [Chip.dropReport, Chip.link_updLink_self]
      exact h hP
    · exact hc
  · exact hc

variable (p : Port) (c : Chip)

theorem takeSend_keepsLinks : c.keepsLinks P (takeSend p c) := by
  have hc := Chip.keepsLinks.refl (P := P) c
  unfold takeSend
  split
  · exact hc
  · split
    · rename_i r rest _ hsend
      obtain ⟨⟨⟨_, hroom⟩, _⟩, _⟩ := by simpa only [Bool.and_eq_true] using hsend
      exact (hc.updPc p (f := fun x => { x with responses := rest, credit := x.credit - 1 }) fun _ => .of_eq rfl rfl).updLink p (Link.enqueue_keeps hroom _)
    · exact hc

theorem takeAnswer_keepsLinks (tag : Tag) : c.keepsLinks P (takeAnswer p tag c) := by
  unfold takeAnswer
  split
  · exact Chip.keepsLinks.updPc (.same rfl rfl) p fun _ => .of_eq rfl rfl
  · exact .refl c

theorem takeCredit_keepsLinks : c.keepsLinks P (takeCredit p c) := by
  have hc := Chip.keepsLinks.refl (P := P) c
  unfold takeCredit
  split
  · split
    · exact (hc.dropReport p).updPc p fun _ => .of_eq rfl rfl
    · exact hc
  · exact hc

end port

/-! ## Link up, and the leaves of a port (R124, R130 to R138) -/

section leaves
variable {P : Port → Prop}

/-- All 8 credits are granted and stand to be advertised, when none was left over. -/
theorem takeLinkUp_keepsLinks {c : Chip} {p : Port} (h : P p → (c.link p).credits = 0) : c.keepsLinks P (takeLinkUp p c) := by
  have hc := Chip.keepsLinks.refl (P := P) c
  unfold takeLinkUp
  split
  · refine (hc.dropReport p).setPort id fun hP _ => ⟨?_, Nat.le_refl _⟩
    rw [Chip.dropReport, Chip.link_updLink_self]
    show (c.link p).credits + 8 ≤ 8
    rw [h hP]
  · exact hc

variable (p : Port) (c : Chip)

theorem Chip.beginLeave_granted (c : Chip) (p : Port) : (c.beginLeave p).granted = c.granted := by
  rw [← c.granted_setStage p .leaving]
  exact (c.setStage p .leaving).granted_updPc p fun _ => rfl

theorem takeHoldCheck_granted : (takeHoldCheck p c).granted = c.granted := by
  unfold takeHoldCheck
  split
  · dsimp only
    split
    · split
      · exact Chip.granted_finish (c.dropLtuNotice p) p ..
      · rfl
    · split
      · exact Chip.beginLeave_granted _ p
      · rfl
  · rfl

theorem takeDetachEnd_granted : (takeDetachEnd p c).granted = c.granted := by
  have hanswered : ∀ d : Chip, (d.answerDetach p).granted = d.granted := fun d => by
    unfold Chip.answerDetach
    split
    · exact d.granted_finish p ..
    · rfl
  unfold takeDetachEnd
  split
  · exact (hanswered _).trans ((Chip.granted_raisePeerChange ..).trans (Chip.granted_updPc (c.dropEvents p) p fun _ => rfl))
  · rfl

theorem takeEvent_granted (k : EventKind) : (takeEvent p k c).granted = c.granted := by
  unfold takeEvent
  split
  · exact Chip.granted_updPc _ p fun x => x.record_granted k
  · rfl

/-- The buffer is emptied; the credits granted stay. -/
theorem takePortLoss_keepsLinks : c.keepsLinks P (takePortLoss p c) := by
  have hc := Chip.keepsLinks.refl (P := P) c
  have hclaim : ∀ d : Chip, d.keepsLinks P (((d.claimLoss p).notifyLtu p .loss).dropEvents p) := fun d => by
    rw [Chip.claimLoss_eq]; exact .same rfl rfl
  unfold takePortLoss
  split
  · exact ((hc.dropReport p).trans (hclaim _)).updPc p fun _ => ⟨rfl, Nat.zero_le _⟩
  · exact hc

theorem takePortLossEnd_keepsLinks : c.keepsLinks P (takePortLossEnd p c) := by
  have hc := Chip.keepsLinks.refl (P := P) c
  unfold takePortLossEnd
  split
  · split
    · exact Chip.keepsLinks.updPc (d := c.sendFrtNotice p) (.same rfl rfl) p fun _ => .of_eq rfl rfl
    · exact hc
  · split
    · have hdown : c.keepsLinks P ((c.dropEvents p).updPc p Pc.goDown) := Chip.keepsLinks.updPc (.same rfl rfl) p fun _ => .of_eq rfl rfl
      exact hdown.trans (.same (Chip.raisePeerChange_keeps ..).links (Chip.raisePeerChange_pcs ..))
    · exact hc
  · exact hc

theorem Chip.keepsLinks.drop {c d : Chip} (h : c.keepsLinks P d) (p : Port) : c.keepsLinks P (d.updPc p Pc.drop) :=
  h.updPc p fun _ => ⟨rfl, Nat.zero_le _⟩

theorem takeLinkDown_keepsLinks : c.keepsLinks P (takeLinkDown p c) := by
  have hc := Chip.keepsLinks.refl (P := P) c
  unfold takeLinkDown
  split
  · split
    · have hreport := hc.dropReport p
      unfold Chip.beginLinkDown
      split
      · have htaken : c.keepsLinks P ((c.dropReport p).taken p) := hreport.updPc p fun _ => .of_eq rfl rfl
        exact htaken.updPc p fun _ => .of_eq rfl rfl
      · exact hreport.drop p
    · exact hc
  · split
    · exact Chip.keepsLinks.updPc (d := (c.notifyRqc p (.leave true)).notifyLtu p .loss) (.same rfl rfl) p fun _ => .of_eq rfl rfl
    · exact hc
  · split
    · exact hc.drop p
    · exact hc
  · split
    · exact Chip.keepsLinks.updPc (d := c.sendFrtNotice p) (.same rfl rfl) p fun _ => .of_eq rfl rfl
    · exact hc
  · split
    · exact hc.updPc p fun _ => .of_eq rfl rfl
    · exact hc
  · exact hc

end leaves

/-! ## Cancel walks, and the clock -/

theorem takeWalkStep_links (c : Chip) : (takeWalkStep c).links = c.links := by
  unfold takeWalkStep
  split
  · rfl
  · split
    · rfl
    · split
      · rfl
      · dsimp only
        rw [Chip.retireWalked_eq]
        exact Chip.setRunList_links ..

theorem takeWalkEnd_links (c : Chip) : (takeWalkEnd c).links = c.links := by
  unfold takeWalkEnd
  split
  · rfl
  · split
    · dsimp only
      rw [Chip.clearWalkPending_eq]
      split <;> split <;> rfl
    · rfl

theorem takeFrtNotice_links (p : Port) (c : Chip) : (takeFrtNotice p c).links = c.links := by
  unfold takeFrtNotice
  split <;> rfl

theorem Chip.period_keepsLinks {P : Port → Prop} (c : Chip) : c.keepsLinks P c.period := by
  refine .of_ports (fun p => ?_) fun p => ?_
  · rw [Chip.link, Chip.link, Chip.period, ← (takeTick_keeps c).links]
    show Link.keeps _ ((PerPort.tab _).get p)
    rw [PerPort.get_tab]
    exact Link.period_keeps _
  · rw [Chip.pc, Chip.pc, Chip.period_pcs]
    exact .refl _

/-! ## Every command, and the step -/

/-- Command `i` is neither of the two cases that can take `p`'s credits out of balance: a packet that arrives ahead of the CREDIT that carries its credit
(log 30), and a link up with credits still to be advertised (log 12). -/
def Chip.creditsReady (c : Chip) (i : Instr) (p : Port) : Prop :=
  (i = .requestArrival p → (c.link p).credits < (c.pc p).granted) ∧ (i = .linkUpReport p → (c.link p).credits = 0)

theorem effect_keepsLinks (i : Instr) (c : Chip) : c.keepsLinks (c.creditsReady i) (effect i c) := by
  cases hrow : requestRow i with
  | some x => exact effect_requestRow_keepsLinks (p := x.2) hrow c
  | none =>
    cases hlink : linkRun i with
    | some x => rw [effect_of_linkRun (p := x.1) hlink]; exact (Chip.keepsLinks.refl c).updLink _ (linkRun_keeps (p := x.1) hlink _)
    | none =>
      cases i <;> simp only [requestRow, linkRun, reduceCtorEq] at hrow hlink
      case take => exact .same (takeHandOver_keeps c).links (takeHandOver_pcs c)
      case attachNoticeRqc p => exact .same (takeAttachRqc_keeps p c).links (takeAttachRqc_pcs p c)
      case attachNoticeLtu p => exact .same (takeAttachLtu_keeps p c).links (takeAttachLtu_pcs p c)
      case holdCheck p => exact (takeHoldCheck_keeps p c).links_kept (takeHoldCheck_granted p c)
      case portLeaveClaim p => exact .same (takePortLeave_keeps p c).links (takePortLeave_pcs p c)
      case detachEnd p => exact (takeDetachEnd_keeps p c).links_kept (takeDetachEnd_granted p c)
      case requestArrival p => exact takeArrival_keepsLinks fun h => h.1 rfl
      case sendResponse x =>
        cases x with
        | claim p tag => exact takeAnswer_keepsLinks p c tag
        | head p => exact takeSend_keepsLinks p c
      case receivedCredit p => exact takeCredit_keepsLinks p c
      case place src => exact .same (takePlace_keeps src c).links (takePlace_pcs src c)
      case requeue => exact .same (takeRequeue_keeps c).links (takeRequeue_pcs c)
      case retire src => exact .same (takeRetire_keeps src c).links (takeRetire_pcs src c)
      case childEnd => exact .same (takeChildEnd_keeps c).links (takeChildEnd_pcs c)
      case cancelWalkStep => exact .same (takeWalkStep_links c) (takeWalkStep_pcs c)
      case cancelWalkEnd => exact .same (takeWalkEnd_links c) (takeWalkEnd_pcs c)
      case stealableOn p => exact .same (takeStealableOn_keeps p c).links (takeStealableOn_pcs p c)
      case stealEnableOn p => exact .same (takeStealEnableOn_keeps p c).links (takeStealEnableOn_pcs p c)
      case leaseExpiry i => exact .same (takeLeaseExpiry_keeps i c).links (takeLeaseExpiry_pcs i c)
      case parkTimeout p tag => exact .same (takeParkTimeout_keeps p tag c).links (takeParkTimeout_pcs p tag c)
      case pendingEventRecord p k => exact (takeEvent_keeps p k c).links_kept (takeEvent_granted p c k)
      case linkUpReport p => exact takeLinkUp_keepsLinks fun h => h.2 rfl
      case portLoss p => exact takePortLoss_keepsLinks p c
      case portLossClaimLtu p => exact .same (takeLossClaim_keeps p c).links (takeLossClaim_pcs p c)
      case portLossEnd p => exact takePortLossEnd_keepsLinks p c
      case frtPortLossNotice p => exact .same (takeFrtNotice_links p c) (takeFrtNotice_pcs p c)
      case linkDownFromLinked p => exact takeLinkDown_keepsLinks p c
      case completionCheck => exact .same (takeCheck_keeps c).links (takeCheck_pcs c)
      case quiesceCompletion => exact .same (takeCompletion_keeps c).links (takeCompletion_pcs c)
      case setupNotice => exact .same (takeSetupNotice_keeps c).links (takeSetupNotice_pcs c)
      case tick => exact .same (takeTick_keeps c).links (takeTick_pcs c)
      case rstNAssert => exact .refl c
      case rstNDeassert => exact .refl c
      case storedWordDisturbance => exact .same rfl rfl

/-- A command gives the hub held or at power-on, leaves it as it is, or gives its effect. -/
theorem exec_cases {i : Instr} {s t : State} (h : exec i s = .next t) :
    (∃ straps, t.chip = .held straps ∨ t.chip = .powerOn straps) ∨ t.chip = s.chip ∨ t.chip = effect i s.chip := by
  by_cases hassert : i = .rstNAssert
  · subst hassert
    injection h with h
    exact .inl ⟨s.chip.straps, .inl (h ▸ rfl)⟩
  by_cases hdeassert : ∃ straps, i = .rstNDeassert straps
  · obtain ⟨straps, rfl⟩ := hdeassert
    injection h with h
    have ht : t.chip = if s.chip.rst then .powerOn straps else s.chip := h ▸ rfl
    split at ht
    · exact .inl ⟨straps, .inr ht⟩
    · exact .inr (.inl ht)
  · rw [exec_eq_run i s hassert fun straps hi => hdeassert ⟨straps, hi⟩] at h
    obtain ⟨_, ht⟩ := State.run_eq_next h
    split at ht
    · exact .inr (.inl ht)
    · exact .inr (.inr ht)

theorem Chip.powerOn_keepsLinks {P : Port → Prop} (c : Chip) (straps : PerPort Bool) : c.keepsLinks P (.powerOn straps) := by
  refine ⟨fun p _ => ?inRange, fun p _ _ => ?balance⟩
  case inRange => rw [Chip.powerOn_link]; exact Link.powerOn_inRange _
  case balance => rw [Chip.creditsBalance_iff, Chip.powerOn_link, Chip.powerOn_pc]; exact ⟨Nat.le_refl 0, Nat.zero_le 8⟩

theorem exec_keepsLinks {i : Instr} {s t : State} (h : exec i s = .next t) : s.chip.keepsLinks (s.chip.creditsReady i) t.chip := by
  obtain ⟨straps, ht | ht⟩ | ht | ht := exec_cases h
  · rw [ht]; exact (s.chip.powerOn_keepsLinks straps).trans (.same rfl rfl)
  · rw [ht]; exact s.chip.powerOn_keepsLinks straps
  · rw [ht]; exact .refl _
  · rw [ht]; exact effect_keepsLinks i s.chip

theorem idle_keepsLinks {P : Port → Prop} (s : State) : s.chip.keepsLinks P (idle s).chip := by
  unfold idle
  dsimp only
  split
  · exact .refl _
  · exact s.chip.period_keepsLinks

/-- A step takes the command at the front of the queue, or is one period, which takes no port's credits out of balance. -/
theorem step_keepsLinks {s t : State} (h : step s = .next t) :
    s.chip.keepsLinks (fun p => ∀ i, s.pending.head? = some i → s.chip.creditsReady i p) t.chip := by
  unfold step at h
  split at h
  · injection h with h
    exact h ▸ idle_keepsLinks s
  · rename_i i rest hpending
    obtain ⟨hrange, hbalance⟩ := exec_keepsLinks h
    exact ⟨hrange, fun p hP => hbalance p (hP i (by rw [hpending]; rfl))⟩

/-- Settles O60: the step keeps the ranges of every port, and the balance of each one that neither case is about; a balance holds the credits to advertise
to 8. -/
theorem stepKeepsLinksInRange : Obligations.StepKeepsLinksInRange := by
  intro s t h
  obtain ⟨hrange, hbalance⟩ := step_keepsLinks h
  refine ⟨fun hs p => hrange p (hs p), fun p hp harrival hlinkUp => ?balance⟩
  case balance =>
    have hready : ∀ i, s.pending.head? = some i → s.chip.creditsReady i p := fun i hi =>
      ⟨fun ha => harrival (ha ▸ hi), fun hu => hlinkUp (hu ▸ hi)⟩
    obtain ⟨hcredits, htotal⟩ : t.chip.creditsBalance p := hbalance p hready hp
    exact ⟨⟨hcredits, htotal⟩, hcredits.trans ((Nat.le_add_right _ _).trans htotal)⟩

end Sys2Proof.Machine
end

section
/-! NOP_ECHO: the body a request carries is the one its packet gave, and it is the answer (O11). -/

namespace Sys2Proof.Machine

/-- A packet that passes the dispatch checks is a request of its fields as some kind reads them (R168). -/
theorem Packet.decodeFields_of_decode {k : Packet} {r : Req} (h : k.decode = .ok r) : ∃ kind, k.decodeFields kind = some r := by
  unfold Packet.decode at h
  split at h
  · cases h
  · rename_i kind _
    split at h
    · cases h
    · split at h
      · cases h
      · split at h
        · rename_i hr
          injection h with h
          exact ⟨kind, h ▸ hr⟩
        · cases h

/-- Only a NOP_ECHO is read as one, and its body is the packet's. -/
theorem Packet.body_of_decodeFields {k : Packet} {kind : Kind} {body : List Word} (h : k.decodeFields kind = some (.nopEcho body)) :
    body = k.body := by
  cases kind <;> simp only [Packet.decodeFields, Option.some.injEq, Req.nopEcho.injEq, reduceCtorEq] at h
  case nopEcho => exact h.symm
  case complete => split at h <;> cases h
  case openFrame => split at h <;> cases h
  case query => split at h <;> cases h
  case configure => split at h <;> simp [Option.map_eq_some_iff] at h

/-- NOP_ECHO takes every length a request packet can have (R168, R173). -/
theorem Packet.decode_nopEcho {tag : Tag} {body : List Word} (h : body.length ≤ 15) :
    (⟨0x20, tag, 0, body⟩ : Packet).decode = .ok (.nopEcho body) := by
  have hlen : (⟨0x20, tag, 0, body⟩ : Packet).lengthOk .nopEcho = true := decide_eq_true h
  have hkind : Kind.ofCode 0x20 = some .nopEcho := rfl
  have hflags : ¬ (0 : BitVec 8) &&& ~~~Kind.nopEcho.flagsDefined ≠ 0 := by decide
  simp only [Packet.decode, hkind, if_neg hflags, hlen, Bool.true_eq_false, if_false, Packet.decodeFields]

theorem Chip.ready.decode {c : Chip} {p : Port} {k : Packet} {r : Req} (h : c.ready p k r) : k.decode = .ok r := by
  obtain ⟨_, _, _, hdecode, _⟩ := h
  exact hdecode

/-- The Port Controller answers the body it has dispatched. -/
theorem echoClaim_ready {c : Chip} {p : Port} {k : Packet} {body : List Word} (h : c.ready p k (.nopEcho body)) :
    echoClaim p (c.dispatched p ⟨k.tag, .nopEcho body, .given⟩) = c.answered p k.tag .ok body := by
  simp only [echoClaim, Chip.dispatched_current, Chip.dispatched_finish h]

/-- Settles O11: what the head's packet decodes to, and the one claim of it. -/
theorem echoReturnsBody : Obligations.EchoReturnsBody := by
  refine ⟨fun s p k body h => ?echoes, fun tag body h => Packet.decode_nopEcho h⟩
  case echoes =>
    obtain ⟨_, hfields⟩ := Packet.decodeFields_of_decode h.decode
    have hbody : body = k.body := Packet.body_of_decodeFields hfields
    refine ⟨hbody, ?_⟩
    rw [exec_own h (show ownRun (.nopEcho p) = some (.nopEcho, p, echoClaim p) from rfl), echoClaim_ready h, hbody]

end Sys2Proof.Machine
end

section
/-! What each function of a Link Engine does, an equation per case: commands of the link, training, sending, receiving, acknowledgement (O51 to O56). -/

namespace Sys2Proof.Machine

/-! ## A command of the link -/

section command
variable {s : State} {i : Instr} {p : Port} {f : Link → Link}

/-- A command of the link that brings its port's Link Engine to `m`. -/
theorem exec_link_to {m : Link} (hr : s.chip.rst = false) (h : linkRun i = some (p, f)) (hm : f (s.chip.link p) = m) :
    exec i s = .next { s with chip := { s.chip with links := s.chip.links.set p m } } :=
  hm ▸ exec_linkRun hr h

/-- A command of the link that leaves its port's Link Engine as it is leaves the hub as it is. -/
theorem exec_link_same (hr : s.chip.rst = false) (h : linkRun i = some (p, f)) (hm : f (s.chip.link p) = s.chip.link p) :
    exec i s = .next s := by
  have hset : s.chip.links.set p (s.chip.link p) = s.chip.links := s.chip.links.set_get_self p
  rw [exec_link_to hr h hm, hset]

/-- A command of the link reads nothing of its port's Link Engine but what its function answers. -/
theorem exec_link_congr {l : Link} (hr : s.chip.rst = false) (h : linkRun i = some (p, f)) (hl : f (s.chip.link p) = f l) :
    exec i s = exec i { s with chip := { s.chip with links := s.chip.links.set p l } } := by
  have hself : Chip.link { s.chip with links := s.chip.links.set p l } p = l := s.chip.links.get_set_self p l
  rw [exec_link_to hr h hl, exec_link_to (s := { s with chip := { s.chip with links := s.chip.links.set p l } }) hr h (congrArg f hself)]
  simp only [PerPort.set_set]

/-- The Link Engine of the port after a command of the link. -/
theorem link_of_exec_link {t : State} (hr : s.chip.rst = false) (h : linkRun i = some (p, f)) (ht : exec i s = .next t) :
    t.chip.link p = f (s.chip.link p) := by
  rw [exec_linkRun hr h] at ht
  injection ht with ht
  rw [← ht]
  exact s.chip.links.get_set_self p _

end command

section engine
variable {l : Link}

/-! ## Training (R176 to R179) -/

theorem Link.endHoldOff_due (h : l.state = .holdOff) (h0 : l.holdOffLeft = 0) :
    l.endHoldOff = { l with state := .training, trainRun := 0, trainSent := 0 } := by
  unfold Link.endHoldOff
  rw [h]
  exact if_pos h0

theorem Link.endHoldOff_early (h : l.state = .holdOff) (h0 : 0 < l.holdOffLeft) : l.endHoldOff = l := by
  unfold Link.endHoldOff
  rw [h]
  exact if_neg (Nat.ne_of_gt h0)

theorem Link.receive_ignored (h : l.state = .holdOff ∨ l.state = .disabled) (u : RxUnit) : l.receive u = l := by
  unfold Link.receive
  rcases h with h | h <;> rw [h]

/-- While the run is not latched, TRAINs are sent and not counted; the sixteenth counted enters UP. -/
theorem Link.sendTrain_training (h : l.state = .training) :
    l.sendTrain = if l.trainRun < 16 then { l with lane := [.control (symTrain ())] }
      else if l.trainSent + 1 < 16 then { l with lane := [.control (symTrain ())], trainSent := l.trainSent + 1 }
      else { l with lane := [.control (symTrain ())], trainSent := 16 }.enterUp := by
  unfold Link.sendTrain
  rw [h]

/-! ## Sending (R184, R185, R189) -/

theorem Link.transmit_owed (h : l.state = .up) {a : Ack} (ha : l.owed = some a) :
    l.transmit = { l with owed := none, lane := [.control a.symbol] } := by
  unfold Link.transmit
  rw [h, ha]

/-- CREDIT carries the amount to advertise, 15 at most (log 30). -/
theorem Link.transmit_credit (h : l.state = .up) (ho : l.owed = none) (hc : 0 < l.credits) :
    l.transmit = { l with
      credits := l.credits - min l.credits 15, lane := [.control (symCredit (BitVec.ofNat 4 (min l.credits 15)))] } := by
  unfold Link.transmit
  rw [h, ho]
  exact if_pos hc

theorem Link.transmit_packet (h : l.state = .up) (ho : l.owed = none) (hc : l.credits = 0) {e : ReplayEntry}
    (he : l.replay[l.sendPtr]? = some e) : l.transmit = l.sendEntry e := by
  have hnone : ¬ 0 < l.credits := Nat.not_lt.mpr (Nat.le_of_eq hc)
  unfold Link.transmit
  rw [h, ho, he]
  exact if_neg hnone

theorem Link.transmit_idle (h : l.state = .up) (ho : l.owed = none) (hc : l.credits = 0) (he : l.replay.length ≤ l.sendPtr) :
    l.transmit = { l with lane := [.control (symIdle ())] } := by
  have hnone : ¬ 0 < l.credits := Nat.not_lt.mpr (Nat.le_of_eq hc)
  unfold Link.transmit
  rw [h, ho, List.getElem?_eq_none he]
  exact if_neg hnone

/-- The replay timer starts with the packet sent, unless it runs already (R187). -/
theorem Link.sendEntry_eq (l : Link) (e : ReplayEntry) :
    l.sendEntry e = { l with
      lane := frameUnits e.seq e.words, replay := l.replay.set l.sendPtr { e with sent := true }, sendPtr := l.sendPtr + 1
      replayTimer := some (l.replayTimer.getD 0) } := by
  unfold Link.sendEntry
  cases l.replayTimer <;> rfl

/-! ## The timers (R187, R191) -/

theorem Link.expireReplay_due (h : l.state = .up) {t : Nat} (ht : l.replayTimer = some t) (hdue : 800 ≤ t) :
    l.expireReplay = l.callReplay 0 := by
  unfold Link.expireReplay
  rw [h, ht]
  exact if_pos hdue

theorem Link.expireReplay_early (h : l.state = .up) (hearly : ∀ t, l.replayTimer = some t → t < 800) : l.expireReplay = l := by
  unfold Link.expireReplay
  rw [h]
  cases ht : l.replayTimer with
  | none => rfl
  | some t => exact if_neg (Nat.not_le.mpr (hearly t ht))

theorem Link.expireSilence_due (h : l.state = .up) {t : Nat} (ht : l.silence = some t) (hdue : 1600 ≤ t) :
    l.expireSilence = l.goDown := by
  unfold Link.expireSilence
  rw [h, ht]
  exact if_pos hdue

theorem Link.expireSilence_early (h : l.state = .up) (hearly : ∀ t, l.silence = some t → t < 1600) : l.expireSilence = l := by
  unfold Link.expireSilence
  rw [h]
  cases ht : l.silence with
  | none => rfl
  | some t => exact if_neg (Nat.not_le.mpr (hearly t ht))

/-! ## Receiving in UP (R180 to R183) -/

/-- A TRAIN before the link is settled. -/
theorem Link.receive_unsettled_train (h : l.state = .up) (hs : l.settled = false) : l.receive .train = l := by
  rw [Link.receive_up h]
  exact if_pos ⟨rfl, hs⟩

/-- A TRAIN once the link is settled starts the silence timer, and is not ignored. -/
theorem Link.settled_train (hs : l.settled = true) :
    l.count .train = { l with silence := some 0 } ∧ ¬ (RxUnit.train = .train ∧ l.settled = false) :=
  ⟨if_pos hs, fun ⟨_, hu⟩ => Bool.noConfusion (hs.symm.trans hu)⟩

/-- A TRAIN once the link is settled, outside a packet. -/
theorem Link.receive_train_outside (h : l.state = .up) (hs : l.settled = true) (hx : l.rx = none) :
    l.receive .train = { l with silence := some 0 }.goDown := by
  obtain ⟨hcount, htaken⟩ := Link.settled_train hs
  rw [Link.receive_up h]
  unfold Link.unitInUp
  rw [if_neg htaken, hcount, hx]
  rfl

/-- A TRAIN once the link is settled, inside a packet. -/
theorem Link.receive_train_inside (h : l.state = .up) (hs : l.settled = true) {k : OpenPacket} (hx : l.rx = some k) :
    l.receive .train = { l with silence := some 0 }.closeDamaged.goDown := by
  obtain ⟨hcount, htaken⟩ := Link.settled_train hs
  rw [Link.receive_up h]
  unfold Link.unitInUp
  rw [if_neg htaken, hcount, hx]
  rfl

/-- The good units other than TRAIN: each settles the link and starts the silence timer. -/
def RxUnit.settles : RxUnit → Bool
  | .train | .damaged => false
  | .idle | .start _ | .stop | .ack _ | .nak _ | .credit _ | .data _ => true

theorem RxUnit.ne_of_settles {u : RxUnit} (hu : u.settles = true) : u ≠ .train ∧ u ≠ .damaged := by
  cases u with
  | train => cases hu
  | damaged => cases hu
  | _ => exact ⟨nofun, nofun⟩

/-- A good unit other than TRAIN outside a packet. -/
theorem Link.receive_good_outside (h : l.state = .up) (hx : l.rx = none) {u : RxUnit} (hu : u.settles = true) :
    l.receive u = { l with silence := some 0, settled := true }.unitOutside u := by
  obtain ⟨ht, hd⟩ := RxUnit.ne_of_settles hu
  rw [Link.receive_outside h hx ht, Link.count_good ht hd]

/-- A good unit other than TRAIN inside a packet. -/
theorem Link.receive_good_inside (h : l.state = .up) {k : OpenPacket} (hx : l.rx = some k) {u : RxUnit} (hu : u.settles = true) :
    l.receive u = { l with silence := some 0, settled := true }.unitInside k u := by
  obtain ⟨ht, hd⟩ := RxUnit.ne_of_settles hu
  rw [Link.receive_inside h hx ht, Link.count_good ht hd]

/-- Closing the open packet as damaged changes the receiver, the owed acknowledgement and the mark that a NAK is outstanding. -/
theorem Link.closeDamaged_eq (l : Link) :
    l.closeDamaged = { l with rx := none, nakOut := true, owed := if l.nakOut then l.owed else some (.nak l.expected) } :=
  Link.oweNak_eq { l with rx := none }

/-- The good units, TRAIN aside, that belong outside packets: one of them inside a packet closes it as damaged. -/
def RxUnit.closes : RxUnit → Bool
  | .start _ | .ack _ | .nak _ | .credit _ | .idle => true
  | .train | .data _ | .stop | .damaged => false

theorem Link.unitInside_of_closes {u : RxUnit} (hu : u.closes = true) (l : Link) (k : OpenPacket) :
    l.unitInside k u = l.closeDamaged.unitOutside u := by
  cases u <;> first | rfl | cases hu

theorem RxUnit.settles_of_closes {u : RxUnit} (hu : u.closes = true) : u.settles = true := by
  cases u <;> first | rfl | cases hu

/-- A unit that closes an open packet is then taken as if none had been open (R182). -/
theorem Link.receive_closes (h : l.state = .up) {k : OpenPacket} (hx : l.rx = some k) {u : RxUnit} (hu : u.closes = true) :
    l.receive u = l.closeDamaged.receive u := by
  have hs := RxUnit.settles_of_closes hu
  have hclosed := Link.receive_good_outside (l := l.closeDamaged) (l.closeDamaged_eq ▸ h) (l.closeDamaged_eq ▸ rfl) hs
  rw [hclosed, Link.receive_good_inside h hx hs, Link.unitInside_of_closes hu, Link.closeDamaged_eq, Link.closeDamaged_eq]

/-- So is a TRAIN, once the link is settled. -/
theorem Link.receive_train_closes (h : l.state = .up) {k : OpenPacket} (hx : l.rx = some k) (hs : l.settled = true) :
    l.receive .train = l.closeDamaged.receive .train := by
  have hclosed := Link.receive_train_outside (l := l.closeDamaged) (l.closeDamaged_eq ▸ h) (l.closeDamaged_eq ▸ hs) (l.closeDamaged_eq ▸ rfl)
  rw [hclosed, Link.receive_train_inside h hs hx, Link.closeDamaged_eq, Link.closeDamaged_eq]

theorem Link.unitInside_data (k : OpenPacket) {w : Word} (hk : k.words.length < 17) :
    l.unitInside k (.data w) = { l with rx := some { k with words := k.words ++ [w] } } :=
  if_pos hk

/-- An eighteenth data word closes the packet, and is a framing fault outside it. -/
theorem Link.unitInside_data_full (k : OpenPacket) {w : Word} (hk : 17 ≤ k.words.length) :
    l.unitInside k (.data w) = l.closeDamaged.goDown :=
  if_neg (Nat.not_lt.mpr hk)

/-- The END of a good packet in sequence. -/
theorem Link.closePacket_accepts {k : OpenPacket} (hg : k.good = true) (hseq : k.seq = l.expected) :
    l.closePacket k = { l with
      rx := none, reports := l.reports ++ [.packet k.words.dropLast], owed := some (.ack l.expected)
      expected := l.expected + 1, nakOut := false } := by
  have hgood : (k.good && k.seq == l.expected) = true := Bool.and_eq_true_iff.mpr ⟨hg, beq_iff_eq.mpr hseq⟩
  exact if_pos hgood

/-- The END of any other packet. -/
theorem Link.closePacket_discards {k : OpenPacket} (h : ¬ k.good = true ∨ k.seq ≠ l.expected) : l.closePacket k = l.closeDamaged := by
  have hbad : ¬ (k.good && k.seq == l.expected) = true := by
    rw [Bool.and_eq_true, beq_iff_eq, not_and_or]
    exact h
  exact if_neg hbad

/-! ## Acknowledgement and replay (R186, R188) -/

theorem Link.sentAt_first {older newer : List ReplayEntry} {e : ReplayEntry} {n : Seq} (hl : l.replay = older ++ e :: newer) (hn : e.seq = n)
    (he : e.sent = true) (hfirst : ∀ x ∈ older, x.seq ≠ n ∨ x.sent = false) : l.sentAt n = some older.length := by
  have hnone : (older.findIdx? fun e => e.seq == n && e.sent) = none := by
    simpa [List.findIdx?_eq_none_iff, imp_iff_not_or] using hfirst
  simp [Link.sentAt, hl, List.findIdx?_append, hnone, List.findIdx?_cons, hn, he]

theorem Link.sentAt_none {n : Seq} (h : ∀ x ∈ l.replay, x.seq ≠ n ∨ x.sent = false) : l.sentAt n = none := by
  refine List.findIdx?_eq_none_iff.mpr fun x hx => ?_
  simpa [imp_iff_not_or] using h x hx

theorem Link.takeAck_sent {n : Seq} {i : Nat} (h : l.sentAt n = some i) : l.takeAck n = l.acknowledge (i + 1) := by
  unfold Link.takeAck
  rw [h]

theorem Link.takeAck_other {n : Seq} (h : l.sentAt n = none) : l.takeAck n = l := by
  unfold Link.takeAck
  rw [h]

/-- NAK of a packet that is still to be sent again. -/
theorem Link.takeNak_unsent {n : Seq} {i : Nat} (h : l.sentAt n = some i) (hptr : l.sendPtr ≤ i) : l.takeNak n = l.acknowledge i := by
  unfold Link.takeNak
  rw [h]
  exact if_pos hptr

theorem Link.takeNak_sent {n : Seq} {i : Nat} (h : l.sentAt n = some i) (hptr : i < l.sendPtr) :
    l.takeNak n = (l.acknowledge i).callReplay 0 := by
  unfold Link.takeNak
  rw [h]
  exact if_neg (Nat.not_le.mpr hptr)

theorem Link.takeNak_next {n : Seq} (h : l.sentAt n = none) (hn : n = l.nextSeq) : l.takeNak n = l.acknowledge l.replay.length := by
  unfold Link.takeNak
  rw [h]
  exact if_pos hn

theorem Link.takeNak_other {n : Seq} (h : l.sentAt n = none) (hn : n ≠ l.nextSeq) : l.takeNak n = l := by
  unfold Link.takeNak
  rw [h]
  exact if_neg hn

theorem Link.callReplay_below (h : l.replayCount < 4) (i : Nat) :
    l.callReplay i = { l with replayCount := l.replayCount + 1, replayTimer := some 0, sendPtr := i } :=
  if_pos h

theorem Link.callReplay_limit (h : 4 ≤ l.replayCount) (i : Nat) : l.callReplay i = l.goDown :=
  if_neg (Nat.not_lt.mpr h)

theorem Link.acknowledge_reports (l : Link) (k : Nat) : (l.acknowledge k).reports = l.reports := by
  unfold Link.acknowledge
  split <;> rfl

/-! ## The settled mark (R180) -/

theorem Link.acknowledge_settled (l : Link) (k : Nat) : (l.acknowledge k).settled = l.settled := by
  unfold Link.acknowledge
  split <;> rfl

theorem Link.callReplay_settled (l : Link) (i : Nat) : (l.callReplay i).settled = l.settled := by
  unfold Link.callReplay
  split <;> rfl

theorem Link.takeAck_settled (l : Link) (n : Seq) : (l.takeAck n).settled = l.settled := by
  cases h : l.sentAt n with
  | some i => rw [Link.takeAck_sent h, Link.acknowledge_settled]
  | none => rw [Link.takeAck_other h]

theorem Link.takeNak_settled (l : Link) (n : Seq) : (l.takeNak n).settled = l.settled := by
  cases h : l.sentAt n with
  | some i =>
    rcases Nat.lt_or_ge i l.sendPtr with hptr | hptr
    · rw [Link.takeNak_sent h hptr, Link.callReplay_settled, Link.acknowledge_settled]
    · rw [Link.takeNak_unsent h hptr, Link.acknowledge_settled]
  | none =>
    by_cases hn : n = l.nextSeq
    · rw [Link.takeNak_next h hn, Link.acknowledge_settled]
    · rw [Link.takeNak_other h hn]

theorem Link.unitOutside_settled (l : Link) (u : RxUnit) : (l.unitOutside u).settled = l.settled := by
  cases u with
  | ack n => exact l.takeAck_settled n
  | nak n => exact l.takeNak_settled n
  | credit n =>
    show (if n = 0 then l else { l with reports := l.reports ++ [.credit n.toNat] }).settled = l.settled
    split <;> rfl
  | _ => rfl

theorem Link.closePacket_settled (l : Link) (k : OpenPacket) : (l.closePacket k).settled = l.settled := by
  by_cases h : k.good = true ∧ k.seq = l.expected
  · rw [Link.closePacket_accepts h.1 h.2]
  · rw [Link.closePacket_discards (not_and_or.mp h), Link.closeDamaged_eq]

theorem Link.unitInside_settled (l : Link) (k : OpenPacket) (u : RxUnit) : (l.unitInside k u).settled = l.settled := by
  have hfault : (l.closeDamaged.unitOutside u).settled = l.settled := by
    rw [Link.unitOutside_settled, Link.closeDamaged_eq]
  cases u with
  | data w =>
    rcases Nat.lt_or_ge k.words.length 17 with hk | hk
    · rw [Link.unitInside_data k hk]
    · rw [Link.unitInside_data_full k hk]; exact hfault
  | stop => exact l.closePacket_settled k
  | damaged => rfl
  | _ => exact hfault

/-- A good unit other than TRAIN settles the link. -/
theorem Link.receive_settles (h : l.state = .up) {u : RxUnit} (hu : u.settles = true) : (l.receive u).settled = true := by
  cases hx : l.rx with
  | none => rw [Link.receive_good_outside h hx hu, Link.unitOutside_settled]
  | some k => rw [Link.receive_good_inside h hx hu, Link.unitInside_settled]

/-- A good unit other than TRAIN is taken as on a settled link. -/
theorem Link.receive_as_settled (h : l.state = .up) {u : RxUnit} (hu : u.settles = true) :
    l.receive u = { l with settled := true }.receive u := by
  have h' : { l with settled := true }.state = .up := h
  obtain hx | ⟨k, hx⟩ := Option.eq_none_or_eq_some l.rx
  · exact (Link.receive_good_outside h hx hu).trans (Link.receive_good_outside (l := { l with settled := true }) h' hx hu).symm
  · exact (Link.receive_good_inside h hx hu).trans (Link.receive_good_inside (l := { l with settled := true }) h' hx hu).symm

end engine

/-! ## A unit received, as a command -/

section unit
variable {s : State} {i : Instr} {p : Port} {u : RxUnit}

/-- The command of a good unit other than TRAIN, outside a packet. -/
theorem exec_good_outside {m : Link} (hr : s.chip.rst = false) (h : (s.chip.link p).state = .up) (hx : (s.chip.link p).rx = none)
    (hi : linkRun i = some (p, fun l => l.receive u)) (hu : u.settles = true)
    (hm : { s.chip.link p with silence := some 0, settled := true }.unitOutside u = m) :
    exec i s = .next { s with chip := { s.chip with links := s.chip.links.set p m } } :=
  exec_link_to hr hi ((Link.receive_good_outside h hx hu).trans hm)

/-- The command of a good unit other than TRAIN, inside a packet. -/
theorem exec_good_inside {k : OpenPacket} {m : Link} (hr : s.chip.rst = false) (h : (s.chip.link p).state = .up)
    (hx : (s.chip.link p).rx = some k) (hi : linkRun i = some (p, fun l => l.receive u)) (hu : u.settles = true)
    (hm : { s.chip.link p with silence := some 0, settled := true }.unitInside k u = m) :
    exec i s = .next { s with chip := { s.chip with links := s.chip.links.set p m } } :=
  exec_link_to hr hi ((Link.receive_good_inside h hx hu).trans hm)

end unit

end Sys2Proof.Machine
end

section
/-! The task link: training, the transmitter, what is received in UP, what takes the link down, and the replay buffer (O51 to O56). -/

namespace Sys2Proof.Machine

/-! ## Training and the transmitter -/

/-- Settles O51: the state of the Link Engine says which equation of its functions applies. -/
theorem trainingBringsLinkUp : Obligations.TrainingBringsLinkUp := by
  intro s p hr l after
  refine ⟨fun h => ⟨fun h0 => ?ends, fun h0 => ?early⟩, fun h => ?ignored,
    fun h => ⟨fun unit hrun => ?counts, fun unit hrun => ?latched, fun hrun => ?unlatched, fun hrun hsent => ?sent, fun hrun hsent => ?up⟩⟩
  case ends => exact exec_link_to hr rfl (Link.endHoldOff_due h h0)
  case early => exact exec_link_same hr rfl (Link.endHoldOff_early h h0)
  case ignored =>
    have hsame : ∀ {i u}, linkRun i = some (p, fun l => l.receive u) → exec i s = .next s := fun hi =>
      exec_link_same hr hi (Link.receive_ignored h _)
    exact ⟨fun _ => ⟨hsame rfl, hsame rfl⟩, fun _ => ⟨hsame rfl, hsame rfl, hsame rfl, hsame rfl⟩, fun _ => hsame rfl, hsame rfl,
      hsame rfl, hsame rfl⟩
  case counts =>
    refine exec_link_to hr rfl ((Link.receive_training h _).trans ((if_pos hrun).trans ?_))
    simp only [sortUnit_eq_train]
    rfl
  case latched => exact exec_link_same hr rfl ((Link.receive_training h _).trans (if_neg (Nat.not_lt.mpr hrun)))
  case unlatched => exact exec_link_to hr rfl ((Link.sendTrain_training h).trans (if_pos hrun))
  case sent =>
    have hmore : l.trainSent + 1 < 16 := Nat.succ_lt_succ hsent
    exact exec_link_to hr rfl ((Link.sendTrain_training h).trans ((if_neg (Nat.not_lt.mpr hrun)).trans (if_pos hmore)))
  case up =>
    have hlast : ¬ l.trainSent + 1 < 16 := Nat.not_lt.mpr (Nat.succ_le_succ hsent)
    exact exec_link_to hr rfl ((Link.sendTrain_training h).trans ((if_neg (Nat.not_lt.mpr hrun)).trans (if_neg hlast)))

/-- Settles O52: one clause for each branch of the transmitter, CREDIT's split at the operand's limit. -/
theorem transmitterOrder : Obligations.TransmitterOrder := by
  intro s p hr h l after outcome
  refine ⟨fun n ho => ?ack, fun n ho => ?nak, fun ho hpos hle => ?credit, fun ho hgt => ?creditAbove, fun e ho hc he => ?packet,
    fun ho hc he => ?idle⟩
  case ack => exact exec_link_to hr rfl (Link.transmit_owed h ho)
  case nak => exact exec_link_to hr rfl (Link.transmit_owed h ho)
  case credit =>
    refine exec_link_to hr rfl ((Link.transmit_credit h ho hpos).trans ?_)
    rw [Nat.min_eq_left hle, Nat.sub_self]
  case creditAbove =>
    refine exec_link_to hr rfl ((Link.transmit_credit h ho (Nat.zero_lt_of_lt hgt)).trans ?_)
    rw [Nat.min_eq_right (Nat.le_of_lt hgt)]
    rfl
  case packet => exact exec_link_to hr rfl ((Link.transmit_packet h ho hc he).trans (Link.sendEntry_eq _ e))
  case idle => exact exec_link_to hr rfl (Link.transmit_idle h ho hc he)

/-! ## Receiving in UP -/

/-- Settles O53: a unit outside a packet, a unit inside one, and the units that close it. -/
theorem unitsReceivedInUp : Obligations.UnitsReceivedInUp := by
  refine ⟨fun s p hr h => ?packets, fun s p n hr h hx => ?outside⟩
  case packets =>
    intro l heard after
    refine ⟨fun n hx => ?opens, fun n k hx => ?reopens, fun k hx => ?closes, fun k w hx hk => ?adds, fun k unit hx hu => ?marks,
      fun k hx => ⟨fun hg hseq => ?accepts, fun hbad => ?discards⟩⟩
    case opens => exact exec_good_outside hr h hx rfl rfl rfl
    case reopens =>
      refine exec_good_inside hr h hx rfl rfl ?_
      rw [Link.unitInside_of_closes rfl, Link.closeDamaged_eq]
      rfl
    case closes =>
      have hclosed : ∀ {i u}, linkRun i = some (p, fun l => l.receive u) → u.closes = true →
          exec i s = exec i { s with chip := { s.chip with links := s.chip.links.set p l.closeDamaged } } := fun hi hu =>
        exec_link_congr hr hi (Link.receive_closes h hx hu)
      have htrain : l.settled = true → exec (.trainReceivedInUp p) s =
          exec (.trainReceivedInUp p) { s with chip := { s.chip with links := s.chip.links.set p l.closeDamaged } } := fun hs =>
        exec_link_congr hr rfl (Link.receive_train_closes h hx hs)
      rw [Link.closeDamaged_eq] at hclosed htrain
      exact ⟨fun n => ⟨hclosed rfl rfl, hclosed rfl rfl, hclosed rfl rfl⟩, hclosed rfl rfl, htrain⟩
    case adds => exact exec_good_inside hr h hx rfl rfl (Link.unitInside_data k hk)
    case marks => exact exec_link_to hr rfl ((congrArg l.receive hu).trans (Link.receive_inside h hx nofun))
    case accepts => exact exec_good_inside hr h hx rfl rfl (Link.closePacket_accepts (k.good_iff.mpr hg) hseq)
    case discards =>
      have hdiscard : ¬ k.good = true ∨ k.seq ≠ l.expected := hbad.imp_left (mt k.good_iff.mp)
      exact exec_good_inside hr h hx rfl rfl ((Link.closePacket_discards (l := heard) hdiscard).trans (Link.closeDamaged_eq _))
  case outside =>
    intro l heard after
    refine ⟨exec_good_outside hr h hx rfl rfl ?credit, exec_good_outside hr h hx rfl rfl rfl⟩
    case credit =>
      show (if n = 0 then heard else { heard with reports := l.reports ++ [.credit n.toNat] }) = _
      split <;> rfl

/-! ## Link down -/

/-- Settles O54: each framing fault and each expiry that is due ends in `Link.goDown`, and the others change nothing. -/
theorem linkGoesDown : Obligations.LinkGoesDown := by
  refine ⟨fun s p hr h => ?faults, fun s p hr h => ?replay⟩
  case faults =>
    intro l down
    refine ⟨fun w hx => ?data, fun k w hx hk => ?full, fun hx => ?stop, fun unit hx hu => ?damaged, fun t ht hdue => ?silent,
      fun hearly => ?heard⟩
    case data => exact exec_good_outside hr h hx rfl rfl rfl
    case full =>
      refine exec_good_inside hr h hx rfl rfl ((Link.unitInside_data_full k hk).trans ?_)
      rw [Link.closeDamaged_eq]
      rfl
    case stop => exact exec_good_outside hr h hx rfl rfl rfl
    case damaged => exact exec_link_to hr rfl ((congrArg l.receive hu).trans (Link.receive_outside h hx nofun))
    case silent => exact exec_link_to hr rfl (Link.expireSilence_due h ht hdue)
    case heard => exact exec_link_same hr rfl (Link.expireSilence_early h hearly)
  case replay =>
    intro l
    refine ⟨fun t ht hdue => ⟨fun hcount => ?below, fun hcount => ?limit⟩, fun hearly => ?early⟩
    case below => exact exec_link_to hr rfl ((Link.expireReplay_due h ht hdue).trans (Link.callReplay_below hcount 0))
    case limit => exact exec_link_to hr rfl ((Link.expireReplay_due h ht hdue).trans (Link.callReplay_limit hcount 0))
    case early => exact exec_link_same hr rfl (Link.expireReplay_early h hearly)

/-! ## The settled mark -/

/-- Settles O55: a TRAIN by the settled mark and the open packet; any other good unit by the mark it sets. -/
theorem trainInUp : Obligations.TrainInUp := by
  intro s p hr h l
  refine ⟨fun hs => ?ignored, fun hs => ?down, fun i t hi => ?settles⟩
  case ignored => exact exec_link_same hr rfl (Link.receive_unsettled_train h hs)
  case down =>
    refine exec_link_to hr rfl ?_
    cases hx : l.rx with
    | none =>
      rw [Link.receive_train_outside h hs hx, Option.isSome_none, Bool.or_false]
      rfl
    | some k =>
      rw [Link.receive_train_inside h hs hx, Link.closeDamaged_eq, Option.isSome_some, Bool.or_true]
      rfl
  case settles =>
    have hgood : ∃ u, linkRun i = some (p, fun l => l.receive u) ∧ u.settles = true := by
      rcases hi with ⟨n, rfl | rfl | rfl | rfl⟩ | ⟨w, rfl⟩ | rfl | rfl <;> exact ⟨_, rfl, rfl⟩
    obtain ⟨u, hrun, hu⟩ := hgood
    refine ⟨exec_link_congr hr hrun (Link.receive_as_settled h hu), fun hnext => ?_⟩
    rw [link_of_exec_link hr hrun hnext]
    exact Link.receive_settles h hu

/-! ## The replay buffer -/

/-- Settles O56: the acknowledgement by the position of the sent entry it names, and by the replay count where it calls for a replay. The
statement's `drop k` is `Link.acknowledge` of `k` entries. -/
theorem acknowledgementsEmptyReplayBuffer : Obligations.AcknowledgementsEmptyReplayBuffer := by
  intro s p n hr h hx l heard after drop
  have hack : ∀ {m : Link}, heard.takeAck n = m → exec (.ackReceived p n) s = after m := fun hm =>
    exec_good_outside hr h hx rfl rfl hm
  have hnak : ∀ {m : Link}, heard.takeNak n = m → exec (.nakReceived p n) s = after m := fun hm =>
    exec_good_outside hr h hx rfl rfl hm
  refine ⟨fun older e newer hl hn he hfirst => ?named, fun hnone => ?other⟩
  case named =>
    have hat : heard.sentAt n = some older.length := Link.sentAt_first (l := heard) hl hn he hfirst
    refine ⟨hack (Link.takeAck_sent hat), fun hptr => hnak (Link.takeNak_unsent hat hptr), fun hptr hcount => ?below,
      fun hptr hcount => ?limit⟩
    case below => exact hnak ((Link.takeNak_sent hat hptr).trans (Link.callReplay_below hcount 0))
    case limit =>
      have hreports : (drop older.length).reports = l.reports := heard.acknowledge_reports older.length
      rw [← hreports]
      exact hnak ((Link.takeNak_sent hat hptr).trans (Link.callReplay_limit hcount 0))
  case other =>
    have hat : heard.sentAt n = none := Link.sentAt_none (l := heard) hnone
    exact ⟨hack (Link.takeAck_other hat), fun hn => hnak (Link.takeNak_next hat hn), fun hn => hnak (Link.takeNak_other hat hn)⟩

end Sys2Proof.Machine
end

section
/-! The queue of commands: a step with a command at its front (O1, log 1). -/

namespace Sys2Proof.Machine

/-- A step on a queue that is not empty: `step_empty` is the other case. -/
theorem step_front {s : State} {i : Instr} {rest : List Instr} (h : s.pending = i :: rest) : step s = exec i ⟨rest, s.chip⟩ := by
  simp only [step, h]

/-- Settles O1: the state whose queue is written out has the command at its front. -/
theorem stepRunsFront : Obligations.StepRunsFront := by
  intro i rest chip
  exact step_front (s := ⟨i :: rest, chip⟩) rfl

end Sys2Proof.Machine
end
